-- ==== Sys2Proof/Word.lean ====
section
/-! DEFINITION. The byte, and the numbers of fine units in the larger units of exchange time (spec 00 section 5.1, R1). -/

namespace Sys2Proof

/-- A byte of any format the outside sees. -/
abbrev Byte := BitVec 8

/-- A format, a frame or a body: its bytes, the lowest offset first (00 section 5.6). -/
abbrev Bytes := List Byte

/-- Fine units in one nanosecond (00 section 5.1). -/
abbrev fineNs : Nat := 256

/-- Fine units in one millisecond. -/
abbrev fineMs : Nat := 256000000

/-- Fine units in one second. -/
abbrev fineSec : Nat := 256000000000

/-- The largest time count (R1). -/
abbrev maxTime : Nat := 281474976710656 * fineSec - 1

/-- The largest value of a 32-bit count, and of the divergence bound (00 section 5.2, R28, R83). -/
abbrev max32 : Nat := 4294967295

/-- The largest Tn, in milliseconds (R18). -/
abbrev maxTn : Nat := 281474976710655 * 1000 + 999

end Sys2Proof
end

