-- ==== Sys2Proof/Syntax.lean ====
section
/-! DEFINITION. The commands and events of the station: one constructor per row of spec/opcode_table.json, with the operands the
outside brings. A Service Port command carries the bytes of its body (12 section 12.7). -/

namespace Sys2Proof

/-- The kind of a transfer that ends the work from a descriptor (R157, R163, R165, R166): the completion write-back, the stop write-back
in STOPPING, the read of the linked descriptor, and the FAULTED write-back of a fault. -/
inductive EndTransfer where
  | done | stop | read | faulted
  deriving DecidableEq, Repr

/-- What the card side of the Record Memory Port brings to a command that uses it (R156, log 10): the bytes the host has written
into card memory before the command's first transfer and before its descriptor read, which of the command's transfers card memory
answers with an error response, and which one it has not answered yet when the command's effect ends (log 40). -/
structure CardInput where
  /-- host writes into card memory before the first transfer of the command -/
  hostWrites : List (BitVec 64 × Byte)
  /-- host writes into card memory after a write-back of the command and before its descriptor read -/
  hostWritesLate : List (BitVec 64 × Byte)
  /-- the descriptor read is answered with an error (R157 outcome 1) -/
  readError : Bool
  /-- the completion or stop write-back is answered with an error (R165, R166) -/
  writeBackError : Bool
  /-- the FAULTED write-back is answered with an error (R157 outcome 3, R166) -/
  faultWriteError : Bool
  /-- the stop write-back that follows a completion within one EXPORT_STOP is answered with an error (R165) -/
  stopWriteError : Bool
  /-- the transfer at a descriptor's end that is still under way after RECORD_WRITE_ACK or RECORD_WRITE_ERROR (R156, R163; log 40) -/
  hold : Option EndTransfer
  deriving DecidableEq, Repr

/-- What is under way outside the registers at a moment at which a warm reset can be taken. -/
structure ResetCut where
  /-- card memory took the write that the reset cuts short (R167; log 27) -/
  cardTook : Bool
  /-- a label is being received (R57; log 39) -/
  labelUnderWay : Bool
  deriving DecidableEq, Repr

/-- The commands and events (spec/opcode_table.json). -/
inductive Instr where
  /-- POWER_ON_RESET (R171, R175): with the results its self-test finds, and whether card memory took a write cut short. -/
  | powerOnReset (evidenceFail randomFail cardTook : Bool)
  /-- RESET_LINE_EDGE (R182): `selected` says that chip select is asserted at the edge, so a transaction is in progress, and
  `cut` what the reset cuts short. -/
  | resetLineEdge (selected : Bool) (cut : ResetCut)
  /-- CHIP_SELECT_RELEASE (R169, R182): with what the warm reset, where one is taken, cuts short. -/
  | chipSelectRelease (cut : ResetCut)
  /-- UNKNOWN_COMMAND (R170): a command frame whose code names no command. -/
  | unknownCommand (code : Byte) (body : Bytes)
  /-- IDENTIFY (R177). -/
  | identify (body : Bytes)
  /-- LOAD_CONFIG (R173, R174). -/
  | loadConfig (body : Bytes)
  /-- START (R176). -/
  | start (body : Bytes)
  /-- SET_TIME (R78). -/
  | setTime (body : Bytes)
  /-- READ_STATUS (R178). -/
  | readStatus (body : Bytes)
  /-- READ_PEER (R45). -/
  | readPeer (body : Bytes)
  /-- ARM_AUCTION (R119, R120). -/
  | armAuction (body : Bytes)
  /-- CANCEL_AUCTION (R121). -/
  | cancelAuction (body : Bytes)
  /-- RELEASE_AUCTION (R123). -/
  | releaseAuction (body : Bytes)
  /-- READ_AUCTION (R124). -/
  | readAuction (body : Bytes)
  /-- FENCE (R149). -/
  | fence (body : Bytes)
  /-- CHECKPOINT (R148). -/
  | checkpoint (body : Bytes)
  /-- EXPORT_START (R158). -/
  | exportStart (body : Bytes) (card : CardInput)
  /-- EXPORT_RESUME (R164). -/
  | exportResume (body : Bytes) (card : CardInput)
  /-- EXPORT_STOP (R165). -/
  | exportStop (body : Bytes) (card : CardInput)
  /-- READ_NOTICES (R181). -/
  | readNotices (body : Bytes)
  /-- CLEAR_NOTICES (R181). -/
  | clearNotices (body : Bytes)
  /-- WARM_RESET (R182). -/
  | warmReset (body : Bytes)
  /-- BEACON_INSTANT (R20). -/
  | beaconInstant
  /-- SEGMENT_IDLE (R15). -/
  | segmentIdle
  /-- ACCESS_WAIT_COMPLETE (R15, R19, R20, R21). -/
  | accessWaitComplete
  /-- FRAME_SENT (R22, R15). -/
  | frameSent
  /-- FRAME_ARRIVAL (R21, R14). -/
  | frameArrival
  /-- FRAME_RECEIVED (R24): the bytes between the markers, and whether the line damaged the frame (R14: it fell quiet before the end
  marker, or another frame overlapped it). -/
  | frameReceived (bytes : Bytes) (damaged : Bool)
  /-- LABEL_RECEIVED (R48): the bytes of the label as they arrived. -/
  | labelReceived (bytes : Bytes)
  /-- EDGE (R49 to R51). -/
  | edge
  /-- EDGE_TIMEOUT (R52). -/
  | edgeTimeout
  /-- STEERING_INSTANT (R58). -/
  | steeringInstant
  /-- REQUEST_ARRIVAL (R95): the 8 bytes of the request as they arrive, field by field (12 section 12.2). -/
  | requestArrival (kind line : Byte) (group : Vector Byte 2) (tag : Vector Byte 4)
  /-- STAMP_EVENT (R96, R97, R100). -/
  | stampEvent
  /-- RESPONSE_TAKEN (R96). -/
  | responseTaken
  /-- CAPTURE_EDGE (R98). -/
  | captureEdge (line : Fin 4)
  /-- DRAW_INSTANT (R125). -/
  | drawInstant (slot : Fin 32)
  /-- TALLY_INSTANT (R127). -/
  | tallyInstant (slot : Fin 32)
  /-- FIX_INSTANT (R129, R130). -/
  | fixInstant (slot : Fin 32)
  /-- CLOSE_INSTANT (R131, R132). -/
  | closeInstant (slot : Fin 32)
  /-- RECORD_WRITE_ACK (R160 to R163): card memory acknowledges the record write under way, or the transfer at a descriptor's end that
  is under way (log 40). -/
  | recordWriteAck (card : CardInput)
  /-- RECORD_WRITE_ERROR (R166): an error response to the transfer under way; `cardTook` says that card memory took the record although it answered with an error. -/
  | recordWriteError (card : CardInput) (cardTook : Bool)
  deriving DecidableEq, Repr

end Sys2Proof
end

