-- ==== Sys2Proof/Decode.lean ====
section
/-! DEFINITION. The command frame of 12 section 12.7 read and written, and the table words the host asks about: spec/opcode_table.json
gives no row any bits (log 34). -/

namespace Sys2Proof

/-- The command a code of 12 section 12.7 names, with its body; the codes that name none are UNKNOWN_COMMAND (R170 check 1). -/
def commandOf (code : Byte) (card : CardInput) (body : Bytes) : Instr :=
  match code.toNat with
  | 1 => .identify body
  | 2 => .loadConfig body
  | 3 => .start body
  | 4 => .setTime body
  | 5 => .readStatus body
  | 6 => .readPeer body
  | 7 => .armAuction body
  | 8 => .cancelAuction body
  | 9 => .releaseAuction body
  | 10 => .readAuction body
  | 11 => .fence body
  | 12 => .checkpoint body
  | 13 => .exportStart body card
  | 14 => .exportResume body card
  | 15 => .exportStop body card
  | 16 => .readNotices body
  | 17 => .clearNotices body
  | 18 => .warmReset body
  | _ => .unknownCommand code body

/-- The code and body a Service Port command carries; absent for an event. -/
def commandParts : Instr → Option (Byte × Bytes)
  | .unknownCommand code body => some (code, body)
  | .identify body => some (1, body)
  | .loadConfig body => some (2, body)
  | .start body => some (3, body)
  | .setTime body => some (4, body)
  | .readStatus body => some (5, body)
  | .readPeer body => some (6, body)
  | .armAuction body => some (7, body)
  | .cancelAuction body => some (8, body)
  | .releaseAuction body => some (9, body)
  | .readAuction body => some (10, body)
  | .fence body => some (11, body)
  | .checkpoint body => some (12, body)
  | .exportStart body _ => some (13, body)
  | .exportResume body _ => some (14, body)
  | .exportStop body _ => some (15, body)
  | .readNotices body => some (16, body)
  | .clearNotices body => some (17, body)
  | .warmReset body => some (18, body)
  | .powerOnReset _ _ _ => none
  | .resetLineEdge _ _ => none
  | .chipSelectRelease _ => none
  | .beaconInstant => none
  | .segmentIdle => none
  | .accessWaitComplete => none
  | .frameSent => none
  | .frameArrival => none
  | .frameReceived _ _ => none
  | .labelReceived _ => none
  | .edge => none
  | .edgeTimeout => none
  | .steeringInstant => none
  | .requestArrival _ _ _ _ => none
  | .stampEvent => none
  | .responseTaken => none
  | .captureEdge _ => none
  | .drawInstant _ => none
  | .tallyInstant _ => none
  | .fixInstant _ => none
  | .closeInstant _ => none
  | .recordWriteAck _ => none
  | .recordWriteError _ _ => none

/-- The bytes of a command frame: code, length of the body low byte first, body (12 section 12.7). -/
def commandFrame (code : Byte) (body : Bytes) : Bytes :=
  code :: BitVec.ofNat 8 body.length :: BitVec.ofNat 8 (body.length / 256) :: body

/-- The command that the bytes shifted in from chip select on make received: the header and its whole body; what follows the body is
ignored, and a frame that is not whole is no command (R169). -/
def receivedCommand (card : CardInput) : Bytes → Option Instr
  | code :: lo :: hi :: rest =>
    let len := lo.toNat + 256 * hi.toNat
    if len ≤ rest.length then some (commandOf code card (rest.take len)) else none
  | _ => none

/-- The command a word of the opcode table spells: the table gives no row any bits, so none (log 34). -/
def decodeTableWord (_nbits _w : Nat) : Option Instr := none

end Sys2Proof
end

