-- ==== Sys2Proof/Config.lean ====
section
/-! DEFINITION. The free values: constants with no body, so that no proof can see what they are (log 6, 7, 8). -/

namespace Sys2Proof

/-- The share the random source yields at its n-th draw (R117: any 32-bit value). DESIGN CHOICE, log 6. -/
opaque Config.randomShare : Nat → BitVec 32

/-- The place of a source among candidates of equal offset (R62: in any order among themselves): the first argument counts the
instants, the second names the source. DESIGN CHOICE, log 7. -/
opaque Config.tieOrder : Nat → Nat → Nat

/-- How a signed amount that 8 bytes of two's complement cannot hold is written (R183 gives no layout for it). DESIGN CHOICE, log 8. -/
opaque Config.wideAmount : Int → BitVec 64

end Sys2Proof
end

