-- ==== Sys2Proof/Machine/State.lean ====
section
/-! DEFINITION. The state of the station, plain data, block by block (spec 00 section 3), and the state after power-on reset. -/

namespace Sys2Proof.Machine

/-- No command stops the station: every command of the spec is answered, and every event has its effect or none (log 35). Safe. -/
inductive Fault where
  deriving DecidableEq, Repr

/-- Why a command has no meaning. -/
inductive Refusal where
  /-- Raised by exec's arm of a command that has no meaning yet. Safe: nothing is claimed of it. -/
  | notModelled (mnemonic : String)
  deriving DecidableEq, Repr

/-! ### Named values (12 section 12.1) -/

/-- Station phase (R171). -/
inductive Phase where
  | config | run
  deriving DecidableEq, Repr

/-- Grade, and class of a source, highest first (06 section 6.1). -/
inductive Grade where
  | anchored | agreed | holdover | free
  deriving DecidableEq, Repr

/-- Steering state (05 section 5.4). -/
inductive SteerState where
  | cold | acquire | track | holdover
  deriving DecidableEq, Repr

/-- State of a peer record (03 section 3.1). -/
inductive PeerState where
  | absent | heard | paired | silent | excluded
  deriving DecidableEq, Repr

/-- Cause of a change of a peer record's state (R43). -/
inductive PeerCause where
  | heardFirst | pairingGained | pairingLost | returnedUnpaired | exclusion | readmission | silence | absence
  deriving DecidableEq, Repr

/-- Reference state (04 section 4.1). -/
inductive RefState where
  | absent | seeking | qualifying | valid | disputed
  deriving DecidableEq, Repr

/-- Cause of a change of the reference state (R56). -/
inductive RefCause where
  | runBegun | qualified | badEdge | edgeTimeout | dispute | agreement | reset
  deriving DecidableEq, Repr

/-- Verdict on an edge (R49). -/
inductive Verdict where
  | good | noLabel | unlocked | sequence | interval
  deriving DecidableEq, Repr

/-- Outcome kind of a steering instant (R64). -/
inductive OutcomeKind where
  | step | deferred | slew | none
  deriving DecidableEq, Repr

/-- Cause of a change of grade (R88). -/
inductive GradeCause where
  | combination | noCombination | referenceLost
  deriving DecidableEq, Repr

/-- Kind of a STEP record (R81). -/
inductive StepKind where
  | taken | deferred
  deriving DecidableEq, Repr

/-- Cause of a step (R81). -/
inductive StepCause where
  | combination | reference | setTime
  deriving DecidableEq, Repr

/-- State of an auction entry (08 section 8.2). -/
inductive EntryState where
  | free | held | armed | drawing | tallying | fixed | closed | void
  deriving DecidableEq, Repr

/-- Status settled at the fix (R129, R132). -/
inductive FixStatus where
  | agreed | adopted | split | late | noWindow
  deriving DecidableEq, Repr

/-- Why an entry is VOID (R122). -/
inductive VoidReason where
  | cancelled | predecessor | reset | behindFloor | range
  deriving DecidableEq, Repr

/-- Why a batch closed (R112). -/
inductive BatchCause where
  | count | cut | close | fence
  deriving DecidableEq, Repr

/-- Outcome of a stamp event without a stamp (R97), ISSUED apart. -/
inductive Refused where
  | notReady | noCapture | exhausted
  deriving DecidableEq, Repr

/-- Rounding indicator (R102). -/
inductive Rounding where
  | exact | down | up
  deriving DecidableEq, Repr

/-- Rounding mode (R102, R172 field 24). -/
inductive RoundMode where
  | truncate | nearest
  deriving DecidableEq, Repr

/-- Auction phase of a stamp (R104). -/
inductive StampPhase where
  | none | opened | window | closed
  deriving DecidableEq, Repr

/-- Engine state (10 section 10.2). -/
inductive EngineState where
  | stopped | running | waiting | stalled | stopping | fault
  deriving DecidableEq, Repr

/-- Descriptor state (R155). -/
inductive DescState where
  | empty | armed | spent | faulted
  deriving DecidableEq, Repr

/-- Descriptor mode (R155). -/
inductive DescMode where
  | single | run | block
  deriving DecidableEq, Repr

/-- Address control (R161). -/
inductive AddrControl where
  | fixed | increment | incrementRestart
  deriving DecidableEq, Repr

/-- Completion status (R155). -/
inductive CompletionStatus where
  | none | done | stopped | invalid | misaligned | memoryError
  deriving DecidableEq, Repr

/-- Command status (00 section 5.7). -/
inductive Status where
  | ok | refusedState | refusedRange | busy | locked | unknown
  deriving DecidableEq, Repr

/-- Notice kinds, in the order of their bits (R179, R183). -/
inductive Notice where
  | grade | step | peer | reference | idConflict | auctionFixed | auctionClosed | auctionVoid | disagree
  | captureOverflow | evidenceLoss | exportDone | exportHalt | fenceDone
  deriving DecidableEq, Repr

/-- Kinds of evidence record, in the order of their codes (12 section 12.4). -/
inductive RecordKind where
  | sync | batch | peer | reference | start | reset | grade | step | fix | close | void | checkpoint | fence | loss
  deriving DecidableEq, Repr

/-- Cause of a warm reset (R153). -/
inductive ResetCause where
  | line | command
  deriving DecidableEq, Repr

/-- Cause of a checkpoint (R146). -/
inductive CheckpointCause where
  | period | command
  deriving DecidableEq, Repr

/-- What became of the open batch at a FENCE (R149). -/
inductive FenceBatch where
  | none | numbered (n : Nat) | lost
  deriving DecidableEq, Repr

/-! ### Configuration (R172) -/

/-- One parameter bank (R69). -/
structure Bank where
  gp : Nat
  gi : Nat
  slewMax : Nat
  deriving DecidableEq, Repr

/-- The settings the blocks take at START (R172, R176); the batch size is held decoded, 0 as 65,536. -/
structure Settings where
  stationId : Nat
  membership : BitVec 16
  faults : Nat
  /-- P in milliseconds -/
  period : Nat
  /-- D_max in ns -/
  delayBound : Nat
  /-- D_x in ns -/
  disagreeLimit : Nat
  refFitted : Bool
  /-- U_ref in ns -/
  refBound : Nat
  /-- cable delay in ns -/
  cableDelay : Int
  stepThreshold : Nat
  lockThreshold : Nat
  unlockThreshold : Nat
  rateMax : Nat
  acquireBank : Bank
  trackBank : Bank
  /-- H in ppt -/
  drift : Nat
  limitA : Nat
  limitG : Nat
  /-- G in ns -/
  granularity : Nat
  rounding : RoundMode
  batchSize : Nat
  quorum : Nat
  checkpointMinutes : Nat
  tableBase : Nat
  enables : BitVec 14
  deriving DecidableEq, Repr

/-! ### Station Clock (chapter 01) -/

/-- The Station Clock (01 section 1.2); the residue counts 1/(2 × 10^12) of a fine unit (log 3). -/
structure Clock where
  running : Bool
  present : Nat
  residue : Nat
  rate : Int
  deriving DecidableEq, Repr

/-- A periodic series (R13): the member it waits for, and whether a member it reached has yet to be taken by its owner. -/
structure Series where
  next : Nat
  due : Bool
  deriving DecidableEq, Repr

/-! ### Peer Link (chapter 02) -/

/-- A receipt: a peer, the sequence of its latest beacon and that beacon's arrival time (R17, R23). -/
structure Receipt where
  peer : Nat
  seq : BitVec 16
  time : Nat
  deriving DecidableEq, Repr

/-- A BEACON's fields (R17). -/
structure Beacon where
  sender : Nat
  seq : BitVec 16
  t1 : Nat
  grade : Grade
  steer : SteerState
  bound : Nat
  receipts : List Receipt
  deriving DecidableEq, Repr

/-- A DRAW's fields (R18). -/
structure Draw where
  sender : Nat
  group : BitVec 16
  tn : Nat
  share : BitVec 32
  deriving DecidableEq, Repr

/-- A TALLY's fields (R18). -/
structure TallyFrame where
  sender : Nat
  group : BitVec 16
  tn : Nat
  members : BitVec 16
  offset : Nat
  deriving DecidableEq, Repr

/-- The three frame kinds (02 section 2.2). -/
inductive Frame where
  | beacon (b : Beacon)
  | draw (d : Draw)
  | tally (t : TallyFrame)
  deriving DecidableEq, Repr

/-- A waiting auction frame in its position (R19): its slot, whether it is the slot's TALLY, and the frame. -/
structure Waiting where
  slot : Fin 32
  isTally : Bool
  frame : Frame
  deriving DecidableEq, Repr

/-- Transmitter state (R15). -/
inductive Tx where
  | idle
  /-- DEFERRING; the oscillator count its idle measurement counts from -/
  | deferring (since : Nat)
  /-- SENDING; the frame that leaves -/
  | sending (f : Frame)
  deriving DecidableEq, Repr

/-- An entry of the beacon history (R22). -/
structure Sent where
  seq : BitVec 16
  time : Nat
  deriving DecidableEq, Repr

/-- A frame whose start marker has arrived (R21). -/
structure Incoming where
  time : Nat
  /-- another frame overlapped it on the segment (R14) -/
  overlapped : Bool
  /-- it is discarded without being checked or counted: it reached the station in CONFIG (R14), or a reset discarded it (R29) -/
  discarded : Bool
  deriving DecidableEq, Repr

/-- The Peer Link Interface (02, table at the head). -/
structure Link where
  tx : Tx
  pendingBeacon : Bool
  waiting : List Waiting
  nextSeq : BitVec 16
  history : List Sent
  receipts : List Receipt
  linkErrors : Nat
  foreign : Nat
  busy : Bool
  incoming : List Incoming
  series : Option Series
  deriving DecidableEq, Repr

/-! ### Peer Table (chapter 03) -/

/-- The latest accepted beacon of a peer (03 section 3.1). -/
structure LatestBeacon where
  seq : BitVec 16
  t1 : Nat
  t2 : Nat
  deriving DecidableEq, Repr

/-- A pairing (03 section 3.1). -/
structure Pairing where
  seq : BitVec 16
  t3 : Nat
  t4 : Nat
  deriving DecidableEq, Repr

/-- An estimate, in fine units (R33). -/
structure Estimate where
  theta : Int
  delay : Int
  deriving DecidableEq, Repr

/-- A record of the Peer Table (03 section 3.1). -/
structure Peer where
  id : Nat
  state : PeerState
  mark : Bool
  latest : Option LatestBeacon
  age : Nat
  grade : Grade
  bound : Nat
  steer : SteerState
  pairing : Option Pairing
  miss : Nat
  estimate : Option Estimate
  /-- estimate validity PRESENT -/
  valid : Bool
  disagree : Nat
  agree : Nat
  deriving DecidableEq, Repr

/-! ### Reference record (chapter 04) -/

/-- A pending label (R48). -/
structure RefLabel where
  second : Nat
  locked : Bool
  deriving DecidableEq, Repr

/-- The previous good edge (04 section 4.1). -/
structure PrevEdge where
  second : Nat
  osc : Nat
  deriving DecidableEq, Repr

/-- The reference record (04 section 4.1). -/
structure Reference where
  state : RefState
  run : Nat
  label : Option RefLabel
  prev : Option PrevEdge
  latestGood : Option Nat
  theta : Option Int
  verdict : Verdict
  disagree : Nat
  agree : Nat
  /-- a warm reset came while a label was being received, and that label is discarded when it ends (R57; log 39) -/
  cutLabel : Bool
  deriving DecidableEq, Repr

/-! ### Steering Unit (chapters 05, 06) -/

/-- The latest outcome (R64); `cstar` absent is c* NONE. -/
structure Latest where
  correction : Int
  spread : Int
  cstar : Option Grade
  candidates : Nat
  retained : Nat
  kind : OutcomeKind
  /-- the reference was among the retained sources (R62) -/
  refRetained : Bool
  deriving DecidableEq, Repr

/-- The Steering Unit (05, table at the head); `bound` is U. -/
structure Steering where
  state : SteerState
  rf : Int
  rp : Int
  holdover : Option Int
  incomplete : Bool
  rateLimit : Bool
  stepDeferred : Bool
  lockRun : Nat
  unlockRun : Nat
  bound : Nat
  grade : Grade
  latest : Option Latest
  series : Option Series
  deriving DecidableEq, Repr

/-! ### Stamp Unit (chapter 07) -/

/-- A stamp request, kind and line as received (R95). -/
structure Request where
  kind : Byte
  line : Byte
  group : BitVec 16
  tag : BitVec 32
  deriving DecidableEq, Repr

/-- An ISSUED stamp record (R106); the time is in whole ns. -/
structure Stamp where
  station : Nat
  seq : Nat
  time : Nat
  rounding : Rounding
  held : Bool
  gradeChanged : Bool
  overflow : Bool
  phase : StampPhase
  grade : Grade
  bound : Nat
  tag : BitVec 32
  deriving DecidableEq, Repr

/-- A response of the Order Port (R97, R106). -/
inductive StampResponse where
  | issued (st : Stamp)
  | refused (station : Nat) (why : Refused) (kind line : Byte) (tag : BitVec 32)
  deriving DecidableEq, Repr

/-- A non-empty open batch (R111). -/
structure Batch where
  first : Nat
  count : Nat
  held : Nat
  firstTime : Nat
  lastTime : Nat
  check : BitVec 32
  deriving DecidableEq, Repr

/-- The Stamp Unit (07, table at the head); a next sequence of `none` is EXHAUSTED. -/
structure StampUnit where
  requests : List Request
  responses : List StampResponse
  captures : Vector (List Nat) 4
  overflow : Vector Bool 4
  nextSeq : Option Nat
  floor : Nat
  floorSeq : Option Nat
  batch : Option Batch
  gradeMark : Bool
  deriving DecidableEq, Repr

/-! ### Auction Table (chapter 08) -/

/-- A held tally (R128). -/
inductive Tally where
  | tally (members : BitVec 16) (offset : Nat)
  | dropped
  deriving DecidableEq, Repr

/-- An entry of the Auction Table (08 section 8.1); its slot is its place. -/
structure Entry where
  state : EntryState
  group : BitVec 16
  tn : Option Nat
  window : Nat
  leadL : Nat
  leadS : Nat
  leadE : Nat
  quorum : Nat
  link : Option (Fin 32)
  linkDelay : Nat
  pred : Option (Fin 32)
  drawn : Bool
  ownShare : Option (BitVec 32)
  /-- received shares, by rising peer id -/
  shares : List (Nat × BitVec 32)
  conflicts : BitVec 16
  members : BitVec 16
  /-- tallies, by rising station id -/
  tallies : List (Nat × Tally)
  late : Nat
  offset : Option Nat
  status : Option FixStatus
  agreeing : Nat
  tc : Option Nat
  cut : Option Nat
  reason : Option VoidReason
  deriving DecidableEq, Repr

/-! ### Evidence (chapter 09) -/

/-- SYNC body (R80). -/
structure SyncBody where
  latest : Latest
  state : SteerState
  incomplete : Bool
  rateLimit : Bool
  stepDeferred : Bool
  rf : Int
  rp : Int
  deriving DecidableEq, Repr

/-- PEER body of event kind STATE (R43). -/
structure PeerBody where
  id : Nat
  old : PeerState
  new : PeerState
  cause : PeerCause
  estimate : Option Estimate
  valid : Bool
  disagree : Nat
  agree : Nat
  miss : Nat
  seq : BitVec 16
  grade : Grade
  deriving DecidableEq, Repr

/-- REFERENCE body (R56). -/
structure RefBody where
  old : RefState
  new : RefState
  cause : RefCause
  verdict : Verdict
  theta : Option Int
  latestGood : Option Nat
  run : Nat
  disagree : Nat
  agree : Nat
  deriving DecidableEq, Repr

/-- RESET body (R153). -/
structure ResetBody where
  cause : ResetCause
  requests : Nat
  responses : Nat
  captures : Nat
  fence : Option Nat
  engine : EngineState
  deriving DecidableEq, Repr

/-- GRADE body (R88). -/
structure GradeBody where
  old : Grade
  new : Grade
  cause : GradeCause
  bound : Nat
  cstar : Option Grade
  retained : Nat
  candidates : Nat
  refRetained : Bool
  ref : RefState
  steer : SteerState
  deriving DecidableEq, Repr

/-- STEP body (R81). -/
structure StepBody where
  kind : StepKind
  cause : StepCause
  before : SteerState
  after : SteerState
  requested : Int
  applied : Int
  timeBefore : Nat
  timeAfter : Nat
  deriving DecidableEq, Repr

/-- FIX body (R135). -/
structure FixBody where
  slot : Fin 32
  group : BitVec 16
  tn : Nat
  window : Nat
  offset : Nat
  status : FixStatus
  members : BitVec 16
  agreeing : Nat
  counted : Nat
  drawn : Bool
  share : BitVec 32
  conflicts : BitVec 16
  grade : Grade
  bound : Nat
  deriving DecidableEq, Repr

/-- CLOSE body (R135). -/
structure CloseBody where
  slot : Fin 32
  group : BitVec 16
  tc : Nat
  cut : Option Nat
  late : Nat
  grade : Grade
  bound : Nat
  deriving DecidableEq, Repr

/-- VOID body (R135). -/
structure VoidBody where
  slot : Fin 32
  group : BitVec 16
  tn : Option Nat
  before : EntryState
  reason : VoidReason
  /-- offset and Tc, if settled -/
  settled : Option (Nat × Nat)
  late : Nat
  deriving DecidableEq, Repr

/-- CHECKPOINT body (R146). -/
structure CheckpointBody where
  cause : CheckpointCause
  state : SteerState
  rf : Int
  rp : Int
  holdover : Option Int
  nextSeq : Option Nat
  paired : BitVec 16
  excluded : BitVec 16
  ref : RefState
  entries : List Nat
  held : Nat
  deriving DecidableEq, Repr

/-- The bodies of the evidence records (12 section 12.4). -/
inductive Body where
  | sync (b : SyncBody)
  /-- BATCH (R112) -/
  | batch (b : Batch) (check : BitVec 32) (cause : BatchCause)
  | peer (b : PeerBody)
  /-- PEER of event kind ID_CONFLICT (R44) -/
  | idConflict (own : Nat) (seq : BitVec 16) (t1 arrival : Nat)
  | reference (b : RefBody)
  /-- START (R139) -/
  | start (check : BitVec 32) (station : Nat) (membership : BitVec 16) (evidenceFail randomFail : Bool)
  | reset (b : ResetBody)
  | grade (b : GradeBody)
  | step (b : StepBody)
  | fix (b : FixBody)
  | close (b : CloseBody)
  | void (b : VoidBody)
  | checkpoint (b : CheckpointBody)
  /-- FENCE (R149) -/
  | fence (token : BitVec 32) (nextSeq : Option Nat) (batch : FenceBatch)
  /-- LOSS (R145) -/
  | loss (counts : Vector Nat 11) (range : Option (Nat × Nat))
  deriving DecidableEq, Repr

/-- A numbered and chained evidence record (R138, R141). -/
structure Record where
  number : Nat
  grade : Grade
  bound : Nat
  time : Nat
  body : Body
  check : BitVec 32
  deriving DecidableEq, Repr

/-- The Evidence Unit (09, table at the head). -/
structure Evidence where
  queue : List Record
  nextNumber : Nat
  chain : BitVec 32
  /-- the loss counts, in the order of R144 -/
  losses : Vector Nat 11
  /-- the lost sequence range, low and high -/
  lostRange : Option (Nat × Nat)
  fence : Option Nat
  boundary : Option Nat
  deriving DecidableEq, Repr

/-! ### Export Engine (chapter 10) -/

/-- The engine's copy of a usable descriptor (R155); count and block length are held decoded. -/
structure Descriptor where
  mode : DescMode
  control : AddrControl
  linkEnable : Bool
  noticeOnDone : Bool
  linkIndex : Nat
  blockLength : Nat
  position : Nat
  count : Nat
  base : Nat
  current : Nat
  last : Nat
  deriving DecidableEq, Repr

/-- A transfer at the end of a descriptor's work that is under way (R156, R163, R165, R166): the completion write-back and the stop
write-back of the copy, the read of the linked descriptor, and the FAULTED write-back, with its bytes and the status of the fault. -/
inductive EngineTransfer where
  | done | stop | read
  | faulted (bytes : Bytes) (status : CompletionStatus)
  deriving DecidableEq, Repr

/-- The Export Engine (10 section 10.2). -/
structure Engine where
  state : EngineState
  index : Option Nat
  copy : Option Descriptor
  lastStatus : CompletionStatus
  /-- the transfer at the end of the copy's descriptor that is under way in RUNNING or STOPPING, absent while it is a record write (R156,
  R163; log 40) -/
  transfer : Option EngineTransfer
  deriving DecidableEq, Repr

/-! ### Service Port Controller (chapter 11) -/

/-- A response (11 section 11.1). -/
structure Response where
  status : Status
  body : Bytes
  deriving DecidableEq, Repr

/-- The transaction (11, table at the head). -/
inductive Transaction where
  /-- none in progress, or its command not yet received -/
  | absent
  /-- its command is executed; whether it was an accepted WARM_RESET (R182) -/
  | executed (r : Response) (resetOrdered : Bool)
  /-- a warm reset abandoned it: fill bytes until chip select is released; whether it carried an accepted WARM_RESET (R182) -/
  | abandoned (resetOrdered : Bool)
  deriving DecidableEq, Repr

/-- The self-test word (R175). -/
structure SelfTest where
  evidenceFail : Bool
  randomFail : Bool
  deriving DecidableEq, Repr

/-- The Service Port Controller (11, table at the head), the phase apart. -/
structure Port where
  loaded : Option Bytes
  flags : BitVec 14
  enables : BitVec 14
  selfTest : SelfTest
  transaction : Transaction
  deriving DecidableEq, Repr

/-! ### The whole station -/

/-- The station, its queue of waiting commands, and card memory as the Record Memory Port reaches it. -/
structure State where
  pending : List Instr
  osc : Nat
  fresh : Nat
  phase : Phase
  cfg : Settings
  port : Port
  clock : Clock
  link : Link
  peers : List Peer
  ref : Reference
  steer : Steering
  stamp : StampUnit
  entries : Vector Entry 32
  evid : Evidence
  engine : Engine
  card : List Host.Cell
  deriving DecidableEq, Repr

/-! ### Power-on values -/

/-- No settings are taken before START (R171, R176; log 12). -/
def Settings.unset : Settings where
  stationId := 0
  membership := 0
  faults := 0
  period := 0
  delayBound := 0
  disagreeLimit := 0
  refFitted := false
  refBound := 0
  cableDelay := 0
  stepThreshold := 0
  lockThreshold := 0
  unlockThreshold := 0
  rateMax := 0
  acquireBank := ⟨0, 0, 0⟩
  trackBank := ⟨0, 0, 0⟩
  drift := 0
  limitA := 0
  limitG := 0
  granularity := 0
  rounding := .truncate
  batchSize := 0
  quorum := 0
  checkpointMinutes := 0
  tableBase := 0
  enables := 0

/-- Service Port Controller after power-on reset (11, table at the head), for the results its self-test finds. -/
def Port.powerOn (t : SelfTest) : Port where
  loaded := none
  flags := 0
  enables := 0
  selfTest := t
  transaction := .absent

/-- Station Clock after power-on reset (R3). -/
def Clock.powerOn : Clock where
  running := false
  present := 0
  residue := 0
  rate := 0

/-- Peer Link Interface after power-on reset (02, table at the head). -/
def Link.powerOn : Link where
  tx := .idle
  pendingBeacon := false
  waiting := []
  nextSeq := 0
  history := []
  receipts := []
  linkErrors := 0
  foreign := 0
  busy := false
  incoming := []
  series := none

/-- Reference record after power-on reset (R47). -/
def Reference.powerOn : Reference where
  state := .seeking
  run := 0
  label := none
  prev := none
  latestGood := none
  theta := none
  verdict := .good
  disagree := 0
  agree := 0
  cutLabel := false

/-- Steering Unit after power-on reset (R59, R83). -/
def Steering.powerOn : Steering where
  state := .cold
  rf := 0
  rp := 0
  holdover := none
  incomplete := false
  rateLimit := false
  stepDeferred := false
  lockRun := 0
  unlockRun := 0
  bound := max32
  grade := .free
  latest := none
  series := none

/-- Stamp Unit after power-on reset (R113). -/
def StampUnit.powerOn : StampUnit where
  requests := []
  responses := []
  captures := Vector.replicate 4 []
  overflow := Vector.replicate 4 false
  nextSeq := some 1
  floor := 0
  floorSeq := some 1
  batch := none
  gradeMark := false

/-- A FREE entry (R116). -/
def Entry.freed : Entry where
  state := .free
  group := 0
  tn := none
  window := 0
  leadL := 0
  leadS := 0
  leadE := 0
  quorum := 0
  link := none
  linkDelay := 0
  pred := none
  drawn := false
  ownShare := none
  shares := []
  conflicts := 0
  members := 0
  tallies := []
  late := 0
  offset := none
  status := none
  agreeing := 0
  tc := none
  cut := none
  reason := none

/-- Evidence Unit after power-on reset (R151). -/
def Evidence.powerOn : Evidence where
  queue := []
  nextNumber := 1
  chain := 0
  losses := Vector.replicate 11 0
  lostRange := none
  fence := none
  boundary := none

/-- Export Engine after power-on reset (R156). -/
def Engine.powerOn : Engine where
  state := .stopped
  index := none
  copy := none
  lastStatus := .none
  transfer := none

/-- The station after power-on reset (R171), its self-test passed (log 11), nothing waiting, and nothing written in card memory. -/
def State.reset : State where
  pending := []
  osc := 0
  fresh := 0
  phase := .config
  cfg := Settings.unset
  port := Port.powerOn ⟨false, false⟩
  clock := Clock.powerOn
  link := Link.powerOn
  peers := []
  ref := Reference.powerOn
  steer := Steering.powerOn
  stamp := StampUnit.powerOn
  entries := Vector.replicate 32 Entry.freed
  evid := Evidence.powerOn
  engine := Engine.powerOn
  card := []

end Sys2Proof.Machine
end

