-- ==== Sys2Proof/Machine/Layout.lean ====
section
/-! DEFINITION. The common encodings and the codes of R183, and the CRC-32C of R16. -/

namespace Sys2Proof.Machine

/-! ### Whole numbers, times, amounts (R183) -/

/-- `v` in `n` bytes, little-endian (00 section 5.6). -/
def le : Nat → Nat → Bytes
  | 0, _ => []
  | n + 1, v => BitVec.ofNat 8 v :: le n (v / 256)

/-- The number a little-endian field holds. -/
def leNat : Bytes → Nat
  | [] => 0
  | b :: bs => b.toNat + 256 * leNat bs

/-- A signed number in `n` bytes of two's complement. -/
def leInt (n : Nat) (v : Int) : Bytes := le n (v % (256 ^ n : Nat)).toNat

/-- The number in the `len` bytes from offset `off`. -/
def field (off len : Nat) (bs : Bytes) : Nat := leNat ((bs.drop off).take len)

/-- The signed 4-byte number from offset `off`. -/
def fieldInt4 (off : Nat) (bs : Bytes) : Int := (BitVec.ofNat 32 (field off 4 bs)).toInt

/-- A time field, 11 bytes: seconds, nanoseconds, fine units. -/
def timeBytes (t : Nat) : Bytes := le 6 (t / fineSec) ++ le 4 (t / fineNs % 1000000000) ++ le 1 (t % fineNs)

/-- A stamp time of whole nanoseconds, 10 bytes. -/
def stampTimeBytes (ns : Nat) : Bytes := le 6 (ns / 1000000000) ++ le 4 (ns % 1000000000)

/-- The seconds, nanoseconds and fine units of the time field from offset `off`, as a time count (R1). -/
def fieldTime (off : Nat) (bs : Bytes) : Nat :=
  (field off 6 bs * 1000000000 + field (off + 6) 4 bs) * 256 + field (off + 10) 1 bs

/-- The nanosecond part of the time field from offset `off`. -/
def fieldNanos (off : Nat) (bs : Bytes) : Nat := field (off + 6) 4 bs

/-- A signed amount, 8 bytes of two's complement in fine units; one that 8 bytes cannot hold is a free value (log 8). -/
def amountBytes (a : Int) : Bytes :=
  if -9223372036854775808 ≤ a ∧ a < 9223372036854775808 then leInt 8 a else le 8 (Config.wideAmount a).toNat

/-- A flag or a yes-or-no item, one byte. -/
def flagNat (b : Bool) : Nat := if b then 1 else 0

/-- A flag or a yes-or-no item, one byte. -/
def flagBytes (b : Bool) : Bytes := le 1 (flagNat b)

/-- A field of `width` bytes that may be absent: its presence byte, then the value or zero. -/
def optBytes {α : Type} (width : Nat) (f : α → Bytes) : Option α → Bytes
  | none => 0 :: List.replicate width 0
  | some a => 1 :: f a

/-- A station set, 2 bytes. -/
def setBytes (m : BitVec 16) : Bytes := le 2 m.toNat

/-- `bs` filled with zero bytes to `n`. -/
def padTo (n : Nat) (bs : Bytes) : Bytes := bs ++ List.replicate (n - bs.length) 0

/-- Station `i` is in the set. -/
def inSet (i : Nat) (m : BitVec 16) : Bool := decide (i < 16) && m.getLsbD i

/-- The set with station `i` added. -/
def addTo (i : Nat) (m : BitVec 16) : BitVec 16 := m ||| BitVec.twoPow 16 i

/-- The number of stations in a set. -/
def setSize (m : BitVec 16) : Nat := (List.range 16).countP (fun i => m.getLsbD i)

/-! ### CRC-32C (R16) -/

/-- One bit of the reflected check; 0x82F63B78 is the polynomial 0x1EDC6F41 with its bits in reverse. -/
def crcBit (c : BitVec 32) : BitVec 32 :=
  if c.getLsbD 0 then (c >>> 1) ^^^ 0x82F63B78#32 else c >>> 1

/-- One byte of the running check. -/
def crcByte (c : BitVec 32) (b : Byte) : BitVec 32 :=
  crcBit (crcBit (crcBit (crcBit (crcBit (crcBit (crcBit (crcBit (c ^^^ b.setWidth 32))))))))

/-- The running check after more bytes (R111). -/
def crcMore (c : BitVec 32) (bs : Bytes) : BitVec 32 := bs.foldl crcByte c

/-- The initial value of the check. -/
def crcInit : BitVec 32 := 0xFFFFFFFF#32

/-- The final exclusive-or of the check. -/
def crcFinal (c : BitVec 32) : BitVec 32 := c ^^^ 0xFFFFFFFF#32

/-- CRC-32C of a run of bytes. -/
def crc32c (bs : Bytes) : BitVec 32 := crcFinal (crcMore crcInit bs)

/-! ### Codes (12 section 12.1) -/

def Phase.code : Phase → Nat
  | .config => 0 | .run => 1

def Grade.code : Grade → Nat
  | .anchored => 0 | .agreed => 1 | .holdover => 2 | .free => 3

def Grade.ofCode : Nat → Option Grade
  | 0 => some .anchored | 1 => some .agreed | 2 => some .holdover | 3 => some .free | _ => none

/-- The code of c*, 255 for NONE. -/
def cstarCode : Option Grade → Nat
  | none => 255
  | some g => g.code

def SteerState.code : SteerState → Nat
  | .cold => 0 | .acquire => 1 | .track => 2 | .holdover => 3

def SteerState.ofCode : Nat → Option SteerState
  | 0 => some .cold | 1 => some .acquire | 2 => some .track | 3 => some .holdover | _ => none

/-- The code of the active bank (R69): NONE in COLD and HOLDOVER. -/
def SteerState.bankCode : SteerState → Nat
  | .acquire => 1 | .track => 2 | .cold => 0 | .holdover => 0

def PeerState.code : PeerState → Nat
  | .absent => 0 | .heard => 1 | .paired => 2 | .silent => 3 | .excluded => 4

def PeerCause.code : PeerCause → Nat
  | .heardFirst => 0 | .pairingGained => 1 | .pairingLost => 2 | .returnedUnpaired => 3 | .exclusion => 4
  | .readmission => 5 | .silence => 6 | .absence => 7

def RefState.code : RefState → Nat
  | .absent => 0 | .seeking => 1 | .qualifying => 2 | .valid => 3 | .disputed => 4

def RefCause.code : RefCause → Nat
  | .runBegun => 0 | .qualified => 1 | .badEdge => 2 | .edgeTimeout => 3 | .dispute => 4 | .agreement => 5 | .reset => 6

def Verdict.code : Verdict → Nat
  | .good => 0 | .noLabel => 1 | .unlocked => 2 | .sequence => 3 | .interval => 4

def OutcomeKind.code : OutcomeKind → Nat
  | .step => 0 | .deferred => 1 | .slew => 2 | .none => 3

def GradeCause.code : GradeCause → Nat
  | .combination => 0 | .noCombination => 1 | .referenceLost => 2

def StepKind.code : StepKind → Nat
  | .taken => 0 | .deferred => 1

def StepCause.code : StepCause → Nat
  | .combination => 0 | .reference => 1 | .setTime => 2

def EntryState.code : EntryState → Nat
  | .free => 0 | .held => 1 | .armed => 2 | .drawing => 3 | .tallying => 4 | .fixed => 5 | .closed => 6 | .void => 7

def FixStatus.code : FixStatus → Nat
  | .agreed => 0 | .adopted => 1 | .split => 2 | .late => 3 | .noWindow => 4

def VoidReason.code : VoidReason → Nat
  | .cancelled => 0 | .predecessor => 1 | .reset => 2 | .behindFloor => 3 | .range => 4

def BatchCause.code : BatchCause → Nat
  | .count => 0 | .cut => 1 | .close => 2 | .fence => 3

/-- Stamp outcome codes; ISSUED is 0. -/
def Refused.code : Refused → Nat
  | .notReady => 1 | .noCapture => 2 | .exhausted => 3

def Rounding.code : Rounding → Nat
  | .exact => 0 | .down => 1 | .up => 2

def StampPhase.code : StampPhase → Nat
  | .none => 0 | .opened => 1 | .window => 2 | .closed => 3

def EngineState.code : EngineState → Nat
  | .stopped => 0 | .running => 1 | .waiting => 2 | .stalled => 3 | .stopping => 4 | .fault => 5

def DescState.code : DescState → Nat
  | .empty => 0 | .armed => 1 | .spent => 2 | .faulted => 3

def DescMode.code : DescMode → Nat
  | .single => 0 | .run => 1 | .block => 2

def DescMode.ofCode : Nat → Option DescMode
  | 0 => some .single | 1 => some .run | 2 => some .block | _ => none

def AddrControl.code : AddrControl → Nat
  | .fixed => 0 | .increment => 1 | .incrementRestart => 2

def AddrControl.ofCode : Nat → Option AddrControl
  | 0 => some .fixed | 1 => some .increment | 2 => some .incrementRestart | _ => none

def CompletionStatus.code : CompletionStatus → Nat
  | .none => 0 | .done => 1 | .stopped => 2 | .invalid => 3 | .misaligned => 4 | .memoryError => 5

def Status.code : Status → Nat
  | .ok => 0 | .refusedState => 1 | .refusedRange => 2 | .busy => 3 | .locked => 4 | .unknown => 5

def RecordKind.code : RecordKind → Nat
  | .sync => 0 | .batch => 1 | .peer => 2 | .reference => 3 | .start => 4 | .reset => 5 | .grade => 6 | .step => 7
  | .fix => 8 | .close => 9 | .void => 10 | .checkpoint => 11 | .fence => 12 | .loss => 13

/-- A sequence that may be EXHAUSTED: 0 for EXHAUSTED (R183). -/
def seqNat (n : Option Nat) : Nat := n.getD 0

/-- The self-test word: bit 0 evidence memory FAIL, bit 1 random source FAIL (12 section 12.4, START). -/
def SelfTest.word (t : SelfTest) : Nat := flagNat t.evidenceFail + 2 * flagNat t.randomFail

/-! ### Order Port (12 section 12.2) -/

/-- The request that 8 bytes of the lane spell, given as byte 0, byte 1, bytes 2 and 3, and bytes 4 to 7; the line is as received,
whatever the kind. -/
def requestOf (kind line : Byte) (group : Vector Byte 2) (tag : Vector Byte 4) : Request where
  kind := kind
  line := line
  group := BitVec.ofNat 16 (leNat group.toList)
  tag := BitVec.ofNat 32 (leNat tag.toList)

/-- The 32 bytes of a response. -/
def StampResponse.bytes : StampResponse → Bytes
  | .issued st =>
    le 1 st.station ++ le 1 0 ++ le 2 0 ++ le 8 st.seq ++ stampTimeBytes st.time
      ++ le 1 (st.rounding.code + 4 * flagNat st.held + 8 * flagNat st.gradeChanged + 16 * flagNat st.overflow)
      ++ le 1 (st.phase.code + 4 * st.grade.code) ++ le 4 st.bound ++ le 4 st.tag.toNat
  | .refused station why kind line tag =>
    le 1 station ++ le 1 why.code ++ [kind, line] ++ List.replicate 24 0 ++ le 4 tag.toNat

/-! ### Peer Link frames (12 section 12.3) -/

/-- A receipt, 14 bytes. -/
def Receipt.bytes (r : Receipt) : Bytes := le 1 r.peer ++ le 2 r.seq.toNat ++ timeBytes r.time

/-- Kind and body of a frame, in the order they leave. -/
def Frame.body : Frame → Bytes
  | .beacon b =>
    le 1 1 ++ le 1 b.sender ++ le 2 b.seq.toNat ++ timeBytes b.t1 ++ le 1 b.grade.code ++ le 1 b.steer.code ++ le 4 b.bound
      ++ le 1 b.receipts.length ++ b.receipts.flatMap Receipt.bytes
  | .draw d => le 1 2 ++ le 1 d.sender ++ le 2 d.group.toNat ++ le 8 d.tn ++ le 4 d.share.toNat
  | .tally t =>
    le 1 3 ++ le 1 t.sender ++ le 2 t.group.toNat ++ le 8 t.tn ++ setBytes t.members ++ le 4 t.offset

/-- The bytes of a frame between its markers: kind, body and frame check (R16). -/
def Frame.bytes (f : Frame) : Bytes := f.body ++ le 4 (crc32c f.body).toNat

/-- The length a frame of the given bytes must have (R24 test 1), absent where no kind matches. -/
def frameLength (bs : Bytes) : Option Nat :=
  match field 0 1 bs with
  | 1 => if field 21 1 bs ≤ 15 then some (26 + 14 * field 21 1 bs) else none
  | 2 => some 20
  | 3 => some 22
  | _ => none

/-- The frame is whole: its length matches its kind and its check passes (R16, R24 test 1). -/
def frameWhole (bs : Bytes) : Bool :=
  decide (frameLength bs = some bs.length)
    && decide (field (bs.length - 4) 4 bs = (crc32c (bs.take (bs.length - 4))).toNat)

/-- The sender id of a frame. -/
def frameSender (bs : Bytes) : Nat := field 1 1 bs

/-- Receipt number `i` of a beacon; its time may not be normalised. -/
def receiptAt (bs : Bytes) (i : Nat) : Receipt where
  peer := field (22 + 14 * i) 1 bs
  seq := BitVec.ofNat 16 (field (23 + 14 * i) 2 bs)
  time := fieldTime (25 + 14 * i) bs

/-- The receipts of a beacon. -/
def receiptsOf (bs : Bytes) : List Receipt := (List.range (field 21 1 bs)).map (receiptAt bs)

/-- The receipt list stands in ascending order of peer ids of at most 15, names no peer twice and does not name the sender. -/
def receiptsOrdered (sender : Nat) : List Receipt → Bool
  | [] => true
  | [r] => decide (r.peer ≤ 15) && decide (r.peer ≠ sender)
  | r :: r' :: rs =>
    decide (r.peer ≤ 15) && decide (r.peer ≠ sender) && decide (r.peer < r'.peer) && receiptsOrdered sender (r' :: rs)

/-- Every time of a receipt is normalised (R24 test 3). -/
def receiptNanosOk (bs : Bytes) : Bool :=
  (List.range (field 21 1 bs)).all (fun i => decide (fieldNanos (25 + 14 * i) bs ≤ 999999999))

/-- The frame that whole bytes spell, absent where they are malformed (R24 test 3). -/
def parseFrame (bs : Bytes) : Option Frame :=
  match field 0 1 bs with
  | 1 =>
    match Grade.ofCode (field 15 1 bs), SteerState.ofCode (field 16 1 bs) with
    | some g, some st =>
      if fieldNanos 4 bs ≤ 999999999 ∧ receiptNanosOk bs ∧ receiptsOrdered (frameSender bs) (receiptsOf bs) then
        some (.beacon { sender := frameSender bs, seq := BitVec.ofNat 16 (field 2 2 bs), t1 := fieldTime 4 bs, grade := g,
                        steer := st, bound := field 17 4 bs, receipts := receiptsOf bs })
      else none
    | _, _ => none
  | 2 =>
    if field 2 2 bs ≠ 0 ∧ field 4 8 bs ≤ maxTn then
      some (.draw { sender := frameSender bs, group := BitVec.ofNat 16 (field 2 2 bs), tn := field 4 8 bs,
                    share := BitVec.ofNat 32 (field 12 4 bs) })
    else none
  | 3 =>
    if field 2 2 bs ≠ 0 ∧ field 4 8 bs ≤ maxTn ∧ field 14 4 bs < 3600000 then
      some (.tally { sender := frameSender bs, group := BitVec.ofNat 16 (field 2 2 bs), tn := field 4 8 bs,
                     members := BitVec.ofNat 16 (field 12 2 bs), offset := field 14 4 bs })
    else none
  | _ => none

/-- The bytes of a reference label (12 section 12.3). -/
def RefLabel.bytes (l : RefLabel) : Bytes :=
  le 6 l.second ++ flagBytes l.locked ++ le 4 (crc32c (le 6 l.second ++ flagBytes l.locked)).toNat

/-- The label that bytes spell: whole, its check passing and its lock indicator LOCKED or UNLOCKED (R48). -/
def parseLabel (bs : Bytes) : Option RefLabel :=
  if bs.length = 11 ∧ field 7 4 bs = (crc32c (bs.take 7)).toNat ∧ field 6 1 bs ≤ 1 then
    some { second := field 0 6 bs, locked := decide (field 6 1 bs = 1) }
  else none

/-! ### Evidence records (12 section 12.4) -/

/-- The kind of a body. -/
def Body.kind : Body → RecordKind
  | .sync _ => .sync
  | .batch _ _ _ => .batch
  | .peer _ => .peer
  | .idConflict _ _ _ _ => .peer
  | .reference _ => .reference
  | .start _ _ _ _ _ => .start
  | .reset _ => .reset
  | .grade _ => .grade
  | .step _ => .step
  | .fix _ => .fix
  | .close _ => .close
  | .void _ => .void
  | .checkpoint _ => .checkpoint
  | .fence _ _ _ => .fence
  | .loss _ _ => .loss

/-- The ordinary kinds (09 section 9.1); the others are priority kinds. -/
def RecordKind.ordinary : RecordKind → Bool
  | .sync => true | .batch => true | .peer => true | .reference => true
  | .start => false | .reset => false | .grade => false | .step => false | .fix => false | .close => false
  | .void => false | .checkpoint => false | .fence => false | .loss => false

/-- The bytes of a body that its kind uses, from record offset 24 on. -/
def Body.used : Body → Bytes
  | .sync b =>
    amountBytes b.latest.correction ++ amountBytes b.latest.spread ++ le 1 (cstarCode b.latest.cstar) ++ le 1 b.latest.candidates
      ++ le 1 b.latest.retained ++ le 1 b.latest.kind.code ++ le 1 b.state.code
      ++ le 1 (flagNat b.incomplete + 2 * flagNat b.rateLimit + 4 * flagNat b.stepDeferred + 8 * flagNat b.latest.refRetained)
      ++ leInt 4 b.rf ++ leInt 4 b.rp
  | .batch b check cause =>
    le 8 b.first ++ le 2 (b.count - 1) ++ le 2 b.held
      ++ le 6 (b.firstTime / 1000000000) ++ le 4 (b.firstTime % 1000000000 + 1073741824 * cause.code)
      ++ le 6 (b.lastTime / 1000000000) ++ le 4 (b.lastTime % 1000000000 + 1073741824 * (b.held / 65536 % 2))
      ++ le 4 check.toNat
  | .peer b =>
    le 1 b.id ++ le 1 0 ++ le 1 b.old.code ++ le 1 b.new.code ++ le 1 b.cause.code ++ flagBytes b.valid ++ le 1 b.disagree
      ++ le 1 b.agree ++ le 1 b.miss ++ le 1 b.grade.code ++ le 2 b.seq.toNat
      ++ amountBytes ((b.estimate.map Estimate.theta).getD 0) ++ amountBytes ((b.estimate.map Estimate.delay).getD 0)
  | .idConflict own seq t1 arrival =>
    le 1 own ++ le 1 1 ++ List.replicate 8 0 ++ le 2 seq.toNat ++ timeBytes t1 ++ timeBytes arrival
  | .reference b =>
    le 1 b.old.code ++ le 1 b.new.code ++ le 1 b.cause.code ++ le 1 b.verdict.code ++ flagBytes b.theta.isSome ++ le 1 b.run
      ++ le 1 b.disagree ++ le 1 b.agree ++ amountBytes (b.theta.getD 0) ++ le 6 (b.latestGood.getD 0)
      ++ flagBytes b.latestGood.isSome
  | .start check station membership ev rnd =>
    le 4 check.toNat ++ le 1 station ++ setBytes membership ++ le 1 (SelfTest.word ⟨ev, rnd⟩)
  | .reset b =>
    le 1 (match b.cause with | .line => 0 | .command => 1) ++ le 1 b.requests ++ le 1 b.responses ++ le 1 b.captures
      ++ optBytes 8 (le 8) b.fence ++ le 1 b.engine.code
  | .grade b =>
    le 1 b.old.code ++ le 1 b.new.code ++ le 1 b.cause.code ++ le 1 (cstarCode b.cstar) ++ le 1 b.retained ++ le 1 b.candidates
      ++ flagBytes b.refRetained ++ le 1 b.ref.code ++ le 1 b.steer.code ++ le 4 b.bound
  | .step b =>
    le 1 b.kind.code ++ le 1 b.cause.code ++ le 1 b.before.code ++ le 1 b.after.code ++ amountBytes b.requested
      ++ amountBytes b.applied ++ timeBytes b.timeBefore
  | .fix b =>
    le 1 b.slot.val ++ le 2 b.group.toNat ++ le 8 b.tn ++ le 4 b.window ++ le 4 b.offset ++ le 1 b.status.code
      ++ setBytes b.members ++ le 1 b.agreeing ++ le 1 b.counted ++ flagBytes b.drawn ++ le 4 b.share.toNat
      ++ setBytes b.conflicts ++ le 1 b.grade.code ++ le 4 b.bound
  | .close b =>
    le 1 b.slot.val ++ le 2 b.group.toNat ++ le 8 b.tc ++ optBytes 8 (le 8) b.cut ++ le 2 b.late ++ le 1 b.grade.code
      ++ le 4 b.bound
  | .void b =>
    le 1 b.slot.val ++ le 2 b.group.toNat ++ le 1 (flagNat b.tn.isSome + 2 * flagNat b.settled.isSome) ++ le 8 (b.tn.getD 0)
      ++ le 1 b.before.code ++ le 1 b.reason.code ++ le 4 ((b.settled.map Prod.fst).getD 0)
      ++ le 8 ((b.settled.map Prod.snd).getD 0) ++ le 2 b.late
  | .checkpoint b =>
    le 1 (b.state.code + 4 * b.state.bankCode + 16 * (match b.cause with | .period => 0 | .command => 1)
        + 32 * flagNat b.holdover.isSome)
      ++ le 1 b.ref.code ++ leInt 4 b.rf ++ leInt 4 b.rp ++ leInt 4 (b.holdover.getD 0) ++ le 8 (seqNat b.nextSeq)
      ++ setBytes b.paired ++ setBytes b.excluded ++ b.entries.flatMap (le 1) ++ le 2 b.held
  | .fence token nextSeq became =>
    le 4 token.toNat ++ le 8 (seqNat nextSeq)
      ++ (match became with
          | .none => le 1 0 ++ le 8 0
          | .numbered n => le 1 1 ++ le 8 n
          | .lost => le 1 2 ++ le 8 0)
  | .loss counts range =>
    counts.toList.flatMap (le 2) ++ le 2 0
      ++ (match range with
          | none => le 8 0 ++ le 4 0
          | some (lo, hi) => le 8 lo ++ le 4 (min (hi - lo) max32))

/-- Bytes 0 to 59 of a record: header and body, the bytes a kind does not use being zero (R138). -/
def recordHead (number : Nat) (grade : Grade) (bound time : Nat) (body : Body) : Bytes :=
  le 8 number ++ le 1 (body.kind.code + 16 * grade.code) ++ le 4 bound ++ timeBytes time ++ padTo 36 body.used

/-- The link check of a record over the chain value before it (R141). -/
def linkCheck (chain : BitVec 32) (head : Bytes) : BitVec 32 := crc32c (le 4 chain.toNat ++ head)

/-- Bytes 0 to 59 of a numbered record. -/
def Record.head (r : Record) : Bytes := recordHead r.number r.grade r.bound r.time r.body

/-- The 64 bytes of a numbered record. -/
def Record.bytes (r : Record) : Bytes := r.head ++ le 4 r.check.toNat

/-! ### Export descriptor (12 section 12.5) -/

/-- The bytes of the engine's copy written back with a state and a status; the reserved bits are zero (R183, log 25). -/
def Descriptor.bytes (d : Descriptor) (state : DescState) (status : CompletionStatus) : Bytes :=
  le 1 state.code ++ le 1 (d.mode.code + 4 * d.control.code + 16 * flagNat d.linkEnable + 32 * flagNat d.noticeOnDone)
    ++ le 1 d.linkIndex ++ le 1 d.blockLength ++ le 1 d.position ++ le 1 status.code ++ le 2 d.count ++ le 8 d.base
    ++ le 8 d.current ++ le 8 d.last

/-- A count or length whose code 0 stands for the value `top` (R155, R172). -/
def zeroAs (top v : Nat) : Nat := if v = 0 then top else v

/-- What a read of the 32 bytes of a descriptor that is ARMED finds (R157 outcomes 3 and 4): the copy, or the status of the first test
that fails. -/
def parseDescriptor (bs : Bytes) : Except CompletionStatus Descriptor :=
  let b1 := field 1 1 bs
  match DescMode.ofCode (b1 % 4), AddrControl.ofCode (b1 / 4 % 4) with
  | some m, some a =>
    let linked := decide (b1 / 16 % 2 = 1)
    let d : Descriptor :=
      { mode := m, control := a, linkEnable := linked, noticeOnDone := decide (b1 / 32 % 2 = 1), linkIndex := field 2 1 bs,
        blockLength := zeroAs 256 (field 3 1 bs), position := field 4 1 bs, count := zeroAs 65536 (field 6 2 bs),
        base := field 8 8 bs, current := field 16 8 bs, last := field 24 8 bs }
    if d.blockLength ≤ d.position then .error .invalid
    else if linked ∧ 64 ≤ d.linkIndex then .error .invalid
    else if d.base % 64 ≠ 0 ∨ d.current % 64 ≠ 0 then .error .misaligned
    else .ok d
  | _, _ => .error .invalid

/-- The raw bytes of a descriptor with its state FAULTED and a status, every other byte as it was read (R157 outcome 3). -/
def faultedAsRead (bs : Bytes) (status : CompletionStatus) : Bytes :=
  le 1 DescState.faulted.code ++ (bs.drop 1).take 4 ++ le 1 status.code ++ bs.drop 6

/-! ### Service Port frames (12 section 12.7) -/

/-- What the station shifts out after execution: the start marker, the status, the length of the body and the body. -/
def Response.bytes (r : Response) : Bytes := le 1 0xA5 ++ le 1 r.status.code ++ le 2 r.body.length ++ r.body

/-- What the station shifts out where it has nothing to say (R169). -/
def fillByte : Byte := 0xFF

/-- The byte the station shifts out `n` bytes after the execution of the transaction's command, or at any moment where there is none: the
response and then fill bytes, and fill bytes alone before a command is executed and once a warm reset has abandoned it (R169, R182). -/
def Transaction.shiftedOut (n : Nat) : Transaction → Byte
  | .absent => fillByte
  | .executed r _ => r.bytes.getD n fillByte
  | .abandoned _ => fillByte

end Sys2Proof.Machine
end

