-- ==== Sys2Proof/Machine/Operands.lean ====
section
/-! DEFINITION. What the bodies of the Service Port commands spell: the configuration record (12 section 12.6, R172, R173) and the
fields of ARM_AUCTION (12 section 12.7). -/

namespace Sys2Proof.Machine

/-- The settings a configuration record gives (12 section 12.6). -/
def settingsOf (r : Bytes) : Settings where
  stationId := field 0 1 r
  membership := BitVec.ofNat 16 (field 1 2 r)
  faults := field 3 1 r
  period := field 4 2 r
  delayBound := field 6 4 r
  disagreeLimit := field 10 4 r
  refFitted := decide (field 14 1 r = 1)
  refBound := field 15 4 r
  cableDelay := fieldInt4 19 r
  stepThreshold := field 23 4 r
  lockThreshold := field 27 4 r
  unlockThreshold := field 31 4 r
  rateMax := field 35 4 r
  acquireBank := ⟨field 39 1 r, field 40 1 r, field 41 4 r⟩
  trackBank := ⟨field 45 1 r, field 46 1 r, field 47 4 r⟩
  drift := field 51 4 r
  limitA := field 55 4 r
  limitG := field 59 4 r
  granularity := field 63 2 r
  rounding := if field 65 1 r = 1 then .nearest else .truncate
  batchSize := zeroAs 65536 (field 66 2 r)
  quorum := field 68 1 r
  checkpointMinutes := field 69 2 r
  tableBase := field 71 8 r
  enables := BitVec.ofNat 14 (field 79 2 r)

/-- The test of one field of a configuration record against the range R172 gives it. -/
def fieldOk (r : Bytes) : Nat → Bool
  | 1 => inSet (field 0 1 r) (BitVec.ofNat 16 (field 1 2 r))
  | 2 => decide (1 ≤ setSize (BitVec.ofNat 16 (field 1 2 r)))
  | 3 => decide (field 3 1 r ≤ 3) &&
      decide (2 * field 3 1 r + 2 ≤ setSize (BitVec.ofNat 16 (field 1 2 r)) + (if field 14 1 r = 1 then 1 else 0))
  | 4 => decide (field 4 2 r ∈ [125, 250, 500, 1000])
  | 5 => decide (100 ≤ field 6 4 r ∧ field 6 4 r ≤ 1000000)
  | 6 => decide (10 ≤ field 10 4 r ∧ field 10 4 r ≤ 10000000)
  | 7 => decide (field 14 1 r ≤ 1)
  | 8 => decide (field 15 4 r ≤ 1000000)
  | 9 => decide (-1000000 ≤ fieldInt4 19 r ∧ fieldInt4 19 r ≤ 1000000)
  | 10 => decide (1000 ≤ field 23 4 r ∧ field 23 4 r ≤ 1000000000)
  | 11 => decide (1 ≤ field 27 4 r ∧ field 27 4 r ≤ 1000000000)
  | 12 => decide (1 ≤ field 31 4 r ∧ field 31 4 r ≤ 1000000000)
  | 13 => decide (1000 ≤ field 35 4 r ∧ field 35 4 r ≤ 500000000)
  | 14 => decide (field 39 1 r ≤ 15)
  | 15 => decide (field 40 1 r ≤ 31)
  | 16 => decide (1 ≤ field 41 4 r ∧ field 41 4 r ≤ field 35 4 r)
  | 17 => decide (field 45 1 r ≤ 15)
  | 18 => decide (field 46 1 r ≤ 31)
  | 19 => decide (1 ≤ field 47 4 r ∧ field 47 4 r ≤ field 35 4 r)
  | 20 => decide (1000 ≤ field 51 4 r ∧ field 51 4 r ≤ 10000000)
  | 21 => decide (field 55 4 r ≤ field 59 4 r)
  | 22 => decide (field 59 4 r ≤ 4294967294)
  | 23 => decide (field 63 2 r ∈ [1, 10, 100, 1000])
  | 24 => decide (field 65 1 r ≤ 1)
  | 25 => decide (field 66 2 r = 0 ∨ 16 ≤ field 66 2 r)
  | 26 => decide (1 ≤ field 68 1 r ∧ field 68 1 r ≤ setSize (BitVec.ofNat 16 (field 1 2 r)))
  | 27 => decide (field 69 2 r ≤ 1440)
  | 28 => decide (field 71 8 r % 32 = 0 ∧ field 71 8 r ≤ 18446744073709549568)
  | 29 => true
  | _ => true

/-- The first field, in ascending order of index, that fails its test; absent where every field passes (R173). -/
def firstBadField (r : Bytes) : Option Nat := (List.range' 1 29).find? (fun i => !fieldOk r i)

/-- The configuration check: CRC-32C over the record as its bytes were received (R139, 12 section 12.6). -/
def configCheck (r : Bytes) : BitVec 32 := crc32c r

/-- The fields of an ARM_AUCTION body (12 section 12.7), as codes. -/
structure ArmFields where
  slot : Nat
  group : Nat
  tn : Nat
  window : Nat
  leadL : Nat
  leadS : Nat
  leadE : Nat
  quorum : Nat
  start : Nat
  link : Nat
  linkDelay : Nat
  deriving DecidableEq, Repr

/-- What the 34 bytes of an ARM_AUCTION body spell. -/
def armFields (body : Bytes) : ArmFields where
  slot := field 0 1 body
  group := field 1 2 body
  tn := field 3 8 body
  window := field 11 4 body
  leadL := field 15 4 body
  leadS := field 19 4 body
  leadE := field 23 4 body
  quorum := field 27 1 body
  start := field 28 1 body
  link := field 29 1 body
  linkDelay := field 30 4 body

/-- The slot a code names; absent above 31. -/
def slotOf (n : Nat) : Option (Fin 32) := if h : n < 32 then some ⟨n, h⟩ else none

/-- The link slot of an ARM_AUCTION body; absent for 255. -/
def ArmFields.linkSlot (a : ArmFields) : Option (Fin 32) := if a.link = 255 then none else slotOf a.link

end Sys2Proof.Machine
end

