-- ==== Sys2Proof/Machine/Flags.lean ====
section
/-! DEFINITION. The notice flags, the enable set and the notice line (R179 to R181). -/

namespace Sys2Proof.Machine

/-- The bit of a notice kind in a notice set (R183). -/
def Notice.index : Notice → Nat
  | .grade => 0 | .step => 1 | .peer => 2 | .reference => 3 | .idConflict => 4 | .auctionFixed => 5 | .auctionClosed => 6
  | .auctionVoid => 7 | .disagree => 8 | .captureOverflow => 9 | .evidenceLoss => 10 | .exportDone => 11 | .exportHalt => 12
  | .fenceDone => 13

/-- The flag of a notice kind is set. -/
def flagSet (n : Notice) (s : State) : Bool := s.port.flags.getLsbD n.index

/-- Set the flag of a notice kind; one already set stays set (R179). -/
def raise (n : Notice) (s : State) : State :=
  { s with port.flags := s.port.flags ||| BitVec.twoPow 14 n.index }

/-- Clear every flag (R182). -/
def clearAllFlags (s : State) : State := { s with port.flags := 0 }

/-- Clear the flags named in a set, its reserved bits ignored (R181). -/
def clearFlags (named : BitVec 16) (s : State) : State :=
  { s with port.flags := s.port.flags &&& ~~~(named.setWidth 14) }

/-- The notice line is active (R180). -/
def noticeLine (s : State) : Bool := decide (s.port.flags &&& s.port.enables ≠ 0)

end Sys2Proof.Machine
end

