-- ==== Sys2Proof/Machine/Ops.lean ====
section
/-! DEFINITION. The operations several blocks share: card memory, the handing of a record with what follows from it in the Export
Engine, the waiting frames, a change of grade, and the answer to a Service Port command. -/

namespace Sys2Proof.Machine

/-! ### Card memory (R155, R156, R161; log 9) -/

/-- What card memory holds where nothing has been written. DESIGN CHOICE (log 9). -/
def cardDefault : Byte := 0

/-- The byte card memory holds at an address. -/
def cardRead (m : List Host.Cell) (a : Nat) : Byte := (m.lookup a).getD cardDefault

/-- The `n` bytes from an address on; card addresses wrap at 2^64 (R161). -/
def cardReadN (m : List Host.Cell) (a n : Nat) : Bytes :=
  (List.range n).map (fun i => cardRead m ((a + i) % 18446744073709551616))

/-- Put one byte, keeping the addresses rising and no entry equal to what an unlisted address reads as. -/
def cardPut (a : Nat) (b : Byte) : List Host.Cell → List Host.Cell
  | [] => if b = cardDefault then [] else [(a, b)]
  | (a', b') :: m =>
    if a < a' then (if b = cardDefault then (a', b') :: m else (a, b) :: (a', b') :: m)
    else if a = a' then (if b = cardDefault then m else (a, b) :: m)
    else (a', b') :: cardPut a b m

/-- Write a run of bytes from an address on (R156: a write transfer is applied whole). -/
def cardWrite (m : List Host.Cell) (a : Nat) : Bytes → List Host.Cell
  | [] => m
  | b :: bs => cardWrite (cardPut (a % 18446744073709551616) b m) (a + 1) bs

/-- Apply the host's own writes into card memory (log 10). -/
def cardHost (m : List Host.Cell) (ws : List (BitVec 64 × Byte)) : List Host.Cell :=
  ws.foldl (fun m w => cardPut w.1.toNat w.2 m) m

/-- The canonical form of card memory: addresses rise strictly and lie below 2^64, no entry is what an unlisted address reads as. -/
def cardWf : List Host.Cell → Bool
  | [] => true
  | [(a, b)] => decide (a < 18446744073709551616) && decide (b ≠ cardDefault)
  | (a, b) :: (a', b') :: m => decide (a < a') && decide (b ≠ cardDefault) && cardWf ((a', b') :: m)

/-! ### Eligibility (R159) -/

/-- A record at the head may be written under the copy. -/
def headEligible (c : Descriptor) (held : Nat) (fencePending : Bool) : Bool :=
  decide (0 < held) &&
    match c.mode with
    | .single => true
    | .run => true
    | .block => decide (c.blockLength - c.position ≤ held) || fencePending

/-- The head is eligible in the present state of queue and fence. -/
def eligible (c : Descriptor) (s : State) : Bool := headEligible c s.evid.queue.length s.evid.fence.isSome

/-- A WAITING engine whose head has become eligible is RUNNING, the write begun (R159). -/
def wakeEngine (s : State) : State :=
  match s.engine.state, s.engine.copy with
  | .waiting, some c => if eligible c s then { s with engine.state := .running } else s
  | _, _ => s

/-! ### The handing of a record (R138 to R144) -/

/-- The number of records held at which a record of the class is refused (R142). -/
def Body.capacity (b : Body) : Nat := if b.kind.ordinary then 496 else 512

/-- The place of a kind among the eleven loss counts (R144); absent for the kinds that cannot be lost. -/
def RecordKind.lossIndex : RecordKind → Option (Fin 11)
  | .sync => some 0 | .batch => some 1 | .peer => some 2 | .reference => some 3 | .reset => some 4 | .grade => some 5
  | .step => some 6 | .fix => some 7 | .close => some 8 | .void => some 9 | .checkpoint => some 10
  | .start => none | .fence => none | .loss => none

/-- The record a body makes now: numbered, its header completed, linked to the chain value (R138, R140, R141). -/
def makeRecord (b : Body) (s : State) : Record where
  number := s.evid.nextNumber
  grade := s.steer.grade
  bound := s.steer.bound
  time := s.clock.present
  body := b
  check := linkCheck s.evid.chain (recordHead s.evid.nextNumber s.steer.grade s.steer.bound s.clock.present b)

/-- The queue with a new record at its tail, the next number advanced and the chain value moved (R140 to R142). -/
def Evidence.append (r : Record) (e : Evidence) : Evidence :=
  { e with queue := e.queue ++ [r], nextNumber := e.nextNumber + 1, chain := r.check }

/-- One more loss in the count, holding at 65,535 (R144). -/
def countLoss (k : RecordKind) (counts : Vector Nat 11) : Vector Nat 11 :=
  match k.lossIndex with
  | some i => counts.set i (min (counts[i] + 1) 65535)
  | none => counts

/-- The lost sequence range widened by a lost BATCH (R144). -/
def widenRange (b : Body) (r : Option (Nat × Nat)) : Option (Nat × Nat) :=
  match b with
  | .batch x _ _ =>
    match r with
    | none => some (x.first, x.first + x.count - 1)
    | some (lo, hi) => some (min lo x.first, max hi (x.first + x.count - 1))
  | _ => r

/-- A refused record: its count advances, the range widens, EVIDENCE_LOSS is set (R144). -/
def loseRecord (b : Body) (s : State) : State :=
  raise .evidenceLoss
    { s with evid.losses := countLoss b.kind s.evid.losses, evid.lostRange := widenRange b s.evid.lostRange }

/-- The record is admitted (R142). -/
def admitted (b : Body) (s : State) : Bool := decide (s.evid.queue.length < b.capacity)

/-- A block hands a record to the Evidence Unit: it is enqueued, and a WAITING engine may begin to write, or it is lost. -/
def handRecord (b : Body) (s : State) : State :=
  if admitted b s then wakeEngine { s with evid := s.evid.append (makeRecord b s) } else loseRecord b s

/-! ### Waiting frames and the transmitter (R15, R19) -/

/-- A frame is waiting to be sent. -/
def Link.hasWaiting (l : Link) : Bool := l.pendingBeacon || !l.waiting.isEmpty

/-- The transmitter after a change of what waits: IDLE while no frame waits, DEFERRING from now where one does (R15). -/
def settleTx (osc : Nat) (l : Link) : Link :=
  match l.tx with
  | .sending _ => l
  | .idle => if l.hasWaiting then { l with tx := .deferring osc } else l
  | .deferring _ => if l.hasWaiting then l else { l with tx := .idle }

/-- Request an auction frame for a slot: it takes its position, an older frame of that slot and kind is not sent (R19). -/
def requestFrame (slot : Fin 32) (isTally : Bool) (f : Frame) (s : State) : State :=
  let kept := s.link.waiting.filter (fun w => !(decide (w.slot = slot) && decide (w.isTally = isTally)))
  { s with link := settleTx s.osc { s.link with waiting := kept ++ [⟨slot, isTally, f⟩] } }

/-- Withdraw the waiting frame of a slot and kind (R19, R127, R129). -/
def withdrawKind (slot : Fin 32) (isTally : Bool) (s : State) : State :=
  let kept := s.link.waiting.filter (fun w => !(decide (w.slot = slot) && decide (w.isTally = isTally)))
  { s with link := settleTx s.osc { s.link with waiting := kept } }

/-- Withdraw the waiting frames of a slot (R19, R122). -/
def withdrawSlot (slot : Fin 32) (s : State) : State :=
  let kept := s.link.waiting.filter (fun w => !decide (w.slot = slot))
  { s with link := settleTx s.osc { s.link with waiting := kept } }

/-! ### Change of grade (R87, R88) -/

/-- The GRADE body of a change from `old` in the present state (R88). -/
def gradeBody (old : Grade) (cause : GradeCause) (s : State) : GradeBody where
  old := old
  new := s.steer.grade
  cause := cause
  bound := s.steer.bound
  cstar := s.steer.latest.bind Latest.cstar
  retained := (s.steer.latest.map Latest.retained).getD 0
  candidates := (s.steer.latest.map Latest.candidates).getD 0
  refRetained := (s.steer.latest.map Latest.refRetained).getD false
  ref := s.ref.state
  steer := s.steer.state

/-- Set the grade; a change makes a GRADE record, sets the GRADE flag and sets the grade-change mark (R88). -/
def changeGrade (g : Grade) (cause : GradeCause) (s : State) : State :=
  if g = s.steer.grade then s
  else
    let s1 := { s with steer.grade := g, stamp.gradeMark := true }
    raise .grade (handRecord (.grade (gradeBody s.steer.grade cause s1)) s1)

/-- The grade an ANCHORED station falls to when its reference leaves VALID (R87); NONE falls to FREE. -/
def demotedGrade (c : Option Grade) : Grade :=
  match c with
  | some .anchored => .agreed
  | some .agreed => .agreed
  | some .holdover => .holdover
  | some .free => .free
  | none => .free

/-- The reference has left VALID: an ANCHORED grade is demoted by the latest c*, U is kept (R87). -/
def demote (s : State) : State :=
  if s.steer.grade = .anchored then changeGrade (demotedGrade (s.steer.latest.bind Latest.cstar)) .referenceLost s else s

/-! ### Service Port (R169, R170) -/

/-- Answer the command: the transaction holds the response. -/
def respond (st : Status) (body : Bytes) (s : State) : State :=
  { s with port.transaction := .executed ⟨st, body⟩ false }

/-- A received command: nothing where its transaction already holds an executed command or was abandoned (R169, R182); otherwise its
body length is tested (R170 check 2) and then its own tests and effect follow. -/
def onCommand (len : Nat) (body : Bytes) (run : State → State) (s : State) : State :=
  match s.port.transaction with
  | .absent => if body.length = len then run s else respond .refusedRange [] s
  | .executed _ _ => s
  | .abandoned _ => s

end Sys2Proof.Machine
end

