-- ==== Sys2Proof/Machine/Clock.lean ====
section
/-! DEFINITION. The Station Clock: its advance, its steps, and what both mean to the periodic series (chapter 01). -/

namespace Sys2Proof.Machine

/-- Parts of a fine unit the residue counts: 2 × 10^12 (log 3). -/
abbrev residueUnit : Nat := 2000000000000

/-- Ticks of the oscillator in `n` oscillator nanoseconds (log 3). -/
abbrev oscNs (n : Nat) : Nat := 512 * n

/-- What one tick of 1/512 oscillator ns adds, in residue units: half a fine unit at the nominal rate, (10^12 + R) in all (R5). -/
def tickGain (rate : Int) : Nat := (1000000000000 + rate).toNat

/-- A running clock after one tick; at the largest time count it holds (R5). -/
def advanceClock (c : Clock) : Clock :=
  if c.running ∧ c.present < maxTime then
    let sum := c.residue + tickGain c.rate
    if maxTime ≤ c.present + sum / residueUnit then { c with present := maxTime, residue := 0 }
    else { c with present := c.present + sum / residueUnit, residue := sum % residueUnit }
  else c

/-- A clock after `n` ticks at one rate. -/
def advanceTicks : Nat → Clock → Clock
  | 0, c => c
  | n + 1, c => advanceTicks n (advanceClock c)

/-- The beacon period, which is the steering interval, in fine units. -/
def periodFine (s : State) : Nat := s.cfg.period * fineMs

/-- The present time has come by advance: a member reached expires and the series waits for the following one (R13). -/
def Series.reach (period present : Nat) (x : Series) : Series :=
  if x.next ≤ present then { next := x.next + period, due := true } else x

/-- A forward step to `present` drops the members it passes: the next member is the first strictly after it (R13, log 5). -/
def Series.drop (period present : Nat) (x : Series) : Series :=
  if x.next ≤ present then { x with next := x.next + ((present - x.next) / period + 1) * period } else x

/-- The steering series as START places it (R13). -/
def steeringSeries (c : Settings) : Series := { next := c.period * fineMs, due := false }

/-- The beacon series as START places it: own id × P / 16, or P for station 0 (R13). -/
def beaconSeries (c : Settings) : Series :=
  { next := if c.stationId = 0 then c.period * fineMs else c.stationId * (c.period * fineMs) / 16, due := false }

/-- One tick of the oscillator: the clock advances and the series it reaches expire (R5, R13). -/
def tick (s : State) : State :=
  let c := advanceClock s.clock
  { s with
    osc := s.osc + 1
    clock := c
    steer.series := s.steer.series.map (Series.reach (periodFine s) c.present)
    link.series := s.link.series.map (Series.reach (periodFine s) c.present) }

/-- The time a step of `a` fine units leaves, limited at 0 and at the largest time count (R8). -/
def steppedTime (present : Nat) (a : Int) : Nat := min ((present : Int) + a).toNat maxTime

/-- The amount a step applies: the time after minus the time before (R8). -/
def appliedAmount (present : Nat) (a : Int) : Int := (steppedTime present a : Int) - (present : Int)

/-- The clock applies a step: residue, rate and running are kept; a forward step drops the members it passes (R8, R13). -/
def stepClock (a : Int) (s : State) : State :=
  let t := steppedTime s.clock.present a
  let f := fun x : Series => if s.clock.present < t then x.drop (periodFine s) t else x
  { s with clock.present := t, steer.series := s.steer.series.map f, link.series := s.link.series.map f }

/-- The Station Clock is set (R11). -/
def clockSet (s : State) : Bool := decide (s.phase = .run ∧ s.steer.state ≠ .cold)

end Sys2Proof.Machine
end

