-- ==== Sys2Proof/Machine/Stamps.lean ====
section
/-! DEFINITION. The Stamp Unit: requests and responses, capture lines, stamps, cuts and batches (chapter 07). -/

namespace Sys2Proof.Machine

/-! ### Batches (section 7.5) -/

/-- The open batch closes: a non-empty one becomes a BATCH record (R112). -/
def closeBatch (cause : BatchCause) (s : State) : State :=
  match s.stamp.batch with
  | none => s
  | some b => handRecord (.batch b (crcFinal b.check) cause) { s with stamp.batch := none }

/-- The open batch with a stamp joined (R111). -/
def joinBatch (st : Stamp) (b : Option Batch) : Batch :=
  match b with
  | none =>
    { first := st.seq, count := 1, held := flagNat st.held, firstTime := st.time, lastTime := st.time,
      check := crcMore crcInit (StampResponse.issued st).bytes }
  | some b =>
    { b with
      count := b.count + 1
      held := b.held + flagNat st.held
      lastTime := st.time
      check := crcMore b.check (StampResponse.issued st).bytes }

/-! ### Rounding and the floor (R102) -/

/-- The largest stamp time at granularity G, in ns. -/
def maxStampTime (g : Nat) : Nat := 281474976710656 * 1000000000 - g

/-- The raw time, in fine units, rounded to G, in ns, before the limit of the largest stamp time. -/
def roundedUp (mode : RoundMode) (g raw : Nat) : Nat :=
  match mode with
  | .truncate => raw / (g * 256) * g
  | .nearest => (raw + g * 128) / (g * 256) * g

/-- The rounded time in ns (R102). -/
def roundStamp (mode : RoundMode) (g raw : Nat) : Nat := min (roundedUp mode g raw) (maxStampTime g)

/-- The rounding indicator (R102). -/
def roundingOf (mode : RoundMode) (g raw : Nat) : Rounding :=
  if roundStamp mode g raw * 256 = raw then .exact
  else if roundStamp mode g raw * 256 < raw then .down
  else .up

/-- The next sequence after `n`; EXHAUSTED after 2^64 − 1 (R103). -/
def seqAfter (n : Nat) : Option Nat := if n = 18446744073709551615 then none else some (n + 1)

/-! ### Phase and cuts (R104, R107, R108) -/

/-- The entry is live (08 section 8.1). -/
def EntryState.live : EntryState → Bool
  | .held => true | .armed => true | .drawing => true | .tallying => true | .fixed => true
  | .free => false | .closed => false | .void => false

/-- The entry's Tc in ns; 0 where it has none. -/
def Entry.tcNs (e : Entry) : Nat := e.tc.getD 0 * 1000000

/-- The auction phase of a group at a stamp time (R104). -/
def phaseOf (group : BitVec 16) (t : Nat) (entries : List Entry) : StampPhase :=
  if group = 0 then .none
  else
    match entries.find? (fun e => decide (e.group = group ∧ e.state = .fixed)) with
    | some e =>
      if t < e.tn.getD 0 * 1000000 then .opened
      else if t < e.tcNs then .window
      else .closed
    | none =>
      if entries.any (fun e => decide (e.group = group ∧ (e.state = .armed ∨ e.state = .drawing ∨ e.state = .tallying))) then
        .opened
      else if entries.any (fun e => decide (e.group = group ∧ e.state = .closed)) then .closed
      else .none

/-- The entry is one whose cut a stamp at `t` sets (R107). -/
def Entry.cutDue (t : Nat) (e : Entry) : Bool := decide (e.state = .fixed ∧ e.cut = none ∧ e.tcNs ≤ t)

/-- The cut of an entry against the floor before the event: `above` where Tc is above the floor, else the floor sequence. -/
def cutValue (floor : Nat) (floorSeq above : Option Nat) (e : Entry) : Option Nat :=
  if floor < e.tcNs then above else floorSeq

/-- The entry after a stamp with sequence `n` at time `t` (R107). -/
def Entry.afterStamp (floor : Nat) (floorSeq : Option Nat) (n t : Nat) (e : Entry) : Entry :=
  if e.cutDue t then { e with cut := cutValue floor floorSeq (some n) e } else e

/-- The stamp sets at least one cut (R107). -/
def setsCut (floor : Nat) (floorSeq : Option Nat) (n t : Nat) (es : List Entry) : Bool :=
  es.any (fun e => e.cutDue t && (cutValue floor floorSeq (some n) e).isSome)

/-- The floor after a close at `tcNs`, the floor sequence the next sequence where the floor rises (R108). -/
def raiseFloor (tcNs : Nat) (u : StampUnit) : StampUnit :=
  if u.floor < tcNs then { u with floor := tcNs, floorSeq := u.nextSeq } else u

/-- The Stamp Unit takes the close notice of an entry (R108). -/
def closeNotice (i : Fin 32) (s : State) : State :=
  let e := s.entries[i]
  let s1 :=
    match e.cut with
    | some _ => s
    | none =>
      closeBatch .close
        { s with entries := s.entries.set i { e with cut := cutValue s.stamp.floor s.stamp.floorSeq s.stamp.nextSeq e } }
  { s1 with stamp := raiseFloor e.tcNs s1.stamp }

/-! ### The stamp event (R96, R97, R100) -/

/-- What a request asks for: the present time, or the oldest capture of a line; absent where neither can be had (R97 NO_CAPTURE). -/
inductive RawSource where
  | now
  | capture (line : Fin 4) (raw : Nat)
  deriving DecidableEq, Repr

/-- The raw time of a request and where it comes from (R97, R101). -/
def rawSource (r : Request) (s : State) : Option RawSource :=
  if r.kind = 0 then some .now
  else if r.kind = 1 then
    if h : r.line.toNat < 4 then
      match s.stamp.captures[(⟨r.line.toNat, h⟩ : Fin 4)] with
      | [] => none
      | t :: _ => some (.capture ⟨r.line.toNat, h⟩ t)
    else none
  else none

/-- The raw time (R101). -/
def RawSource.time (s : State) : RawSource → Nat
  | .now => s.clock.present
  | .capture _ t => t

/-- A response without a stamp joins the response queue; nothing else changes (R97). -/
def refuseStamp (why : Refused) (r : Request) (s : State) : State :=
  { s with stamp.responses := s.stamp.responses ++ [.refused s.cfg.stationId why r.kind r.line r.tag] }

/-- The line's overflow mark is set. -/
def overflowOf (src : RawSource) (s : State) : Bool :=
  match src with
  | .now => false
  | .capture l _ => s.stamp.overflow[l]

/-- The capture a stamp takes is removed and its line's overflow mark cleared (R99, R101, R105). -/
def takeCapture (src : RawSource) (u : StampUnit) : StampUnit :=
  match src with
  | .now => u
  | .capture l _ => { u with captures := u.captures.set l u.captures[l].tail, overflow := u.overflow.set l false }

/-- The stamp a request gets with sequence `n` in the state before the event (R100 stages 1 to 7). -/
def stampFor (r : Request) (src : RawSource) (n : Nat) (s : State) : Stamp :=
  let raw := src.time s
  let rounded := roundStamp s.cfg.rounding s.cfg.granularity raw
  let t := max rounded s.stamp.floor
  { station := s.cfg.stationId, seq := n, time := t, rounding := roundingOf s.cfg.rounding s.cfg.granularity raw,
    held := decide (rounded < s.stamp.floor), gradeChanged := s.stamp.gradeMark, overflow := overflowOf src s,
    phase := phaseOf r.group t s.entries.toList, grade := s.steer.grade, bound := s.steer.bound, tag := r.tag }

/-- The open batch with the stamp joined, closed where it is then full (R112 COUNT). -/
def joinStamp (st : Stamp) (s : State) : State :=
  let b := joinBatch st s.stamp.batch
  let s1 := { s with stamp.batch := some b }
  if s.cfg.batchSize ≤ b.count then closeBatch .count s1 else s1

/-- An ISSUED stamp, all its stages (R100). -/
def issueStamp (r : Request) (src : RawSource) (n : Nat) (s : State) : State :=
  let st := stampFor r src n s
  let u := takeCapture src s.stamp
  let s1 := { s with
    stamp := { u with
      nextSeq := seqAfter n
      floor := st.time
      floorSeq := if s.stamp.floor < st.time then some n else s.stamp.floorSeq
      gradeMark := false }
    entries := s.entries.map (Entry.afterStamp s.stamp.floor s.stamp.floorSeq n st.time) }
  let s2 := if setsCut s.stamp.floor s.stamp.floorSeq n st.time s.entries.toList then closeBatch .cut s1 else s1
  let s3 := joinStamp st s2
  { s3 with stamp.responses := s3.stamp.responses ++ [.issued st] }

/-- One response to a request (R97). -/
def answerRequest (r : Request) (s : State) : State :=
  if clockSet s = false then refuseStamp .notReady r s
  else
    match s.stamp.nextSeq with
    | none => refuseStamp .exhausted r s
    | some n =>
      match rawSource r s with
      | none => refuseStamp .noCapture r s
      | some src => issueStamp r src n s

/-- STAMP_EVENT: the oldest request is answered when one is present and the response queue has room (R96). -/
def execStampEvent (s : State) : Host.Outcome State Fault Refusal :=
  match s.stamp.requests with
  | [] => .next s
  | r :: rest =>
    if s.stamp.responses.length < 64 then .next (answerRequest r { s with stamp.requests := rest }) else .next s

/-! ### The lane and the capture lines (R95, R96, R98) -/

/-- REQUEST_ARRIVAL: the lane takes the request while the queue holds fewer than 64 (R95, 12 section 12.2). -/
def execRequestArrival (kind line : Byte) (group : Vector Byte 2) (tag : Vector Byte 4) (s : State) :
    Host.Outcome State Fault Refusal :=
  if s.stamp.requests.length < 64 then
    .next { s with stamp.requests := s.stamp.requests ++ [requestOf kind line group tag] }
  else .next s

/-- RESPONSE_TAKEN: the gateway takes the head response (R96). -/
def execResponseTaken (s : State) : Host.Outcome State Fault Refusal :=
  .next { s with stamp.responses := s.stamp.responses.tail }

/-- CAPTURE_EDGE (R98). -/
def execCaptureEdge (line : Fin 4) (s : State) : Host.Outcome State Fault Refusal :=
  if clockSet s = false then .next s
  else if s.stamp.captures[line].length < 8 then
    .next { s with stamp.captures := s.stamp.captures.set line (s.stamp.captures[line] ++ [s.clock.present]) }
  else .next (raise .captureOverflow { s with stamp.overflow := s.stamp.overflow.set line true })

/-- The captures held in the four queues. -/
def captureCount (u : StampUnit) : Nat := (u.captures.toList.map List.length).sum

/-- The Stamp Unit at a warm reset (R114). -/
def stampWarmReset (u : StampUnit) : StampUnit :=
  { u with requests := [], responses := [], captures := Vector.replicate 4 [], overflow := Vector.replicate 4 false }

end Sys2Proof.Machine
end

