-- ==== Sys2Proof/Machine/Auction.lean ====
section
/-! DEFINITION. The Auction Unit: the Auction Table, the draw, the tally, the fix, the close, links, reports and commands (chapter 08). -/

namespace Sys2Proof.Machine

/-! ### Entries -/

/-- Put an entry in its slot. -/
def setEntry (i : Fin 32) (e : Entry) (s : State) : State := { s with entries := s.entries.set i e }

/-- The draw instant Tn − L, the tally instant Tn − S, the fix instant Tn − E and the close instant Tc, as time counts. -/
def Entry.drawAt (e : Entry) : Nat := (e.tn.getD 0 - e.leadL) * fineMs

def Entry.tallyAt (e : Entry) : Nat := (e.tn.getD 0 - e.leadS) * fineMs

def Entry.fixAt (e : Entry) : Nat := (e.tn.getD 0 - e.leadE) * fineMs

def Entry.closeAt (e : Entry) : Nat := e.tc.getD 0 * fineMs

/-- The late count advances by one, holding at 65,535 (08 section 8.1). -/
def Entry.countLate (e : Entry) : Entry := { e with late := min (e.late + 1) 65535 }

/-- The value a map by rising id holds for a key, put there in place. -/
def putKey {α : Type} (k : Nat) (v : α) : List (Nat × α) → List (Nat × α)
  | [] => [(k, v)]
  | (k', v') :: m =>
    if k < k' then (k, v) :: (k', v') :: m
    else if k = k' then (k, v) :: m
    else (k', v') :: putKey k v m

/-- The map without a key. -/
def dropKey {α : Type} (k : Nat) (m : List (Nat × α)) : List (Nat × α) := m.filter (fun p => !decide (p.1 = k))

/-- The set of the keys of a map by station id. -/
def keySet {α : Type} (m : List (Nat × α)) : BitVec 16 := m.foldl (fun b p => addTo p.1 b) 0

/-! ### VOID (R122) -/

/-- The VOID body of an entry (R135). -/
def voidBody (i : Fin 32) (e : Entry) (r : VoidReason) : VoidBody where
  slot := i
  group := e.group
  tn := e.tn
  before := e.state
  reason := r
  settled := match e.offset, e.tc with | some o, some t => some (o, t) | _, _ => none
  late := e.late

/-- The link of a slot becomes absent. -/
def clearLink (p : Option (Fin 32)) (s : State) : State :=
  match p with
  | none => s
  | some j => setEntry j { s.entries[j] with link := none } s

/-- The predecessor of a slot becomes absent. -/
def clearPred (p : Option (Fin 32)) (s : State) : State :=
  match p with
  | none => s
  | some j => setEntry j { s.entries[j] with pred := none } s

/-- One entry becomes VOID, its successor apart (R122). A cut that a stamp event has already set stays in the entry, which R121 and R122
leave open. DESIGN CHOICE (log 42). -/
def voidOne (i : Fin 32) (r : VoidReason) (s : State) : State :=
  let e := s.entries[i]
  let s1 := withdrawSlot i (setEntry i { e with state := .void, reason := some r, pred := none } s)
  clearLink e.pred (raise .auctionVoid (handRecord (.void (voidBody i e r)) s1))

/-- An entry becomes VOID and its successors after it, at most `fuel` entries in all (R122). -/
def voidChain : Nat → Fin 32 → VoidReason → State → State
  | 0, _, _, s => s
  | fuel + 1, i, r, s =>
    match s.entries[i].link with
    | none => voidOne i r s
    | some j => voidChain fuel j .predecessor (voidOne i r s)

/-- An entry becomes VOID: a chain of 32 slots without a loop has at most 32 entries (R119, R122). -/
def voidEntry (i : Fin 32) (r : VoidReason) (s : State) : State := voidChain 32 i r s

/-! ### The draw (R117, R125) -/

/-- The draw of an entry that has become DRAWING: a share and a DRAW frame where W is above 0, the grade is not FREE and the random
source passed its test. The share is a free value (log 6). -/
def drawShare (i : Fin 32) (s : State) : State :=
  let e := s.entries[i]
  if 0 < e.window ∧ s.steer.grade ≠ .free ∧ s.port.selfTest.randomFail = false then
    let x := Config.randomShare s.fresh
    let s1 := setEntry i { e with drawn := true, ownShare := some x } { s with fresh := s.fresh + 1 }
    requestFrame i false (.draw ⟨s.cfg.stationId, e.group, e.tn.getD 0, x⟩) s1
  else s

/-- ARMED to DRAWING (R125). -/
def drawEntry (i : Fin 32) (s : State) : State :=
  drawShare i (setEntry i { s.entries[i] with state := .drawing } s)

/-- DRAW_INSTANT: the entry is ARMED and the present time is at or after Tn − L (R12, R125; log 4). -/
def execDrawInstant (i : Fin 32) (s : State) : Host.Outcome State Fault Refusal :=
  if s.entries[i].state = .armed ∧ s.entries[i].drawAt ≤ s.clock.present then .next (drawEntry i s) else .next s

/-! ### The tally (R127) -/

/-- The member set: own id if drawn, and each peer with a share (R127). -/
def memberSet (own : Nat) (e : Entry) : BitVec 16 :=
  if e.drawn then addTo own (keySet e.shares) else keySet e.shares

/-- The sum of the shares of the members (R127). -/
def shareSum (e : Entry) : Nat :=
  (if e.drawn then (e.ownShare.map BitVec.toNat).getD 0 else 0) + (e.shares.map (fun p => p.2.toNat)).sum

/-- The own offset: the sum modulo 2^32, then modulo W; 0 for no members (R127). -/
def ownOffset (e : Entry) : Nat := shareSum e % 4294967296 % e.window

/-- DRAWING to TALLYING (R127). -/
def tallyEntry (i : Fin 32) (s : State) : State :=
  let e := s.entries[i]
  let s1 := withdrawKind i false s
  if e.window = 0 then setEntry i { e with state := .tallying } s1
  else
    let m := memberSet s.cfg.stationId e
    let o := ownOffset e
    requestFrame i true (.tally ⟨s.cfg.stationId, e.group, e.tn.getD 0, m, o⟩)
      (setEntry i { e with state := .tallying, members := m, tallies := putKey s.cfg.stationId (.tally m o) e.tallies } s1)

/-- TALLY_INSTANT: the entry is DRAWING and the present time is at or after Tn − S (R12, R127; log 4). -/
def execTallyInstant (i : Fin 32) (s : State) : Host.Outcome State Fault Refusal :=
  if s.entries[i].state = .drawing ∧ s.entries[i].tallyAt ≤ s.clock.present then .next (tallyEntry i s) else .next s

/-! ### The fix (R129, R130) -/

/-- The tallies counted: every one that is not DROPPED, as member set and offset (R129). -/
def counted (e : Entry) : List (BitVec 16 × Nat) :=
  e.tallies.filterMap (fun p => match p.2 with | .tally m o => some (m, o) | .dropped => none)

/-- The count of an offset (R129). -/
def offsetCount (ts : List (BitVec 16 × Nat)) (o : Nat) : Nat := ts.countP (fun t => decide (t.2 = o))

/-- The size of the largest member set among the tallies of an offset (R129). -/
def offsetMembers (ts : List (BitVec 16 × Nat)) (o : Nat) : Nat :=
  ((ts.filter (fun t => decide (t.2 = o))).map (fun t => setSize t.1)).foldl max 0

/-- Offset `a` is chosen before offset `b`: higher count, then larger member set, then smaller value (R129). -/
def offsetBetter (ts : List (BitVec 16 × Nat)) (a b : Nat) : Bool :=
  if offsetCount ts a ≠ offsetCount ts b then decide (offsetCount ts b < offsetCount ts a)
  else if offsetMembers ts a ≠ offsetMembers ts b then decide (offsetMembers ts b < offsetMembers ts a)
  else decide (a < b)

/-- The best offset among the tallies, starting from the own one (R129). -/
def bestOffset (ts : List (BitVec 16 × Nat)) (own : Nat) : Nat :=
  ts.foldl (fun best t => if offsetBetter ts t.2 best then t.2 else best) own

/-- The own offset: the offset of the own tally (R127, R129). -/
def ownTallyOffset (own : Nat) (e : Entry) : Nat :=
  match e.tallies.lookup own with
  | some (.tally _ o) => o
  | _ => 0

/-- Offset, status and agreeing count settled at the fix (R129). -/
def settle (own : Nat) (e : Entry) : Nat × FixStatus × Nat :=
  if e.window = 0 then (0, .noWindow, 0)
  else
    let ts := counted e
    let o := ownTallyOffset own e
    if e.quorum ≤ offsetCount ts o then (o, .agreed, offsetCount ts o)
    else
      let b := bestOffset ts o
      if e.quorum ≤ offsetCount ts b then (b, .adopted, offsetCount ts b) else (b, .split, offsetCount ts b)

/-- The FIX body of an entry as it stands (R135). -/
def fixBody (i : Fin 32) (e : Entry) (s : State) : FixBody where
  slot := i
  group := e.group
  tn := e.tn.getD 0
  window := e.window
  offset := e.offset.getD 0
  status := e.status.getD .noWindow
  members := e.members
  agreeing := e.agreeing
  counted := (counted e).length
  drawn := e.drawn
  share := e.ownShare.getD 0
  conflicts := e.conflicts
  grade := s.steer.grade
  bound := s.steer.bound

/-- An entry has become FIXED: its FIX record and the flag AUCTION_FIXED (R130, R132). -/
def recordFix (i : Fin 32) (s : State) : State :=
  raise .auctionFixed (handRecord (.fix (fixBody i s.entries[i] s)) s)

/-- The entry with its offset, status, agreeing count and Tc settled (R129, R130). The Tc of a linked successor can pass the largest time,
which R2 leaves to the rule that adds and R130 and R132 give no outcome for; the sum stands. DESIGN CHOICE (log 43). -/
def Entry.settled (own : Nat) (e : Entry) : Entry :=
  let r := settle own e
  { e with offset := some r.1, status := some r.2.1, agreeing := r.2.2, tc := some (e.tn.getD 0 + r.1) }

/-- TALLYING to FIXED, or to VOID where Tc is below the floor (R129, R130). -/
def fixEntry (i : Fin 32) (s : State) : State :=
  let e := s.entries[i].settled s.cfg.stationId
  let s1 := withdrawKind i true s
  if s.stamp.floor ≤ e.tcNs then
    let s2 := recordFix i (setEntry i { e with state := .fixed } s1)
    if e.status = some .adopted ∨ e.status = some .split then raise .disagree s2 else s2
  else voidEntry i .behindFloor (setEntry i e s1)

/-- FIX_INSTANT: the entry is TALLYING and the present time is at or after Tn − E (R12, R129; log 4). -/
def execFixInstant (i : Fin 32) (s : State) : Host.Outcome State Fault Refusal :=
  if s.entries[i].state = .tallying ∧ s.entries[i].fixAt ≤ s.clock.present then .next (fixEntry i s) else .next s

/-! ### The close and the links (R131, R132) -/

/-- The CLOSE body of an entry as it stands (R135). -/
def closeBody (i : Fin 32) (e : Entry) (s : State) : CloseBody where
  slot := i
  group := e.group
  tc := e.tc.getD 0
  cut := e.cut
  late := e.late
  grade := s.steer.grade
  bound := s.steer.bound

/-- FIXED to CLOSED: the close notice, the CLOSE record and AUCTION_CLOSED; the link apart (R131 stages 1 to 3). -/
def closeOne (i : Fin 32) (s : State) : State :=
  let s1 := closeNotice i (setEntry i { s.entries[i] with state := .closed } s)
  raise .auctionClosed (handRecord (.close (closeBody i s1.entries[i] s1)) s1)

/-- The successor's entry once its Tn is known (R132). -/
def Entry.withTn (tn : Nat) (e : Entry) : Entry := { e with tn := some tn }

/-- The successor armed late: FIXED at once with offset 0 and status LATE (R132). -/
def Entry.fixedLate (tn : Nat) (e : Entry) : Entry :=
  { e with state := .fixed, tn := some tn, offset := some 0, status := some .late, agreeing := 0, tc := some tn }

/-- An entry closes, and its successor is armed, which may close at once in its turn; at most `fuel` entries in all (R131, R132). -/
def closeChain : Nat → Fin 32 → State → State
  | 0, _, s => s
  | fuel + 1, i, s =>
    let s1 := closeOne i s
    match s.entries[i].link with
    | none => s1
    | some j =>
      let e := s1.entries[j]
      if e.state ≠ .held then s1
      else
        let tn := s.entries[i].tc.getD 0 + s.entries[i].linkDelay
        let e1 := e.withTn tn
        if maxTn < tn then voidEntry j .range s1
        else if tn * 1000000 < s1.stamp.floor then voidEntry j .behindFloor (setEntry j e1 s1)
        else if s1.clock.present < e1.drawAt then setEntry j { e1 with state := .armed } s1
        else if s1.clock.present < e1.tallyAt then drawShare j (setEntry j { e1 with state := .drawing } s1)
        else
          let s2 := recordFix j (setEntry j (e.fixedLate tn) s1)
          if tn * fineMs ≤ s2.clock.present then closeChain fuel j s2 else s2

/-- An entry closes: a chain of 32 slots without a loop has at most 32 entries (R119, R131). -/
def closeEntry (i : Fin 32) (s : State) : State := closeChain 32 i s

/-- CLOSE_INSTANT: the entry is FIXED and the present time is at or after Tc (R12, R131; log 4). -/
def execCloseInstant (i : Fin 32) (s : State) : Host.Outcome State Fault Refusal :=
  if s.entries[i].state = .fixed ∧ s.entries[i].closeAt ≤ s.clock.present then .next (closeEntry i s) else .next s

/-! ### Reports (R126, R128) -/

/-- The slot of the entry a report of group and Tn is matched to (R126). -/
def matchEntry (group : BitVec 16) (tn : Nat) (s : State) : Option (Fin 32) :=
  let slots := List.finRange 32
  match slots.find? (fun i => decide (s.entries[i].group = group ∧ s.entries[i].tn = some tn) && s.entries[i].state.live) with
  | some i => some i
  | none =>
    slots.find? (fun i => decide (s.entries[i].group = group ∧ s.entries[i].tn = some tn
      ∧ (s.entries[i].state = .closed ∨ s.entries[i].state = .void)))

/-- A share from a peer at an entry that takes shares: stored, ignored, or a conflict (R126). -/
def Entry.takeShare (p : Nat) (x : BitVec 32) (e : Entry) : Entry :=
  if inSet p e.conflicts then e
  else
    match e.shares.lookup p with
    | none => { e with shares := putKey p x e.shares }
    | some y => if x = y then e else { e with conflicts := addTo p e.conflicts, shares := dropKey p e.shares }

/-- The effect of a draw report on the entry it matches (R126). -/
def Entry.drawReport (p : Nat) (x : BitVec 32) (e : Entry) : Entry :=
  match e.state with
  | .armed => if 0 < e.window then e.takeShare p x else e.countLate
  | .drawing => if 0 < e.window then e.takeShare p x else e.countLate
  | .tallying => e.countLate
  | .fixed => e.countLate
  | .closed => e.countLate
  | .void => e
  | .free => e
  | .held => e

/-- A tally from a peer at an entry that takes tallies (R128). -/
def Entry.takeTally (p : Nat) (m : BitVec 16) (o : Nat) (e : Entry) : Entry :=
  match e.tallies.lookup p with
  | none => { e with tallies := putKey p (.tally m o) e.tallies }
  | some .dropped => e
  | some (.tally m' o') => if m = m' ∧ o = o' then e else { e with tallies := putKey p .dropped e.tallies }

/-- The effect of a tally report on the entry it matches (R128). -/
def Entry.tallyReport (p : Nat) (m : BitVec 16) (o : Nat) (e : Entry) : Entry :=
  match e.state with
  | .drawing => if 0 < e.window ∧ o < e.window then e.takeTally p m o else e.countLate
  | .tallying => if 0 < e.window ∧ o < e.window then e.takeTally p m o else e.countLate
  | .armed => e.countLate
  | .fixed => e.countLate
  | .closed => e.countLate
  | .void => e
  | .free => e
  | .held => e

/-- A draw report reaches the Auction Unit (R126, R27). -/
def drawReport (d : Draw) (s : State) : State :=
  match matchEntry d.group d.tn s with
  | none => s
  | some i => setEntry i (s.entries[i].drawReport d.sender d.share) s

/-- A tally report reaches the Auction Unit (R128, R27). -/
def tallyReport (t : TallyFrame) (s : State) : State :=
  match matchEntry t.group t.tn s with
  | none => s
  | some i => setEntry i (s.entries[i].tallyReport t.sender t.members t.offset) s

/-! ### Commands on entries (R119 to R124) -/

/-- The chain of links followed from a slot, for at most `fuel` links, reaches `target` (R119 test 5). -/
def chainReaches (s : State) (target : Fin 32) : Nat → Fin 32 → Bool
  | 0, _ => false
  | fuel + 1, j =>
    decide (j = target) ||
      match s.entries[j].link with
      | none => false
      | some k => chainReaches s target fuel k

/-- The range test of ARM_AUCTION (R119 test 2). -/
def ArmFields.inRange (a : ArmFields) : Bool :=
  decide (a.slot ≤ 31 ∧ a.group ≠ 0 ∧ a.window ≤ 3600000 ∧ a.leadS + 1000 ≤ a.leadL ∧ a.leadE + 500 ≤ a.leadS ∧ 100 ≤ a.leadE
    ∧ a.leadL ≤ 86400000 ∧ a.quorum ≤ 16 ∧ a.start ≤ 1 ∧ (a.link = 255 ∨ a.link ≤ 31) ∧ a.linkDelay ≤ 86400000
    ∧ (a.start = 0 → a.tn + a.window ≤ maxTn))

/-- The link target is HELD, has no predecessor, and its chain does not reach the slot (R119 test 5). -/
def linkFree (i : Fin 32) (target : Option (Fin 32)) (s : State) : Bool :=
  match target with
  | none => true
  | some j => decide (s.entries[j].state = .held ∧ s.entries[j].pred = none) && !chainReaches s i 33 j

/-- Some live entry has the group (R119 test 4). -/
def groupLive (g : BitVec 16) (s : State) : Bool := s.entries.toList.any (fun e => decide (e.group = g) && e.state.live)

/-- The status of an ARM_AUCTION for a slot that exists: the first of tests 3 to 6 that fails (R119). -/
def armStatus (i : Fin 32) (a : ArmFields) (s : State) : Status :=
  if s.entries[i].state ≠ .free then .busy
  else if groupLive (BitVec.ofNat 16 a.group) s then .busy
  else if linkFree i a.linkSlot s = false then .refusedState
  else if a.start = 0 ∧ ((a.tn - a.leadL) * fineMs ≤ s.clock.present ∨ a.tn * 1000000 < s.stamp.floor) then .refusedRange
  else .ok

/-- The entry an accepted ARM_AUCTION fills in (R120). -/
def armedEntry (a : ArmFields) (defaultQuorum : Nat) : Entry :=
  { Entry.freed with
    state := if a.start = 0 then .armed else .held
    group := BitVec.ofNat 16 a.group
    tn := if a.start = 0 then some a.tn else none
    window := a.window
    leadL := a.leadL
    leadS := a.leadS
    leadE := a.leadE
    quorum := if a.quorum = 0 then defaultQuorum else a.quorum
    link := a.linkSlot
    linkDelay := a.linkDelay }

/-- The link target's predecessor becomes the slot (R120). -/
def setPred (i : Fin 32) (target : Option (Fin 32)) (s : State) : State :=
  match target with
  | none => s
  | some j => setEntry j { s.entries[j] with pred := some i } s

/-- ARM_AUCTION with a body of the right length (R119, R120). -/
def armAuction (body : Bytes) (s : State) : State :=
  let a := armFields body
  if clockSet s = false then respond .refusedState [] s
  else if a.inRange = false then respond .refusedRange [] s
  else
    match slotOf a.slot with
    | none => respond .refusedRange [] s
    | some i =>
      match armStatus i a s with
      | .ok => respond .ok [] (setPred i a.linkSlot (setEntry i (armedEntry a s.cfg.quorum) s))
      | st => respond st [] s

/-- ARM_AUCTION (R119, R120). -/
def execArmAuction (body : Bytes) (s : State) : Host.Outcome State Fault Refusal := .next (onCommand 34 body (armAuction body) s)

/-- A command that names a slot: REFUSED_RANGE above 31 (R121, R123, R124). -/
def onSlot (body : Bytes) (run : Fin 32 → State → State) (s : State) : State :=
  match slotOf (field 0 1 body) with
  | none => respond .refusedRange [] s
  | some i => run i s

/-- CANCEL_AUCTION of a slot (R121). -/
def cancelSlot (i : Fin 32) (s : State) : State :=
  if s.entries[i].state.live then respond .ok [] (voidEntry i .cancelled s) else respond .refusedState [] s

/-- CANCEL_AUCTION (R121). -/
def execCancelAuction (body : Bytes) (s : State) : Host.Outcome State Fault Refusal :=
  .next (onCommand 1 body (onSlot body cancelSlot) s)

/-- A CLOSED or VOID entry returns to FREE, its links at both ends cleared and its waiting frames withdrawn (R123, R19). -/
def releaseEntry (i : Fin 32) (s : State) : State :=
  let e := s.entries[i]
  setEntry i Entry.freed (clearLink e.pred (clearPred e.link (withdrawSlot i s)))

/-- RELEASE_AUCTION of a slot (R123). -/
def releaseSlot (i : Fin 32) (s : State) : State :=
  if s.entries[i].state = .closed ∨ s.entries[i].state = .void then respond .ok [] (releaseEntry i s)
  else respond .refusedState [] s

/-- RELEASE_AUCTION (R123). -/
def execReleaseAuction (body : Bytes) (s : State) : Host.Outcome State Fault Refusal :=
  .next (onCommand 1 body (onSlot body releaseSlot) s)

/-- A tally in a map: a station set and a 4-byte offset (R183). -/
def Tally.bytes : Tally → Bytes
  | .tally m o => setBytes m ++ le 4 o
  | .dropped => setBytes 0 ++ le 4 max32

/-- Every field of an entry, in the order of the table of section 8.1 (R124, R183; log 24). -/
def entryReport (i : Fin 32) (e : Entry) : Bytes :=
  le 1 i.val ++ le 1 e.state.code ++ le 2 e.group.toNat ++ optBytes 8 (le 8) e.tn ++ le 4 e.window ++ le 4 e.leadL
    ++ le 4 e.leadS ++ le 4 e.leadE ++ le 1 e.quorum ++ optBytes 1 (fun j : Fin 32 => le 1 j.val) e.link ++ le 4 e.linkDelay
    ++ optBytes 1 (fun j : Fin 32 => le 1 j.val) e.pred ++ flagBytes e.drawn
    ++ optBytes 4 (fun x : BitVec 32 => le 4 x.toNat) e.ownShare
    ++ setBytes (keySet e.shares) ++ e.shares.flatMap (fun p => le 4 p.2.toNat) ++ setBytes e.conflicts ++ setBytes e.members
    ++ setBytes (keySet e.tallies) ++ e.tallies.flatMap (fun p => p.2.bytes) ++ le 2 e.late ++ optBytes 4 (le 4) e.offset
    ++ optBytes 1 (fun x : FixStatus => le 1 x.code) e.status ++ le 1 e.agreeing ++ optBytes 8 (le 8) e.tc
    ++ optBytes 8 (le 8) e.cut ++ optBytes 1 (fun x : VoidReason => le 1 x.code) e.reason

/-- READ_AUCTION (R124). -/
def execReadAuction (body : Bytes) (s : State) : Host.Outcome State Fault Refusal :=
  .next (onCommand 1 body (onSlot body (fun i s => respond .ok (entryReport i s.entries[i]) s)) s)

/-! ### The protected span (R71, R133) -/

/-- The stretch of exchange time an entry gives, both ends included, as time counts; absent for FREE, HELD, CLOSED and VOID. -/
def Entry.stretch (e : Entry) : Option (Nat × Nat) :=
  match e.state with
  | .armed => some (e.drawAt, (e.tn.getD 0 + (e.window - 1)) * fineMs)
  | .drawing => some (e.drawAt, (e.tn.getD 0 + (e.window - 1)) * fineMs)
  | .tallying => some (e.drawAt, (e.tn.getD 0 + (e.window - 1)) * fineMs)
  | .fixed => some (e.drawAt, e.closeAt)
  | .free => none
  | .held => none
  | .closed => none
  | .void => none

/-- The entry forbids a step from `present` to `after` (R71). -/
def Entry.forbids (present after : Nat) (e : Entry) : Bool :=
  match e.state with
  | .drawing => true
  | .tallying => true
  | .fixed => true
  | .armed =>
    decide (e.drawAt ≤ present) ||
      match e.stretch with
      | some (lo, hi) => decide (lo ≤ max present after ∧ min present after ≤ hi)
      | none => false
  | .free => false
  | .held => false
  | .closed => false
  | .void => false

/-- The protected-span test forbids a step of `a` fine units now (R71). -/
def stepForbidden (a : Int) (s : State) : Bool :=
  s.entries.toList.any (fun e => e.forbids s.clock.present (steppedTime s.clock.present a))

/-! ### Warm reset and counts (R136, R137) -/

/-- An entry that a warm reset voids (R136). -/
def EntryState.exchanging : EntryState → Bool
  | .drawing => true | .tallying => true
  | .free => false | .held => false | .armed => false | .fixed => false | .closed => false | .void => false

/-- The entries in DRAWING or TALLYING become VOID with reason RESET, by rising slot (R136, log 20). -/
def voidExchanging (s : State) : State :=
  (List.finRange 32).foldl (fun s i => if s.entries[i].state.exchanging then voidEntry i .reset s else s) s

/-- The count of entries in each of the eight states, in the order of their codes (R137). -/
def entryCounts (s : State) : List Nat :=
  (List.range 8).map (fun c => s.entries.toList.countP (fun e => decide (e.state.code = c)))

end Sys2Proof.Machine
end

