-- ==== Sys2Proof/Machine/Steps.lean ====
section
/-! DEFINITION. A step the Steering Unit takes or defers, with the step reports that follow from it (R34, R53, R71 to R73, R81). -/

namespace Sys2Proof.Machine

/-- The step report at the Peer Measurement Unit: every estimate's validity becomes NONE (R34). -/
def peersAfterStep (ps : List Peer) : List Peer := ps.map (fun p => { p with valid := false })

/-- The step report at the Reference Input Unit: a θ_ref that is present is reduced by the applied amount (R53). -/
def refAfterStep (applied : Int) (r : Reference) : Reference := { r with theta := r.theta.map (fun t => t - applied) }

/-- The Steering Unit once a step is applied (R72). -/
def Steering.stepped (x : Steering) : Steering :=
  { x with state := .acquire, lockRun := 0, unlockRun := 0, rp := 0, incomplete := false, rateLimit := false,
           stepDeferred := false }

/-- A step of `a` that passed the test is taken: clock, Steering Unit, rate, step reports, STEP record and flag (R72). -/
def takeStep (a : Int) (cause : StepCause) (s : State) : State :=
  let applied := appliedAmount s.clock.present a
  let s1 := stepClock a s
  let s2 := { s1 with
    steer := s1.steer.stepped
    clock.rate := s1.steer.rf
    peers := peersAfterStep s1.peers
    ref := refAfterStep applied s1.ref }
  raise .step
    (handRecord
      (.step { kind := .taken, cause := cause, before := s.steer.state, after := .acquire, requested := a, applied := applied,
               timeBefore := s.clock.present, timeAfter := s2.clock.present }) s2)

/-- Deferral begins: a STEP record of kind DEFERRED, amount applied 0 (R73). -/
def recordDeferral (a : Int) (s : State) : State :=
  raise .step
    (handRecord
      (.step { kind := .deferred, cause := .combination, before := s.steer.state, after := s.steer.state, requested := a,
               applied := 0, timeBefore := s.clock.present, timeAfter := s.clock.present }) s)

/-- A step asked for outside a steering instant, in COLD: it is taken where the test passes, which it does in every state a run
reaches (R78, R79; log 30). -/
def stepInCold (a : Int) (cause : StepCause) (s : State) : State :=
  if stepForbidden a s then s else takeStep a cause s

end Sys2Proof.Machine
end

