-- ==== Sys2Proof/Machine/Peers.lean ====
section
/-! DEFINITION. The Peer Measurement Unit: the Peer Table, beacon reports, estimates, its part of a steering instant, READ_PEER
(chapter 03). -/

namespace Sys2Proof.Machine

/-- A record as START builds it (R30). -/
def Peer.fresh (id : Nat) : Peer where
  id := id
  state := .absent
  mark := false
  latest := none
  age := 0
  grade := .free
  bound := max32
  steer := .cold
  pairing := none
  miss := 0
  estimate := none
  valid := false
  disagree := 0
  agree := 0

/-- The Peer Table as START builds it: one record for each member other than the station, in ascending id (R30). -/
def buildPeers (c : Settings) : List Peer :=
  ((List.range 16).filter (fun i => inSet i c.membership && !decide (i = c.stationId))).map Peer.fresh

/-- The record for a peer. -/
def findPeer (id : Nat) (s : State) : Option Peer := s.peers.find? (fun p => decide (p.id = id))

/-- Put a record in the place of the one with its id. -/
def putPeer (p : Peer) (s : State) : State := { s with peers := s.peers.map (fun q => if q.id = p.id then p else q) }

/-- The body of a PEER record of event kind STATE, from the record after the change (R43). -/
def peerBody (old : PeerState) (cause : PeerCause) (p : Peer) : PeerBody where
  id := p.id
  old := old
  new := p.state
  cause := cause
  estimate := p.estimate
  valid := p.valid
  disagree := p.disagree
  agree := p.agree
  miss := p.miss
  seq := (p.latest.map LatestBeacon.seq).getD 0
  grade := p.grade

/-- A record has changed from state `old`: it is put in place, and where its state differs a PEER record is made and the PEER flag set
(R43). -/
def commitPeer (old : PeerState) (cause : PeerCause) (p : Peer) (s : State) : State :=
  let s1 := putPeer p s
  if p.state = old then s1 else raise .peer (handRecord (.peer (peerBody old cause p)) s1)

/-! ### Beacon reports (sections 3.2 to 3.4) -/

/-- The result of looking a receipt up in the beacon history (R26). -/
inductive ReceiptResult where
  | matched (own : BitVec 16) (t3 t4 : Nat)
  | unmatched
  | none
  deriving DecidableEq, Repr

/-- The offset and delay of two crossings, each halved toward negative infinity (R33). -/
def estimateOf (t1 t2 t3 t4 : Nat) : Estimate where
  theta := (((t4 : Int) - t3) - ((t2 : Int) - t1)) / 2
  delay := (((t4 : Int) - t3) + ((t2 : Int) - t1)) / 2

/-- The record takes a beacon as its latest, with the values it advertises (R31). -/
def Peer.takeBeacon (b : Beacon) (t2 : Nat) (p : Peer) : Peer :=
  { p with latest := some ⟨b.seq, b.t1, t2⟩, grade := b.grade, bound := b.bound, steer := b.steer, age := 0 }

/-- The record's pairing, estimate and miss run after a receipt result (R32, R33). -/
def Peer.takeReceipt (t1 t2 : Nat) (r : ReceiptResult) (p : Peer) : Peer :=
  match r with
  | .matched own t3 t4 =>
    { p with pairing := some ⟨own, t3, t4⟩, miss := 0, estimate := some (estimateOf t1 t2 t3 t4), valid := true }
  | _ =>
    match p.pairing with
    | none => { p with miss := min (p.miss + 1) 4 }
    | some _ =>
      if 4 ≤ p.miss + 1 then { p with pairing := none, estimate := none, valid := false, miss := 0 }
      else { p with miss := p.miss + 1 }

/-- The state a beacon report moves a record to (R35). -/
def Peer.heardState (p : Peer) : PeerState :=
  match p.pairing with
  | none => .heard
  | some _ => if p.mark then .excluded else .paired

/-- The cause of a change on a beacon report (R43). -/
def beaconCause (old new : PeerState) : PeerCause :=
  match old, new with
  | .absent, .heard => .heardFirst
  | .silent, .heard => .returnedUnpaired
  | .paired, .heard => .pairingLost
  | .excluded, .heard => .pairingLost
  | _, _ => .pairingGained

/-- The record after a beacon report (R31, R32, R35). -/
def Peer.onBeacon (b : Beacon) (t2 : Nat) (r : ReceiptResult) (p : Peer) : Peer :=
  let q := (p.takeBeacon b t2).takeReceipt b.t1 t2 r
  { q with state := q.heardState }

/-- A beacon report is handled whole at its arrival (section 3.2). -/
def beaconReport (b : Beacon) (t2 : Nat) (r : ReceiptResult) (s : State) : State :=
  match findPeer b.sender s with
  | none => s
  | some p =>
    let q := p.onBeacon b t2 r
    commitPeer p.state (beaconCause p.state q.state) q s

/-! ### The steering instant (section 3.5) -/

/-- The delay lies between 0 and D_max (R36). -/
def delayOk (c : Settings) (d : Int) : Bool := decide (0 ≤ d ∧ d ≤ (c.delayBound * 256 : Nat))

/-- The record's estimate is usable (R36). -/
def Peer.usable (c : Settings) (p : Peer) : Bool :=
  decide (p.state = .paired ∨ p.state = .excluded) && p.valid && decide (p.age ≤ 1)
    && (match p.estimate with | some e => delayOk c e.delay | none => false)
    && (decide (p.grade ≠ .free) || decide (p.steer ≠ .cold))

/-- An entry of the source list (R37). -/
structure PeerSource where
  id : Nat
  theta : Int
  delay : Int
  grade : Grade
  bound : Nat
  excluded : Bool
  deriving DecidableEq, Repr

/-- The entry of a usable record (R37). -/
def Peer.source (c : Settings) (p : Peer) : Option PeerSource :=
  if p.usable c then
    match p.estimate with
    | some e => some ⟨p.id, e.theta, e.delay, p.grade, p.bound, decide (p.state = .excluded)⟩
    | none => none
  else none

/-- The source list, in ascending id, which is also the snapshot of the instant (R37). -/
def sourceList (s : State) : List PeerSource := s.peers.filterMap (Peer.source s.cfg)

/-- An offset lies outside D_x of the correction (R38, R55). -/
def disagrees (c : Settings) (theta correction : Int) : Bool := decide (((c.disagreeLimit * 256 : Nat) : Int) < |theta - correction|)

/-- The runs after a judging (R38). -/
def Peer.judgedRuns (out : Bool) (p : Peer) : Peer :=
  if out then { p with disagree := min (p.disagree + 1) 255, agree := 0 }
  else { p with agree := min (p.agree + 1) 255, disagree := 0 }

/-- Exclusion at a disagree run of 4, readmission at an agree run of 4 (R39, R40). -/
def Peer.judgedState (p : Peer) : Peer :=
  if p.state = .paired ∧ 4 ≤ p.disagree then { p with state := .excluded, mark := true }
  else if p.state = .excluded ∧ 4 ≤ p.agree then { p with state := .paired, mark := false }
  else p

/-- One entry of the snapshot is judged against C (R38 to R40). -/
def judgePeer (correction : Int) (s : State) (e : PeerSource) : State :=
  match findPeer e.id s with
  | none => s
  | some p =>
    let q := (p.judgedRuns (disagrees s.cfg e.theta correction)).judgedState
    commitPeer p.state (if q.state = .excluded then .exclusion else .readmission) q s

/-- The record with its age advanced, SILENT at 2 and ABSENT at 8 (R41, R42). -/
def Peer.aged (p : Peer) : Peer :=
  match p.latest with
  | none => p
  | some _ =>
    let age := min (p.age + 1) 8
    let q := { p with age := age }
    match p.state with
    | .heard => if 2 ≤ age then { q with state := .silent } else q
    | .paired => if 2 ≤ age then { q with state := .silent } else q
    | .excluded => if 2 ≤ age then { q with state := .silent } else q
    | .silent =>
      if 8 ≤ age then
        { q with state := .absent, pairing := none, estimate := none, valid := false, miss := 0, disagree := 0, agree := 0,
                 mark := false, grade := .free, bound := max32, steer := .cold }
      else q
    | .absent => q

/-- One record's age is advanced (R41). -/
def agePeer (s : State) (id : Nat) : State :=
  match findPeer id s with
  | none => s
  | some p => commitPeer p.state (if p.aged.state = .absent then .absence else .silence) p.aged s

/-- The Peer Measurement Unit's part of a steering instant once the outcome is known: the judging of the snapshot where there is a
correction, then the ageing, each by ascending id (section 3.5; log 20). -/
def peersAtInstant (snapshot : List PeerSource) (correction : Option Int) (s : State) : State :=
  let s1 :=
    match correction with
    | none => s
    | some c => snapshot.foldl (judgePeer c) s
  (s1.peers.map Peer.id).foldl agePeer s1

/-! ### READ_PEER and the sets of a checkpoint (R45) -/

/-- The set of the peers in a state. -/
def peersIn (st : PeerState) (s : State) : BitVec 16 :=
  s.peers.foldl (fun b p => if p.state = st then addTo p.id b else b) 0

/-- The count of records in each of the five states, in the order of their codes (R45). -/
def peerCounts (s : State) : List Nat :=
  (List.range 5).map (fun c => s.peers.countP (fun p => decide (p.state.code = c)))

/-- Every field of a record, in the order of the table of section 3.1, and whether its estimate would now be usable (R45, R183;
log 24). -/
def peerReport (c : Settings) (p : Peer) : Bytes :=
  le 1 p.id ++ le 1 p.state.code ++ flagBytes p.mark
    ++ optBytes 24 (fun b : LatestBeacon => le 2 b.seq.toNat ++ timeBytes b.t1 ++ timeBytes b.t2) p.latest
    ++ le 1 p.age ++ le 1 p.grade.code ++ le 4 p.bound ++ le 1 p.steer.code
    ++ optBytes 24 (fun b : Pairing => le 2 b.seq.toNat ++ timeBytes b.t3 ++ timeBytes b.t4) p.pairing
    ++ le 1 p.miss ++ optBytes 16 (fun e : Estimate => amountBytes e.theta ++ amountBytes e.delay) p.estimate
    ++ flagBytes p.valid ++ le 1 p.disagree ++ le 1 p.agree ++ flagBytes (p.usable c)

/-- READ_PEER with a body of the right length (R45). -/
def readPeer (body : Bytes) (s : State) : State :=
  match s.phase with
  | .config => respond .refusedState [] s
  | .run =>
    match findPeer (field 0 1 body) s with
    | none => respond .refusedRange [] s
    | some p => respond .ok (peerReport s.cfg p) s

/-- READ_PEER (R45). -/
def execReadPeer (body : Bytes) (s : State) : Host.Outcome State Fault Refusal := .next (onCommand 1 body (readPeer body) s)

end Sys2Proof.Machine
end

