-- ==== Sys2Proof/Machine/Reference.lean ====
section
/-! DEFINITION. The Reference Input Unit: labels, edges, the edge timeout, judging (chapter 04), and the qualification report (R79). -/

namespace Sys2Proof.Machine

/-- The unit listens to its lines: in RUN, where a reference is fitted (R47). -/
def refListening (s : State) : Bool := decide (s.phase = .run ∧ s.ref.state ≠ .absent)

/-- LABEL_RECEIVED: a good label becomes the pending label, any other makes it absent (R48); one that was being received at a warm reset
is discarded without being checked (R57; log 39). -/
def execLabelReceived (bytes : Bytes) (s : State) : Host.Outcome State Fault Refusal :=
  if refListening s = false then .next s
  else if s.ref.cutLabel then .next { s with ref.cutLabel := false }
  else .next { s with ref.label := parseLabel bytes }

/-- The clearing at every entry to SEEKING (R51). -/
def Reference.seek (r : Reference) : Reference :=
  { r with state := .seeking, run := 0, prev := none, theta := none, disagree := 0, agree := 0 }

/-- The state is one that an edge timeout, a bad edge or a warm reset leaves for SEEKING (R51, R52, R57). -/
def RefState.tracking : RefState → Bool
  | .qualifying => true | .valid => true | .disputed => true
  | .absent => false | .seeking => false

/-- A change of the reference state from `old`: a REFERENCE record and the REFERENCE flag (R56). -/
def recordReference (old : RefState) (cause : RefCause) (s : State) : State :=
  raise .reference
    (handRecord
      (.reference { old := old, new := s.ref.state, cause := cause, verdict := s.ref.verdict, theta := s.ref.theta,
                    latestGood := s.ref.latestGood, run := s.ref.run, disagree := s.ref.disagree, agree := s.ref.agree }) s)

/-- The record and, where the state was VALID, the demotion that follow a change out of a state (R56, R87; log 23). -/
def leaveState (old : RefState) (cause : RefCause) (s : State) : State :=
  let s1 := recordReference old cause s
  if old = .valid then demote s1 else s1

/-- The oscillator interval since the previous good edge lies within 999,950,000 to 1,000,050,000 oscillator ns (R49 test 4). -/
def intervalOk (osc : Nat) (p : PrevEdge) : Bool :=
  decide (p.osc + oscNs 999950000 ≤ osc ∧ osc ≤ p.osc + oscNs 1000050000)

/-- The verdict on an edge: the first test that fails (R49). -/
def edgeVerdict (osc : Nat) (r : Reference) : Verdict :=
  match r.label with
  | none => .noLabel
  | some l =>
    if l.locked = false then .unlocked
    else
      match r.prev with
      | none => .good
      | some p =>
        if l.second ≠ p.second + 1 then .sequence
        else if intervalOk osc p = false then .interval
        else .good

/-- θ_ref: the labelled time with the cable delay, minus the clock reading (R50), also where its magnitude would pass the largest time
count, which R2 gives no outcome for: DESIGN CHOICE (log 41). -/
def thetaRef (second : Nat) (cableDelay : Int) (present : Nat) : Int :=
  ((second : Int) * 1000000000 + cableDelay) * 256 - (present : Int)

/-- A good edge's measurement: θ_ref, previous edge and latest good second, the pending label consumed (R49, R50). -/
def Reference.goodEdge (second osc present : Nat) (cableDelay : Int) (r : Reference) : Reference :=
  { r with label := none, verdict := .good, theta := some (thetaRef second cableDelay present), prev := some ⟨second, osc⟩,
           latestGood := some second }

/-- The state move of a good edge (R51). -/
def Reference.advanceRun (r : Reference) : Reference :=
  match r.state with
  | .seeking => { r with state := .qualifying, run := 1 }
  | .qualifying => if 3 ≤ r.run then { r with state := .valid, run := 0 } else { r with run := r.run + 1 }
  | .valid => r
  | .disputed => r
  | .absent => r

/-- The qualification report reaches the Steering Unit: in COLD it steps by θ_ref (R79). -/
def qualificationReport (theta : Int) (s : State) : State :=
  if s.steer.state = .cold then stepInCold theta .reference s else s

/-- A good edge (R50, R51); the record of the change to VALID is handed over before the step the qualification report may take, so that
it is on the old scale and numbered before the STEP record (R9 and R140 leave the order open; log 38). -/
def goodEdge (second : Nat) (s : State) : State :=
  let r := (s.ref.goodEdge second s.osc s.clock.present s.cfg.cableDelay).advanceRun
  let s1 := { s with ref := r }
  match s.ref.state, r.state with
  | .seeking, _ => recordReference .seeking .runBegun s1
  | .qualifying, .valid =>
    qualificationReport (thetaRef second s.cfg.cableDelay s.clock.present) (recordReference .qualifying .qualified s1)
  | _, _ => s1

/-- A bad edge (R51). -/
def badEdge (v : Verdict) (s : State) : State :=
  let r := { s.ref with label := none, verdict := v }
  if s.ref.state.tracking then leaveState s.ref.state .badEdge { s with ref := r.seek } else { s with ref := r }

/-- EDGE: the edge is judged and moves the reference state (R49 to R51). -/
def execEdge (s : State) : Host.Outcome State Fault Refusal :=
  if refListening s then
    match edgeVerdict s.osc s.ref, s.ref.label with
    | .good, some l => .next (goodEdge l.second s)
    | v, _ => .next (badEdge v s)
  else .next s

/-- The edge timeout has run out (R52). -/
def edgeTimeoutDue (s : State) : Bool :=
  refListening s && s.ref.state.tracking &&
    match s.ref.prev with
    | some p => decide (p.osc + oscNs 1500000000 ≤ s.osc)
    | none => false

/-- EDGE_TIMEOUT: back to SEEKING with verdict INTERVAL (R52; log 4). -/
def execEdgeTimeout (s : State) : Host.Outcome State Fault Refusal :=
  if edgeTimeoutDue s then
    .next (leaveState s.ref.state .edgeTimeout { s with ref := { s.ref.seek with verdict := .interval } })
  else .next s

/-! ### The steering instant (section 4.5) -/

/-- The runs after a judging (R55). -/
def Reference.judgedRuns (out : Bool) (r : Reference) : Reference :=
  if out then { r with disagree := min (r.disagree + 1) 255, agree := 0 }
  else { r with agree := min (r.agree + 1) 255, disagree := 0 }

/-- The reference is judged against C, VALID or DISPUTED only (R55). -/
def judgeReference (snapshot : Reference) (correction : Int) (s : State) : State :=
  match snapshot.state, snapshot.theta with
  | .valid, some t =>
    let r := s.ref.judgedRuns (disagrees s.cfg t correction)
    if 4 ≤ r.disagree then leaveState .valid .dispute { s with ref := { r with state := .disputed } } else { s with ref := r }
  | .disputed, some t =>
    let r := s.ref.judgedRuns (disagrees s.cfg t correction)
    if 4 ≤ r.agree then leaveState .disputed .agreement { s with ref := { r with state := .valid } } else { s with ref := r }
  | _, _ => s

/-- The unit at a warm reset; `receiving` says that a label is being received, which is discarded (R57; log 39). -/
def refWarmReset (receiving : Bool) (r : Reference) : Reference :=
  if r.state = .absent then r else { r.seek with label := none, cutLabel := r.cutLabel || receiving }

end Sys2Proof.Machine
end

