-- ==== Sys2Proof/Machine/Steering.lean ====
section
/-! DEFINITION. The Steering Unit: sources, class, trimming, correction, grade and bound, slews, steps, the steering instant
(chapters 05 and 06), and SET_TIME. -/

namespace Sys2Proof.Machine

/-! ### Sources (R60) -/

/-- A source of a steering instant; `key` names who gave it: 0 the reference, 1 + id a peer. -/
structure Source where
  key : Nat
  theta : Int
  cls : Grade
  bound : Nat
  deriving DecidableEq, Repr

/-- ceil(d / 2) in whole ns, of a delay in fine units (R60). -/
def halfDelay (d : Int) : Nat := ((d + 511) / 512).toNat

/-- The source a peer's entry gives (R60). -/
def PeerSource.source (e : PeerSource) : Source where
  key := e.id + 1
  theta := e.theta
  cls := e.grade
  bound := min (e.bound + halfDelay e.delay) max32

/-- The source the reference entry gives when it is VALID (R54, R60). -/
def refSource (c : Settings) (r : Reference) : List Source :=
  match r.state, r.theta with
  | .valid, some t => [⟨0, t, .anchored, c.refBound⟩]
  | _, _ => []

/-- The admitted sources (R60). -/
def admittedSources (c : Settings) (r : Reference) (list : List PeerSource) : List Source :=
  refSource c r ++ (list.filter (fun e => !e.excluded)).map PeerSource.source

/-! ### Class, trimming, correction (R61 to R63) -/

/-- Class `a` is `b` or a higher one. -/
def Grade.atLeast (a b : Grade) : Bool := decide (a.code ≤ b.code)

/-- The sources of a class or a higher one. -/
def sourcesOf (c : Grade) (xs : List Source) : List Source := xs.filter (fun x => x.cls.atLeast c)

/-- K = 2f + 1 (R61). -/
def needed (c : Settings) : Nat := 2 * c.faults + 1

/-- c*: the highest class that at least K sources have or exceed (R61). -/
def selectClass (k : Nat) (xs : List Source) : Option Grade :=
  if k ≤ (sourcesOf .anchored xs).length then some .anchored
  else if k ≤ (sourcesOf .agreed xs).length then some .agreed
  else if k ≤ (sourcesOf .holdover xs).length then some .holdover
  else if k ≤ (sourcesOf .free xs).length then some .free
  else none

/-- Source `a` may stand before source `b`: a lower offset, and among equal offsets the free order of the instant (R62, log 7). -/
def sourceBefore (instant : Nat) (a b : Source) : Bool :=
  if a.theta < b.theta then true
  else if b.theta < a.theta then false
  else if Config.tieOrder instant a.key < Config.tieOrder instant b.key then true
  else if Config.tieOrder instant b.key < Config.tieOrder instant a.key then false
  else decide (a.key ≤ b.key)

/-- Put a source in its place in a sorted list. -/
def insertSource (instant : Nat) (x : Source) : List Source → List Source
  | [] => [x]
  | y :: ys => if sourceBefore instant x y then x :: y :: ys else y :: insertSource instant x ys

/-- The sources sorted by ascending offset (R62). -/
def sortSources (instant : Nat) : List Source → List Source
  | [] => []
  | x :: xs => insertSource instant x (sortSources instant xs)

/-- The f lowest and the f highest removed (R62). -/
def trimmed (f : Nat) (xs : List Source) : List Source := (xs.drop f).take (xs.length - 2 * f)

/-- Lowest and highest of the retained offsets, which stand in ascending order. -/
def lowest (xs : List Source) : Int := (xs.head?.map Source.theta).getD 0

def highest (xs : List Source) : Int := (xs.getLast?.map Source.theta).getD 0

/-- C: the midpoint of the extremes of the retained offsets, halved toward negative infinity (R63). -/
def correctionOf (xs : List Source) : Int := (lowest xs + highest xs) / 2

/-- σ: the spread of the retained offsets (R63), also where it would pass the largest time count, which R2 gives no outcome for: DESIGN
CHOICE (log 41). -/
def spreadOf (xs : List Source) : Int := highest xs - lowest xs

/-- What stages 2 and 3 of a steering instant form: the class and the retained sources, or no combination; and the candidate count
(R61 to R63). -/
structure Combination where
  cstar : Option Grade
  candidates : Nat
  retained : List Source
  deriving DecidableEq, Repr

/-- The combination of the admitted sources (R61, R62). -/
def combine (instant : Nat) (c : Settings) (xs : List Source) : Combination :=
  match selectClass (needed c) xs with
  | none => { cstar := none, candidates := xs.length, retained := [] }
  | some g =>
    { cstar := some g, candidates := (sourcesOf g xs).length, retained := trimmed c.faults (sortSources instant (sourcesOf g xs)) }

/-- The reference is among the retained sources (R62). -/
def Combination.refRetained (x : Combination) : Bool := x.retained.any (fun y => decide (y.key = 0))

/-- C where there is a combination (R63, R64). -/
def Combination.correction (x : Combination) : Option Int := x.cstar.map (fun _ => correctionOf x.retained)

/-- The latest outcome an instant sets, its kind apart (R64). -/
def Combination.latest (x : Combination) (kind : OutcomeKind) : Latest :=
  match x.cstar with
  | none =>
    { correction := 0, spread := 0, cstar := none, candidates := x.candidates, retained := 0, kind := kind, refRetained := false }
  | some g =>
    { correction := correctionOf x.retained, spread := spreadOf x.retained, cstar := some g, candidates := x.candidates,
      retained := x.retained.length, kind := kind, refRetained := x.refRetained }

/-! ### Bound and grade (R83 to R86) -/

/-- The drift term: H × P / 10^12, rounded up to whole ns (R84). -/
def driftTerm (c : Settings) : Nat := (c.drift * (c.period * 1000000) + 999999999999) / 1000000000000

/-- The smallest U' among the retained sources (R84). -/
def sourceTerm (xs : List Source) : Nat :=
  match xs with
  | [] => 0
  | x :: ys => (ys.map Source.bound).foldl min x.bound

/-- U after a combination (R84). -/
def boundOf (c : Settings) (xs : List Source) : Nat :=
  min (sourceTerm xs + ((spreadOf xs).toNat + 511) / 512 + ((correctionOf xs).natAbs + 255) / 256 + driftTerm c) max32

/-- The grade after a combination (R85). -/
def gradeOf (c : Settings) (g : Grade) (refRetained : Bool) (u : Nat) : Grade :=
  if refRetained ∧ u ≤ c.limitA then .anchored
  else if g.atLeast .agreed ∧ u ≤ c.limitG then .agreed
  else if g = .holdover ∧ u ≤ c.limitG then .holdover
  else .free

/-- U at an instant without a combination (R86). -/
def grownBound (c : Settings) (u : Nat) : Nat := min (u + driftTerm c) max32

/-- The grade at an instant without a combination (R86). -/
def heldGrade (c : Settings) (old : Grade) (u : Nat) : Grade :=
  if old ≠ .free ∧ u ≤ c.limitG then .holdover else .free

/-- Stage 4: U and the grade, kept in COLD (R83). -/
def formGrade (x : Combination) (s : State) : State :=
  if s.steer.state = .cold then s
  else
    match x.cstar with
    | some g =>
      let u := boundOf s.cfg x.retained
      changeGrade (gradeOf s.cfg g x.refRetained u) .combination { s with steer.bound := u }
    | none =>
      let u := grownBound s.cfg s.steer.bound
      changeGrade (heldGrade s.cfg s.steer.grade u) .noCombination { s with steer.bound := u }

/-! ### Slew (R74 to R76) -/

/-- A value limited to a magnitude with its sign kept (R75). -/
def clampTo (m : Nat) (v : Int) : Int := max (-(m : Int)) (min (m : Int) v)

/-- The rate quotient q: C × 10^12 / (256 × P), toward zero (R74). -/
def rateQuotient (c : Settings) (correction : Int) : Int :=
  (correction * 1000000000000).tdiv ((256 * (c.period * 1000000) : Nat) : Int)

/-- The active bank (R69): the TRACK bank in TRACK, the ACQUIRE bank otherwise in a state that slews. -/
def activeBank (s : State) : Bank :=
  match s.steer.state with
  | .track => s.cfg.trackBank
  | _ => s.cfg.acquireBank

/-- The phase rate before its clamp (R75 step 1). -/
def rawPhase (b : Bank) (q : Int) : Int := q.tdiv ((2 ^ b.gp : Nat) : Int)

/-- The frequency rate before its clamp (R75 step 2). -/
def rawFreq (b : Bank) (rf q : Int) : Int := rf + q.tdiv ((2 ^ b.gi : Nat) : Int)

/-- The combination is slewed with the active bank: R_p, R_f and R, and the two limit flags (R75, R76). -/
def slew (correction : Int) (s : State) : State :=
  let b := activeBank s
  let q := rateQuotient s.cfg correction
  let rp := clampTo b.slewMax (rawPhase b q)
  let rf := clampTo s.cfg.rateMax (rawFreq b s.steer.rf q)
  let r := clampTo s.cfg.rateMax (rf + rp)
  { s with
    steer.rp := rp
    steer.rf := rf
    steer.incomplete := decide (rp ≠ rawPhase b q)
    steer.rateLimit := decide (rf ≠ rawFreq b s.steer.rf q ∨ r ≠ rf + rp)
    clock.rate := r }

/-! ### The apply stage (R65 to R67, R70 to R73, R77) -/

/-- |C| lies above a threshold given in ns (R66). -/
def above (threshold : Nat) (correction : Int) : Bool := decide (threshold * 256 < correction.natAbs)

/-- The lock run moves in ACQUIRE, the unlock run in TRACK, and the state with them (R66). -/
def moveRuns (c : Settings) (correction : Int) (x : Steering) : Steering :=
  match x.state with
  | .acquire =>
    if above c.lockThreshold correction then { x with lockRun := 0 }
    else if 8 ≤ x.lockRun + 1 then { x with state := .track, lockRun := 0 }
    else { x with lockRun := x.lockRun + 1 }
  | .track =>
    if above c.unlockThreshold correction then
      if 3 ≤ x.unlockRun + 1 then { x with state := .acquire, unlockRun := 0 } else { x with unlockRun := x.unlockRun + 1 }
    else { x with unlockRun := 0 }
  | .cold => x
  | .holdover => x

/-- A combination in HOLDOVER is applied as one in ACQUIRE with both runs 0 (R67). -/
def leaveHoldover (x : Steering) : Steering :=
  if x.state = .holdover then { x with state := .acquire, lockRun := 0, unlockRun := 0 } else x

/-- Set the outcome kind of the latest outcome (R64). -/
def setKind (k : OutcomeKind) (s : State) : State :=
  { s with steer.latest := s.steer.latest.map (fun l => { l with kind := k }) }

/-- A combination calls for a step (R70). -/
def callsForStep (c : Settings) (correction : Int) : Bool := decide (c.stepThreshold * 256 ≤ correction.natAbs)

/-- A step is deferred: the combination is slewed, STEP_DEFERRED is set, and a deferral that begins is recorded (R73). -/
def deferStep (correction : Int) (s : State) : State :=
  let s1 := slew correction s
  let s2 := { s1 with steer.stepDeferred := true }
  setKind .deferred (if s.steer.stepDeferred then s2 else recordDeferral correction s2)

/-- A combination is applied outside COLD, once its runs have moved (R70). -/
def applyMoved (correction : Int) (s : State) : State :=
  if callsForStep s.cfg correction then
    if stepForbidden correction s then deferStep correction s
    else takeStep correction .combination (setKind .step s)
  else
    let s1 := slew correction s
    setKind .slew { s1 with steer.stepDeferred := false }

/-- A combination is applied in COLD: a step of C, which passes the test in every state a run reaches (R65; log 30). -/
def applyCold (correction : Int) (s : State) : State :=
  if stepForbidden correction s then s else takeStep correction .combination (setKind .step s)

/-- A combination is applied (R65 to R67, R70). -/
def applyCombination (correction : Int) (s : State) : State :=
  if s.steer.state = .cold then applyCold correction s
  else applyMoved correction { s with steer := moveRuns s.cfg correction (leaveHoldover s.steer) }

/-- Entry to HOLDOVER: the holdover rate if one was captured, no phase rate (R77). -/
def enterHoldover (s : State) : State :=
  let rf := s.steer.holdover.getD s.steer.rf
  { s with
    steer := { s.steer with state := .holdover, lockRun := 0, unlockRun := 0, rf := rf, rp := 0, incomplete := false,
                            rateLimit := false }
    clock.rate := rf }

/-- No combination is applied (R77). -/
def applyNone (s : State) : State :=
  match s.steer.state with
  | .acquire => enterHoldover s
  | .track => enterHoldover s
  | .cold => s
  | .holdover => s

/-! ### Records and checkpoints (R80, R146, R147) -/

/-- The SYNC record of the instant (R80). -/
def recordSync (s : State) : State :=
  match s.steer.latest with
  | none => s
  | some l =>
    handRecord
      (.sync { latest := l, state := s.steer.state, incomplete := s.steer.incomplete, rateLimit := s.steer.rateLimit,
               stepDeferred := s.steer.stepDeferred, rf := s.steer.rf, rp := s.steer.rp }) s

/-- The snapshot a CHECKPOINT carries (R146). -/
def checkpointBody (cause : CheckpointCause) (s : State) : CheckpointBody where
  cause := cause
  state := s.steer.state
  rf := s.steer.rf
  rp := s.steer.rp
  holdover := s.steer.holdover
  nextSeq := s.stamp.nextSeq
  paired := peersIn .paired s
  excluded := peersIn .excluded s
  ref := s.ref.state
  entries := entryCounts s
  held := s.evid.queue.length

/-- A checkpoint is taken (R146). -/
def takeCheckpoint (cause : CheckpointCause) (s : State) : State := handRecord (.checkpoint (checkpointBody cause s)) s

/-- The checkpoint period as a time count (R147). -/
def checkpointPeriod (c : Settings) : Nat := c.checkpointMinutes * 60000000000 * 256

/-- The first multiple of a period strictly after a time (R147), also where it lies past the largest time count, which the spec does not
speak of: no instant then reaches it (log 37). -/
def multipleAfter (period t : Nat) : Nat := (t / period + 1) * period

/-- The test at the end of a steering instant (R147). -/
def periodicCheckpoint (s : State) : State :=
  match s.evid.boundary with
  | none => s
  | some b =>
    if b ≤ s.clock.present then
      let s1 := takeCheckpoint .period s
      { s1 with evid.boundary := some (multipleAfter (checkpointPeriod s.cfg) s.clock.present) }
    else s

/-! ### The steering instant (R58) -/

/-- Stage 1: in TRACK the holdover rate becomes R_f (R68). -/
def captureHoldover (x : Steering) : Steering := if x.state = .track then { x with holdover := some x.rf } else x

/-- Stage 5: the outcome goes to the two measuring units (R64; log 20). -/
def judgeAll (snapshot : List PeerSource) (ref : Reference) (c : Option Int) (s : State) : State :=
  let s1 := peersAtInstant snapshot c s
  match c with
  | none => s1
  | some x => judgeReference ref x s1

/-- Stages 6 and 7: the outcome is applied. -/
def applyOutcome (c : Option Int) (s : State) : State :=
  match c with
  | none => applyNone s
  | some x => applyCombination x s

/-- The combination of the present instant (stages 2 and 3). -/
def instantCombination (s : State) : Combination :=
  combine s.fresh s.cfg (admittedSources s.cfg s.ref (sourceList s))

/-- One steering instant, all its stages (R58). -/
def steeringInstant (s : State) : State :=
  let s1 := { s with steer := captureHoldover s.steer, fresh := s.fresh + 1 }
  let snapshot := sourceList s1
  let x := instantCombination s
  let s2 := { s1 with steer.latest := some (x.latest .none) }
  let s3 := formGrade x s2
  let s4 := judgeAll snapshot s1.ref x.correction s3
  let s5 := applyOutcome x.correction s4
  periodicCheckpoint (recordSync s5)

/-- The series has reached a member that is still to be taken (R13). -/
def seriesDue (x : Option Series) : Bool :=
  match x with
  | some y => y.due
  | none => false

/-- The reached member is taken. -/
def Series.taken (x : Series) : Series := { x with due := false }

/-- STEERING_INSTANT: in RUN, where the steering series has expired (R58; log 4). -/
def execSteeringInstant (s : State) : Host.Outcome State Fault Refusal :=
  if s.phase = .run ∧ seriesDue s.steer.series then
    .next (steeringInstant { s with steer.series := s.steer.series.map Series.taken })
  else .next s

/-! ### SET_TIME (R78) -/

/-- SET_TIME with a body of the right length (R78). -/
def setTime (body : Bytes) (s : State) : State :=
  let secs := field 0 6 body
  let nanos := field 6 4 body
  if s.phase = .config ∨ s.steer.state ≠ .cold then respond .refusedState [] s
  else if 999999999 < nanos then respond .refusedRange [] s
  else
    let a : Int := (((secs * 1000000000 + nanos) * 256 : Nat) : Int) - s.clock.present
    if stepForbidden a s then respond .refusedState [] s
    else
      let s1 := takeStep a .setTime s
      respond .ok (timeBytes s.clock.present ++ timeBytes s1.clock.present) s1

/-- SET_TIME (R78). -/
def execSetTime (body : Bytes) (s : State) : Host.Outcome State Fault Refusal := .next (onCommand 10 body (setTime body) s)

end Sys2Proof.Machine
end

