-- ==== Sys2Proof/Machine/PeerLink.lean ====
section
/-! DEFINITION. The Peer Link Interface: the transmitter, beacons, the beacon history, the receipt set, and received frames
(chapter 02). -/

namespace Sys2Proof.Machine

/-! ### Sending (R15, R19 to R22) -/

/-- BEACON_INSTANT: in RUN, where the beacon series has expired, a beacon is pending (R20; log 4). -/
def execBeaconInstant (s : State) : Host.Outcome State Fault Refusal :=
  if s.phase = .run ∧ seriesDue s.link.series then
    let l := { s.link with series := s.link.series.map Series.taken, pendingBeacon := true }
    .next { s with link := settleTx s.osc l }
  else .next s

/-- The segment has turned idle: the idle measurement of a DEFERRING transmitter counts from now (R15). -/
def Link.turnIdle (osc : Nat) (l : Link) : Link :=
  match l.tx with
  | .deferring _ => { l with busy := false, tx := .deferring osc }
  | .idle => { l with busy := false }
  | .sending _ => { l with busy := false }

/-- SEGMENT_IDLE, in either phase (R14, R15; log 17). -/
def execSegmentIdle (s : State) : Host.Outcome State Fault Refusal := .next { s with link := s.link.turnIdle s.osc }

/-- The access wait in ticks: (own id + 1) × 100 ns of oscillator time (R15; log 16). -/
def accessWait (c : Settings) : Nat := oscNs ((c.stationId + 1) * 100)

/-- The access wait is complete on an idle segment, with a frame waiting (R15). -/
def accessDue (s : State) : Bool :=
  match s.link.tx with
  | .deferring since => !s.link.busy && s.link.hasWaiting && decide (since + accessWait s.cfg ≤ s.osc)
  | .idle => false
  | .sending _ => false

/-- The beacon that departs now (R17, R20, R21, R23). -/
def departingBeacon (s : State) : Beacon where
  sender := s.cfg.stationId
  seq := s.link.nextSeq
  t1 := s.clock.present
  grade := s.steer.grade
  steer := s.steer.state
  bound := s.steer.bound
  receipts := s.link.receipts

/-- The chosen frame leaves: the pending beacon, else the auction frame that has waited longest (R19). -/
def departFrame (s : State) : State :=
  if s.link.pendingBeacon then
    { s with link := { s.link with tx := .sending (.beacon (departingBeacon s)), pendingBeacon := false,
                                   nextSeq := s.link.nextSeq + 1, receipts := [] } }
  else
    match s.link.waiting with
    | [] => s
    | w :: ws => { s with link := { s.link with tx := .sending w.frame, waiting := ws } }

/-- ACCESS_WAIT_COMPLETE: in RUN (R15; log 4). -/
def execAccessWaitComplete (s : State) : Host.Outcome State Fault Refusal :=
  if s.phase = .run ∧ accessDue s then .next (departFrame s) else .next s

/-- The beacon history with a completed beacon added; the oldest of four goes (R22). -/
def addHistory (b : Beacon) (h : List Sent) : List Sent := (h ++ [Sent.mk b.seq b.t1]).drop (h.length - 3)

/-- The history after a frame has left whole. -/
def historyAfter (f : Frame) (h : List Sent) : List Sent :=
  match f with
  | .beacon b => addHistory b h
  | .draw _ => h
  | .tally _ => h

/-- FRAME_SENT: the frame has left whole; the transmitter defers again or becomes IDLE (R15, R22). -/
def execFrameSent (s : State) : Host.Outcome State Fault Refusal :=
  match s.link.tx with
  | .sending f =>
    .next { s with link := settleTx s.osc { s.link with tx := .idle, history := historyAfter f s.link.history } }
  | .idle => .next s
  | .deferring _ => .next s

/-! ### Receiving (R21, R23 to R28) -/

/-- The transmitter is SENDING. -/
def Tx.isSending : Tx → Bool
  | .sending _ => true
  | .idle => false
  | .deferring _ => false

/-- A start marker arrives: the segment is busy, the arrival time is read, and frames that overlap on the segment are marked (R14, R21;
log 17, log 18). -/
def Link.arrive (present : Nat) (discarded : Bool) (l : Link) : Link :=
  let crossed := l.busy || l.tx.isSending
  { l with
    busy := true
    incoming := l.incoming.map (fun x => if l.busy then { x with overlapped := true } else x) ++ [⟨present, crossed, discarded⟩] }

/-- FRAME_ARRIVAL: a frame that begins in CONFIG is discarded, and the segment is busy with it all the same, also after START (R14,
R21; log 18). -/
def execFrameArrival (s : State) : Host.Outcome State Fault Refusal :=
  .next { s with link := s.link.arrive s.clock.present (decide (s.phase = .config)) }

/-- A count that holds at 4,294,967,295 advances (R28). -/
def advance32 (n : Nat) : Nat := min (n + 1) max32

/-- The receipt set with a peer's entry set (R23). -/
def putReceipt (r : Receipt) : List Receipt → List Receipt
  | [] => [r]
  | x :: xs => if r.peer < x.peer then r :: x :: xs else if r.peer = x.peer then r :: xs else x :: putReceipt r xs

/-- The receipt of a beacon that names this station, resolved against the history (R26). -/
def resolveReceipt (own : Nat) (history : List Sent) (b : Beacon) : ReceiptResult :=
  match b.receipts.find? (fun r => decide (r.peer = own)) with
  | none => .none
  | some r =>
    match history.find? (fun h => decide (h.seq = r.seq)) with
    | none => .unmatched
    | some h => .matched h.seq h.time r.time

/-- An accepted beacon: the receipt set, then the report (R26). -/
def acceptBeacon (b : Beacon) (arrival : Nat) (s : State) : State :=
  let s1 := { s with link.receipts := putReceipt ⟨b.sender, b.seq, arrival⟩ s.link.receipts }
  beaconReport b arrival (resolveReceipt s.cfg.stationId s.link.history b) s1

/-- An accepted frame is delivered (R24 test 5, R26, R27). -/
def deliver (f : Frame) (arrival : Nat) (s : State) : State :=
  match f with
  | .beacon b => acceptBeacon b arrival s
  | .draw d => drawReport d s
  | .tally t => tallyReport t s

/-- A frame with the station's own id: ID_CONFLICT, and a PEER record for a beacon (R25, R44). -/
def conflict (f : Frame) (arrival : Nat) (s : State) : State :=
  match f with
  | .beacon b => handRecord (.idConflict s.cfg.stationId b.seq b.t1 arrival) (raise .idConflict s)
  | .draw _ => raise .idConflict s
  | .tally _ => raise .idConflict s

/-- The sender of a frame. -/
def Frame.sender : Frame → Nat
  | .beacon b => b.sender
  | .draw d => d.sender
  | .tally t => t.sender

/-- One more frame rejected as damaged or malformed (R24, R28). -/
def countError (s : State) : State := { s with link.linkErrors := advance32 s.link.linkErrors }

/-- One more frame rejected for a sender outside the membership (R24, R28). -/
def countForeign (s : State) : State := { s with link.foreign := advance32 s.link.foreign }

/-- A received frame is checked in the fixed order, and rejected or delivered (R24). -/
def checkFrame (bytes : Bytes) (damaged : Bool) (arrival : Nat) (s : State) : State :=
  if damaged || !frameWhole bytes then countError s
  else if inSet (frameSender bytes) s.cfg.membership = false then countForeign s
  else
    match parseFrame bytes with
    | none => countError s
    | some f => if f.sender = s.cfg.stationId then conflict f arrival s else deliver f arrival s

/-- FRAME_RECEIVED: the oldest frame whose start marker arrived has ended; one that a reset discarded, or that reached the station in
CONFIG, is not checked (R14, R24, R29; log 18). -/
def execFrameReceived (bytes : Bytes) (damaged : Bool) (s : State) : Host.Outcome State Fault Refusal :=
  match s.link.incoming with
  | [] => .next s
  | x :: rest =>
    let s1 := { s with link.incoming := rest }
    if x.discarded || decide (s.phase = .config) then .next s1
    else .next (checkFrame bytes (damaged || x.overlapped) x.time s1)

/-- The frames on the segment, each discarded without being checked or counted (R29). -/
def discardIncoming (xs : List Incoming) : List Incoming := xs.map (fun x => { x with discarded := true })

/-- The interface at a warm reset (R29). -/
def linkWarmReset (l : Link) : Link :=
  { l with tx := .idle, pendingBeacon := false, waiting := [], incoming := discardIncoming l.incoming }

/-- The interface after power-on reset; a frame of another station that is on the segment stays there (R14, R29; log 29). -/
def linkPowerOn (l : Link) : Link := { Link.powerOn with busy := l.busy, incoming := discardIncoming l.incoming }

end Sys2Proof.Machine
end

