-- ==== Sys2Proof/Machine/Export.lean ====
section
/-! DEFINITION. The Export Engine: descriptors, record writes, completions, stops and faults (chapter 10). -/

namespace Sys2Proof.Machine

/-- Where descriptor `i` lies in card memory (R155). -/
def descriptorAddress (c : Settings) (i : Nat) : Nat := c.tableBase + 32 * i

/-- The engine enters FAULT on descriptor `i` with a status, and EXPORT_HALT is set (R157, R166). -/
def enterFault (i : Option Nat) (st : CompletionStatus) (s : State) : State :=
  raise .exportHalt { s with engine := { state := .fault, index := i, copy := none, lastStatus := st, transfer := none } }

/-- The engine is STALLED on descriptor `i`, and EXPORT_HALT is set (R157 outcome 2). -/
def enterStalled (i : Nat) (s : State) : State :=
  raise .exportHalt { s with engine := { s.engine with state := .stalled, index := some i, copy := none, transfer := none } }

/-- The engine is STOPPED and holds no descriptor. -/
def enterStopped (s : State) : State :=
  { s with engine := { s.engine with state := .stopped, index := none, copy := none, transfer := none } }

/-- The engine works from a copy: RUNNING where the head is eligible, its write begun, else WAITING (R157 outcome 4, R159). -/
def workFrom (d : Descriptor) (s : State) : State :=
  { s with engine := { s.engine with state := if eligible d s then .running else .waiting, copy := some d, transfer := none } }

/-- Bytes are written at a card address unless card memory answers with an error (R156). -/
def writeCard (a : Nat) (bs : Bytes) (error : Bool) (s : State) : State :=
  if error then s else { s with card := cardWrite s.card a bs }

/-- The FAULTED write-back of the descriptor at the engine's index, and FAULT with its status whatever card memory answers; the write-back
can still be under way when the command's effect ends (R157 outcome 3, R166; log 40). -/
def faultWriteBack (bs : Bytes) (st : CompletionStatus) (c : CardInput) (s : State) : State :=
  if c.hold = some .faulted then { s with engine.transfer := some (.faulted bs st) }
  else
    enterFault s.engine.index st
      (writeCard (descriptorAddress s.cfg (s.engine.index.getD 0)) bs c.faultWriteError s)

/-- A descriptor read with its four outcomes (R157). -/
def readDescriptor (i : Nat) (c : CardInput) (s : State) : State :=
  let bs := cardReadN s.card (descriptorAddress s.cfg i) 32
  if c.readError then enterFault (some i) .memoryError s
  else if field 0 1 bs ≠ DescState.armed.code then enterStalled i s
  else
    match parseDescriptor bs with
    | .error st => faultWriteBack (faultedAsRead bs st) st c { s with engine.index := some i }
    | .ok d => workFrom d { s with engine.index := some i }

/-- Card memory after the host's writes before the command's first transfer (log 10). -/
def hostFirst (c : CardInput) (s : State) : State := { s with card := cardHost s.card c.hostWrites }

/-- Card memory after the host's writes before the command's descriptor read (log 10). -/
def hostLate (c : CardInput) (s : State) : State := { s with card := cardHost s.card c.hostWritesLate }

/-- The descriptor read of EXPORT_START and EXPORT_RESUME, whole within the command (R158, R164; log 40). -/
def readInCommand (i : Nat) (c : CardInput) (s : State) : State := readDescriptor i { c with hold := none } (hostLate c s)

/-- The engine has no descriptor in work, so a start is accepted (R158). -/
def EngineState.startable : EngineState → Bool
  | .stopped => true | .fault => true
  | .running => false | .waiting => false | .stalled => false | .stopping => false

/-- The state of the engine as a response body. -/
def engineReply (s : State) : State := respond .ok (le 1 s.engine.state.code) s

/-- EXPORT_START with a body of the right length (R158). -/
def exportStart (body : Bytes) (c : CardInput) (s : State) : State :=
  if s.phase = .config then respond .refusedState [] s
  else if 63 < field 0 1 body then respond .refusedRange [] s
  else if s.engine.state.startable = false then respond .busy [] s
  else engineReply (readInCommand (field 0 1 body) c s)

/-- EXPORT_START (R158). -/
def execExportStart (body : Bytes) (c : CardInput) (s : State) : Host.Outcome State Fault Refusal :=
  .next (onCommand 1 body (exportStart body c) (hostFirst c s))

/-- EXPORT_RESUME with an empty body (R164). -/
def exportResume (c : CardInput) (s : State) : State :=
  match s.phase, s.engine.state, s.engine.index with
  | .run, .stalled, some i => engineReply (readInCommand i c s)
  | _, _, _ => respond .refusedState [] s

/-- EXPORT_RESUME (R164). -/
def execExportResume (body : Bytes) (c : CardInput) (s : State) : Host.Outcome State Fault Refusal :=
  .next (onCommand 0 body (exportResume c) (hostFirst c s))

/-- The stop write-back of a copy and the STOPPED engine, or FAULT where card memory refuses it (R165). -/
def stopWriteBack (d : Descriptor) (c : CardInput) (s : State) : State :=
  if c.writeBackError then enterFault s.engine.index .memoryError s
  else
    let s1 := writeCard (descriptorAddress s.cfg (s.engine.index.getD 0)) (d.bytes .armed .stopped) false s
    enterStopped { s1 with engine.lastStatus := .stopped }

/-! ### Record writes (R160 to R163) -/

/-- The block ends with the record just written (R161). -/
def blockEnds (fence : Bool) (d : Descriptor) : Bool :=
  decide (d.blockLength ≤ d.position + 1) || (decide (d.mode = .block) && fence)

/-- The current address after an acknowledged write (R161). -/
def nextAddress (ends : Bool) (d : Descriptor) : Nat :=
  match d.control with
  | .fixed => d.current
  | .increment => (d.current + 64) % 18446744073709551616
  | .incrementRestart => if ends then d.base else (d.current + 64) % 18446744073709551616

/-- The count after an acknowledged write (R162). -/
def nextCount (ends : Bool) (d : Descriptor) : Nat :=
  match d.mode with
  | .single => d.count
  | .run => d.count - 1
  | .block => if ends then d.count - 1 else d.count

/-- The copy after the acknowledged write of a record (R160 to R162). -/
def Descriptor.advanced (number : Nat) (fence : Bool) (d : Descriptor) : Descriptor :=
  let ends := blockEnds fence d
  { d with last := number, position := if ends then 0 else d.position + 1, current := nextAddress ends d, count := nextCount ends d }

/-- The copy after its write completes the descriptor (R162). -/
def Descriptor.complete (d : Descriptor) : Bool :=
  match d.mode with
  | .single => true
  | .run => decide (d.count = 0)
  | .block => decide (d.count = 0)

/-- A loss count is above 0 (R145). -/
def lossPending (e : Evidence) : Bool := e.losses.toList.any (fun n => decide (0 < n))

/-- The LOSS record of a removal that finds a loss count above 0 (R145). -/
def recordLoss (s : State) : State :=
  if lossPending s.evid then
    handRecord (.loss s.evid.losses s.evid.lostRange)
      { s with evid.losses := Vector.replicate 11 0, evid.lostRange := none }
  else s

/-- The removal of the pending fence record (R150). -/
def fenceWritten (number : Nat) (s : State) : State :=
  if s.evid.fence = some number then raise .fenceDone { s with evid.fence := none } else s

/-- The head record is removed, with what follows from it (R142, R145, R150). -/
def removeHead (number : Nat) (rest : List Record) (s : State) : State :=
  fenceWritten number (recordLoss { s with evid.queue := rest })

/-- Stages 1 and 2 of a completion: the descriptor is written back SPENT and DONE (R163). -/
def writeDone (d : Descriptor) (s : State) : State :=
  let s1 := writeCard (descriptorAddress s.cfg (s.engine.index.getD 0)) (d.bytes .spent .done) false s
  let s2 := { s1 with engine.lastStatus := .done }
  if d.noticeOnDone then raise .exportDone s2 else s2

/-- A transfer at the end of the descriptor of copy `d` is under way (R156; log 40). -/
def holdTransfer (x : EngineTransfer) (d : Descriptor) (s : State) : State :=
  { s with engine := { s.engine with copy := some d, transfer := some x } }

/-- Stage 3 of a completion; in STOPPING the link is not followed (R163, R165). -/
def followLink (d : Descriptor) (c : CardInput) (s : State) : State :=
  if s.engine.state = .stopping then enterStopped s
  else if d.linkEnable then
    if c.hold = some .read then holdTransfer .read d { s with engine.index := some d.linkIndex }
    else readDescriptor d.linkIndex c (hostLate c { s with engine.copy := some d })
  else enterStopped s

/-- A completion (R163), and in STOPPING its stages 1 and 2 alone (R165); a refused write-back is a fault (R166). -/
def completeDescriptor (d : Descriptor) (c : CardInput) (s : State) : State :=
  if c.hold = some .done then holdTransfer .done d s
  else if c.writeBackError then enterFault s.engine.index .memoryError s
  else followLink d c (writeDone d s)

/-- The stop write-back in STOPPING (R165). -/
def finishStop (d : Descriptor) (c : CardInput) (s : State) : State :=
  if c.hold = some .stop then holdTransfer .stop d s else stopWriteBack d c s

/-- What the engine does with its moved copy (R159, R162, R163, R165). -/
def afterWrite (d : Descriptor) (c : CardInput) (s : State) : State :=
  if d.complete then completeDescriptor d c s
  else if s.engine.state = .stopping then finishStop d c s
  else workFrom d s

/-- The transfer at a descriptor's end that is under way is answered, and what it began is finished (R157, R163, R165, R166; log 40). -/
def resumeTransfer (x : EngineTransfer) (d : Descriptor) (c : CardInput) (s : State) : State :=
  match x with
  | .done => completeDescriptor d c s
  | .stop => finishStop d c s
  | .read => if c.hold = some .read then s else readDescriptor (s.engine.index.getD 0) c (hostLate c s)
  | .faulted bs st => faultWriteBack bs st c s

/-- An acknowledged write of the head record `r` (R160). -/
def acknowledge (r : Record) (rest : List Record) (d : Descriptor) (c : CardInput) (s : State) : State :=
  let fence := decide (s.evid.fence = some r.number)
  let s1 := writeCard d.current r.bytes false s
  afterWrite (d.advanced r.number fence) c (removeHead r.number rest s1)

/-- A record write is under way (R156, R165). -/
def EngineState.writing : EngineState → Bool
  | .running => true | .stopping => true
  | .stopped => false | .waiting => false | .stalled => false | .fault => false

/-- The next transfer of an engine at work is acknowledged: the one at its descriptor's end, else the record write (R160, R163). -/
def acknowledgeNext (d : Descriptor) (c : CardInput) (s : State) : State :=
  match s.engine.transfer, s.evid.queue with
  | some x, _ => resumeTransfer x d c s
  | none, r :: rest => acknowledge r rest d c s
  | none, [] => s

/-- RECORD_WRITE_ACK: where a transfer is under way (R160; R167 for an acknowledgement not taken). -/
def execRecordWriteAck (c : CardInput) (s : State) : Host.Outcome State Fault Refusal :=
  let s0 := hostFirst c s
  match s0.engine.copy with
  | some d => if s0.engine.state.writing then .next (acknowledgeNext d c s0) else .next s0
  | none => .next s0

/-- Card memory takes the write under way although no acknowledgement is taken, where `took` says so: the record, or the write-back whole
(R166, R167; log 27). -/
def strayWrite (took : Bool) (s : State) : State :=
  match s.engine.copy with
  | some d =>
    if took && s.engine.state.writing then
      let a := descriptorAddress s.cfg (s.engine.index.getD 0)
      match s.engine.transfer, s.evid.queue with
      | some .done, _ => writeCard a (d.bytes .spent .done) false s
      | some .stop, _ => writeCard a (d.bytes .armed .stopped) false s
      | some .read, _ => s
      | some (.faulted bs _), _ => writeCard a bs false s
      | none, r :: _ => writeCard d.current r.bytes false s
      | none, [] => s
    else s
  | none => s

/-- The status of the fault that an error response to a transfer at a descriptor's end makes: a FAULTED write-back that card memory refuses
leaves the fault that it belongs to (R157, R165, R166). -/
def EngineTransfer.faultStatus : EngineTransfer → CompletionStatus
  | .done => .memoryError
  | .stop => .memoryError
  | .read => .memoryError
  | .faulted _ st => st

/-- RECORD_WRITE_ERROR: a record write leaves the record at the head and the copy is written back FAULTED with MEMORY_ERROR; after a
transfer at a descriptor's end nothing more is written and the engine is in FAULT (R157, R165, R166; log 40). -/
def execRecordWriteError (c : CardInput) (cardTook : Bool) (s : State) : Host.Outcome State Fault Refusal :=
  let s0 := hostFirst c s
  match s0.engine.copy with
  | some d =>
    if s0.engine.state.writing then
      match s0.engine.transfer with
      | some x => .next (enterFault s0.engine.index x.faultStatus s0)
      | none => .next (faultWriteBack (d.bytes .faulted .memoryError) .memoryError c (strayWrite cardTook s0))
    else .next s0
  | none => .next s0

/-! ### EXPORT_STOP (R165) -/

/-- What a stop does to an engine that no transfer at a descriptor's end holds; STOPPED and FAULT are left as they are (R165). -/
def stopEngine (c : CardInput) (s : State) : State :=
  match s.engine.state, s.engine.copy with
  | .running, _ => { s with engine.state := .stopping }
  | .waiting, some d => stopWriteBack d c s
  | .waiting, none => enterStopped s
  | .stalled, _ => enterStopped s
  | .stopped, _ => s
  | .stopping, _ => s
  | .fault, _ => s

/-- The stop acts on a RUNNING engine; a completion under way, or a fault whose write-back is, is finished whole first, a linked read
included, and the stop acts on the state that leaves (R165; log 40). -/
def stopWhole (c : CardInput) (s : State) : State :=
  match s.engine.transfer, s.engine.copy with
  | some x, some d =>
    stopEngine { c with writeBackError := c.stopWriteError } (resumeTransfer x d { c with hold := none } s)
  | _, _ => stopEngine c s

/-- EXPORT_STOP with an empty body (R165). -/
def exportStop (c : CardInput) (s : State) : State :=
  if s.phase = .config then respond .refusedState [] s
  else
    match s.engine.state with
    | .stopped => respond .refusedState [] s
    | .fault => respond .refusedState [] s
    | .stopping => respond .busy [] s
    | .running => respond .ok [] (stopWhole c s)
    | .stalled => respond .ok [] (stopEngine c s)
    | .waiting => respond .ok [] (stopEngine c s)

/-- EXPORT_STOP (R165). -/
def execExportStop (body : Bytes) (c : CardInput) (s : State) : Host.Outcome State Fault Refusal :=
  .next (onCommand 0 body (exportStop c) (hostFirst c s))

/-- The engine at a warm reset (R167). -/
def engineWarmReset (e : Engine) : Engine := { e with state := .stopped, index := none, copy := none, transfer := none }

end Sys2Proof.Machine
end

