-- ==== Sys2Proof/Machine/EvidenceUnit.lean ====
section
/-! DEFINITION. The commands of the Evidence Unit: FENCE and CHECKPOINT (chapter 09), and its part of READ_STATUS. -/

namespace Sys2Proof.Machine

/-- What becomes of the open batch at a FENCE (R149 stage 1). -/
def fenceBatch (s : State) : FenceBatch :=
  match s.stamp.batch with
  | none => .none
  | some b => if admitted (.batch b (crcFinal b.check) .fence) s then .numbered s.evid.nextNumber else .lost

/-- An accepted FENCE, its three stages (R149). -/
def takeFence (token : BitVec 32) (s : State) : State :=
  let s1 := closeBatch .fence s
  let n := s1.evid.nextNumber
  let s2 := handRecord (.fence token s.stamp.nextSeq (fenceBatch s)) s1
  respond .ok (le 8 n) (wakeEngine { s2 with evid.fence := some n })

/-- FENCE with a body of the right length (R149). -/
def fence (body : Bytes) (s : State) : State :=
  if s.phase = .config then respond .refusedState [] s
  else if s.evid.fence.isSome then respond .busy [] s
  else if 512 ≤ s.evid.queue.length then respond .busy [] s
  else takeFence (BitVec.ofNat 32 (field 0 4 body)) s

/-- FENCE (R149). -/
def execFence (body : Bytes) (s : State) : Host.Outcome State Fault Refusal := .next (onCommand 4 body (fence body) s)

/-- CHECKPOINT with an empty body (R148). -/
def checkpoint (s : State) : State :=
  if s.phase = .config then respond .refusedState [] s
  else
    let got := if admitted (.checkpoint (checkpointBody .command s)) s then some s.evid.nextNumber else none
    respond .ok (optBytes 8 (le 8) got) (takeCheckpoint .command s)

/-- CHECKPOINT (R148). -/
def execCheckpoint (body : Bytes) (s : State) : Host.Outcome State Fault Refusal := .next (onCommand 0 body checkpoint s)

/-- The records held that are ordinary (R154). -/
def ordinaryHeld (q : List Record) : Nat := q.countP (fun r => r.body.kind.ordinary)

end Sys2Proof.Machine
end

