-- ==== Sys2Proof/Machine/ServicePort.lean ====
section
/-! DEFINITION. The Service Port Controller: the configuration, START, the reads, the notices, and the resets (chapter 11). -/

namespace Sys2Proof.Machine

/-! ### IDENTIFY, LOAD_CONFIG, UNKNOWN -/

/-- The code of the station phase. -/
def phaseBytes (s : State) : Bytes := le 1 s.phase.code

/-- IDENTIFY (R177): vendor code, part code, revision, self-test word, phase. -/
def execIdentify (body : Bytes) (s : State) : Host.Outcome State Fault Refusal :=
  .next (onCommand 0 body
    (fun s => respond .ok (le 2 0x0C41 ++ le 2 0x0460 ++ le 1 1 ++ le 1 s.port.selfTest.word ++ phaseBytes s) s) s)

/-- A frame whose code names no command: UNKNOWN, its body not examined (R170 check 1). -/
def execUnknownCommand (_code : Byte) (_body : Bytes) (s : State) : Host.Outcome State Fault Refusal :=
  match s.port.transaction with
  | .absent => .next (respond .unknown [] s)
  | .executed _ _ => .next s
  | .abandoned _ => .next s

/-- LOAD_CONFIG (R170, R173, R174). -/
def loadConfig (body : Bytes) (s : State) : State :=
  if body.length ≠ 84 then respond .refusedRange (le 1 0) s
  else
    match s.phase with
    | .run => respond .locked [] s
    | .config =>
      match firstBadField body with
      | some i => respond .refusedRange (le 1 i) s
      | none => respond .ok [] { s with port.loaded := some body }

/-- LOAD_CONFIG (R173, R174). -/
def execLoadConfig (body : Bytes) (s : State) : Host.Outcome State Fault Refusal :=
  match s.port.transaction with
  | .absent => .next (loadConfig body s)
  | .executed _ _ => .next s
  | .abandoned _ => .next s

/-! ### START (R176) -/

/-- The reference as START leaves it (R47). -/
def startReference (c : Settings) (r : Reference) : Reference := if c.refFitted then r else { r with state := .absent }

/-- The checkpoint boundary as START places it (R147). -/
def startBoundary (c : Settings) : Option Nat := if c.checkpointMinutes = 0 then none else some (checkpointPeriod c)

/-- Every block takes its settings from the locked record (R176). -/
def startBlocks (record : Bytes) (s : State) : State :=
  let c := settingsOf record
  { s with
    phase := .run
    cfg := c
    clock := { s.clock with running := true, present := 0 }
    link.series := some (beaconSeries c)
    steer.series := some (steeringSeries c)
    peers := buildPeers c
    ref := startReference c s.ref
    evid.boundary := startBoundary c
    port.enables := c.enables }

/-- The START record's body (R139). -/
def startBody (record : Bytes) (t : SelfTest) : Body :=
  .start (configCheck record) (settingsOf record).stationId (settingsOf record).membership t.evidenceFail t.randomFail

/-- START with an empty body (R176). -/
def start (s : State) : State :=
  match s.phase, s.port.loaded with
  | .run, _ => respond .refusedState [] s
  | .config, none => respond .refusedState [] s
  | .config, some r =>
    if s.port.selfTest.evidenceFail then respond .refusedState [] s
    else respond .ok [] (handRecord (startBody r s.port.selfTest) (startBlocks r s))

/-- START (R176). -/
def execStart (body : Bytes) (s : State) : Host.Outcome State Fault Refusal := .next (onCommand 0 body start s)

/-! ### READ_STATUS (R178) -/

/-- Service Port Controller part: phase, self-test word, configuration check (R174, R175). -/
def portReport (s : State) : Bytes :=
  phaseBytes s ++ le 1 s.port.selfTest.word ++ optBytes 4 (fun r : Bytes => le 4 (configCheck r).toNat) s.port.loaded

/-- Reference Input Unit part (R56); the labelled second of the latest good edge takes 8 bytes (log 24). -/
def referenceReport (r : Reference) : Bytes :=
  le 1 r.state.code ++ le 1 r.run ++ optBytes 8 amountBytes r.theta ++ le 1 r.verdict.code ++ optBytes 8 (le 8) r.latestGood
    ++ le 1 r.disagree ++ le 1 r.agree

/-- The latest outcome (R82). -/
def latestReport (l : Latest) : Bytes :=
  amountBytes l.correction ++ amountBytes l.spread ++ le 1 (cstarCode l.cstar) ++ le 1 l.candidates ++ le 1 l.retained
    ++ le 1 l.kind.code

/-- Steering Unit part (R82, R93). -/
def steeringReport (rate : Int) (x : Steering) : Bytes :=
  le 1 x.state.code ++ le 1 x.state.bankCode ++ leInt 4 x.rf ++ leInt 4 x.rp ++ leInt 4 rate ++ optBytes 4 (leInt 4) x.holdover
    ++ flagBytes x.incomplete ++ flagBytes x.rateLimit ++ flagBytes x.stepDeferred ++ le 1 x.lockRun ++ le 1 x.unlockRun
    ++ le 4 x.bound ++ le 1 x.grade.code ++ optBytes 20 latestReport x.latest

/-- Stamp Unit part (R115): the occupancies of the queues and then the overflow marks, as R178 names them, and the open batch's count and
held count 4 bytes each (log 24). -/
def stampReport (u : StampUnit) : Bytes :=
  le 8 (seqNat u.nextSeq) ++ stampTimeBytes u.floor ++ optBytes 8 (le 8) u.floorSeq ++ le 1 u.requests.length
    ++ le 1 u.responses.length
    ++ u.captures.toList.flatMap (fun q => le 1 q.length) ++ u.overflow.toList.flatMap flagBytes
    ++ optBytes 16 (fun b : Batch => le 8 b.first ++ le 4 b.count ++ le 4 b.held) u.batch ++ flagBytes u.gradeMark

/-- Evidence Unit part (R154); a checkpoint boundary past the largest time count is written with its seconds modulo 2^48 (log 37). -/
def evidenceReport (e : Evidence) : Bytes :=
  le 2 e.queue.length ++ le 2 (ordinaryHeld e.queue) ++ optBytes 8 (fun r : Record => le 8 r.number) e.queue.head?
    ++ le 8 e.nextNumber ++ le 4 e.chain.toNat ++ e.losses.toList.flatMap (le 2)
    ++ optBytes 16 (fun r : Nat × Nat => le 8 r.1 ++ le 8 r.2) e.lostRange ++ optBytes 8 (le 8) e.fence
    ++ optBytes 11 timeBytes e.boundary

/-- The copy's progress (R168); the remaining count is written as the number it is, in 4 bytes, and not as the 2 bytes of a descriptor
(log 24). -/
def copyReport (d : Descriptor) : Bytes :=
  le 1 d.mode.code ++ le 1 d.control.code ++ le 4 d.count ++ le 8 d.current ++ le 1 d.position ++ le 8 d.last

/-- Export Engine part (R168). -/
def engineReport (e : Engine) : Bytes :=
  le 1 e.state.code ++ optBytes 1 (le 1) e.index ++ le 1 e.lastStatus.code ++ optBytes 23 copyReport e.copy

/-- The report of READ_STATUS, block by block in the order of the table of R178 (R183; log 24). -/
def statusReport (s : State) : Bytes :=
  portReport s ++ timeBytes s.clock.present ++ le 4 s.link.linkErrors ++ le 4 s.link.foreign ++ (peerCounts s).flatMap (le 1)
    ++ referenceReport s.ref ++ steeringReport s.clock.rate s.steer ++ stampReport s.stamp ++ (entryCounts s).flatMap (le 1)
    ++ evidenceReport s.evid ++ engineReport s.engine

/-- READ_STATUS (R178). -/
def execReadStatus (body : Bytes) (s : State) : Host.Outcome State Fault Refusal :=
  .next (onCommand 0 body (fun s => respond .ok (statusReport s) s) s)

/-! ### Notices (R181) -/

/-- A notice set (R183). -/
def noticeBytes (n : BitVec 14) : Bytes := le 2 n.toNat

/-- READ_NOTICES (R181). -/
def execReadNotices (body : Bytes) (s : State) : Host.Outcome State Fault Refusal :=
  .next (onCommand 0 body (fun s => respond .ok (noticeBytes s.port.flags ++ noticeBytes s.port.enables) s) s)

/-- CLEAR_NOTICES with a body of the right length (R181). -/
def clearNotices (body : Bytes) (s : State) : State :=
  let s1 := clearFlags (BitVec.ofNat 16 (field 0 2 body)) s
  respond .ok (noticeBytes s1.port.flags) s1

/-- CLEAR_NOTICES (R181). -/
def execClearNotices (body : Bytes) (s : State) : Host.Outcome State Fault Refusal :=
  .next (onCommand 2 body (clearNotices body) s)

/-! ### Warm reset (R182) -/

/-- WARM_RESET: OK, the reset being taken at the end of the transaction (R182). -/
def execWarmReset (body : Bytes) (s : State) : Host.Outcome State Fault Refusal :=
  .next (onCommand 0 body (fun s => { s with port.transaction := .executed ⟨.ok, []⟩ true }) s)

/-- What the RESET record says of the state before the reset (R153). -/
def resetBody (cause : ResetCause) (s : State) : ResetBody where
  cause := cause
  requests := s.stamp.requests.length
  responses := s.stamp.responses.length
  captures := captureCount s.stamp
  fence := s.evid.fence
  engine := s.engine.state

/-- Every block at a warm reset, before any record is made: the flags are cleared, and each block acts as its chapter states (R29, R57,
R114, R152, R167, R182). A label can be under way in RUN alone, for in CONFIG the unit ignores its lines (R47). -/
def warmBlocks (labelUnderWay : Bool) (s : State) : State :=
  { clearAllFlags s with
    link := linkWarmReset s.link
    ref := refWarmReset (labelUnderWay && decide (s.phase = .run)) s.ref
    stamp := stampWarmReset s.stamp
    engine := engineWarmReset s.engine
    evid.fence := none }

/-- The records a warm reset makes in RUN, in the order of R152: RESET, REFERENCE, the VOID records, GRADE. -/
def warmRecords (b : ResetBody) (oldRef : RefState) (s : State) : State :=
  let s1 := handRecord (.reset b) s
  let s2 := if oldRef.tracking then recordReference oldRef .reset s1 else s1
  let s3 := voidExchanging s2
  if oldRef = .valid then demote s3 else s3

/-- A warm reset (R182); in CONFIG it makes no record. -/
def takeWarmReset (cause : ResetCause) (labelUnderWay : Bool) (s : State) : State :=
  match s.phase with
  | .config => warmBlocks labelUnderWay s
  | .run => warmRecords (resetBody cause s) s.ref.state (warmBlocks labelUnderWay s)

/-- The transaction at an edge of the reset line: one in progress is abandoned, and an executed WARM_RESET stands (R182). -/
def abandonTransaction (selected : Bool) (t : Transaction) : Transaction :=
  match t with
  | .absent => if selected then .abandoned false else .absent
  | .executed _ ordered => .abandoned ordered
  | .abandoned ordered => .abandoned ordered

/-- RESET_LINE_EDGE (R182). -/
def execResetLineEdge (selected : Bool) (cut : ResetCut) (s : State) : Host.Outcome State Fault Refusal :=
  let s1 := strayWrite cut.cardTook s
  .next (takeWarmReset .line cut.labelUnderWay { s1 with port.transaction := abandonTransaction selected s.port.transaction })

/-- The transaction carried an accepted WARM_RESET (R182). -/
def Transaction.resetOrdered : Transaction → Bool
  | .absent => false
  | .executed _ ordered => ordered
  | .abandoned ordered => ordered

/-- CHIP_SELECT_RELEASE: the transaction ends, and at the end of one that carried an accepted WARM_RESET the warm reset is taken (R169,
R182; log 14). -/
def execChipSelectRelease (cut : ResetCut) (s : State) : Host.Outcome State Fault Refusal :=
  if s.port.transaction.resetOrdered then
    .next (takeWarmReset .command cut.labelUnderWay { strayWrite cut.cardTook s with port.transaction := .absent })
  else .next { s with port.transaction := .absent }

/-! ### Power-on reset (R171) -/

/-- POWER_ON_RESET: every block at its power-on values, with the results the self-test finds; the queue, the oscillator's count, the
counter of the free values, card memory and the frames on the segment are not of the reset blocks (log 11, log 29). -/
def execPowerOnReset (evidenceFail randomFail cardTook : Bool) (s : State) : Host.Outcome State Fault Refusal :=
  .next { State.reset with
    pending := s.pending
    osc := s.osc
    fresh := s.fresh
    card := (strayWrite cardTook s).card
    link := linkPowerOn s.link
    port := Port.powerOn ⟨evidenceFail, randomFail⟩ }

end Sys2Proof.Machine
end

