-- ==== Sys2Proof/Machine/Idle.lean ====
section
/-! DEFINITION. What the station does when no command waits: an event of its own that is due, or the passing of time (log 2). -/

namespace Sys2Proof.Machine

/-- The event that is due at an entry's armed instant (R12, R118). -/
def entryDue (present : Nat) (i : Fin 32) (e : Entry) : Option Instr :=
  match e.state with
  | .armed => if e.drawAt ≤ present then some (.drawInstant i) else none
  | .drawing => if e.tallyAt ≤ present then some (.tallyInstant i) else none
  | .tallying => if e.fixAt ≤ present then some (.fixInstant i) else none
  | .fixed => if e.closeAt ≤ present then some (.closeInstant i) else none
  | .free => none
  | .held => none
  | .closed => none
  | .void => none

/-- The first entry, by rising slot, whose instant has been reached. -/
def auctionDue (s : State) : Option Instr := (List.finRange 32).findSome? (fun i => entryDue s.clock.present i s.entries[i])

/-- A stamp event can be taken (R96). -/
def stampDue (s : State) : Bool := !s.stamp.requests.isEmpty && decide (s.stamp.responses.length < 64)

/-- The station's own event that is due, in a fixed order where several are (R12 gives them none; log 2). -/
def nextOwnEvent (s : State) : Option Instr :=
  if s.phase = .run ∧ seriesDue s.steer.series then some .steeringInstant
  else if s.phase = .run ∧ seriesDue s.link.series then some .beaconInstant
  else
    match auctionDue s with
    | some c => some c
    | none =>
      if edgeTimeoutDue s then some .edgeTimeout
      else if s.phase = .run ∧ accessDue s then some .accessWaitComplete
      else if stampDue s then some .stampEvent
      else none

/-- An idle station: its due event joins the queue, or the oscillator moves on by one tick (log 2, log 3). -/
def idle (s : State) : State :=
  match nextOwnEvent s with
  | some c => { s with pending := [c] }
  | none => tick s

end Sys2Proof.Machine
end

