-- ==== Sys2Proof/Machine/Dispatch.lean ====
section
/-! DEFINITION. The meaning of every command: one arm per row of spec/opcode_table.json. -/

namespace Sys2Proof.Machine

/-- A command's effect on the station, its queue apart. -/
def exec (i : Instr) (s : State) : Host.Outcome State Fault Refusal :=
  match i with
  | .powerOnReset evidenceFail randomFail cardTook => Sys2Proof.Machine.execPowerOnReset evidenceFail randomFail cardTook s
  | .resetLineEdge selected cut => Sys2Proof.Machine.execResetLineEdge selected cut s
  | .chipSelectRelease cut => Sys2Proof.Machine.execChipSelectRelease cut s
  | .unknownCommand code body => Sys2Proof.Machine.execUnknownCommand code body s
  | .identify body => Sys2Proof.Machine.execIdentify body s
  | .loadConfig body => Sys2Proof.Machine.execLoadConfig body s
  | .start body => Sys2Proof.Machine.execStart body s
  | .setTime body => Sys2Proof.Machine.execSetTime body s
  | .readStatus body => Sys2Proof.Machine.execReadStatus body s
  | .readPeer body => Sys2Proof.Machine.execReadPeer body s
  | .armAuction body => Sys2Proof.Machine.execArmAuction body s
  | .cancelAuction body => Sys2Proof.Machine.execCancelAuction body s
  | .releaseAuction body => Sys2Proof.Machine.execReleaseAuction body s
  | .readAuction body => Sys2Proof.Machine.execReadAuction body s
  | .fence body => Sys2Proof.Machine.execFence body s
  | .checkpoint body => Sys2Proof.Machine.execCheckpoint body s
  | .exportStart body card => Sys2Proof.Machine.execExportStart body card s
  | .exportResume body card => Sys2Proof.Machine.execExportResume body card s
  | .exportStop body card => Sys2Proof.Machine.execExportStop body card s
  | .readNotices body => Sys2Proof.Machine.execReadNotices body s
  | .clearNotices body => Sys2Proof.Machine.execClearNotices body s
  | .warmReset body => Sys2Proof.Machine.execWarmReset body s
  | .beaconInstant => Sys2Proof.Machine.execBeaconInstant s
  | .segmentIdle => Sys2Proof.Machine.execSegmentIdle s
  | .accessWaitComplete => Sys2Proof.Machine.execAccessWaitComplete s
  | .frameSent => Sys2Proof.Machine.execFrameSent s
  | .frameArrival => Sys2Proof.Machine.execFrameArrival s
  | .frameReceived bytes damaged => Sys2Proof.Machine.execFrameReceived bytes damaged s
  | .labelReceived bytes => Sys2Proof.Machine.execLabelReceived bytes s
  | .edge => Sys2Proof.Machine.execEdge s
  | .edgeTimeout => Sys2Proof.Machine.execEdgeTimeout s
  | .steeringInstant => Sys2Proof.Machine.execSteeringInstant s
  | .requestArrival kind line group tag => Sys2Proof.Machine.execRequestArrival kind line group tag s
  | .stampEvent => Sys2Proof.Machine.execStampEvent s
  | .responseTaken => Sys2Proof.Machine.execResponseTaken s
  | .captureEdge line => Sys2Proof.Machine.execCaptureEdge line s
  | .drawInstant slot => Sys2Proof.Machine.execDrawInstant slot s
  | .tallyInstant slot => Sys2Proof.Machine.execTallyInstant slot s
  | .fixInstant slot => Sys2Proof.Machine.execFixInstant slot s
  | .closeInstant slot => Sys2Proof.Machine.execCloseInstant slot s
  | .recordWriteAck card => Sys2Proof.Machine.execRecordWriteAck card s
  | .recordWriteError card cardTook => Sys2Proof.Machine.execRecordWriteError card cardTook s

end Sys2Proof.Machine
end

