-- ==== Sys2Proof/Safety.lean ====
section
/-! DEFINITION. What holds of the station in every state that the spec allows: the terms in which the statements speak. -/

namespace Sys2Proof.Machine

/-! ### Evidence (R140 to R142, R150) -/

/-- The Evidence Queue is in order: within its two capacities, numbered without a gap up to the next record number, chained up to the
chain value, and a pending fence names a record it holds. -/
structure EvidenceOk (e : Evidence) : Prop where
  /-- at most 512 records (R142) -/
  total : e.queue.length ≤ 512
  /-- at most 496 of them ordinary (R142) -/
  ordinary : ordinaryHeld e.queue ≤ 496
  /-- numbers are consecutive (R140) -/
  rising : e.queue.IsChain (fun a b => b.number = a.number + 1)
  /-- each record's link check is computed over the one before it (R140, R141) -/
  linked : e.queue.IsChain (fun a b => b.check = linkCheck a.check b.head)
  /-- the tail carries the last number given and the chain value (R140, R141) -/
  tail : ∀ r, e.queue.getLast? = some r → r.number + 1 = e.nextNumber ∧ r.check = e.chain
  /-- numbering starts at 1 (R140) -/
  start : 1 ≤ e.nextNumber
  /-- the chain value is 0 before record 1 (R141) -/
  origin : e.nextNumber = 1 → e.chain = 0
  /-- record 1 is linked to 0 (R140) -/
  first : ∀ r ∈ e.queue, r.number = 1 → r.check = linkCheck 0 r.head
  /-- the record of the pending fence is held (R150) -/
  fence : ∀ n, e.fence = some n → ∃ r ∈ e.queue, r.number = n

/-! ### Grade and rates (R75, R87) -/

/-- The grade is one the reference and the bound allow (R87). The last three parts say of the configuration what LOAD_CONFIG tests. -/
structure GradeOk (s : State) : Prop where
  /-- ANCHORED only while the reference is VALID -/
  anchored : s.steer.grade = .anchored → s.ref.state = .valid
  /-- a grade other than FREE only while U is at or below Limit_G -/
  bounded : s.steer.grade ≠ .free → s.steer.bound ≤ s.cfg.limitG
  /-- in CONFIG the grade is FREE (R83) -/
  config : s.phase = .config → s.steer.grade = .free
  /-- Limit_A is at most Limit_G in the settings in force (R172 field 21) -/
  limits : s.cfg.limitA ≤ s.cfg.limitG
  /-- the loaded record passed every test (R173) -/
  loaded : ∀ r, s.port.loaded = some r → firstBadField r = none

/-- The limit on the phase rate in a steering state: SlewMax of the active bank, 0 where no bank is active (R69, R75). -/
def phaseLimit (c : Settings) : SteerState → Nat
  | .acquire => c.acquireBank.slewMax
  | .track => c.trackBank.slewMax
  | .cold => 0
  | .holdover => 0

/-- The rates lie within their limits (R75). -/
structure RateOk (s : State) : Prop where
  freq : |s.steer.rf| ≤ s.cfg.rateMax
  phase : |s.steer.rp| ≤ phaseLimit s.cfg s.steer.state
  effect : |s.clock.rate| ≤ s.cfg.rateMax
  holdover : ∀ h, s.steer.holdover = some h → |h| ≤ s.cfg.rateMax
  /-- before START nothing has been written (R59) -/
  config : s.phase = .config →
    s.steer.state = .cold ∧ s.steer.rf = 0 ∧ s.steer.rp = 0 ∧ s.clock.rate = 0 ∧ s.steer.holdover = none

/-! ### Auction Table (08 section 8.1) -/

/-- The Auction Table is in order: at most one live entry per group, links and predecessors name each other, FREE entries cleared. -/
structure AuctionsOk (es : Vector Entry 32) : Prop where
  /-- at most one entry per group is live (R119 test 4) -/
  oneLive : ∀ i j : Fin 32, es[i].state.live = true → es[j].state.live = true → es[i].group = es[j].group → i = j
  /-- a link is answered by the predecessor field of its target (R120, R122, R123) -/
  forward : ∀ i j : Fin 32, es[i].link = some j → es[j].pred = some i
  /-- a predecessor field names an entry that links here (R120, R122, R123) -/
  backward : ∀ i j : Fin 32, es[j].pred = some i → es[i].link = some j
  /-- in a FREE entry every field other than slot and state is clear (R116) -/
  cleared : ∀ i : Fin 32, es[i].state = .free → es[i] = Entry.freed

/-- The VOID body of an entry that becomes VOID for a reason (R135). -/
def voidBodyOf (es : Vector Entry 32) (j : Fin 32) (reason : VoidReason) : Body :=
  .void { slot := j, group := es[j].group, tn := es[j].tn, before := es[j].state, reason := reason,
          settled := es[j].offset.bind (fun o => es[j].tc.map (fun c => (o, c))), late := es[j].late }

/-- The slots after `i` are the chain of links followed from it, to its end. -/
def isChainFrom (es : Vector Entry 32) (i : Fin 32) (rest : List (Fin 32)) : Prop :=
  (i :: rest).Nodup ∧ (i :: rest).IsChain (fun a b => es[a].link = some b) ∧ ∀ j ∈ (i :: rest).getLast?, es[j].link = none

/-- What voiding entry `i` for a reason, and the chain of links from it, leaves of the state before it (R122). -/
structure ChainVoided (reason : VoidReason) (i : Fin 32) (rest : List (Fin 32)) (s t : State) : Prop where
  /-- the entry first voided keeps all but its state, its reason and both ends of its links -/
  first : t.entries[i] = { s.entries[i] with state := .void, reason := some reason, pred := none, link := none }
  /-- its predecessor is no longer linked to it -/
  predecessor : ∀ p, s.entries[i].pred = some p → t.entries[p] = { s.entries[p] with link := none }
  /-- every successor is VOID with reason PREDECESSOR -/
  successors : ∀ j ∈ rest, t.entries[j] = { s.entries[j] with state := .void, reason := some .predecessor, pred := none, link := none }
  others : ∀ j : Fin 32, j ∉ i :: rest → s.entries[i].pred ≠ some j → t.entries[j] = s.entries[j]
  /-- the waiting frames of every slot voided are withdrawn -/
  withdrawn : t.link.waiting = s.link.waiting.filter (fun w => decide (w.slot ∉ i :: rest))
  /-- one VOID record for each entry, in the order of the chain -/
  records : s.evid.queue.length + (i :: rest).length ≤ 512 → ∃ added, t.evid.queue = s.evid.queue ++ added
    ∧ added.map Record.body = voidBodyOf s.entries i reason :: rest.map (fun j => voidBodyOf s.entries j .predecessor)
    ∧ added.map Record.number = List.range' s.evid.nextNumber (i :: rest).length
  flag : flagSet .auctionVoid t = true
  /-- no other flag but EVIDENCE_LOSS is set -/
  flags : ∀ n : Notice, n ≠ .auctionVoid → n ≠ .evidenceLoss → flagSet n t = flagSet n s
  kept : t.clock = s.clock ∧ t.steer = s.steer ∧ t.stamp = s.stamp ∧ t.peers = s.peers ∧ t.ref = s.ref ∧ t.cfg = s.cfg
    ∧ t.card = s.card

/-! ### Queues -/

/-- The queues hold at most what the spec gives them room for (R22, R95, R96, R98), and the transmitter waits only with a frame to
send (R15). -/
structure QueuesOk (s : State) : Prop where
  requests : s.stamp.requests.length ≤ 64
  responses : s.stamp.responses.length ≤ 64
  captures : ∀ i : Fin 4, s.stamp.captures[i].length ≤ 8
  history : s.link.history.length ≤ 4
  /-- at most one receipt per peer, in ascending peer id (R23) -/
  receipts : s.link.receipts.IsChain (fun a b => a.peer < b.peer)
  /-- IDLE while no frame waits (R15) -/
  idle : s.link.tx = .idle → s.link.hasWaiting = false
  /-- DEFERRING only with a frame waiting (R15) -/
  deferring : ∀ n, s.link.tx = .deferring n → s.link.hasWaiting = true

/-! ### Frames that can be sent (R17, R18) -/

/-- The fields of a frame lie in the ranges of R17 and R18. -/
def Frame.inRange : Frame → Prop
  | .beacon b =>
    b.sender ≤ 15 ∧ b.t1 ≤ maxTime ∧ b.bound ≤ max32 ∧ b.receipts.length ≤ 15 ∧ receiptsOrdered b.sender b.receipts = true
      ∧ ∀ r ∈ b.receipts, r.time ≤ maxTime
  | .draw d => d.sender ≤ 15 ∧ d.group ≠ 0 ∧ d.tn ≤ maxTn
  | .tally t => t.sender ≤ 15 ∧ t.group ≠ 0 ∧ t.tn ≤ maxTn ∧ t.offset < 3600000

/-! ### Commands of the Service Port -/

/-- The one body length of each command code (12 section 12.7); absent for a code that names none. -/
def requiredLength (code : Byte) : Option Nat :=
  match code.toNat with
  | 2 => some 84
  | 4 => some 10
  | 6 => some 1
  | 7 => some 34
  | 8 => some 1
  | 9 => some 1
  | 10 => some 1
  | 11 => some 4
  | 13 => some 1
  | 17 => some 2
  | 1 => some 0
  | 3 => some 0
  | 5 => some 0
  | 12 => some 0
  | 14 => some 0
  | 15 => some 0
  | 16 => some 0
  | 18 => some 0
  | _ => none

/-- A notice flag is named in a set as CLEAR_NOTICES carries it (R183). -/
def Notice.namedIn (n : Notice) (set : BitVec 16) : Bool := set.getLsbD n.index

/-- The state with a response held by its transaction and nothing else changed. -/
def State.replied (s : State) (st : Status) (body : Bytes) : State :=
  { s with port := { s.port with transaction := .executed ⟨st, body⟩ false } }

/-! ### Steps -/

/-- A step of `a` fine units would meet the span of an entry: one that is DRAWING, TALLYING or FIXED, or ARMED with its draw instant
reached, or ARMED with a stretch, from its draw instant to Tn + W − 1, that meets the times from the one before to the one after
(R71, R133). -/
def stepMeetsSpan (a : Int) (s : State) : Prop :=
  let after : Int := max 0 (min ((s.clock.present : Int) + a) maxTime)
  ∃ i : Fin 32, s.entries[i].state = .drawing ∨ s.entries[i].state = .tallying ∨ s.entries[i].state = .fixed
    ∨ (s.entries[i].state = .armed
        ∧ let first : Nat := (s.entries[i].tn.getD 0 - s.entries[i].leadL) * 256000000
          let last : Nat := (s.entries[i].tn.getD 0 + (s.entries[i].window - 1)) * 256000000
          (first ≤ s.clock.present ∨ ((first : Int) ≤ max (s.clock.present : Int) after ∧ min (s.clock.present : Int) after ≤ last)))

/-! ### Records and resets -/

/-- The record a body makes stands at the tail of the queue of `t` where the queue of `s` had room for its class (R140 to R142). -/
def recordAdded (b : Body) (s t : State) : Prop :=
  s.evid.queue.length < b.capacity →
    ∃ r : Record, t.evid.queue = s.evid.queue ++ [r] ∧ r.body = b ∧ r.number = s.evid.nextNumber
      ∧ r.grade = t.steer.grade ∧ r.bound = t.steer.bound ∧ r.time = t.clock.present ∧ r.check = linkCheck s.evid.chain r.head
      ∧ t.evid.nextNumber = s.evid.nextNumber + 1 ∧ t.evid.chain = r.check

/-- The grade a warm reset leaves: the one before it, but ANCHORED does not outlive a reference that was VALID (R59, R87). -/
def gradeAfterReset (s : State) : Grade :=
  if s.phase = .run ∧ s.ref.state = .valid ∧ s.steer.grade = .anchored then
    match s.steer.latest.bind Latest.cstar with
    | some .anchored => .agreed
    | some .agreed => .agreed
    | some .holdover => .holdover
    | some .free => .free
    | none => .free
  else s.steer.grade

/-- The records that a warm reset of a cause in RUN adds to the queue, where all of them find room: RESET, then REFERENCE where a state
was left, then the VOID records, then GRADE where the grade changed (R152). -/
structure ResetRecords (cause : ResetCause) (s t : State) (added : List Record) : Prop where
  shape : ∃ (r : Record) (refs voids grades : List Record), added = r :: (refs ++ voids ++ grades)
    ∧ r.number = s.evid.nextNumber ∧ r.check = linkCheck s.evid.chain r.head
    ∧ r.body = .reset { cause := cause, requests := s.stamp.requests.length, responses := s.stamp.responses.length,
                        captures := (s.stamp.captures.toList.map List.length).sum, fence := s.evid.fence, engine := s.engine.state }
    ∧ refs.map Record.body
        = (if s.ref.state = .qualifying ∨ s.ref.state = .valid ∨ s.ref.state = .disputed then
            [.reference { old := s.ref.state, new := .seeking, cause := .reset, verdict := s.ref.verdict, theta := none,
                          latestGood := s.ref.latestGood, run := 0, disagree := 0, agree := 0 }]
          else [])
    ∧ (∀ x ∈ voids, ∃ b, x.body = .void b ∧ t.entries[b.slot].state = .void ∧ (b.reason = .reset ∨ b.reason = .predecessor))
    ∧ (∀ i : Fin 32, s.entries[i].state = .drawing ∨ s.entries[i].state = .tallying → ∃ x ∈ voids, ∃ b, x.body = .void b ∧ b.slot = i)
    ∧ (t.steer.grade = s.steer.grade → grades = [])
    ∧ (t.steer.grade ≠ s.steer.grade → ∃ x b, grades = [x] ∧ x.body = .grade b ∧ b.old = s.steer.grade ∧ b.new = t.steer.grade
        ∧ b.cause = .referenceLost ∧ b.bound = s.steer.bound ∧ b.ref = .seeking)

/-- What a warm reset of a cause leaves of the state before it, a label being under way at it or not (R3, R29, R57, R59, R114, R136,
R152, R153, R167, R182). -/
structure WarmResetTaken (cause : ResetCause) (labelUnderWay : Bool) (s t : State) : Prop where
  pending : t.pending = s.pending
  phase : t.phase = s.phase
  settings : t.cfg = s.cfg
  clock : t.clock = s.clock
  peers : t.peers = s.peers
  /-- the Steering Unit is kept, but for a demotion of the grade (R59, R87) -/
  steering : t.steer = { s.steer with grade := gradeAfterReset s }
  configuration : t.port.loaded = s.port.loaded ∧ t.port.enables = s.port.enables ∧ t.port.selfTest = s.port.selfTest
  /-- frames in flight and waiting frames are discarded, the rest of the interface is kept (R29) -/
  link : t.link = { s.link with tx := .idle, pendingBeacon := false, waiting := [],
                                incoming := s.link.incoming.map (fun x => { x with discarded := true }) }
  /-- back to SEEKING unless ABSENT; a label being received in RUN will be discarded at its end (R57; log 39) -/
  reference : s.ref.state ≠ .absent →
    t.ref = { s.ref with state := .seeking, run := 0, label := none, prev := none, theta := none, disagree := 0, agree := 0,
                         cutLabel := s.ref.cutLabel || (labelUnderWay && decide (s.phase = .run)) }
  noReference : s.ref.state = .absent → t.ref = s.ref
  /-- the queues are emptied, sequence, floor and open batch are kept (R114); a change of grade sets its mark (R88) -/
  stamps : t.stamp = { s.stamp with requests := [], responses := [], captures := Vector.replicate 4 [],
                                    overflow := Vector.replicate 4 false,
                                    gradeMark := s.stamp.gradeMark || decide (gradeAfterReset s ≠ s.steer.grade) }
  /-- STOPPED, without copy or index, the latest completion status kept (R167) -/
  engine : t.engine = { s.engine with state := .stopped, index := none, copy := none, transfer := none }
  /-- a pending fence is cancelled; boundary and lost range are kept, and the loss counts but for a record the reset itself loses (R152) -/
  evidence : t.evid.fence = none ∧ t.evid.boundary = s.evid.boundary ∧ t.evid.lostRange = s.evid.lostRange
    ∧ (t.evid.queue.length < 496 → t.evid.losses = s.evid.losses)
  /-- every entry in DRAWING or TALLYING is VOID, with reason RESET where no entry that the reset voids links to it (R136) -/
  exchanges : s.phase = .run → ∀ i : Fin 32, s.entries[i].state = .drawing ∨ s.entries[i].state = .tallying →
    t.entries[i].state = .void
    ∧ ((∀ j : Fin 32, s.entries[j].link = some i → t.entries[j].state ≠ .void) → t.entries[i].reason = some .reset)
  /-- any other entry that no entry voided links to is kept with every field, but for a link to an entry now VOID (R122, R136) -/
  others : ∀ i : Fin 32, s.entries[i].state ≠ .drawing → s.entries[i].state ≠ .tallying →
    (∀ j : Fin 32, s.entries[j].link = some i → t.entries[j].state ≠ .void) →
    t.entries[i] = { s.entries[i] with link := t.entries[i].link }
    ∧ (t.entries[i].link = s.entries[i].link ∨ t.entries[i].link = none)
  /-- in CONFIG the flags are clear, no entry changes and no record is made (R182) -/
  config : s.phase = .config → t.port.flags = 0 ∧ t.evid.queue = s.evid.queue ∧ t.evid.nextNumber = s.evid.nextNumber
    ∧ t.evid.chain = s.evid.chain ∧ t.evid.losses = s.evid.losses ∧ t.entries = s.entries
  /-- in RUN the flags are cleared first, and those that stand are the ones that the reset's own records set (R182) -/
  flags : s.phase = .run → ∀ n : Notice, flagSet n t = true →
    (n = .reference ∧ (s.ref.state = .qualifying ∨ s.ref.state = .valid ∨ s.ref.state = .disputed))
    ∨ (n = .auctionVoid ∧ ∃ i : Fin 32, s.entries[i].state = .drawing ∨ s.entries[i].state = .tallying)
    ∨ (n = .grade ∧ t.steer.grade ≠ s.steer.grade) ∨ (n = .evidenceLoss ∧ 496 ≤ t.evid.queue.length)
  ownFlags : s.phase = .run →
    (s.ref.state = .qualifying ∨ s.ref.state = .valid ∨ s.ref.state = .disputed → flagSet .reference t = true)
    ∧ ((∃ i : Fin 32, s.entries[i].state = .drawing ∨ s.entries[i].state = .tallying) → flagSet .auctionVoid t = true)
    ∧ (t.steer.grade ≠ s.steer.grade → flagSet .grade t = true)
  /-- in RUN the RESET record is the first the reset makes, and REFERENCE, VOID and GRADE follow it (R152, R153) -/
  records : s.phase = .run → ∃ added, t.evid.queue = s.evid.queue ++ added
    ∧ (s.evid.queue.length < 512 → ∃ r rest, added = r :: rest ∧ r.number = s.evid.nextNumber
        ∧ r.check = linkCheck s.evid.chain r.head
        ∧ r.body = .reset { cause := cause, requests := s.stamp.requests.length, responses := s.stamp.responses.length,
                            captures := (s.stamp.captures.toList.map List.length).sum, fence := s.evid.fence,
                            engine := s.engine.state })
    ∧ (t.evid.queue.length < 496 → ResetRecords cause s t added)

end Sys2Proof.Machine
end

