-- ==== Sys2Proof/Certificates/Slice0/Obligations.lean ====
section
/-! DEFINITION. The statements for the provers. `s` is the station before a command, `t` after it; "absent" of a transaction means that
the command of the transaction has not been received before (R169). -/

open Sys2Proof Sys2Proof.Machine

/-! ### The machine -/

/-- One step runs the command at the front of the queue on the station with the queue's rest. -/
def Obligations.StepRunsFrontCommand : Prop :=
  ∀ (c : Instr) (rest : List Instr) (s : State), s.pending = c :: rest → step s = exec c (s.withPending rest)

/-- Every command is answered with a next state and leaves the queue alone: no command stops the station (log 35). -/
def Obligations.EveryCommandCompletes : Prop :=
  ∀ (c : Instr) (s : State), ∃ t, exec c s = .next t ∧ t.pending = s.pending

/-- With no command waiting, an event of the station's own that is due joins the queue, and where none is due the oscillator moves on
by one tick, which advances the clock. A series whose next member the present time then reaches expires: it becomes due and waits for the
member one period later; any other series stays as it is (R13). The model's choice: log 2, log 3; the due mark is log 5's. -/
def Obligations.EmptyQueueIdles : Prop :=
  ∀ s : State, s.pending = [] →
    (∀ c, nextOwnEvent s = some c → step s = .next (s.withPending [c]))
    ∧ (nextOwnEvent s = none →
        let present := (advanceClock s.clock).present
        let reached := fun x : Series => if x.next ≤ present then ⟨x.next + s.cfg.period * 256000000, true⟩ else x
        step s = .next { s with
          osc := s.osc + 1
          clock := advanceClock s.clock
          steer := { s.steer with series := s.steer.series.map reached }
          link := { s.link with series := s.link.series.map reached } })

/-- No command leads from RUN back to CONFIG but power-on reset (R171), and a clock once set stays set (R11). -/
def Obligations.RunAndSetClockStay : Prop :=
  ∀ (c : Instr) (s t : State), (∀ e r k, c ≠ .powerOnReset e r k) → exec c s = .next t →
    (s.phase = .run → t.phase = .run) ∧ (clockSet s = true → clockSet t = true)

/-- The Station Clock is moved by nobody but the Steering Unit: only POWER_ON_RESET, START, SET_TIME, EDGE and STEERING_INSTANT change
it; and none of the last three moves the present time while an entry is DRAWING, TALLYING or FIXED, or ARMED with its draw instant reached,
nor across the stretch of an ARMED entry from its draw instant to Tn + W − 1 (R71, R133). -/
def Obligations.OnlySteeringMovesTheClock : Prop :=
  ∀ (c : Instr) (s t : State), (∀ e r k, c ≠ .powerOnReset e r k) → (∀ b, c ≠ .start b) → exec c s = .next t →
    ((∀ b, c ≠ .setTime b) → c ≠ .edge → c ≠ .steeringInstant → t.clock = s.clock)
    ∧ t.clock.running = s.clock.running ∧ t.clock.residue = s.clock.residue
    ∧ ((∃ i : Fin 32, s.entries[i].state = .drawing ∨ s.entries[i].state = .tallying ∨ s.entries[i].state = .fixed
          ∨ (s.entries[i].state = .armed ∧ (s.entries[i].tn.getD 0 - s.entries[i].leadL) * 256000000 ≤ s.clock.present)) →
        t.clock.present = s.clock.present)
    ∧ (stepMeetsSpan ((t.clock.present : Int) - s.clock.present) s → t.clock.present = s.clock.present)

/-- A notice flag that is set stays set until CLEAR_NOTICES, a warm reset or power-on reset (R179). The notice line is active while a set
flag's kind is enabled (R180), and only START and power-on reset change what is enabled. -/
def Obligations.FlagsStaySet : Prop :=
  (∀ (c : Instr) (s t : State) (n : Notice),
    (∀ e r k, c ≠ .powerOnReset e r k) → (∀ d k, c ≠ .resetLineEdge d k) → (∀ k, c ≠ .chipSelectRelease k) →
    (∀ b, c ≠ .clearNotices b) → exec c s = .next t → flagSet n s = true → flagSet n t = true)
  ∧ (∀ s : State, noticeLine s = true ↔ ∃ n : Notice, flagSet n s = true ∧ s.port.enables.getLsbD n.index = true)
  ∧ ∀ (c : Instr) (s t : State), (∀ e r k, c ≠ .powerOnReset e r k) → (∀ b, c ≠ .start b) → exec c s = .next t →
    t.port.enables = s.port.enables

/-- The station after reset meets every invariant stated below. -/
def Obligations.ResetMeetsInvariants : Prop :=
  EvidenceOk State.reset.evid ∧ GradeOk State.reset ∧ RateOk State.reset ∧ AuctionsOk State.reset.entries ∧ QueuesOk State.reset
    ∧ cardWf State.reset.card = true

/-! ### Station Clock -/

/-- Over `n` oscillator nanoseconds at one rate the sum of present time and residue grows by exactly n × 256 × (10^12 + R) / 10^12 fine
units, and the clock neither stands still nor turns back (R5, R10); the residue counts 1/(2 × 10^12) fine unit and a nanosecond is 512
ticks (log 3). At the largest time count the clock holds. -/
def Obligations.ClockAdvancesExactly : Prop :=
  ∀ (n : Nat) (c : Clock), c.running = true → c.residue < 2000000000000 → |c.rate| ≤ 500000000 →
    (c.present + 257 * n < maxTime →
      ∃ d, advanceTicks (512 * n) c = d ∧ d.residue < 2000000000000 ∧ d.rate = c.rate ∧ d.running = true
        ∧ ((d.present * 2000000000000 + d.residue : Nat) : Int)
            = (c.present * 2000000000000 + c.residue : Nat) + n * 512 * (1000000000000 + c.rate)
        ∧ c.present + 255 * n ≤ d.present)
    ∧ (c.present = maxTime → advanceTicks (512 * n) c = c)

/-- A step of `a` fine units: the present time is the old one plus `a`, held at 0 and at the largest time count, the residue, the rate
and running are kept, and the amount applied is the time after minus the time before (R8). Where the time after lies above the time
before, each of the two series drops the members passed and waits for its first member strictly after the present time; otherwise both
are as they were (R13). A member reached before and not yet taken stays to be taken: the model's choice, log 5. -/
def Obligations.StepsAndSeries : Prop :=
  (∀ (a : Int) (s : State),
    let t := stepClock a s
    let drop := Series.drop (s.cfg.period * 256000000) t.clock.present
    t.clock = { s.clock with present := (max 0 (min ((s.clock.present : Int) + a) maxTime)).toNat }
    ∧ appliedAmount s.clock.present a = (t.clock.present : Int) - s.clock.present
    ∧ (0 ≤ (s.clock.present : Int) + a → (s.clock.present : Int) + a ≤ maxTime → appliedAmount s.clock.present a = a)
    ∧ (s.clock.present < t.clock.present →
        t.steer.series = s.steer.series.map drop ∧ t.link.series = s.link.series.map drop)
    ∧ (t.clock.present ≤ s.clock.present → t.steer.series = s.steer.series ∧ t.link.series = s.link.series)
    ∧ t = { s with clock := t.clock, steer := { s.steer with series := t.steer.series }
                   link := { s.link with series := t.link.series } })
  ∧ ∀ (period present : Nat) (x : Series), 0 < period →
    ∃ k, (x.drop period present).next = x.next + k * period ∧ present < (x.drop period present).next
      ∧ (k ≠ 0 → (x.drop period present).next ≤ present + period) ∧ (present < x.next → k = 0)
      ∧ (x.drop period present).due = x.due

/-! ### Service Port -/

/-- IDENTIFY returns vendor code, part code, revision, self-test word and phase in every phase, and changes nothing else. -/
def Obligations.IdentifyReplies : Prop :=
  ∀ s : State, s.port.transaction = .absent →
    exec (.identify []) s = .next (s.replied .ok
      [0x41, 0x0C, 0x60, 0x04, 0x01,
        BitVec.ofNat 8 ((if s.port.selfTest.evidenceFail then 1 else 0) + (if s.port.selfTest.randomFail then 2 else 0)),
        if s.phase = .run then 1 else 0])

/-- A code that names no command is answered UNKNOWN, and a body of another length than the command's REFUSED_RANGE with an empty body,
a field index of 0 for LOAD_CONFIG; neither changes the station (R170). Card memory takes what the host itself wrote (log 10). -/
def Obligations.RefusedBeforeItsTests : Prop :=
  (∀ (code : Byte) (body : Bytes) (s : State), s.port.transaction = .absent →
    exec (.unknownCommand code body) s = .next (s.replied .unknown []))
  ∧ ∀ (c : Instr) (code : Byte) (body : Bytes) (n : Nat) (s : State), s.port.transaction = .absent →
    commandParts c = some (code, body) → requiredLength code = some n → body.length ≠ n →
    (∀ b, c ≠ .unknownCommand code b) →
    ∃ m, exec c s = .next { s with
      card := m, port := { s.port with transaction := .executed ⟨.refusedRange, if code = 2 then [0] else []⟩ false } }
      ∧ (m = s.card ∨ ∃ k, m = cardHost s.card k.hostWrites ∧ (c = .exportStart body k ∨ c = .exportResume body k ∨ c = .exportStop body k))

/-- The commands that phase CONFIG refuses are answered REFUSED_STATE and change nothing else, and so is START in RUN, without a loaded
configuration, or with evidence memory FAIL (R170, R176). -/
def Obligations.RefusedInThePhase : Prop :=
  (∀ (c : Instr) (code : Byte) (body : Bytes) (n : Nat) (s : State), s.phase = .config → s.port.transaction = .absent →
    commandParts c = some (code, body) → requiredLength code = some n → body.length = n →
    ((∃ b, c = .setTime b) ∨ (∃ b, c = .readPeer b) ∨ (∃ b, c = .armAuction b) ∨ (∃ b, c = .fence b) ∨ (∃ b, c = .checkpoint b)) →
    exec c s = .next (s.replied .refusedState []))
  ∧ (∀ (body : Bytes) (k : CardInput) (s : State), s.phase = .config → s.port.transaction = .absent → k.hostWrites = [] →
    let u := s.replied .refusedState []
    (body.length = 1 → exec (.exportStart body k) s = .next u) ∧ exec (.exportResume [] k) s = .next u
      ∧ exec (.exportStop [] k) s = .next u)
  ∧ ∀ s : State, s.port.transaction = .absent →
    (s.phase = .run ∨ s.port.loaded = none ∨ s.port.selfTest.evidenceFail = true) →
    exec (.start []) s = .next (s.replied .refusedState [])

/-- The reads answer OK and change nothing but the transaction. READ_STATUS returns the parts of the Service Port Controller, the clock,
the Peer Link Interface, the Peer Table's counts, the reference, the Steering Unit, the Stamp Unit, the Auction Table's counts, the
Evidence Unit and the Export Engine; READ_AUCTION every field of the slot's entry; READ_PEER every field of the peer's record and whether
its estimate would be usable (R45, R124, R178). The widths and the order of the fields are log 24's. -/
def Obligations.ReadsReplyWithoutEffect : Prop :=
  ∀ s : State, s.port.transaction = .absent →
    let slot := fun j : Fin 32 => le 1 j.val
    exec (.readStatus []) s = .next (s.replied .ok
      (le 1 s.phase.code ++ le 1 s.port.selfTest.word ++ optBytes 4 (fun r : Bytes => le 4 (crc32c r).toNat) s.port.loaded
        ++ timeBytes s.clock.present ++ le 4 s.link.linkErrors ++ le 4 s.link.foreign
        ++ (List.range 5).flatMap (fun c => le 1 (s.peers.countP (fun p => decide (p.state.code = c))))
        ++ (le 1 s.ref.state.code ++ le 1 s.ref.run ++ optBytes 8 amountBytes s.ref.theta ++ le 1 s.ref.verdict.code
            ++ optBytes 8 (le 8) s.ref.latestGood ++ le 1 s.ref.disagree ++ le 1 s.ref.agree)
        ++ (le 1 s.steer.state.code ++ le 1 s.steer.state.bankCode ++ leInt 4 s.steer.rf ++ leInt 4 s.steer.rp
            ++ leInt 4 s.clock.rate ++ optBytes 4 (leInt 4) s.steer.holdover ++ flagBytes s.steer.incomplete
            ++ flagBytes s.steer.rateLimit ++ flagBytes s.steer.stepDeferred ++ le 1 s.steer.lockRun ++ le 1 s.steer.unlockRun
            ++ le 4 s.steer.bound ++ le 1 s.steer.grade.code
            ++ optBytes 20 (fun l : Latest => amountBytes l.correction ++ amountBytes l.spread ++ le 1 (cstarCode l.cstar)
                ++ le 1 l.candidates ++ le 1 l.retained ++ le 1 l.kind.code) s.steer.latest)
        ++ (le 8 (seqNat s.stamp.nextSeq) ++ stampTimeBytes s.stamp.floor ++ optBytes 8 (le 8) s.stamp.floorSeq
            ++ le 1 s.stamp.requests.length ++ le 1 s.stamp.responses.length
            ++ s.stamp.captures.toList.flatMap (fun q => le 1 q.length) ++ s.stamp.overflow.toList.flatMap flagBytes
            ++ optBytes 16 (fun b : Batch => le 8 b.first ++ le 4 b.count ++ le 4 b.held) s.stamp.batch ++ flagBytes s.stamp.gradeMark)
        ++ (List.range 8).flatMap (fun c => le 1 (s.entries.toList.countP (fun e => decide (e.state.code = c))))
        ++ (le 2 s.evid.queue.length ++ le 2 (s.evid.queue.countP (fun r => r.body.kind.ordinary))
            ++ optBytes 8 (fun r : Record => le 8 r.number) s.evid.queue.head? ++ le 8 s.evid.nextNumber ++ le 4 s.evid.chain.toNat
            ++ s.evid.losses.toList.flatMap (le 2) ++ optBytes 16 (fun r : Nat × Nat => le 8 r.1 ++ le 8 r.2) s.evid.lostRange
            ++ optBytes 8 (le 8) s.evid.fence ++ optBytes 11 timeBytes s.evid.boundary)
        ++ (le 1 s.engine.state.code ++ optBytes 1 (le 1) s.engine.index ++ le 1 s.engine.lastStatus.code
            ++ optBytes 23 (fun d : Descriptor => le 1 d.mode.code ++ le 1 d.control.code ++ le 4 d.count ++ le 8 d.current
                ++ le 1 d.position ++ le 8 d.last) s.engine.copy)))
    ∧ (∀ i : Fin 32, let e := s.entries[i]
        exec (.readAuction [BitVec.ofNat 8 i.val]) s = .next (s.replied .ok
          (le 1 i.val ++ le 1 e.state.code ++ le 2 e.group.toNat ++ optBytes 8 (le 8) e.tn ++ le 4 e.window ++ le 4 e.leadL
            ++ le 4 e.leadS ++ le 4 e.leadE ++ le 1 e.quorum ++ optBytes 1 slot e.link ++ le 4 e.linkDelay ++ optBytes 1 slot e.pred
            ++ flagBytes e.drawn ++ optBytes 4 (fun x : BitVec 32 => le 4 x.toNat) e.ownShare
            ++ setBytes (keySet e.shares) ++ e.shares.flatMap (fun p => le 4 p.2.toNat) ++ setBytes e.conflicts ++ setBytes e.members
            ++ setBytes (keySet e.tallies)
            ++ e.tallies.flatMap (fun p => p.2.bytes)
            ++ le 2 e.late ++ optBytes 4 (le 4) e.offset ++ optBytes 1 (fun x : FixStatus => le 1 x.code) e.status ++ le 1 e.agreeing
            ++ optBytes 8 (le 8) e.tc ++ optBytes 8 (le 8) e.cut ++ optBytes 1 (fun x : VoidReason => le 1 x.code) e.reason)))
    ∧ (∀ (b : Byte), 32 ≤ b.toNat →
        exec (.readAuction [b]) s = .next (s.replied .refusedRange []))
    ∧ (∀ (b : Byte) (p : Peer), s.phase = .run → findPeer b.toNat s = some p →
        exec (.readPeer [b]) s = .next (s.replied .ok
          (le 1 p.id ++ le 1 p.state.code ++ flagBytes p.mark
            ++ optBytes 24 (fun b : LatestBeacon => le 2 b.seq.toNat ++ timeBytes b.t1 ++ timeBytes b.t2) p.latest
            ++ le 1 p.age ++ le 1 p.grade.code ++ le 4 p.bound ++ le 1 p.steer.code
            ++ optBytes 24 (fun b : Pairing => le 2 b.seq.toNat ++ timeBytes b.t3 ++ timeBytes b.t4) p.pairing
            ++ le 1 p.miss ++ optBytes 16 (fun e : Estimate => amountBytes e.theta ++ amountBytes e.delay) p.estimate
            ++ flagBytes p.valid ++ le 1 p.disagree ++ le 1 p.agree ++ flagBytes (p.usable s.cfg))))
    ∧ (∀ (b : Byte), s.phase = .run → findPeer b.toNat s = none →
        exec (.readPeer [b]) s = .next (s.replied .refusedRange []))

/-- READ_NOTICES returns the set flags and the enable set and changes nothing; CLEAR_NOTICES clears the flags it names, leaves the
others, and returns those that remain (R181). -/
def Obligations.NoticeCommands : Prop :=
  ∀ s : State, s.port.transaction = .absent →
    exec (.readNotices []) s = .next (s.replied .ok (le 2 s.port.flags.toNat ++ le 2 s.port.enables.toNat))
    ∧ ∀ x y : Byte, ∃ f : BitVec 14,
      exec (.clearNotices [x, y]) s = .next { s.replied .ok (le 2 f.toNat) with
        port := { (s.replied .ok (le 2 f.toNat)).port with flags := f } }
      ∧ ∀ n : Notice, f.getLsbD n.index = (flagSet n s && !n.namedIn (y ++ x))

/-- LOAD_CONFIG in CONFIG takes a record of 84 bytes whose 29 fields all pass, and else names the first that fails and changes nothing;
in RUN it is LOCKED (R173, R174). Each field passes in its range, the last with any value (R172). -/
def Obligations.LoadConfigTested : Prop :=
  (∀ (body : Bytes) (s : State), body.length = 84 → s.port.transaction = .absent →
    (s.phase = .config → (∀ i, 1 ≤ i → i ≤ 29 → fieldOk body i = true) →
      exec (.loadConfig body) s = .next { s with port := { s.port with
        loaded := some body, transaction := .executed ⟨.ok, []⟩ false } })
    ∧ (∀ i, s.phase = .config → 1 ≤ i → i ≤ 29 → fieldOk body i = false → (∀ j, 1 ≤ j → j < i → fieldOk body j = true) →
      exec (.loadConfig body) s = .next { s with port := { s.port with
        transaction := .executed ⟨.refusedRange, [BitVec.ofNat 8 i]⟩ false } })
    ∧ (s.phase = .run →
      exec (.loadConfig body) s = .next (s.replied .locked [])))
  ∧ ∀ body : Bytes,
    let members := (List.range 16).countP (fun q => (field 1 2 body).testBit q)
    let range := fun (i off len lo hi : Nat) => (fieldOk body i = true ↔ lo ≤ field off len body ∧ field off len body ≤ hi)
    (fieldOk body 1 = true ↔ field 0 1 body ≤ 15 ∧ (field 1 2 body).testBit (field 0 1 body) = true)
    ∧ (fieldOk body 2 = true ↔ 1 ≤ members)
    ∧ (fieldOk body 3 = true ↔
        field 3 1 body ≤ 3 ∧ 2 * field 3 1 body + 2 ≤ members + (if field 14 1 body = 1 then 1 else 0))
    ∧ (fieldOk body 4 = true ↔
        field 4 2 body = 125 ∨ field 4 2 body = 250 ∨ field 4 2 body = 500 ∨ field 4 2 body = 1000)
    ∧ range 5 6 4 100 1000000 ∧ range 6 10 4 10 10000000 ∧ range 7 14 1 0 1 ∧ range 8 15 4 0 1000000
    ∧ (fieldOk body 9 = true ↔ -1000000 ≤ fieldInt4 19 body ∧ fieldInt4 19 body ≤ 1000000)
    ∧ range 10 23 4 1000 1000000000 ∧ range 11 27 4 1 1000000000 ∧ range 12 31 4 1 1000000000 ∧ range 13 35 4 1000 500000000
    ∧ range 14 39 1 0 15 ∧ range 15 40 1 0 31 ∧ range 16 41 4 1 (field 35 4 body)
    ∧ range 17 45 1 0 15 ∧ range 18 46 1 0 31 ∧ range 19 47 4 1 (field 35 4 body)
    ∧ range 20 51 4 1000 10000000 ∧ range 21 55 4 0 (field 59 4 body) ∧ range 22 59 4 0 4294967294
    ∧ (fieldOk body 23 = true ↔
        field 63 2 body = 1 ∨ field 63 2 body = 10 ∨ field 63 2 body = 100 ∨ field 63 2 body = 1000)
    ∧ range 24 65 1 0 1 ∧ (fieldOk body 25 = true ↔ field 66 2 body = 0 ∨ 16 ≤ field 66 2 body)
    ∧ range 26 68 1 1 members ∧ range 27 69 2 0 1440
    ∧ (fieldOk body 28 = true ↔ field 71 8 body % 32 = 0 ∧ field 71 8 body ≤ 2 ^ 64 - 2048)
    ∧ fieldOk body 29 = true

/-- An accepted START moves the station to RUN with every setting taken from its place in the loaded record, a batch size of 0 standing for
65,536 (12 section 12.6). It starts the clock at 0, places the two series, builds the Peer Table, settles whether a reference is fitted,
places the checkpoint boundary, sets the enable set, makes the START record, and changes nothing else (R176). -/
def Obligations.StartEntersRun : Prop :=
  ∀ (r : Bytes) (s : State), s.phase = .config → s.port.loaded = some r → s.port.selfTest.evidenceFail = false →
    s.port.transaction = .absent → s.engine.state = .stopped → s.evid.queue.length < 512 →
    ∃ t, exec (.start []) s = .next t ∧ t.phase = .run
      ∧ t.cfg = {
          stationId := field 0 1 r
          membership := BitVec.ofNat 16 (field 1 2 r)
          faults := field 3 1 r
          period := field 4 2 r
          delayBound := field 6 4 r
          disagreeLimit := field 10 4 r
          refFitted := decide (field 14 1 r = 1)
          refBound := field 15 4 r
          cableDelay := (BitVec.ofNat 32 (field 19 4 r)).toInt
          stepThreshold := field 23 4 r
          lockThreshold := field 27 4 r
          unlockThreshold := field 31 4 r
          rateMax := field 35 4 r
          acquireBank := { gp := field 39 1 r, gi := field 40 1 r, slewMax := field 41 4 r }
          trackBank := { gp := field 45 1 r, gi := field 46 1 r, slewMax := field 47 4 r }
          drift := field 51 4 r
          limitA := field 55 4 r
          limitG := field 59 4 r
          granularity := field 63 2 r
          rounding := if field 65 1 r = 1 then .nearest else .truncate
          batchSize := if field 66 2 r = 0 then 65536 else field 66 2 r
          quorum := field 68 1 r
          checkpointMinutes := field 69 2 r
          tableBase := field 71 8 r
          enables := BitVec.ofNat 14 (field 79 2 r) }
      ∧ t.clock = { s.clock with running := true, present := 0 }
      ∧ t.steer = { s.steer with series := some ⟨t.cfg.period * 256000000, false⟩ }
      ∧ (∃ n, t.link = { s.link with series := some ⟨n, false⟩ }
          ∧ n = if t.cfg.stationId = 0 then t.cfg.period * 256000000 else t.cfg.stationId * (t.cfg.period * 256000000) / 16)
      ∧ t.peers = ((List.range 16).filter (fun i => t.cfg.membership.getLsbD i && !decide (i = t.cfg.stationId))).map Peer.fresh
      ∧ t.ref = (if t.cfg.refFitted then s.ref else { s.ref with state := .absent })
      ∧ t.evid.boundary = (if t.cfg.checkpointMinutes = 0 then none else some (t.cfg.checkpointMinutes * 60000000000 * 256))
      ∧ t.port = { s.port with enables := t.cfg.enables, transaction := .executed ⟨.ok, []⟩ false }
      ∧ recordAdded (.start (crc32c r) t.cfg.stationId t.cfg.membership s.port.selfTest.evidenceFail s.port.selfTest.randomFail) s t
      ∧ t.evid.losses = s.evid.losses ∧ t.evid.lostRange = s.evid.lostRange ∧ t.evid.fence = s.evid.fence
      ∧ t.stamp = s.stamp ∧ t.entries = s.entries ∧ t.engine = s.engine ∧ t.card = s.card ∧ t.osc = s.osc ∧ t.fresh = s.fresh

/-- SET_TIME in COLD steps the clock to the given time and takes the station to ACQUIRE with a STEP record; in any other steering state
it is refused, and so is a nanosecond part out of range (R78, R72); and so is a
step that would meet an entry's span, which no run finds in COLD (R71; log 30). -/
def Obligations.SetTimeSetsTheClock : Prop :=
  ∀ (body : Bytes) (s : State), body.length = 10 → s.phase = .run → s.port.transaction = .absent →
    let given := (field 0 6 body * 1000000000 + field 6 4 body) * 256
    let refusal := fun st => exec (.setTime body) s = .next (s.replied st [])
    (s.steer.state ≠ .cold → refusal .refusedState)
    ∧ (s.steer.state = .cold → 999999999 < field 6 4 body → refusal .refusedRange)
    ∧ (s.steer.state = .cold → field 6 4 body ≤ 999999999 → stepMeetsSpan ((given : Int) - s.clock.present) s →
      refusal .refusedState)
    ∧ (s.steer.state = .cold → field 6 4 body ≤ 999999999 →
      ¬ stepMeetsSpan ((given : Int) - s.clock.present) s →
      ∃ t, exec (.setTime body) s = .next t ∧ t.clock = { s.clock with present := given, rate := s.steer.rf } ∧ clockSet t = true
        ∧ t.steer = { s.steer with state := .acquire, lockRun := 0, unlockRun := 0, rp := 0, incomplete := false, rateLimit := false,
                                   stepDeferred := false, series := t.steer.series }
        ∧ t.peers = s.peers.map (fun p => { p with valid := false })
        ∧ t.ref = { s.ref with theta := s.ref.theta.map (fun x => x - ((given : Int) - s.clock.present)) }
        ∧ t.port.transaction = .executed ⟨.ok, timeBytes s.clock.present ++ timeBytes given⟩ false ∧ flagSet .step t = true
        ∧ recordAdded (.step { kind := .taken, cause := .setTime, before := .cold, after := .acquire,
                               requested := (given : Int) - s.clock.present, applied := (given : Int) - s.clock.present,
                               timeBefore := s.clock.present, timeAfter := given }) s t
        ∧ t.phase = s.phase ∧ t.cfg = s.cfg ∧ t.stamp = s.stamp ∧ t.entries = s.entries ∧ t.card = s.card ∧ t.osc = s.osc)

/-- WARM_RESET is answered OK in every phase and changes nothing else until chip select is released; CHIP_SELECT_RELEASE ends the
transaction, and at the end of one that carried an accepted WARM_RESET takes the warm reset (R169, R182). An edge of the reset line takes
a warm reset with cause LINE and abandons a transaction in progress, whose executed WARM_RESET stands (R182): the second reset that
follows is log 14's, and that the edge's operand says whether chip select is asserted is log 15's. Power-on reset returns every block to
its power-on values with the self-test's results, and leaves the station in CONFIG (R171, R175); the queue, the oscillator's count, the
counter of free values and the frames on the segment are kept (log 29). Card memory is kept at each, but for a write cut short where card
memory took it (R167; log 27). -/
def Obligations.ResetsAreTaken : Prop :=
  (∀ s : State, s.port.transaction = .absent →
    exec (.warmReset []) s = .next { s with port := { s.port with transaction := .executed ⟨.ok, []⟩ true } })
  ∧ (∀ (took label : Bool) (r : Response) (s : State),
    ((s.port.transaction = .executed r false ∨ s.port.transaction = .abandoned false ∨ s.port.transaction = .absent) →
      exec (.chipSelectRelease ⟨took, label⟩) s = .next { s with port := { s.port with transaction := .absent } })
    ∧ ((s.port.transaction = .executed r true ∨ s.port.transaction = .abandoned true) →
      ∃ t, exec (.chipSelectRelease ⟨took, label⟩) s = .next t ∧ WarmResetTaken .command label s t
        ∧ t.port.transaction = .absent ∧ t.card = (strayWrite took s).card))
  ∧ (∀ (selected took label ordered : Bool) (r : Response) (s : State),
    ∃ t, exec (.resetLineEdge selected ⟨took, label⟩) s = .next t ∧ WarmResetTaken .line label s t
      ∧ ((s.port.transaction = .executed r ordered ∨ s.port.transaction = .abandoned ordered) →
          t.port.transaction = .abandoned ordered)
      ∧ (s.port.transaction = .absent → t.port.transaction = if selected then .abandoned false else .absent)
      ∧ t.card = (strayWrite took s).card)
  ∧ (∀ (e r took : Bool) (s : State),
    exec (.powerOnReset e r took) s = .next { State.reset with
        pending := s.pending, osc := s.osc, fresh := s.fresh, card := (strayWrite took s).card,
        link := { State.reset.link with busy := s.link.busy
                                        incoming := s.link.incoming.map (fun x => { x with discarded := true }) }
        port := { State.reset.port with selfTest := ⟨e, r⟩ } })
  ∧ ∀ (took : Bool) (s : State),
    let m := (strayWrite took s).card
    let writing := s.engine.state = .running ∨ s.engine.state = .stopping
    (took = false ∨ ¬ writing ∨ s.engine.copy = none → m = s.card)
    ∧ ∀ d, took = true → writing → s.engine.copy = some d →
      (∀ r rest, s.engine.transfer = none → s.evid.queue = r :: rest → m = cardWrite s.card d.current r.bytes)
      ∧ ∀ i, s.engine.index = some i →
        (s.engine.transfer = some .done → m = cardWrite s.card (s.cfg.tableBase + 32 * i) (d.bytes .spent .done))
        ∧ (s.engine.transfer = some .stop → m = cardWrite s.card (s.cfg.tableBase + 32 * i) (d.bytes .armed .stopped))
        ∧ (s.engine.transfer = some .read → m = s.card)
        ∧ (∀ bs st, s.engine.transfer = some (.faulted bs st) → m = cardWrite s.card (s.cfg.tableBase + 32 * i) bs)

/-! ### Peer Link -/

/-- In every phase the segment turning idle starts the idle measurement again, and a start marker is read to the fine unit, turns the
segment busy, and overlaps what is on it; a frame that begins in CONFIG is to be discarded (R14, R15, R21). That the segment is busy from
FRAME_ARRIVAL until SEGMENT_IDLE, over START too, is log 17's; that the frames on it stand in a list and that an overlap marks every one
of them is log 18's. -/
def Obligations.SegmentIsSensed : Prop :=
  ∀ s : State,
    let config := decide (s.phase = .config)
    exec .segmentIdle s = .next { s with link := { s.link with
      busy := false, tx := match s.link.tx with | .deferring _ => .deferring s.osc | y => y } }
    ∧ (s.link.busy = false → (∀ f, s.link.tx ≠ .sending f) →
      exec .frameArrival s = .next { s with link := { s.link with
        busy := true, incoming := s.link.incoming ++ [⟨s.clock.present, false, config⟩] } })
    ∧ (∀ f, s.link.busy = false → s.link.tx = .sending f →
      exec .frameArrival s = .next { s with link := { s.link with
        busy := true, incoming := s.link.incoming ++ [⟨s.clock.present, true, config⟩] } })
    ∧ (s.link.busy = true →
      exec .frameArrival s = .next { s with link := { s.link with
        incoming := s.link.incoming.map (fun x => { x with overlapped := true }) ++ [⟨s.clock.present, true, config⟩] } })

/-- A beacon instant makes a beacon pending, and an IDLE transmitter begins to defer. When the access wait of (own id + 1) × 100
oscillator ns is complete on an idle segment, the pending beacon departs with the clock's reading, the next sequence, the published pair
and the whole receipt set, which is emptied; with no beacon pending, the auction frame that has waited longest departs (R15, R19, R20,
R21, R23). The wait counted in oscillator ticks is log 16's, the departure at the moment that completes it log 36's, and the waiting list's
order log 19's. -/
def Obligations.FramesAreSent : Prop :=
  (∀ (x : Series) (s : State), s.phase = .run → s.link.series = some x → x.due = true →
    exec .beaconInstant s = .next { s with link := { s.link with
      series := some { x with due := false }, pendingBeacon := true,
      tx := match s.link.tx with | .idle => .deferring s.osc | y => y } })
  ∧ ∀ (since : Nat) (s : State), s.phase = .run → s.link.tx = .deferring since → s.link.busy = false →
    since + 512 * ((s.cfg.stationId + 1) * 100) ≤ s.osc →
    (s.link.pendingBeacon = true →
      exec .accessWaitComplete s = .next { s with link := { s.link with
        pendingBeacon := false, nextSeq := s.link.nextSeq + 1, receipts := [],
        tx := .sending (.beacon { sender := s.cfg.stationId, seq := s.link.nextSeq, t1 := s.clock.present, grade := s.steer.grade,
                                  steer := s.steer.state, bound := s.steer.bound, receipts := s.link.receipts }) } })
    ∧ (∀ w ws, s.link.pendingBeacon = false → s.link.waiting = w :: ws →
      exec .accessWaitComplete s = .next { s with link := { s.link with waiting := ws, tx := .sending w.frame } })

/-- When a frame has left whole, the transmitter defers again where another waits and else is IDLE; a beacon joins the history, which
keeps the last four (R15, R22). -/
def Obligations.FrameSentEndsSending : Prop :=
  ∀ (f : Frame) (s : State), s.link.tx = .sending f → s.link.history.length ≤ 4 →
    ∃ h, exec .frameSent s = .next { s with link := { s.link with
        history := h, tx := if s.link.hasWaiting then .deferring s.osc else .idle } }
      ∧ (∀ b, f = .beacon b → h <:+ s.link.history ++ [⟨b.seq, b.t1⟩] ∧ h.length = min 4 (s.link.history.length + 1))
      ∧ ((∀ b, f ≠ .beacon b) → h = s.link.history)

/-- A frame that ends in RUN is rejected and counted: as a link error where the line damaged it, its kind is not one of the three, or its
length or check fails; as foreign where its sender is no member; as a link error where it is malformed. A BEACON is malformed by a
nanosecond part above 999,999,999, a grade or steering state code above 3, or a receipt that names a peer id above 15, the sender, or an id
at or below one named before; a DRAW or TALLY by a group of 0 or a Tn above its range, and a TALLY by an offset of 3,600,000 or more. A
frame that passes these tests moves neither count. One that a reset discarded, or that began in CONFIG, is not counted, and in CONFIG none
is (R14, R16, R24, R28, R29). -/
def Obligations.RejectedFramesAreCounted : Prop :=
  ∀ (x : Incoming) (rest : List Incoming) (bytes : Bytes) (damaged : Bool) (s : State), s.link.incoming = x :: rest →
    let received := exec (.frameReceived bytes damaged) s
    let kind := field 0 1 bytes
    let sender := field 1 1 bytes
    let n := field 21 1 bytes
    let peer := fun i => field (22 + 14 * i) 1 bytes
    let whole := (kind = 1 ∧ n ≤ 15 ∧ bytes.length = 26 + 14 * n ∨ kind = 2 ∧ bytes.length = 20 ∨ kind = 3 ∧ bytes.length = 22)
      ∧ field (bytes.length - 4) 4 bytes = (crc32c (bytes.take (bytes.length - 4))).toNat
    let member := sender ≤ 15 ∧ s.cfg.membership.getLsbD sender = true
    let malformed :=
      (kind = 1 ∧ (999999999 < field 10 4 bytes ∨ 3 < field 15 1 bytes ∨ 3 < field 16 1 bytes
        ∨ ∃ i, i < n ∧ (999999999 < field (31 + 14 * i) 4 bytes ∨ 15 < peer i ∨ peer i = sender ∨ ∃ j, j < i ∧ peer i ≤ peer j)))
      ∨ ((kind = 2 ∨ kind = 3) ∧ (field 2 2 bytes = 0 ∨ 281474976710655 * 1000 + 999 < field 4 8 bytes))
      ∨ (kind = 3 ∧ 3600000 ≤ field 14 4 bytes)
    (s.phase = .config → received = .next { s with link := { s.link with incoming := rest } })
    ∧ (s.phase = .run →
      let error := received
        = .next { s with link := { s.link with incoming := rest, linkErrors := min (s.link.linkErrors + 1) 4294967295 } }
      (x.discarded = true → received = .next { s with link := { s.link with incoming := rest } })
      ∧ (x.discarded = false → (damaged = true ∨ x.overlapped = true ∨ ¬ whole) → error)
      ∧ (x.discarded = false → damaged = false → x.overlapped = false → whole → ¬ member →
          received = .next { s with link := { s.link with incoming := rest, foreign := min (s.link.foreign + 1) 4294967295 } })
      ∧ (x.discarded = false → damaged = false → x.overlapped = false → whole → member → malformed → error)
      ∧ (x.discarded = false → damaged = false → x.overlapped = false → whole → member → ¬ malformed →
          ∃ t, received = .next t ∧ t.link.incoming = rest ∧ t.link.linkErrors = s.link.linkErrors ∧ t.link.foreign = s.link.foreign))

/-- A whole frame that carries the station's own id is rejected without a count and sets ID_CONFLICT; a beacon is also recorded (R25,
R44). -/
def Obligations.OwnIdFrameIsAConflict : Prop :=
  ∀ (f : Frame) (x : Incoming) (rest : List Incoming) (s : State), f.inRange → f.sender = s.cfg.stationId →
    inSet s.cfg.stationId s.cfg.membership = true → s.phase = .run → s.link.incoming = x :: rest → x.discarded = false →
    x.overlapped = false →
    ((∀ b, f ≠ .beacon b) →
      exec (.frameReceived f.bytes false) s = .next { s with
        link := { s.link with incoming := rest }, port := { s.port with flags := s.port.flags ||| 16#14 } })
    ∧ (∀ b, f = .beacon b → s.evid.queue.length < 496 →
      ∃ t, exec (.frameReceived f.bytes false) s = .next t ∧ t.link = { s.link with incoming := rest } ∧ t.peers = s.peers
        ∧ t.port.flags = s.port.flags ||| 16#14 ∧ recordAdded (.idConflict s.cfg.stationId b.seq b.t1 x.time) s t
        ∧ t.clock = s.clock ∧ t.steer = s.steer ∧ t.ref = s.ref ∧ t.stamp = s.stamp ∧ t.entries = s.entries ∧ t.card = s.card)

/-- An accepted beacon of peer p sets p's receipt and p's record. A receipt that names a beacon of the station's history forms the
estimate: θ and d are half the difference and half the sum of the crossings t4 − t3 and t2 − t1, toward negative infinity. A beacon that
names no receipt for the station, or one whose sequence is not in the history, is a miss: a pairing and its estimate are kept until the
fourth miss, which loses them, and a record without a pairing counts its misses up to 4 and is HEARD. A change of the record's state makes
a PEER record with its cause and sets the flag, and without a change there is neither. No other peer's record changes (R23, R26, R31, R32,
R33, R35, R43). -/
def Obligations.AcceptedBeaconUpdatesPeer : Prop :=
  ∀ (b : Beacon) (p : Peer) (x : Incoming) (rest : List Incoming) (s : State), (Frame.beacon b).inRange →
    inSet b.sender s.cfg.membership = true → b.sender ≠ s.cfg.stationId → s.phase = .run → s.link.incoming = x :: rest →
    x.discarded = false → x.overlapped = false → findPeer b.sender s = some p →
    let named := b.receipts.find? (fun r => decide (r.peer = s.cfg.stationId))
    let sent := fun m : Receipt => s.link.history.find? (fun y => decide (y.seq = m.seq))
    let missed := ∀ m, named = some m → sent m = none
    ∃ t q, exec (.frameReceived (Frame.beacon b).bytes false) s = .next t ∧ findPeer b.sender t = some q
      ∧ (∀ i, i ≠ b.sender → findPeer i t = findPeer i s)
      ∧ ⟨b.sender, b.seq, x.time⟩ ∈ t.link.receipts
      ∧ t.link = { s.link with incoming := rest, receipts := t.link.receipts }
      ∧ q.latest = some ⟨b.seq, b.t1, x.time⟩ ∧ q.age = 0 ∧ q.grade = b.grade ∧ q.bound = b.bound ∧ q.steer = b.steer
      ∧ q.mark = p.mark ∧ q.disagree = p.disagree ∧ q.agree = p.agree
      ∧ (∀ m h, named = some m → sent m = some h →
          q.pairing = some ⟨h.seq, h.time, m.time⟩ ∧ q.miss = 0 ∧ q.valid = true
          ∧ q.estimate = some ⟨Int.fdiv (((m.time : Int) - h.time) - ((x.time : Int) - b.t1)) 2,
                               Int.fdiv (((m.time : Int) - h.time) + ((x.time : Int) - b.t1)) 2⟩
          ∧ q.state = (if p.mark then .excluded else .paired))
      ∧ (missed → p.pairing ≠ none → p.miss < 3 →
          q.pairing = p.pairing ∧ q.estimate = p.estimate ∧ q.valid = p.valid ∧ q.miss = p.miss + 1
          ∧ q.state = (if p.mark then .excluded else .paired))
      ∧ (missed → p.pairing ≠ none → 3 ≤ p.miss →
          q.pairing = none ∧ q.estimate = none ∧ q.valid = false ∧ q.miss = 0 ∧ q.state = .heard)
      ∧ (missed → p.pairing = none →
          q.pairing = none ∧ q.estimate = p.estimate ∧ q.valid = p.valid ∧ q.miss = min (p.miss + 1) 4 ∧ q.state = .heard)
      ∧ (let changed := fun cause : PeerCause => flagSet .peer t = true
            ∧ recordAdded (.peer { id := b.sender, old := p.state, new := q.state, cause := cause, estimate := q.estimate, valid := q.valid,
                                   disagree := q.disagree, agree := q.agree, miss := q.miss, seq := b.seq, grade := b.grade }) s t;
          (q.state = p.state → t.port = s.port ∧ t.evid = s.evid)
          ∧ (p.state = .absent → q.state = .heard → changed .heardFirst)
          ∧ (p.state = .silent → q.state = .heard → changed .returnedUnpaired)
          ∧ ((p.state = .paired ∨ p.state = .excluded) → q.state = .heard → changed .pairingLost)
          ∧ ((p.state = .absent ∨ p.state = .heard ∨ p.state = .silent) → q.state = .paired → changed .pairingGained)
          ∧ ((p.state = .heard ∨ p.state = .silent) → q.state = .excluded → changed .pairingGained))
      ∧ t.clock = s.clock ∧ t.steer = s.steer ∧ t.ref = s.ref ∧ t.stamp = s.stamp ∧ t.entries = s.entries ∧ t.card = s.card

/-- An accepted DRAW stores its share at the live entry of its group and Tn in ARMED or DRAWING with a window, where the sender has sent
none and is in no conflict; the same share again changes nothing, and a second, different one puts the sender in the conflict set and
removes its share, after which its shares are ignored. A TALLY with an offset below W is stored in DRAWING or TALLYING; the same one again
changes nothing, and a second, different one is kept as DROPPED, for good. A report the entry cannot take any more, or not yet, or with
no window or an offset outside it, advances its late count, which holds at 65,535; one at a VOID entry changes nothing. Nothing else
changes (R27, R126, R128). -/
def Obligations.AcceptedAuctionFramesReachTheEntry : Prop :=
  ∀ (i : Fin 32) (x : Incoming) (rest : List Incoming) (s : State), AuctionsOk s.entries → s.phase = .run →
    s.link.incoming = x :: rest → x.discarded = false → x.overlapped = false →
    let e := s.entries[i]
    let after := fun e' : Entry => { s with link := { s.link with incoming := rest }, entries := s.entries.set i e' }
    let late := { e with late := min (e.late + 1) 65535 }
    let named := fun (group : BitVec 16) (tn : Nat) => e.group = group ∧ e.tn = some tn
      ∧ (e.state.live = true ∨ ∀ j : Fin 32, j ≠ i → ¬ (s.entries[j].group = group ∧ s.entries[j].tn = some tn))
    (∀ d : Draw, (Frame.draw d).inRange → inSet d.sender s.cfg.membership = true → d.sender ≠ s.cfg.stationId → named d.group d.tn →
      let got := fun u : State => exec (.frameReceived (Frame.draw d).bytes false) s = .next u
      (0 < e.window → (e.state = .armed ∨ e.state = .drawing) →
        (inSet d.sender e.conflicts = true → got (after e))
        ∧ (inSet d.sender e.conflicts = false → e.shares.lookup d.sender = none →
          ∃ m, got (after { e with shares := m })
            ∧ m.lookup d.sender = some d.share ∧ ∀ q, q ≠ d.sender → m.lookup q = e.shares.lookup q)
        ∧ (inSet d.sender e.conflicts = false → e.shares.lookup d.sender = some d.share → got (after e))
        ∧ ∀ y, inSet d.sender e.conflicts = false → e.shares.lookup d.sender = some y → y ≠ d.share →
          ∃ m c, got (after { e with shares := m, conflicts := c })
            ∧ m.lookup d.sender = none ∧ inSet d.sender c = true
            ∧ ∀ q, q ≠ d.sender → m.lookup q = e.shares.lookup q ∧ inSet q c = inSet q e.conflicts)
      ∧ ((e.state = .tallying ∨ e.state = .fixed ∨ e.state = .closed ∨ (e.window = 0 ∧ (e.state = .armed ∨ e.state = .drawing))) →
          got (after late))
      ∧ (e.state = .void → got (after e)))
    ∧ ∀ f : TallyFrame, (Frame.tally f).inRange → inSet f.sender s.cfg.membership = true → f.sender ≠ s.cfg.stationId →
      named f.group f.tn →
      let got := fun u : State => exec (.frameReceived (Frame.tally f).bytes false) s = .next u
      let stored := fun v : Tally => ∃ m, got (after { e with tallies := m })
        ∧ m.lookup f.sender = some v ∧ ∀ q, q ≠ f.sender → m.lookup q = e.tallies.lookup q
      (f.offset < e.window → (e.state = .drawing ∨ e.state = .tallying) →
        (e.tallies.lookup f.sender = none → stored (.tally f.members f.offset))
        ∧ (e.tallies.lookup f.sender = some (.tally f.members f.offset) → got (after e))
        ∧ (∀ m o, e.tallies.lookup f.sender = some (.tally m o) → (m ≠ f.members ∨ o ≠ f.offset) → stored .dropped)
        ∧ (e.tallies.lookup f.sender = some .dropped → got (after e)))
      ∧ ((e.state = .armed ∨ e.state = .fixed ∨ e.state = .closed
            ∨ (e.window ≤ f.offset ∧ (e.state = .drawing ∨ e.state = .tallying))) → got (after late))
      ∧ (e.state = .void → got (after e))

/-- Every frame whose fields lie in the ranges of R17 and R18 is read back from its own bytes: its length and check pass, its sender is
found, and every field is the one written (R16, R24, 12 section 12.3). -/
def Obligations.FramesReadBack : Prop :=
  ∀ f : Frame, f.inRange → frameWhole f.bytes = true ∧ frameSender f.bytes = f.sender ∧ parseFrame f.bytes = some f

/-! ### Reference Input -/

/-- A label whose length, check and lock indicator pass becomes the pending label, any other makes it absent; nothing else changes
(R48). A label that was being received at a warm reset is discarded at its end, whatever it carries (R57; the mark is log 39's). -/
def Obligations.LabelReceived : Prop :=
  ∀ s : State, s.phase = .run → s.ref.state ≠ .absent →
    (∀ l : RefLabel, s.ref.cutLabel = false → l.second < 2 ^ 48 →
      exec (.labelReceived l.bytes) s = .next { s with ref := { s.ref with label := some l } })
    ∧ (∀ bytes : Bytes, s.ref.cutLabel = false →
      (bytes.length ≠ 11 ∨ field 7 4 bytes ≠ (crc32c (bytes.take 7)).toNat ∨ 1 < field 6 1 bytes) →
      exec (.labelReceived bytes) s = .next { s with ref := { s.ref with label := none } })
    ∧ ∀ bytes : Bytes, s.ref.cutLabel = true →
      exec (.labelReceived bytes) s = .next { s with ref := { s.ref with cutLabel := false } }

/-- An edge, in each state. It is bad with verdict NO_LABEL, UNLOCKED, SEQUENCE or INTERVAL, by the first test that fails, and otherwise
good (R49). A good edge sets θ_ref, whatever its size (log 41), the previous edge and the latest good second; it takes SEEKING to QUALIFYING with run 1, QUALIFYING to
the next run and from run 3 to VALID, and leaves VALID and DISPUTED as they are. A bad edge leaves SEEKING there, and takes QUALIFYING,
VALID and DISPUTED back to SEEKING, where an ANCHORED grade does not outlive VALID. Every change of state makes a REFERENCE record and sets
the flag (R50, R51, R56, R87). The change to VALID in COLD steps the clock by θ_ref (R79); that its record comes before the step is log
38's, and that REFERENCE comes before GRADE log 23's. Where no reference is fitted, and in CONFIG, an edge changes nothing (R47). -/
def Obligations.EdgeMovesTheReference : Prop :=
  ∀ s : State,
    ((s.phase = .config ∨ s.ref.state = .absent) → exec .edge s = .next s)
    ∧ (s.phase = .run → s.ref.state ≠ .absent →
    let r := s.ref
    let bad := fun v : Verdict =>
      (v = .noLabel ∧ r.label = none) ∨ (v = .unlocked ∧ ∃ n, r.label = some ⟨n, false⟩)
      ∨ ∃ n p, r.label = some ⟨n, true⟩ ∧ r.prev = some p
          ∧ ((v = .sequence ∧ n ≠ p.second + 1)
            ∨ (v = .interval ∧ n = p.second + 1 ∧ (s.osc < p.osc + 512 * 999950000 ∨ p.osc + 512 * 1000050000 < s.osc)))
    let good := fun n : Nat => r.label = some ⟨n, true⟩
      ∧ ∀ p, r.prev = some p → n = p.second + 1 ∧ p.osc + 512 * 999950000 ≤ s.osc ∧ s.osc ≤ p.osc + 512 * 1000050000
    let theta := fun n : Nat => ((n : Int) * 1000000000 + s.cfg.cableDelay) * 256 - s.clock.present
    let measured := fun n : Nat =>
      { r with label := none, verdict := .good, theta := some (theta n), prev := some ⟨n, s.osc⟩, latestGood := some n }
    let record := fun (new : RefState) (cause : RefCause) (u : Reference) =>
      Body.reference { old := r.state, new := new, cause := cause, verdict := u.verdict, theta := u.theta,
                       latestGood := u.latestGood, run := u.run, disagree := u.disagree, agree := u.agree }
    let seek := fun v : Verdict =>
      { r with state := .seeking, run := 0, label := none, verdict := v, prev := none, theta := none, disagree := 0, agree := 0 }
    let rest := fun t : State => t.clock = s.clock ∧ t.peers = s.peers ∧ t.entries = s.entries ∧ t.link = s.link ∧ t.card = s.card
    (∀ v, bad v → r.state = .seeking → exec .edge s = .next { s with ref := { r with label := none, verdict := v } })
    ∧ (∀ v, bad v → (r.state = .qualifying ∨ r.state = .valid ∨ r.state = .disputed) →
      ∃ t, exec .edge s = .next t ∧ t.ref = seek v ∧ flagSet .reference t = true
        ∧ t.steer = { s.steer with grade := t.steer.grade } ∧ (r.state = .valid → t.steer.grade ≠ .anchored)
        ∧ (r.state ≠ .valid ∨ s.steer.grade ≠ .anchored → t.steer = s.steer ∧ t.stamp = s.stamp)
        ∧ (s.evid.queue.length < 496 →
            ∃ x more, t.evid.queue = s.evid.queue ++ x :: more ∧ x.number = s.evid.nextNumber
              ∧ x.body = record .seeking .badEdge (seek v))
        ∧ rest t)
    ∧ (∀ n, good n → r.state = .seeking →
      let u : Reference := { measured n with state := .qualifying, run := 1 }
      ∃ t, exec .edge s = .next t ∧ t.ref = u ∧ flagSet .reference t = true
        ∧ recordAdded (record .qualifying .runBegun u) s t ∧ t.steer = s.steer ∧ t.stamp = s.stamp ∧ rest t)
    ∧ (∀ n, good n → r.state = .qualifying → r.run < 3 → exec .edge s = .next { s with ref := { measured n with run := r.run + 1 } })
    ∧ (∀ n, good n → r.state = .qualifying → 3 ≤ r.run →
      let u : Reference := { measured n with state := .valid, run := 0 }
      (s.steer.state ≠ .cold →
        ∃ t, exec .edge s = .next t ∧ t.ref = u ∧ flagSet .reference t = true
          ∧ recordAdded (record .valid .qualified u) s t ∧ t.steer = s.steer ∧ t.stamp = s.stamp ∧ rest t)
      ∧ (s.steer.state = .cold → ¬ stepMeetsSpan (theta n) s →
        ∃ t, exec .edge s = .next t ∧ flagSet .reference t = true ∧ flagSet .step t = true
          ∧ t.clock = { s.clock with present := (max 0 (min ((s.clock.present : Int) + theta n) maxTime)).toNat, rate := s.steer.rf }
          ∧ t.ref = { u with theta := some (theta n - ((t.clock.present : Int) - s.clock.present)) }
          ∧ t.steer = { s.steer with state := .acquire, lockRun := 0, unlockRun := 0, rp := 0, incomplete := false,
                                     rateLimit := false, stepDeferred := false, series := t.steer.series }
          ∧ t.peers = s.peers.map (fun p => { p with valid := false })
          ∧ (t.evid.queue.length < 496 →
              ∃ x y, t.evid.queue = s.evid.queue ++ [x, y] ∧ x.number = s.evid.nextNumber ∧ x.time = s.clock.present
                ∧ x.body = record .valid .qualified u
                ∧ y.body = .step { kind := .taken, cause := .reference, before := .cold, after := .acquire, requested := theta n,
                                   applied := (t.clock.present : Int) - s.clock.present, timeBefore := s.clock.present,
                                   timeAfter := t.clock.present })
          ∧ t.stamp = s.stamp ∧ t.entries = s.entries ∧ t.card = s.card))
    ∧ ∀ n, good n → (r.state = .valid ∨ r.state = .disputed) → exec .edge s = .next { s with ref := measured n })

/-- 1,500,000,000 oscillator ns after the previous good edge the reference returns to SEEKING with verdict INTERVAL and a REFERENCE
record, and an ANCHORED grade does not stand (R52, R87). That the REFERENCE record is the first one, before the GRADE record
of the demotion, is the model's reading, log 23. -/
def Obligations.EdgeTimeoutSeeks : Prop :=
  ∀ (p : PrevEdge) (s : State), s.phase = .run →
    (s.ref.state = .qualifying ∨ s.ref.state = .valid ∨ s.ref.state = .disputed) → s.ref.prev = some p →
    p.osc + 512 * 1500000000 ≤ s.osc →
    ∃ t, exec .edgeTimeout s = .next t ∧ flagSet .reference t = true
      ∧ t.ref = { s.ref with state := .seeking, run := 0, verdict := .interval, prev := none, theta := none, disagree := 0,
                             agree := 0 }
      ∧ (s.ref.state = .valid → t.steer.grade ≠ .anchored) ∧ t.steer = { s.steer with grade := t.steer.grade }
      ∧ (s.evid.queue.length < 496 →
          ∃ r rest, t.evid.queue = s.evid.queue ++ r :: rest ∧ r.number = s.evid.nextNumber
            ∧ r.body = .reference { old := s.ref.state, new := .seeking, cause := .edgeTimeout, verdict := .interval, theta := none,
                                    latestGood := s.ref.latestGood, run := 0, disagree := 0, agree := 0 })
      ∧ t.clock = s.clock ∧ t.peers = s.peers ∧ t.entries = s.entries ∧ t.link = s.link ∧ t.card = s.card

/-! ### Steering Unit -/

/-- The sources of an instant are the reference, in VALID, with class ANCHORED and U_ref, and every peer that has a usable estimate and is
not EXCLUDED, with its advertised grade as class and its advertised U plus d / 2 rounded up to whole ns, held at 4,294,967,295 (R36, R37,
R54, R60). c* is the highest class that at least K = 2f + 1 of them have or exceed, classes standing by their codes with ANCHORED, 0, the
highest, and there is none where fewer than K exist (R61). Of the candidates f lowest and f highest are removed and the others retained
(R62); the order of equal offsets is free (log 7). C is the lowest plus the highest retained offset, halved toward negative infinity, and σ
is their difference, whatever its size (log 41); with one retained value C is that value and σ is 0; C lies between two offsets of candidates (R63). The source term
is the smallest retained U' (R84). -/
def Obligations.CorrectionLiesBetweenOffsets : Prop :=
  (∀ s : State,
    let reference : List Source :=
      match s.ref.state, s.ref.theta with
      | .valid, some theta => [⟨0, theta, .anchored, s.cfg.refBound⟩]
      | _, _ => []
    let admitted := fun p : Peer => p.estimate.bind fun e =>
      if p.state = .paired ∧ p.valid = true ∧ p.age ≤ 1 ∧ 0 ≤ e.delay ∧ e.delay ≤ s.cfg.delayBound * 256
          ∧ (p.grade ≠ .free ∨ p.steer ≠ .cold) then
        some (⟨p.id + 1, e.theta, p.grade, min (p.bound + ((e.delay + 511) / 512).toNat) 4294967295⟩ : Source)
      else none
    admittedSources s.cfg s.ref (sourceList s) = reference ++ s.peers.filterMap admitted
    ∧ instantCombination s = combine s.fresh s.cfg (reference ++ s.peers.filterMap admitted))
  ∧ ∀ (instant : Nat) (c : Settings) (xs : List Source),
    let k := 2 * c.faults + 1
    let x := combine instant c xs
    let atLeast := fun g : Grade => xs.filter (fun y => decide (y.cls.code ≤ g.code))
    (selectClass k xs = none ↔ xs.length < k)
    ∧ (selectClass k xs = none → x = { cstar := none, candidates := xs.length, retained := [] })
    ∧ ∀ g, selectClass k xs = some g →
      let cand := atLeast g
      let r := x.retained
      x.cstar = some g ∧ x.candidates = cand.length
      ∧ k ≤ cand.length ∧ (∀ h : Grade, h.code < g.code → (atLeast h).length < k)
      ∧ r.length = cand.length - 2 * c.faults ∧ (∀ y ∈ r, y ∈ cand)
      ∧ (∃ low high, (low ++ r ++ high).Perm cand ∧ low.length = c.faults ∧ high.length = c.faults
          ∧ (∀ a ∈ low, ∀ y ∈ r, a.theta ≤ y.theta) ∧ ∀ b ∈ high, ∀ y ∈ r, y.theta ≤ b.theta)
      ∧ (∃ y ∈ r, sourceTerm r = y.bound) ∧ (∀ y ∈ r, sourceTerm r ≤ y.bound)
      ∧ ∃ lo ∈ r.map Source.theta, ∃ hi ∈ r.map Source.theta,
        (∀ y ∈ r, lo ≤ y.theta ∧ y.theta ≤ hi) ∧ correctionOf r = Int.fdiv (lo + hi) 2 ∧ spreadOf r = hi - lo
        ∧ (r.length = 1 → correctionOf r = lo ∧ spreadOf r = 0)
        ∧ (∃ a ∈ cand, a.theta ≤ correctionOf r) ∧ ∃ b ∈ cand, correctionOf r ≤ b.theta

/-- An instant in ACQUIRE, TRACK or HOLDOVER whose combination is slewed: |C| is below the step threshold, or the step it calls for would
meet an entry's span and is deferred (R70, R71, R73). U is the sum of the four terms (R84) and the grade follows U, c* and the reference
(R85), with a GRADE record, flag and mark where it changes (R88, R89). The runs and the state move by the lock and unlock thresholds, 8
and 3 instants, HOLDOVER as ACQUIRE with both runs 0 (R66, R67). The rates are formed from the rate quotient with the bank that is then
active, each quotient toward zero and each clamp with its flag (R69, R74 to R76). A deferral sets STEP_DEFERRED, and makes a STEP record
of kind DEFERRED where none stood (R73). The spread is kept whatever its size (log 41). That the GRADE record carries this instant's own c*, counts and reference-retained
mark is log 21's, and that the DEFERRED record's states are those after this instant's moves of the runs is log 22's. -/
def Obligations.SteeringInstantSlews : Prop :=
  ∀ (x : Series) (g : Grade) (s : State), s.phase = .run → s.steer.series = some x → x.due = true → s.steer.state ≠ .cold →
    (instantCombination s).cstar = some g →
    let r := (instantCombination s).retained
    let C := correctionOf r
    let beyond := fun ns : Nat => ns * 256 < C.natAbs
    let steps := s.cfg.stepThreshold * 256 ≤ C.natAbs
    let held := if s.steer.state = .holdover then 0 else s.steer.lockRun
    let unheld := if s.steer.state = .holdover then 0 else s.steer.unlockRun
    let moved : SteerState × Nat × Nat :=
      if s.steer.state = .track then
        if beyond s.cfg.unlockThreshold then
          (if 3 ≤ s.steer.unlockRun + 1 then (.acquire, s.steer.lockRun, 0) else (.track, s.steer.lockRun, s.steer.unlockRun + 1))
        else (.track, s.steer.lockRun, 0)
      else if beyond s.cfg.lockThreshold then (.acquire, 0, unheld)
      else if 8 ≤ held + 1 then (.track, 0, unheld)
      else (.acquire, held + 1, unheld)
    let b := if moved.1 = .track then s.cfg.trackBank else s.cfg.acquireBank
    let q := Int.tdiv (C * 1000000000000) ((256 * (s.cfg.period * 1000000) : Nat) : Int)
    let rp := Int.tdiv q ((2 ^ b.gp : Nat) : Int)
    let rf := s.steer.rf + Int.tdiv q ((2 ^ b.gi : Nat) : Int)
    let u := min (sourceTerm r + ((spreadOf r).toNat + 511) / 512 + (C.natAbs + 255) / 256
      + (s.cfg.drift * (s.cfg.period * 1000000) + 999999999999) / 1000000000000) 4294967295
    let ref := r.any (fun y => decide (y.key = 0))
    let grade : Grade :=
      if ref = true ∧ u ≤ s.cfg.limitA then .anchored
      else if (g = .anchored ∨ g = .agreed) ∧ u ≤ s.cfg.limitG then .agreed
      else if g = .holdover ∧ u ≤ s.cfg.limitG then .holdover
      else .free
    (¬ steps ∨ stepMeetsSpan C s) →
    ∃ t, exec .steeringInstant s = .next t
      ∧ t.steer.series = some { x with due := false }
      ∧ (t.steer.state, t.steer.lockRun, t.steer.unlockRun) = moved
      ∧ t.steer.holdover = (if s.steer.state = .track then some s.steer.rf else s.steer.holdover)
      ∧ t.steer.bound = u
      ∧ t.steer.grade
          = (if s.ref.state = .valid ∧ t.ref.state = .disputed ∧ grade = .anchored then (if g = .anchored then .agreed else g) else grade)
      ∧ (grade ≠ s.steer.grade → flagSet .grade t = true ∧ t.stamp.gradeMark = true
          ∧ (s.evid.queue.length < 512 →
              ∃ y more, t.evid.queue = s.evid.queue ++ y :: more ∧ y.number = s.evid.nextNumber ∧ y.grade = grade ∧ y.bound = u
                ∧ y.body = .grade { old := s.steer.grade, new := grade, cause := .combination, bound := u, cstar := some g,
                                    retained := r.length, candidates := (instantCombination s).candidates, refRetained := ref,
                                    ref := s.ref.state, steer := s.steer.state }))
      ∧ (grade = s.steer.grade → t.ref.state = s.ref.state → t.stamp = s.stamp)
      ∧ t.steer.rp = max (-(b.slewMax : Int)) (min b.slewMax rp)
      ∧ t.steer.rf = max (-(s.cfg.rateMax : Int)) (min s.cfg.rateMax rf)
      ∧ t.clock = { s.clock with rate := max (-(s.cfg.rateMax : Int)) (min s.cfg.rateMax (t.steer.rf + t.steer.rp)) }
      ∧ (t.steer.incomplete = true ↔ t.steer.rp ≠ rp)
      ∧ (t.steer.rateLimit = true ↔ t.steer.rf ≠ rf ∨ t.clock.rate ≠ t.steer.rf + t.steer.rp)
      ∧ (t.steer.stepDeferred = true ↔ steps)
      ∧ (steps → s.steer.stepDeferred = false → flagSet .step t = true
          ∧ (t.evid.queue.length < 496 →
              ∃ y ∈ t.evid.queue, s.evid.nextNumber ≤ y.number
                ∧ y.body = .step { kind := .deferred, cause := .combination, before := moved.1, after := moved.1, requested := C,
                                   applied := 0, timeBefore := s.clock.present, timeAfter := s.clock.present }))
      ∧ t.steer.latest = some { correction := C, spread := spreadOf r, cstar := some g,
                                candidates := (instantCombination s).candidates, retained := r.length, refRetained := ref
                                kind := if steps then .deferred else .slew }
      ∧ t.entries = s.entries ∧ t.link = s.link ∧ t.cfg = s.cfg ∧ t.card = s.card ∧ t.pending = s.pending

/-- An instant with a combination steps the clock by C where it finds COLD, whatever the size of C, and in any other state where |C| is at
or above the step threshold, provided that the step meets no entry's span (R65, R70, R71). The step leaves the state ACQUIRE with both
runs 0, no phase rate and no flag of a slew, keeps the frequency rate as the rate, makes every estimate invalid, and is recorded (R72).
In COLD it keeps U, and the grade while the reference keeps its state (R83). In any other state U and the grade are formed as at every
combination (R84, R85), with a GRADE record, flag and mark where the grade changes (R88, R94). In TRACK the frequency rate is captured as
the holdover rate (R68). That the GRADE record carries this instant's own c*, counts and reference-retained mark is log 21's, and that the
STEP record's state before is the one after this instant's moves of the runs is log 22's; the spread is kept whatever its size (log 41). -/
def Obligations.FirstCombinationSetsTheClock : Prop :=
  ∀ (x : Series) (g : Grade) (s : State), s.phase = .run → s.steer.series = some x → x.due = true →
    (instantCombination s).cstar = some g →
    let r := (instantCombination s).retained
    let C := correctionOf r
    let cold := s.steer.state = .cold
    let held := if s.steer.state = .holdover then 0 else s.steer.lockRun
    let moved : SteerState :=
      if s.steer.state = .track then
        if s.cfg.unlockThreshold * 256 < C.natAbs ∧ 3 ≤ s.steer.unlockRun + 1 then .acquire else .track
      else if s.cfg.lockThreshold * 256 < C.natAbs ∨ held + 1 < 8 then .acquire
      else .track
    let u := min (sourceTerm r + ((spreadOf r).toNat + 511) / 512 + (C.natAbs + 255) / 256
      + (s.cfg.drift * (s.cfg.period * 1000000) + 999999999999) / 1000000000000) 4294967295
    let ref := r.any (fun y => decide (y.key = 0))
    let grade : Grade :=
      if ref = true ∧ u ≤ s.cfg.limitA then .anchored
      else if (g = .anchored ∨ g = .agreed) ∧ u ≤ s.cfg.limitG then .agreed
      else if g = .holdover ∧ u ≤ s.cfg.limitG then .holdover
      else .free
    (cold ∨ s.cfg.stepThreshold * 256 ≤ C.natAbs) → ¬ stepMeetsSpan C s →
    ∃ t, exec .steeringInstant s = .next t ∧ t.steer.state = .acquire ∧ t.steer.lockRun = 0 ∧ t.steer.unlockRun = 0
      ∧ t.clock = { s.clock with present := (max 0 (min ((s.clock.present : Int) + C) maxTime)).toNat, rate := s.steer.rf }
      ∧ t.steer.rp = 0 ∧ t.steer.rf = s.steer.rf ∧ t.steer.incomplete = false ∧ t.steer.rateLimit = false
      ∧ t.steer.stepDeferred = false ∧ flagSet .step t = true
      ∧ t.steer.holdover = (if s.steer.state = .track then some s.steer.rf else s.steer.holdover)
      ∧ (cold → t.steer.bound = s.steer.bound ∧ (t.ref.state = s.ref.state → t.steer.grade = s.steer.grade ∧ t.stamp = s.stamp))
      ∧ (¬ cold → t.steer.bound = u
          ∧ t.steer.grade
              = (if s.ref.state = .valid ∧ t.ref.state = .disputed ∧ grade = .anchored then (if g = .anchored then .agreed else g)
                 else grade)
          ∧ (grade ≠ s.steer.grade → flagSet .grade t = true ∧ t.stamp.gradeMark = true
              ∧ (s.evid.queue.length < 512 →
                  ∃ y more, t.evid.queue = s.evid.queue ++ y :: more ∧ y.number = s.evid.nextNumber ∧ y.grade = grade ∧ y.bound = u
                    ∧ y.body = .grade { old := s.steer.grade, new := grade, cause := .combination, bound := u, cstar := some g,
                                        retained := r.length, candidates := (instantCombination s).candidates, refRetained := ref,
                                        ref := s.ref.state, steer := s.steer.state }))
          ∧ (grade = s.steer.grade → t.ref.state = s.ref.state → t.stamp = s.stamp))
      ∧ (∀ p ∈ t.peers, p.valid = false)
      ∧ t.steer.latest = some { correction := C, spread := spreadOf r, cstar := some g, candidates := (instantCombination s).candidates,
                                retained := r.length, refRetained := ref, kind := .step }
      ∧ (t.evid.queue.length < 496 →
          ∃ y ∈ t.evid.queue, s.evid.nextNumber ≤ y.number
            ∧ y.body = .step { kind := .taken, cause := .combination, before := if cold then .cold else moved, after := .acquire
                               requested := C, applied := (t.clock.present : Int) - s.clock.present, timeBefore := s.clock.present
                               timeAfter := t.clock.present })
      ∧ t.entries = s.entries ∧ t.cfg = s.cfg ∧ t.card = s.card

/-- An instant without a combination: the outcome is NONE with the number of the admitted sources; in COLD nothing else of the Steering
Unit changes; in ACQUIRE and TRACK the station goes to HOLDOVER with the holdover rate as its frequency rate, which is the present one
where none was captured and in TRACK, with no phase rate, both runs 0 and the two slew flags clear; in HOLDOVER the rates, runs and flags
are kept; and in all but COLD U grows by the drift term and the grade is at best HOLDOVER (R64, R68, R77, R83, R86). -/
def Obligations.InstantWithoutCombination : Prop :=
  ∀ (x : Series) (s : State), s.phase = .run → s.steer.series = some x → x.due = true → (instantCombination s).cstar = none →
    let n := (admittedSources s.cfg s.ref (sourceList s)).length
    let u := min (s.steer.bound + (s.cfg.drift * (s.cfg.period * 1000000) + 999999999999) / 1000000000000) 4294967295
    ∃ t, exec .steeringInstant s = .next t ∧ n < 2 * s.cfg.faults + 1
      ∧ t.steer.latest = some { correction := 0, spread := 0, cstar := none, candidates := n, retained := 0, kind := .none,
                                refRetained := false }
      ∧ (s.steer.state = .cold →
          t.steer = { s.steer with latest := t.steer.latest, series := some { x with due := false } } ∧ t.clock = s.clock)
      ∧ (s.steer.state ≠ .cold →
          t.steer.state = .holdover ∧ t.steer.bound = u
          ∧ t.steer.grade = (if s.steer.grade ≠ .free ∧ u ≤ s.cfg.limitG then .holdover else .free)
          ∧ t.steer.stepDeferred = s.steer.stepDeferred ∧ t.steer.series = some { x with due := false })
      ∧ ((s.steer.state = .acquire ∨ s.steer.state = .track) →
          t.steer.rf = (if s.steer.state = .track then s.steer.rf else s.steer.holdover.getD s.steer.rf)
          ∧ t.steer.holdover = (if s.steer.state = .track then some s.steer.rf else s.steer.holdover)
          ∧ t.steer.rp = 0 ∧ t.steer.lockRun = 0 ∧ t.steer.unlockRun = 0 ∧ t.steer.incomplete = false ∧ t.steer.rateLimit = false
          ∧ t.clock = { s.clock with rate := t.steer.rf })
      ∧ (s.steer.state = .holdover →
          t.steer = { s.steer with latest := t.steer.latest, series := t.steer.series, bound := t.steer.bound, grade := t.steer.grade })
      ∧ (s.steer.state = .holdover → t.clock = s.clock)
      ∧ t.ref = s.ref ∧ t.entries = s.entries ∧ t.link = s.link ∧ t.cfg = s.cfg ∧ t.card = s.card

/-- Every steering instant, beside what it does to the Steering Unit. Where there is a correction, each peer whose estimate is usable is
judged against it: an offset further from C than D_x advances the disagree run and ends the agree run, any other the reverse, the fourth
disagreement excludes a PAIRED peer and the fourth agreement readmits an EXCLUDED one (R36, R38 to R40). Every record's age advances: at 2
instants without a beacon it is SILENT, and SILENT at 8 it is ABSENT and cleared (R41, R42). A change of state makes a PEER record and
sets the flag (R43). A VALID or DISPUTED reference is judged in the same way, four disagreements make VALID DISPUTED and four agreements
DISPUTED VALID, each with its record, and ANCHORED does not outlive VALID (R55, R56, R87). The SYNC record comes at the end (R80), and
after it the checkpoint whose boundary the present time has reached, the boundary becoming the next multiple of the period (R147). That
judging comes before ageing is log 20's. -/
def Obligations.SteeringInstantJudges : Prop :=
  ∀ (x : Series) (s : State), s.phase = .run → s.steer.series = some x → x.due = true → (s.peers.map Peer.id).Nodup →
    let C := correctionOf (instantCombination s).retained
    let combined := (instantCombination s).cstar ≠ none
    let far := fun theta : Int => s.cfg.disagreeLimit * 256 < (theta - C).natAbs
    let usable := fun p : Peer => (p.state = .paired ∨ p.state = .excluded) ∧ p.valid = true ∧ p.age ≤ 1
      ∧ (∃ e, p.estimate = some e ∧ 0 ≤ e.delay ∧ e.delay ≤ (s.cfg.delayBound * 256 : Nat)) ∧ (p.grade ≠ .free ∨ p.steer ≠ .cold)
    let judged := fun (p j : Peer) =>
      (¬ (combined ∧ usable p) → j = p)
      ∧ ∀ e, combined → usable p → p.estimate = some e →
        let dis := if far e.theta then min (p.disagree + 1) 255 else 0
        let agr := if far e.theta then 0 else min (p.agree + 1) 255
        let out := p.state = .paired ∧ 4 ≤ dis
        let back := p.state = .excluded ∧ 4 ≤ agr
        j = { p with disagree := dis, agree := agr, state := if out then .excluded else if back then .paired else p.state
                     mark := if out then true else if back then false else p.mark }
    let aged := fun (j q : Peer) =>
      let age := min (j.age + 1) 8
      (j.latest = none → q = { j with valid := q.valid })
      ∧ (j.latest ≠ none →
        ((j.state = .heard ∨ j.state = .paired ∨ j.state = .excluded) →
          q = { j with age := age, state := if 2 ≤ age then .silent else j.state, valid := q.valid })
        ∧ (j.state = .silent → age < 8 → q = { j with age := age, valid := q.valid })
        ∧ (j.state = .silent → 8 ≤ age →
          q = { j with age := age, state := .absent, pairing := none, estimate := none, valid := false, miss := 0, disagree := 0,
                       agree := 0, mark := false, grade := .free, bound := 4294967295, steer := .cold })
        ∧ (j.state = .absent → q = { j with age := age, valid := q.valid }))
    let body := fun (old : PeerState) (cause : PeerCause) (p : Peer) =>
      Body.peer { id := p.id, old := old, new := p.state, cause := cause, estimate := p.estimate, valid := p.valid,
                  disagree := p.disagree, agree := p.agree, miss := p.miss, seq := (p.latest.map LatestBeacon.seq).getD 0
                  grade := p.grade }
    ∃ t, exec .steeringInstant s = .next t
      ∧ (∀ p ∈ s.peers, ∃ j a q, judged p j ∧ aged j a ∧ a.valid = (j.valid && decide (a.state ≠ .absent ∨ j.state = .absent))
          ∧ findPeer p.id t = some q ∧ q = { a with valid := q.valid } ∧ (q.valid = true → a.valid = true)
          ∧ (j.state ≠ p.state → flagSet .peer t = true
              ∧ (t.evid.queue.length < 496 → ∃ y ∈ t.evid.queue, s.evid.nextNumber ≤ y.number
                  ∧ y.body = body p.state (if j.state = .excluded then .exclusion else .readmission) j))
          ∧ (a.state ≠ j.state → flagSet .peer t = true
              ∧ (t.evid.queue.length < 496 → ∃ y ∈ t.evid.queue, s.evid.nextNumber ≤ y.number
                  ∧ y.body = body j.state (if a.state = .absent then .absence else .silence) a)))
      ∧ t.peers.map Peer.id = s.peers.map Peer.id
      ∧ (∀ theta, combined → (s.ref.state = .valid ∨ s.ref.state = .disputed) → s.ref.theta = some theta →
          let dis := if far theta then min (s.ref.disagree + 1) 255 else 0
          let agr := if far theta then 0 else min (s.ref.agree + 1) 255
          let new : RefState := if s.ref.state = .valid ∧ 4 ≤ dis then .disputed
            else if s.ref.state = .disputed ∧ 4 ≤ agr then .valid else s.ref.state
          t.ref = { s.ref with state := new, disagree := dis, agree := agr
                               theta := some (theta - ((t.clock.present : Int) - s.clock.present)) }
          ∧ (new ≠ s.ref.state → flagSet .reference t = true
              ∧ (new = .disputed → t.steer.grade ≠ .anchored)
              ∧ (t.evid.queue.length < 496 → ∃ y ∈ t.evid.queue, s.evid.nextNumber ≤ y.number
                  ∧ y.body = .reference { old := s.ref.state, new := new, cause := if new = .disputed then .dispute else .agreement
                                          verdict := s.ref.verdict, theta := some theta, latestGood := s.ref.latestGood
                                          run := s.ref.run, disagree := dis, agree := agr })))
      ∧ ((¬ combined ∨ (s.ref.state ≠ .valid ∧ s.ref.state ≠ .disputed) ∨ s.ref.theta = none) →
          t.ref = { s.ref with theta := s.ref.theta.map (fun y => y - ((t.clock.present : Int) - s.clock.present)) })
      ∧ t.evid.boundary = s.evid.boundary.map (fun b => if b ≤ t.clock.present then
            (t.clock.present / (s.cfg.checkpointMinutes * 60000000000 * 256) + 1) * (s.cfg.checkpointMinutes * 60000000000 * 256)
          else b)
      ∧ (t.evid.queue.length < 496 → ∃ before l y, t.steer.latest = some l
          ∧ y.body = .sync { latest := l, state := t.steer.state, incomplete := t.steer.incomplete, rateLimit := t.steer.rateLimit
                             stepDeferred := t.steer.stepDeferred, rf := t.steer.rf, rp := t.steer.rp }
          ∧ y.time = t.clock.present
          ∧ ((∀ b, s.evid.boundary = some b → t.clock.present < b) → t.evid.queue = before ++ [y])
          ∧ ∀ b, s.evid.boundary = some b → b ≤ t.clock.present →
            ∃ z k, t.evid.queue = before ++ [y, z] ∧ z.body = .checkpoint k ∧ k.cause = .period ∧ k.state = t.steer.state
              ∧ k.rf = t.steer.rf ∧ k.rp = t.steer.rp ∧ k.holdover = t.steer.holdover ∧ k.nextSeq = t.stamp.nextSeq
              ∧ k.ref = t.ref.state ∧ k.held = before.length + 1)
      ∧ t.link.incoming = s.link.incoming ∧ t.entries = s.entries ∧ t.cfg = s.cfg ∧ t.card = s.card

/-- |R_f| ≤ RateMax, |R| ≤ RateMax, and |R_p| ≤ the active bank's SlewMax, kept by every step (R75). -/
def Obligations.RatesStayLimited : Prop := ∀ s t : State, RateOk s → step s = .next t → RateOk t

/-- The grade is ANCHORED only while the reference is VALID, and other than FREE only while U ≤ Limit_G, kept by every step (R87). -/
def Obligations.GradeStaysBacked : Prop := ∀ s t : State, GradeOk s → step s = .next t → GradeOk t

/-! ### Stamp Unit -/

/-- A request of 8 bytes, kind, line, group and tag, joins the tail while the queue holds fewer than 64 and is held off while it holds 64;
a response leaves from the head (R95, R96, 12 section 12.2). -/
def Obligations.OrderPortTransfers : Prop :=
  ∀ (k l g0 g1 a b c d : Byte) (s : State),
    let request := Instr.requestArrival k l #v[g0, g1] #v[a, b, c, d]
    (s.stamp.requests.length < 64 →
      exec request s = .next { s with stamp := { s.stamp with requests := s.stamp.requests ++ [⟨k, l, g1 ++ g0, d ++ c ++ b ++ a⟩] } })
    ∧ (64 ≤ s.stamp.requests.length → exec request s = .next s)
    ∧ (∀ r rest, s.stamp.responses = r :: rest →
      exec .responseTaken s = .next { s with stamp := { s.stamp with responses := rest } })
    ∧ (s.stamp.responses = [] → exec .responseTaken s = .next s)

/-- A capture edge is ignored while the clock is unset; while it is set the reading joins the line's queue, and with 8 queued the edge
is discarded, the overflow mark and CAPTURE_OVERFLOW set (R98). -/
def Obligations.CaptureEdgeIsQueued : Prop :=
  ∀ (i : Fin 4) (s : State),
    (clockSet s = false → exec (.captureEdge i) s = .next s)
    ∧ (clockSet s = true → s.stamp.captures[i].length < 8 →
      exec (.captureEdge i) s = .next { s with stamp := { s.stamp with
        captures := s.stamp.captures.set i (s.stamp.captures[i] ++ [s.clock.present]) } })
    ∧ (clockSet s = true → 8 ≤ s.stamp.captures[i].length →
      exec (.captureEdge i) s = .next { s with
        stamp := { s.stamp with overflow := s.stamp.overflow.set i true }
        port := { s.port with flags := s.port.flags ||| 512#14 } })

/-- The three outcomes without a stamp, in the order of their tests: the request is removed, its kind, line and tag are returned, and
nothing else changes; with 64 responses no event is taken (R96, R97). -/
def Obligations.StampEventRefuses : Prop :=
  ∀ (r : Request) (rest : List Request) (s : State), s.stamp.requests = r :: rest →
    let refusal := fun w => exec .stampEvent s = .next { s with stamp := { s.stamp with
      requests := rest, responses := s.stamp.responses ++ [.refused s.cfg.stationId w r.kind r.line r.tag] } }
    (s.stamp.responses.length < 64 → clockSet s = false → refusal .notReady)
    ∧ (s.stamp.responses.length < 64 → clockSet s = true → s.stamp.nextSeq = none → refusal .exhausted)
    ∧ (s.stamp.responses.length < 64 → clockSet s = true → s.stamp.nextSeq ≠ none →
      (2 ≤ r.kind.toNat ∨ (r.kind = 1 ∧ 4 ≤ r.line.toNat)
        ∨ (r.kind = 1 ∧ ∃ i : Fin 4, r.line.toNat = i.val ∧ s.stamp.captures[i] = [])) → refusal .noCapture)
    ∧ (64 ≤ s.stamp.responses.length → exec .stampEvent s = .next s)

/-- An issued stamp: the raw time is the present time for STAMP_NOW and the line's oldest capture for STAMP_CAPTURE, the stamp time the
greater of the rounded time and the floor, HELD where the floor raised it, the rounding indicator that of the rounded time against the raw
time, the sequence the next one, the flags those of the marks, which are cleared, grade and U the published pair; floor and floor sequence
follow the stamp time (R99 to R106). The phase is that of the group's FIXED entry at the stamp time, else OPEN for one in ARMED, DRAWING or
TALLYING, else CLOSED for a closed one, else NONE (R104). Every FIXED entry with its cut absent and its Tc at or below the stamp time has
its cut set: to this stamp's sequence where Tc is above the floor before the event, and to the floor sequence before the event where Tc
equals that floor. A stamp that sets a cut closes the open batch with cause CUT before it joins; it opens a batch or joins the open one,
which closes with cause COUNT at the batch size (R107, R111, R112). -/
def Obligations.StampEventIssues : Prop :=
  ∀ (r : Request) (rest : List Request) (n raw : Nat) (line : Option (Fin 4)) (s : State), s.stamp.requests = r :: rest →
    s.stamp.responses.length < 64 → clockSet s = true → s.stamp.nextSeq = some n →
    ((r.kind = 0 ∧ line = none ∧ raw = s.clock.present)
      ∨ (r.kind = 1 ∧ ∃ (i : Fin 4) (ts : List Nat), line = some i ∧ r.line.toNat = i.val ∧ s.stamp.captures[i] = raw :: ts)) →
    let rounded := roundStamp s.cfg.rounding s.cfg.granularity raw
    let tcNs := fun i : Fin 32 => s.entries[i].tc.getD 0 * 1000000
    ∃ t st, exec .stampEvent s = .next t ∧ t.stamp.requests = rest ∧ t.stamp.responses = s.stamp.responses ++ [.issued st]
      ∧ st.station = s.cfg.stationId ∧ st.seq = n ∧ st.time = max rounded s.stamp.floor
      ∧ (st.rounding = .exact ↔ rounded * 256 = raw) ∧ (st.rounding = .down ↔ rounded * 256 < raw)
      ∧ (st.rounding = .up ↔ raw < rounded * 256)
      ∧ (st.held = true ↔ rounded < s.stamp.floor) ∧ st.gradeChanged = s.stamp.gradeMark
      ∧ st.overflow = (line.map (fun i => s.stamp.overflow[i])).getD false
      ∧ st.grade = s.steer.grade ∧ st.bound = s.steer.bound ∧ st.tag = r.tag
      ∧ (r.group = 0 → st.phase = .none)
      ∧ (AuctionsOk s.entries → r.group ≠ 0 →
        let has := fun p : EntryState => ∃ i : Fin 32, s.entries[i].group = r.group ∧ s.entries[i].state = p
        (∀ i : Fin 32, s.entries[i].group = r.group → s.entries[i].state = .fixed →
          st.phase = if st.time < s.entries[i].tn.getD 0 * 1000000 then .opened
            else if st.time < s.entries[i].tc.getD 0 * 1000000 then .window else .closed)
        ∧ (¬ has .fixed → (has .armed ∨ has .drawing ∨ has .tallying) → st.phase = .opened)
        ∧ (¬ has .fixed → ¬ has .armed → ¬ has .drawing → ¬ has .tallying → has .closed → st.phase = .closed)
        ∧ (¬ has .fixed → ¬ has .armed → ¬ has .drawing → ¬ has .tallying → ¬ has .closed → st.phase = .none))
      ∧ (let cuts := ∃ i : Fin 32, s.entries[i].state = .fixed ∧ s.entries[i].cut = none ∧ tcNs i ≤ st.time
            ∧ (s.stamp.floor < tcNs i ∨ s.stamp.floorSeq ≠ none)
          let h := if st.held then 1 else 0
          let bytes := (StampResponse.issued st).bytes
          let joins := fun b : Batch =>
            (b.count < s.cfg.batchSize → t.stamp.batch = some b)
            ∧ (s.cfg.batchSize ≤ b.count → t.stamp.batch = none
                ∧ (t.evid.queue.length < 496 →
                    ∃ y, t.evid.queue.getLast? = some y ∧ y.body = .batch b (b.check ^^^ 0xFFFFFFFF#32) .count))
          ((cuts ∨ s.stamp.batch = none) → joins ⟨n, 1, h, st.time, st.time, crcMore 0xFFFFFFFF#32 bytes⟩)
          ∧ ∀ b, s.stamp.batch = some b →
            (¬ cuts → joins { b with count := b.count + 1, held := b.held + h, lastTime := st.time, check := crcMore b.check bytes })
            ∧ (cuts → s.evid.queue.length < 496 → ∃ y more, t.evid.queue = s.evid.queue ++ y :: more ∧ y.number = s.evid.nextNumber
                ∧ y.body = .batch b (b.check ^^^ 0xFFFFFFFF#32) .cut))
      ∧ t.stamp.nextSeq = (if n = 18446744073709551615 then none else some (n + 1)) ∧ t.stamp.gradeMark = false
      ∧ t.stamp.floor = st.time ∧ t.stamp.floorSeq = (if s.stamp.floor < st.time then some n else s.stamp.floorSeq)
      ∧ (∀ i : Fin 4, t.stamp.captures[i] = if line = some i then s.stamp.captures[i].tail else s.stamp.captures[i])
      ∧ (∀ i : Fin 4, t.stamp.overflow[i] = if line = some i then false else s.stamp.overflow[i])
      ∧ (∀ i : Fin 32, s.entries[i].state = .fixed → s.entries[i].cut = none → tcNs i ≤ st.time →
          (s.stamp.floor < tcNs i → t.entries[i] = { s.entries[i] with cut := some n })
          ∧ (tcNs i = s.stamp.floor → t.entries[i] = { s.entries[i] with cut := s.stamp.floorSeq }))
      ∧ (∀ i : Fin 32, (s.entries[i].state ≠ .fixed ∨ s.entries[i].cut ≠ none ∨ st.time < tcNs i) →
          t.entries[i] = s.entries[i])
      ∧ t.clock = s.clock ∧ t.steer = s.steer ∧ t.ref = s.ref ∧ t.link = s.link ∧ t.peers = s.peers ∧ t.card = s.card

/-- Under TRUNCATE the rounded time is the largest multiple of G at or below the raw time, under NEAREST the nearer of the two that
enclose it, the upper one at the half, but never above the largest stamp time; the indicator compares it with the raw time (R102). -/
def Obligations.StampTimesAreRounded : Prop :=
  ∀ g raw : Nat, (g = 1 ∨ g = 10 ∨ g = 100 ∨ g = 1000) → raw ≤ maxTime →
    let top := 281474976710655 * 1000000000 + (1000000000 - g)
    (∃ k, roundStamp .truncate g raw = k * g ∧ k * g * 256 ≤ raw ∧ raw < (k + 1) * g * 256)
    ∧ (raw < (top * 2 + g) * 128 →
        ∃ k, roundStamp .nearest g raw = k * g ∧ k * g * 256 ≤ raw + g * 128 ∧ raw + g * 128 < (k + 1) * g * 256)
    ∧ ((top * 2 + g) * 128 ≤ raw → roundStamp .nearest g raw = top)
    ∧ ∀ m, (roundingOf m g raw = .exact ↔ roundStamp m g raw * 256 = raw)
      ∧ (roundingOf m g raw = .down ↔ roundStamp m g raw * 256 < raw) ∧ (roundingOf m g raw = .up ↔ raw < roundStamp m g raw * 256)

/-- The floor never decreases and the next sequence never falls, but at power-on reset; so stamp times never decrease in sequence order
(R102, R103). -/
def Obligations.FloorNeverDecreases : Prop :=
  ∀ (c : Instr) (s t : State), (∀ e r k, c ≠ .powerOnReset e r k) → exec c s = .next t →
    s.stamp.floor ≤ t.stamp.floor ∧ (∀ n m, s.stamp.nextSeq = some n → t.stamp.nextSeq = some m → n ≤ m)
    ∧ (s.stamp.nextSeq = none → t.stamp.nextSeq = none)
    ∧ ∀ st, .issued st ∈ t.stamp.responses → .issued st ∉ s.stamp.responses → s.stamp.floor ≤ st.time ∧ st.time = t.stamp.floor

/-- The queues keep within their room, the transmitter is IDLE only with no frame waiting and DEFERRING only with one, and the receipt
set names a peer once, kept by every step (R15, R22, R23, R95, R96, R98). -/
def Obligations.QueuesStayBounded : Prop := ∀ s t : State, QueuesOk s → step s = .next t → QueuesOk t

/-! ### Auction Unit -/

/-- ARM_AUCTION in RUN, test by test, the first that fails giving the answer: in COLD REFUSED_STATE; a field out of its range
REFUSED_RANGE; a slot that is not FREE, then a group with a live entry, BUSY; a link target that is not HELD, or has a predecessor, or from
which the chain of links reaches the slot, REFUSED_STATE; and for a start of ARMED a draw instant reached or a Tn below the floor,
REFUSED_RANGE (R119). An accepted one fills the slot's entry and makes the link target name it, whether or not the target carries a link of
its own. Nothing else changes (R120). -/
def Obligations.ArmAuctionFillsTheEntry : Prop :=
  ∀ (body : Bytes) (s : State), body.length = 34 → s.port.transaction = .absent → s.phase = .run →
    let slot := field 0 1 body
    let group := field 1 2 body
    let tn := field 3 8 body
    let window := field 11 4 body
    let leadL := field 15 4 body
    let leadS := field 19 4 body
    let leadE := field 23 4 body
    let quorum := field 27 1 body
    let start := field 28 1 body
    let link := field 29 1 body
    let linkDelay := field 30 4 body
    let refusal := fun st => exec (.armAuction body) s = .next (s.replied st [])
    let inRange := slot ≤ 31 ∧ group ≠ 0 ∧ window ≤ 3600000 ∧ leadS + 1000 ≤ leadL ∧ leadE + 500 ≤ leadS ∧ 100 ≤ leadE
      ∧ leadL ≤ 86400000 ∧ quorum ≤ 16 ∧ start ≤ 1 ∧ (link = 255 ∨ link ≤ 31) ∧ linkDelay ≤ 86400000
      ∧ (start = 0 → tn + window ≤ 281474976710655 * 1000 + 999)
    (s.steer.state = .cold → refusal .refusedState)
    ∧ (s.steer.state ≠ .cold → ¬ inRange → refusal .refusedRange)
    ∧ (s.steer.state ≠ .cold → inRange → ∀ i : Fin 32, slot = i.val →
      let live := ∃ j : Fin 32, s.entries[j].group = BitVec.ofNat 16 group ∧ s.entries[j].state.live = true
      let follow := fun (n : Nat) (j : Fin 32) => (fun x : Option (Fin 32) => x.bind fun y => s.entries[y].link)^[n] (some j)
      let linkFree := ∀ j : Fin 32, link = j.val →
        s.entries[j].state = .held ∧ s.entries[j].pred = none ∧ ∀ n, follow n j ≠ some i
      let tooLate := start = 0 ∧ (tn * 256000000 ≤ s.clock.present + leadL * 256000000 ∨ tn * 1000000 < s.stamp.floor)
      let e : Entry := { Entry.freed with
        state := if start = 0 then .armed else .held, group := BitVec.ofNat 16 group, tn := if start = 0 then some tn else none,
        window := window, leadL := leadL, leadS := leadS, leadE := leadE,
        quorum := if quorum = 0 then s.cfg.quorum else quorum, linkDelay := linkDelay }
      (s.entries[i].state ≠ .free → refusal .busy)
      ∧ (s.entries[i].state = .free → live → refusal .busy)
      ∧ (s.entries[i].state = .free → ¬ live → ¬ linkFree → refusal .refusedState)
      ∧ (s.entries[i].state = .free → ¬ live → linkFree → tooLate → refusal .refusedRange)
      ∧ (s.entries[i].state = .free → ¬ live → linkFree → ¬ tooLate →
        (link = 255 →
          exec (.armAuction body) s = .next { s.replied .ok [] with entries := s.entries.set i e })
        ∧ ∀ j : Fin 32, link = j.val →
          exec (.armAuction body) s = .next { s.replied .ok [] with
            entries := (s.entries.set i { e with link := some j }).set j { s.entries[j] with pred := some i } }))

/-- CANCEL_AUCTION voids a live entry and then the entries of its chain of links, one after the other, each with its VOID record; its
predecessor, where it has one, is no longer linked to it, the waiting frames of the slots voided are withdrawn, and AUCTION_VOID is set. It
refuses an entry that is not live. RELEASE_AUCTION frees a CLOSED or VOID entry, clears the links at its ends, and refuses any other. A
slot above 31 is REFUSED_RANGE at both (R121 to R123). That an entry voided keeps a cut that a stamp event has set is log 42's. -/
def Obligations.CancelAndRelease : Prop :=
  (∀ (b : Byte) (s : State), s.port.transaction = .absent → 31 < b.toNat →
    exec (.cancelAuction [b]) s = .next (s.replied .refusedRange []) ∧ exec (.releaseAuction [b]) s = .next (s.replied .refusedRange []))
  ∧ ∀ (i : Fin 32) (s : State), s.port.transaction = .absent →
    let b : Byte := BitVec.ofNat 8 i.val
    (s.entries[i].state.live = false → exec (.cancelAuction [b]) s = .next (s.replied .refusedState []))
    ∧ (s.entries[i].state ≠ .closed → s.entries[i].state ≠ .void →
      exec (.releaseAuction [b]) s = .next (s.replied .refusedState []))
    ∧ (s.entries[i].state.live = true → s.entries[i].link = none → s.entries[i].pred = none →
      ∃ t, exec (.cancelAuction [b]) s = .next t ∧ t.port.transaction = .executed ⟨.ok, []⟩ false ∧ flagSet .auctionVoid t = true
        ∧ t.entries = s.entries.set i { s.entries[i] with state := .void, reason := some .cancelled }
        ∧ t.link.waiting = s.link.waiting.filter (fun w => !decide (w.slot = i))
        ∧ (∀ o c, s.entries[i].offset = some o → s.entries[i].tc = some c →
            recordAdded
              (.void ⟨i, s.entries[i].group, s.entries[i].tn, s.entries[i].state, .cancelled, some (o, c), s.entries[i].late⟩) s t)
        ∧ (s.entries[i].offset = none →
            recordAdded (.void ⟨i, s.entries[i].group, s.entries[i].tn, s.entries[i].state, .cancelled, none, s.entries[i].late⟩) s t)
        ∧ t.clock = s.clock ∧ t.steer = s.steer ∧ t.stamp = s.stamp ∧ t.peers = s.peers ∧ t.ref = s.ref ∧ t.card = s.card)
    ∧ (∀ j : Fin 32, j ≠ i → AuctionsOk s.entries → s.entries[i].state.live = true → s.entries[i].link = some j →
      ∃ t, exec (.cancelAuction [b]) s = .next t ∧ t.entries[i].state = .void ∧ t.entries[i].reason = some .cancelled
        ∧ t.entries[i].link = none ∧ t.entries[j].state = .void ∧ t.entries[j].reason = some .predecessor ∧ t.entries[j].pred = none)
    ∧ (∀ rest, AuctionsOk s.entries → s.entries[i].state.live = true → isChainFrom s.entries i rest →
      ∃ t, exec (.cancelAuction [b]) s = .next t ∧ t.port.transaction = .executed ⟨.ok, []⟩ false ∧ ChainVoided .cancelled i rest s t)
    ∧ (AuctionsOk s.entries → (s.entries[i].state = .closed ∨ s.entries[i].state = .void) →
      ∃ t, exec (.releaseAuction [b]) s = .next t ∧ t.port.transaction = .executed ⟨.ok, []⟩ false
        ∧ t.entries[i] = Entry.freed
        ∧ (∀ j : Fin 32, j ≠ i → t.entries[j] = { s.entries[j] with
            link := if s.entries[j].link = some i then none else s.entries[j].link
            pred := if s.entries[j].pred = some i then none else s.entries[j].pred })
        ∧ t.evid = s.evid ∧ t.clock = s.clock ∧ t.steer = s.steer ∧ t.stamp = s.stamp ∧ t.card = s.card)

/-- At the draw instant the entry becomes DRAWING; with a window, a grade other than FREE and a random source that passed, a share is
drawn, held and requested as a DRAW, and otherwise nothing else changes (R117, R125). The share's value is free (log 6). -/
def Obligations.DrawInstantDraws : Prop :=
  ∀ (i : Fin 32) (tn : Nat) (s : State), s.entries[i].state = .armed → s.entries[i].tn = some tn → s.entries[i].leadL ≤ tn →
    (tn - s.entries[i].leadL) * 256000000 ≤ s.clock.present →
    let e := s.entries[i]
    ((e.window = 0 ∨ s.steer.grade = .free ∨ s.port.selfTest.randomFail = true) →
      exec (.drawInstant i) s = .next { s with entries := s.entries.set i { e with state := .drawing } })
    ∧ (0 < e.window → s.steer.grade ≠ .free → s.port.selfTest.randomFail = false →
      ∃ t share, exec (.drawInstant i) s = .next t
        ∧ t.entries = s.entries.set i { e with state := .drawing, drawn := true, ownShare := some share }
        ∧ t.link.waiting.getLast? = some ⟨i, false, .draw ⟨s.cfg.stationId, e.group, tn, share⟩⟩
        ∧ t.evid = s.evid ∧ t.clock = s.clock ∧ t.steer = s.steer ∧ t.stamp = s.stamp ∧ t.port = s.port ∧ t.card = s.card)

/-- At the tally instant the entry becomes TALLYING. Without a window, and with no DRAW of its slot waiting, nothing else changes; with
one its member set is fixed, its own offset is the sum of the members' shares modulo 2^32 and then modulo W, its own tally is entered,
and a TALLY is requested (R127). -/
def Obligations.TallyInstantTallies : Prop :=
  ∀ (i : Fin 32) (tn : Nat) (s : State), s.entries[i].state = .drawing → s.entries[i].tn = some tn → s.entries[i].leadS ≤ tn →
    (tn - s.entries[i].leadS) * 256000000 ≤ s.clock.present →
    let e := s.entries[i]
    (e.window = 0 → (∀ w ∈ s.link.waiting, w.slot = i → w.isTally = true) → (s.link.tx = .idle → s.link.hasWaiting = false) →
      (∀ n, s.link.tx = .deferring n → s.link.hasWaiting = true) →
      exec (.tallyInstant i) s = .next { s with entries := s.entries.set i { e with state := .tallying } })
    ∧ (0 < e.window →
      let own := if e.drawn then (e.ownShare.map BitVec.toNat).getD 0 else 0
      let o := (own + (e.shares.map (fun p => p.2.toNat)).sum) % 4294967296 % e.window
      ∃ t m, exec (.tallyInstant i) s = .next t
        ∧ (∀ q, q < 16 → (m.getLsbD q = true ↔ (e.drawn = true ∧ q = s.cfg.stationId) ∨ ∃ x, (q, x) ∈ e.shares))
        ∧ (∃ ts, t.entries = s.entries.set i { e with state := .tallying, members := m, tallies := ts }
            ∧ ts.lookup s.cfg.stationId = some (.tally m o) ∧ ∀ q, q ≠ s.cfg.stationId → ts.lookup q = e.tallies.lookup q)
        ∧ t.link.waiting.getLast? = some ⟨i, true, .tally ⟨s.cfg.stationId, e.group, tn, m, o⟩⟩
        ∧ t.evid = s.evid ∧ t.clock = s.clock ∧ t.steer = s.steer ∧ t.stamp = s.stamp ∧ t.port = s.port ∧ t.card = s.card)

/-- At the fix instant the offset, the status and Tc = Tn + offset are settled, also where the sum passes the largest time (log 43).
Without a window the offset is 0 and the status NO_WINDOW. With one, the own offset is settled as AGREED where at least Q_e counted
tallies carry it; otherwise the best offset is: the one with the highest count, among those the one with the largest member set among its
tallies, and among those the smallest value; as ADOPTED where at least Q_e carry it and else as SPLIT (R129). Where Tc is at or above the
floor the entry becomes FIXED with its FIX record, and with DISAGREE where it is ADOPTED or SPLIT. Where Tc lies below the floor it
becomes VOID with reason BEHIND_FLOOR, keeping what was settled, with the entries of its chain of links after it, and no FIX record is
made (R122, R130). -/
def Obligations.FixInstantSettles : Prop :=
  ∀ (i : Fin 32) (tn own : Nat) (m : BitVec 16) (s : State), s.entries[i].state = .tallying → s.entries[i].tn = some tn →
    s.entries[i].leadE ≤ tn → (tn - s.entries[i].leadE) * 256000000 ≤ s.clock.present →
    let e := s.entries[i]
    let ts := counted e
    let count := fun o => ts.countP (fun x => decide (x.2 = o))
    let size := fun o =>
      ((ts.filter (fun x => decide (x.2 = o))).map (fun x => (List.range 16).countP (fun q => x.1.getLsbD q))).foldl max 0
    (e.window ≠ 0 → e.tallies.lookup s.cfg.stationId = some (.tally m own)) →
    ∃ (o : Nat) (status : FixStatus) (agreeing : Nat),
      (e.window = 0 → o = 0 ∧ status = .noWindow ∧ agreeing = 0)
      ∧ (e.window ≠ 0 → e.quorum ≤ count own → o = own ∧ status = .agreed ∧ agreeing = count own)
      ∧ (e.window ≠ 0 → count own < e.quorum →
          (∃ x ∈ ts, x.2 = o)
          ∧ (∀ x ∈ ts, x.2 ≠ o → count x.2 < count o
              ∨ (count x.2 = count o ∧ (size x.2 < size o ∨ (size x.2 = size o ∧ o < x.2))))
          ∧ agreeing = count o ∧ status = (if e.quorum ≤ count o then .adopted else .split))
      ∧ (let settled : Entry := { e with offset := some o, status := some status, agreeing := agreeing, tc := some (tn + o) };
          (s.stamp.floor ≤ (tn + o) * 1000000 →
            ∃ t, exec (.fixInstant i) s = .next t ∧ t.entries = s.entries.set i { settled with state := .fixed }
              ∧ flagSet .auctionFixed t = true ∧ (status = .adopted ∨ status = .split → flagSet .disagree t = true)
              ∧ (status ≠ .adopted → status ≠ .split → flagSet .disagree t = flagSet .disagree s)
              ∧ t.link.waiting = s.link.waiting.filter (fun w => decide (w.slot ≠ i ∨ w.isTally = false))
              ∧ recordAdded (.fix { slot := i, group := e.group, tn := tn, window := e.window, offset := o, status := status,
                                    members := e.members, agreeing := agreeing, counted := ts.length, drawn := e.drawn,
                                    share := e.ownShare.getD 0, conflicts := e.conflicts, grade := s.steer.grade,
                                    bound := s.steer.bound }) s t
              ∧ t.clock = s.clock ∧ t.steer = s.steer ∧ t.stamp = s.stamp ∧ t.peers = s.peers ∧ t.ref = s.ref ∧ t.card = s.card)
          ∧ ((tn + o) * 1000000 < s.stamp.floor → AuctionsOk s.entries → ∀ rest, isChainFrom s.entries i rest →
            ∃ t, exec (.fixInstant i) s = .next t
              ∧ ChainVoided .behindFloor i rest { s with entries := s.entries.set i settled } t))

/-- At Tc the entry becomes CLOSED with its CLOSE record; a cut that is absent becomes the next sequence where Tc is above the floor and
the floor sequence where it equals it, the open batch closing, and the floor becomes the greater of the two. A HELD successor takes
as its Tn the Tc plus the link delay: where its draw instant lies ahead it becomes ARMED, before its tally instant DRAWING with its draw
made, and after it FIXED at once with offset 0 and status LATE, closing at once where its Tc has come; a Tn above the largest voids it
with reason RANGE, and one below the floor with BEHIND_FLOOR (R108, R131, R132). -/
def Obligations.CloseInstantCloses : Prop :=
  ∀ (i : Fin 32) (tc : Nat) (s : State), s.entries[i].state = .fixed → s.entries[i].tc = some tc →
    tc * 256000000 ≤ s.clock.present → s.stamp.floor ≤ tc * 1000000 ∨ s.entries[i].cut ≠ none →
    let e := s.entries[i]
    let e' : Entry := { e with state := .closed, cut := match e.cut with
      | some n => some n
      | none => if s.stamp.floor < tc * 1000000 then s.stamp.nextSeq else s.stamp.floorSeq }
    let closed := fun t : State =>
      exec (.closeInstant i) s = .next t ∧ flagSet .auctionClosed t = true ∧ t.stamp.floor = max s.stamp.floor (tc * 1000000)
      ∧ (s.stamp.floor < tc * 1000000 → t.stamp.floorSeq = s.stamp.nextSeq) ∧ t.stamp.nextSeq = s.stamp.nextSeq
      ∧ (e.cut = none → t.stamp.batch = none) ∧ (e.cut ≠ none → t.stamp.batch = s.stamp.batch)
      ∧ ((e.cut ≠ none ∨ s.stamp.batch = none) →
          recordAdded (.close { slot := i, group := e.group, tc := tc, cut := e'.cut, late := e.late, grade := s.steer.grade,
                                bound := s.steer.bound }) s t)
      ∧ t.clock = s.clock ∧ t.steer = s.steer ∧ t.link = s.link ∧ t.peers = s.peers ∧ t.ref = s.ref ∧ t.card = s.card
    let follows := fun t : State =>
      exec (.closeInstant i) s = .next t ∧ flagSet .auctionClosed t = true ∧ t.entries[i].state = .closed ∧ t.entries[i].cut = e'.cut
      ∧ ((e.cut ≠ none ∨ s.stamp.batch = none) → s.evid.queue.length < 512 →
          ∃ y more, t.evid.queue = s.evid.queue ++ y :: more ∧ y.number = s.evid.nextNumber
            ∧ y.body = .close { slot := i, group := e.group, tc := tc, cut := e'.cut, late := e.late, grade := s.steer.grade
                                bound := s.steer.bound })
      ∧ t.clock = s.clock ∧ t.steer = s.steer ∧ t.peers = s.peers ∧ t.ref = s.ref ∧ t.card = s.card
    let tn := tc + e.linkDelay
    (e.link = none → ∃ t, closed t ∧ t.entries = s.entries.set i e')
    ∧ ∀ (j : Fin 32), e.link = some j → j ≠ i → s.entries[j].state = .held →
      let f := s.entries[j]
      (tn ≤ maxTn → s.stamp.floor ≤ tn * 1000000 → s.clock.present < (tn - f.leadL) * 256000000 →
        ∃ t, closed t ∧ t.entries = (s.entries.set i e').set j { f with state := .armed, tn := some tn })
      ∧ (f.pred = some i → f.link = none →
        (maxTn < tn →
          ∃ t, follows t ∧ flagSet .auctionVoid t = true
            ∧ t.entries = (s.entries.set i { e' with link := none }).set j
                { f with state := .void, reason := some .range, pred := none }
            ∧ (t.evid.queue.length < 496 → ∃ y b, t.evid.queue.getLast? = some y ∧ y.body = .void b ∧ b.slot = j ∧ b.before = .held
                ∧ b.reason = .range))
        ∧ (tn ≤ maxTn → tn * 1000000 < s.stamp.floor →
          ∃ t, follows t ∧ flagSet .auctionVoid t = true
            ∧ t.entries = (s.entries.set i { e' with link := none }).set j
                { f with state := .void, tn := some tn, reason := some .behindFloor, pred := none }
            ∧ (t.evid.queue.length < 496 → ∃ y b, t.evid.queue.getLast? = some y ∧ y.body = .void b ∧ b.slot = j ∧ b.before = .held
                ∧ b.reason = .behindFloor))
        ∧ (tn ≤ maxTn → s.stamp.floor ≤ tn * 1000000 → (tn - f.leadL) * 256000000 ≤ s.clock.present →
          (s.clock.present < (tn - f.leadS) * 256000000 →
            ((f.window = 0 ∨ s.steer.grade = .free ∨ s.port.selfTest.randomFail = true) →
              ∃ t, follows t ∧ t.entries = (s.entries.set i e').set j { f with state := .drawing, tn := some tn } ∧ t.link = s.link)
            ∧ (0 < f.window → s.steer.grade ≠ .free → s.port.selfTest.randomFail = false →
              ∃ t share, follows t
                ∧ t.entries = (s.entries.set i e').set j
                    { f with state := .drawing, tn := some tn, drawn := true, ownShare := some share }
                ∧ t.link.waiting.getLast? = some ⟨j, false, .draw ⟨s.cfg.stationId, f.group, tn, share⟩⟩))
          ∧ ((tn - f.leadS) * 256000000 ≤ s.clock.present →
            let fixed : Entry := { f with state := .fixed, tn := some tn, offset := some 0, status := some .late, agreeing := 0
                                          tc := some tn }
            (s.clock.present < tn * 256000000 →
              ∃ t, follows t ∧ flagSet .auctionFixed t = true ∧ t.entries = (s.entries.set i e').set j fixed ∧ t.link = s.link
                ∧ (t.evid.queue.length < 496 → ∃ y b, t.evid.queue.getLast? = some y ∧ y.body = .fix b ∧ b.slot = j ∧ b.tn = tn
                    ∧ b.offset = 0 ∧ b.status = .late))
            ∧ (tn * 256000000 ≤ s.clock.present →
              ∃ t c, follows t ∧ flagSet .auctionFixed t = true ∧ t.stamp.floor = max s.stamp.floor (tn * 1000000)
                ∧ t.entries = (s.entries.set i e').set j { fixed with state := .closed, cut := c }
                ∧ (f.cut = none → c = if max s.stamp.floor (tc * 1000000) < tn * 1000000 ∨ s.stamp.floor < tc * 1000000 then
                      s.stamp.nextSeq else s.stamp.floorSeq)))))

/-- At most one live entry per group, links and predecessors answering each other, FREE entries cleared: kept by every step (08 section
8.1, R116, R119 to R123). -/
def Obligations.AuctionTableStaysInOrder : Prop := ∀ s t : State, AuctionsOk s.entries → step s = .next t → AuctionsOk t.entries

/-! ### Evidence Unit -/

/-- FENCE, with no fence pending and fewer than 512 records held, closes the open batch, makes the FENCE record, makes it the pending
fence and answers its number; with a fence pending or 512 records it is BUSY and changes nothing. CHECKPOINT answers the number its
record took, or that it was lost (R148 to R150). -/
def Obligations.FenceAndCheckpoint : Prop :=
  ∀ (body : Bytes) (s : State), s.phase = .run → s.port.transaction = .absent →
    (body.length = 4 → (s.evid.fence ≠ none ∨ 512 ≤ s.evid.queue.length) → exec (.fence body) s = .next (s.replied .busy []))
    ∧ (body.length = 4 → s.evid.fence = none → s.evid.queue.length < 512 →
      ∃ t n r, exec (.fence body) s = .next t ∧ t.port.transaction = .executed ⟨.ok, le 8 n⟩ false ∧ t.evid.fence = some n
        ∧ t.evid.queue.getLast? = some r ∧ r.number = n ∧ t.evid.nextNumber = n + 1 ∧ t.stamp = { s.stamp with batch := none }
        ∧ (s.stamp.batch = none → n = s.evid.nextNumber ∧ r.body = .fence (BitVec.ofNat 32 (field 0 4 body)) s.stamp.nextSeq .none)
        ∧ (s.stamp.batch ≠ none → s.evid.queue.length < 496 → n = s.evid.nextNumber + 1
            ∧ r.body = .fence (BitVec.ofNat 32 (field 0 4 body)) s.stamp.nextSeq (.numbered s.evid.nextNumber))
        ∧ (s.stamp.batch ≠ none → 496 ≤ s.evid.queue.length → n = s.evid.nextNumber
            ∧ r.body = .fence (BitVec.ofNat 32 (field 0 4 body)) s.stamp.nextSeq .lost ∧ flagSet .evidenceLoss t = true)
        ∧ s.evid.queue <+: t.evid.queue ∧ t.clock = s.clock ∧ t.steer = s.steer ∧ t.entries = s.entries ∧ t.link = s.link
        ∧ t.card = s.card)
    ∧ (s.evid.queue.length < 512 →
      ∃ t b, exec (.checkpoint []) s = .next t ∧ t.port.transaction = .executed ⟨.ok, 1 :: le 8 s.evid.nextNumber⟩ false
        ∧ recordAdded (.checkpoint b) s t ∧ b.cause = .command ∧ b.state = s.steer.state ∧ b.rf = s.steer.rf ∧ b.rp = s.steer.rp
        ∧ b.holdover = s.steer.holdover ∧ b.nextSeq = s.stamp.nextSeq ∧ b.ref = s.ref.state ∧ b.held = s.evid.queue.length
        ∧ t.evid.boundary = s.evid.boundary ∧ t.clock = s.clock ∧ t.steer = s.steer ∧ t.stamp = s.stamp ∧ t.entries = s.entries)
    ∧ (512 ≤ s.evid.queue.length →
      ∃ t, exec (.checkpoint []) s = .next t ∧ t.port.transaction = .executed ⟨.ok, 0 :: List.replicate 8 0⟩ false
        ∧ t.evid.queue = s.evid.queue ∧ flagSet .evidenceLoss t = true ∧ t.evid.losses[10] = min (s.evid.losses[10] + 1) 65535)

/-- The Evidence Queue stays within 512 records and 496 ordinary ones, its numbers consecutive, its chain unbroken, and the pending
fence's record held: kept by every step (R140 to R142, R150). -/
def Obligations.EvidenceStaysChained : Prop := ∀ s t : State, EvidenceOk s.evid → step s = .next t → EvidenceOk t.evid

/-- A record leaves the queue only by the acknowledgement of its write, from the head, one at a time, or by power-on reset: after every
other command the queue begins with all it held (R142). -/
def Obligations.EvidenceLeavesOnlyWhenAcknowledged : Prop :=
  ∀ (c : Instr) (s t : State), (∀ e r k, c ≠ .powerOnReset e r k) → exec c s = .next t →
    ((∀ k, c ≠ .recordWriteAck k) → s.evid.queue <+: t.evid.queue)
    ∧ (s.evid.queue <+: t.evid.queue ∨ s.evid.queue.tail <+: t.evid.queue)
    ∧ s.evid.nextNumber ≤ t.evid.nextNumber

/-! ### Export Engine -/

/-- A read of a descriptor, at EXPORT_START in STOPPED or FAULT and at EXPORT_RESUME in STALLED: an error response is FAULT with
MEMORY_ERROR, a descriptor that is not ARMED is STALLED, one whose mode, address control, position, link or addresses are wrong is
written back FAULTED, and a usable one becomes the copy, RUNNING where the head is eligible and else WAITING (R157 to R159, R164). -/
def Obligations.ExportStartReadsTheDescriptor : Prop :=
  ∀ (c : Instr) (b : Byte) (k : CardInput) (s : State), s.phase = .run → s.port.transaction = .absent → b.toNat ≤ 63 →
    k.hostWrites = [] → k.hostWritesLate = [] →
    ((c = .exportStart [b] k ∧ (s.engine.state = .stopped ∨ s.engine.state = .fault))
      ∨ (c = .exportResume [] k ∧ s.engine.state = .stalled ∧ s.engine.index = some b.toNat)) →
    let a := s.cfg.tableBase + 32 * b.toNat
    let bytes := cardReadN s.card a 32
    let reply := fun x : EngineState => (.executed ⟨.ok, [BitVec.ofNat 8 x.code]⟩ false : Transaction)
    (k.readError = true →
      exec c s = .next { s with
        engine := { state := .fault, index := some b.toNat, copy := none, lastStatus := .memoryError, transfer := none }
        port := { s.port with flags := s.port.flags ||| 4096#14, transaction := reply .fault } })
    ∧ (k.readError = false → field 0 1 bytes ≠ 1 →
      exec c s = .next { s with
        engine := { s.engine with state := .stalled, index := some b.toNat, copy := none, transfer := none }
        port := { s.port with flags := s.port.flags ||| 4096#14, transaction := reply .stalled } })
    ∧ (∀ st, k.readError = false → field 0 1 bytes = 1 → parseDescriptor bytes = .error st →
      exec c s = .next { s with
        engine := { state := .fault, index := some b.toNat, copy := none, lastStatus := st, transfer := none }
        port := { s.port with flags := s.port.flags ||| 4096#14, transaction := reply .fault }
        card := if k.faultWriteError then s.card
                else cardWrite s.card a (3 :: (bytes.drop 1).take 4 ++ BitVec.ofNat 8 st.code :: bytes.drop 6) })
    ∧ (∀ d, k.readError = false → field 0 1 bytes = 1 → parseDescriptor bytes = .ok d →
      let x := if headEligible d s.evid.queue.length s.evid.fence.isSome then EngineState.running else .waiting
      exec c s = .next { s with
        engine := { s.engine with state := x, index := some b.toNat, copy := some d, transfer := none }
        port := { s.port with transaction := reply x } })

/-- EXPORT_STOP: WAITING writes the copy back ARMED and STOPPED and stops, or is in FAULT where card memory refuses; RUNNING with a record
write under way becomes STOPPING; RUNNING with a completion under way finishes it, its linked read included, and stops what that leaves;
a FAULTED write-back under way is finished too, and leaves FAULT; STALLED stops without a write-back; STOPPING is BUSY; STOPPED and FAULT
are refused (R165). EXPORT_START on a working or stalled engine is
BUSY (R158), EXPORT_RESUME anywhere but in STALLED is refused (R164). Which transfer is under way is log 40's. -/
def Obligations.ExportStopAndRefusals : Prop :=
  ∀ (b : Byte) (k : CardInput) (s : State), s.phase = .run → s.port.transaction = .absent → k.hostWrites = [] →
    let stopped := { s.engine with state := EngineState.stopped, index := none, copy := none, transfer := none }
    let stop := fun u : State => exec (.exportStop [] k) s = .next u
    (∀ d j, s.engine.state = .waiting → s.engine.copy = some d → s.engine.index = some j → k.writeBackError = false →
      stop { s.replied .ok [] with
        engine := { stopped with lastStatus := .stopped }
        card := cardWrite s.card (s.cfg.tableBase + 32 * j) (d.bytes .armed .stopped) })
    ∧ (∀ d, s.engine.state = .waiting → s.engine.copy = some d → k.writeBackError = true →
      ∃ t, stop t ∧ t.engine.state = .fault ∧ t.engine.lastStatus = .memoryError
        ∧ flagSet .exportHalt t = true ∧ t.card = s.card ∧ t.evid = s.evid)
    ∧ (s.engine.state = .running → s.engine.transfer = none →
      stop { s.replied .ok [] with engine := { s.engine with state := .stopping } })
    ∧ (∀ d j, s.engine.state = .running → s.engine.copy = some d → s.engine.index = some j →
      let table := fun i => s.cfg.tableBase + 32 * i
      let finished := cardWrite s.card (table j) (d.bytes .spent .done)
      (s.engine.transfer = some .done → k.writeBackError = true →
        ∃ t, stop t ∧ t.engine.state = .fault ∧ t.engine.lastStatus = .memoryError ∧ flagSet .exportHalt t = true ∧ t.card = s.card)
      ∧ (s.engine.transfer = some .done → k.writeBackError = false → d.linkEnable = false →
        stop { s.replied .ok [] with
          engine := { stopped with lastStatus := .done }
          card := finished
          port := { (s.replied .ok []).port with
            flags := if d.noticeOnDone then s.port.flags ||| 2048#14 else s.port.flags } })
      ∧ ∀ m l, k.hostWritesLate = [] →
        ((s.engine.transfer = some .read ∧ m = s.card ∧ l = j)
          ∨ (s.engine.transfer = some .done ∧ k.writeBackError = false ∧ d.linkEnable = true ∧ m = finished ∧ l = d.linkIndex)) →
        let bytes := cardReadN m (table l) 32
        (k.readError = true →
          ∃ t, stop t ∧ t.engine = ⟨.fault, some l, none, .memoryError, none⟩ ∧ t.card = m
            ∧ t.port.transaction = .executed ⟨.ok, []⟩ false)
        ∧ (k.readError = false → field 0 1 bytes ≠ 1 →
          ∃ t, stop t ∧ t.engine.state = .stopped ∧ t.engine.index = none ∧ flagSet .exportHalt t = true ∧ t.card = m
            ∧ t.port.transaction = .executed ⟨.ok, []⟩ false)
        ∧ (∀ st, k.readError = false → field 0 1 bytes = 1 → parseDescriptor bytes = .error st →
          ∃ t, stop t ∧ t.engine = ⟨.fault, some l, none, st, none⟩ ∧ flagSet .exportHalt t = true
            ∧ t.card = (if k.faultWriteError then m
                else cardWrite m (table l) (3 :: (bytes.drop 1).take 4 ++ BitVec.ofNat 8 st.code :: bytes.drop 6))
            ∧ t.port.transaction = .executed ⟨.ok, []⟩ false)
        ∧ ∀ d', k.readError = false → field 0 1 bytes = 1 → parseDescriptor bytes = .ok d' →
          (headEligible d' s.evid.queue.length s.evid.fence.isSome = true →
            ∃ t, stop t ∧ t.engine.state = .stopping ∧ t.engine.index = some l ∧ t.engine.copy = some d' ∧ t.engine.transfer = none
              ∧ t.card = m ∧ t.port.transaction = .executed ⟨.ok, []⟩ false)
          ∧ (headEligible d' s.evid.queue.length s.evid.fence.isSome = false → k.stopWriteError = false →
            ∃ t, stop t ∧ t.engine = ⟨.stopped, none, none, .stopped, none⟩ ∧ t.card = cardWrite m (table l) (d'.bytes .armed .stopped)
              ∧ t.port.transaction = .executed ⟨.ok, []⟩ false))
    ∧ (∀ d j bs st, s.engine.state = .running → s.engine.copy = some d → s.engine.index = some j →
      s.engine.transfer = some (.faulted bs st) →
      stop { s.replied .ok [] with
        engine := ⟨.fault, some j, none, st, none⟩
        card := if k.faultWriteError then s.card else cardWrite s.card (s.cfg.tableBase + 32 * j) bs
        port := { (s.replied .ok []).port with flags := s.port.flags ||| 4096#14 } })
    ∧ (s.engine.state = .stalled → stop { s.replied .ok [] with engine := stopped })
    ∧ (s.engine.state = .stopping → stop (s.replied .busy []))
    ∧ ((s.engine.state = .stopped ∨ s.engine.state = .fault) → stop (s.replied .refusedState []))
    ∧ (63 < b.toNat → exec (.exportStart [b] k) s = .next (s.replied .refusedRange []))
    ∧ (b.toNat ≤ 63 → s.engine.state ≠ .stopped → s.engine.state ≠ .fault →
      exec (.exportStart [b] k) s = .next (s.replied .busy []))
    ∧ (s.engine.state ≠ .stalled → exec (.exportResume [] k) s = .next (s.replied .refusedState []))

/-- An acknowledged write of the head record that does not complete its descriptor: the record stands at the copy's current address, it
leaves the queue, the copy takes its number, and position, address and count move by mode and address control; a loss is reported in
the freed place, and the pending fence's record sets FENCE_DONE (R142, R145, R150, R159 to R162). -/
def Obligations.RecordWriteIsAcknowledged : Prop :=
  ∀ (k : CardInput) (r : Record) (rest : List Record) (d : Descriptor) (s : State), k.hostWrites = [] → cardWf s.card = true →
    s.engine.state = .running → s.engine.transfer = none → s.engine.copy = some d → s.evid.queue = r :: rest → d.current + 64 ≤ 18446744073709551616 →
    rest.length < 512 → r.bytes.length = 64 →
    let ends := d.blockLength ≤ d.position + 1 ∨ (d.mode = .block ∧ s.evid.fence = some r.number)
    let moved : Descriptor := { d with
      last := r.number
      position := if ends then 0 else d.position + 1
      current := match d.control with
        | .fixed => d.current
        | .increment => (d.current + 64) % 18446744073709551616
        | .incrementRestart => if ends then d.base else (d.current + 64) % 18446744073709551616
      count := match d.mode with
        | .single => d.count
        | .run => d.count - 1
        | .block => if ends then d.count - 1 else d.count }
    d.mode ≠ .single → moved.count ≠ 0 →
    ∃ t, exec (.recordWriteAck k) s = .next t ∧ t.engine.copy = some moved ∧ t.engine.index = s.engine.index ∧ t.engine.transfer = none
      ∧ cardReadN t.card d.current 64 = r.bytes ∧ cardWf t.card = true
      ∧ (∀ a, (a < d.current ∨ d.current + 64 ≤ a) → cardRead t.card a = cardRead s.card a)
      ∧ ((∀ n ∈ s.evid.losses.toList, n = 0) → t.evid.queue = rest)
      ∧ ((∃ n ∈ s.evid.losses.toList, n ≠ 0) → ∃ l, t.evid.queue = rest ++ [l] ∧ l.number = s.evid.nextNumber
          ∧ l.body = .loss s.evid.losses s.evid.lostRange ∧ t.evid.losses = Vector.replicate 11 0 ∧ t.evid.lostRange = none)
      ∧ (s.evid.fence = some r.number → t.evid.fence = none ∧ flagSet .fenceDone t = true)
      ∧ (s.evid.fence ≠ some r.number → t.evid.fence = s.evid.fence)
      ∧ (t.engine.state = .running ↔ headEligible moved t.evid.queue.length t.evid.fence.isSome = true)
      ∧ (t.engine.state = .running ∨ t.engine.state = .waiting)
      ∧ t.clock = s.clock ∧ t.steer = s.steer ∧ t.stamp = s.stamp ∧ t.entries = s.entries ∧ t.link = s.link

/-- An acknowledgement that completes a descriptor writes it back SPENT and DONE; without a link the engine stops, EXPORT_DONE set where
the descriptor asks, and with one it reads the linked descriptor, with the four outcomes of a read; in STOPPING the link is not followed,
and a descriptor that is not complete is written back ARMED and STOPPED. A write-back that card memory refuses is a fault with nothing
more written (R157, R163, R165, R166). The record's removal reports losses and ends the pending fence as at any write (R145, R150). A
transfer that is still under way when the command's effect ends is answered by the next acknowledgement, which goes on with what it began
(log 40). -/
def Obligations.CompletionWritesBack : Prop :=
  (∀ (k : CardInput) (r : Record) (rest : List Record) (d : Descriptor) (i : Nat) (s : State), k.hostWrites = [] →
    k.hostWritesLate = [] → s.engine.transfer = none → s.engine.copy = some d → s.engine.index = some i → s.evid.queue = r :: rest →
    let running := s.engine.state = .running
    let stopping := s.engine.state = .stopping
    let ack := fun u : State => exec (.recordWriteAck k) s = .next u
    let moved := d.advanced r.number (decide (s.evid.fence = some r.number))
    let table := fun j => s.cfg.tableBase + 32 * j
    let written := cardWrite s.card d.current r.bytes
    let finished := cardWrite written (table i) (moved.bytes .spent .done)
    let stopped := fun st : CompletionStatus => ({ state := .stopped, index := none, copy := none, lastStatus := st, transfer := none } : Engine)
    let removed := fun t : State =>
      ((∀ n ∈ s.evid.losses.toList, n = 0) → t.evid.queue = rest)
      ∧ ((∃ n ∈ s.evid.losses.toList, n ≠ 0) → rest.length < 512 → ∃ l, t.evid.queue = rest ++ [l] ∧ l.number = s.evid.nextNumber
          ∧ l.body = .loss s.evid.losses s.evid.lostRange ∧ t.evid.losses = Vector.replicate 11 0 ∧ t.evid.lostRange = none)
      ∧ (s.evid.fence = some r.number → t.evid.fence = none ∧ flagSet .fenceDone t = true)
      ∧ (s.evid.fence ≠ some r.number → t.evid.fence = s.evid.fence)
      ∧ t.clock = s.clock ∧ t.steer = s.steer ∧ t.stamp = s.stamp ∧ t.entries = s.entries ∧ t.link = s.link
    (k.hold = none → k.writeBackError = false →
      ((running ∧ moved.complete = true ∧ d.linkEnable = false) ∨ (stopping ∧ moved.complete = true) →
        (∃ t, ack t ∧ removed t ∧ t.engine = stopped .done ∧ t.card = finished
          ∧ (d.noticeOnDone = true → flagSet .exportDone t = true))
        ∧ ((∀ n ∈ s.evid.losses.toList, n = 0) → s.evid.fence = none →
          ack { s with
            evid := { s.evid with queue := rest }, engine := stopped .done, card := finished
            port := { s.port with flags := if d.noticeOnDone then s.port.flags ||| 2048#14 else s.port.flags } }))
      ∧ (stopping → moved.complete = false →
        (∃ t, ack t ∧ removed t ∧ t.engine = stopped .stopped ∧ t.card = cardWrite written (table i) (moved.bytes .armed .stopped))
        ∧ ((∀ n ∈ s.evid.losses.toList, n = 0) → s.evid.fence = none →
          ack { s with
            evid := { s.evid with queue := rest }, engine := stopped .stopped
            card := cardWrite written (table i) (moved.bytes .armed .stopped) }))
      ∧ (running → moved.complete = true → d.linkEnable = true →
        let bytes := cardReadN finished (table d.linkIndex) 32
        let done := fun t : State => ack t ∧ removed t ∧ (d.noticeOnDone = true → flagSet .exportDone t = true)
        (k.readError = true →
          ∃ t, done t ∧ t.engine = ⟨.fault, some d.linkIndex, none, .memoryError, none⟩ ∧ flagSet .exportHalt t = true
            ∧ t.card = finished)
        ∧ (k.readError = false → field 0 1 bytes ≠ 1 →
          ∃ t, done t ∧ t.engine = ⟨.stalled, some d.linkIndex, none, .done, none⟩ ∧ flagSet .exportHalt t = true ∧ t.card = finished)
        ∧ (∀ st, k.readError = false → field 0 1 bytes = 1 → parseDescriptor bytes = .error st →
          ∃ t, done t ∧ t.engine = ⟨.fault, some d.linkIndex, none, st, none⟩ ∧ flagSet .exportHalt t = true
            ∧ t.card = (if k.faultWriteError then finished
                else cardWrite finished (table d.linkIndex)
                  (3 :: (bytes.drop 1).take 4 ++ BitVec.ofNat 8 st.code :: bytes.drop 6)))
        ∧ ∀ d', k.readError = false → field 0 1 bytes = 1 → parseDescriptor bytes = .ok d' →
          ∃ t, done t ∧ t.card = finished
            ∧ t.engine = ⟨if headEligible d' t.evid.queue.length t.evid.fence.isSome then .running else .waiting,
                          some d.linkIndex, some d', .done, none⟩))
    ∧ (k.hold = none → k.writeBackError = true → (running ∧ moved.complete = true) ∨ stopping →
      ∃ t, ack t ∧ removed t ∧ t.engine = ⟨.fault, some i, none, .memoryError, none⟩ ∧ flagSet .exportHalt t = true
        ∧ t.card = written)
    ∧ (k.hold = some .done → moved.complete = true → running ∨ stopping →
      ∃ t, ack t ∧ removed t ∧ t.card = written
        ∧ t.engine = { s.engine with copy := some moved, transfer := some .done })
    ∧ (k.hold = some .stop → moved.complete = false → stopping →
      ∃ t, ack t ∧ removed t ∧ t.card = written
        ∧ t.engine = { s.engine with copy := some moved, transfer := some .stop })
    ∧ (k.hold = some .read → k.writeBackError = false → moved.complete = true → running → d.linkEnable = true →
      ∃ t, ack t ∧ removed t ∧ t.card = finished
        ∧ t.engine = ⟨.running, some d.linkIndex, some moved, .done, some .read⟩)
    ∧ (∀ st, k.hold = some .faulted → k.writeBackError = false → moved.complete = true → running → d.linkEnable = true →
      let bytes := cardReadN finished (table d.linkIndex) 32
      k.readError = false → field 0 1 bytes = 1 → parseDescriptor bytes = .error st →
      ∃ t, ack t ∧ removed t ∧ t.card = finished
        ∧ t.engine = ⟨.running, some d.linkIndex, some moved, .done,
            some (.faulted (3 :: (bytes.drop 1).take 4 ++ BitVec.ofNat 8 st.code :: bytes.drop 6) st)⟩))
  ∧ ∀ (k : CardInput) (d : Descriptor) (i : Nat) (s : State), k.hostWrites = [] → k.hostWritesLate = [] → k.hold = none →
    (s.engine.state = .running ∨ s.engine.state = .stopping) → s.engine.copy = some d → s.engine.index = some i →
    let ack := fun u : State => exec (.recordWriteAck k) s = .next u
    let table := fun j => s.cfg.tableBase + 32 * j
    let finished := cardWrite s.card (table i) (d.bytes .spent .done)
    let ended := fun (x : EngineState) (l : Option Nat) (st : CompletionStatus) =>
      ({ state := x, index := l, copy := none, lastStatus := st, transfer := none } : Engine)
    (s.engine.transfer = some .done → k.writeBackError = false → s.engine.state = .stopping ∨ d.linkEnable = false →
      ack { s with
        engine := ended .stopped none .done, card := finished
        port := { s.port with flags := if d.noticeOnDone then s.port.flags ||| 2048#14 else s.port.flags } })
    ∧ (s.engine.transfer = some .stop → k.writeBackError = false →
      ack { s with engine := ended .stopped none .stopped, card := cardWrite s.card (table i) (d.bytes .armed .stopped) })
    ∧ (s.engine.transfer = some .done ∨ s.engine.transfer = some .stop → k.writeBackError = true →
      ack { s with engine := ended .fault (some i) .memoryError, port := { s.port with flags := s.port.flags ||| 4096#14 } })
    ∧ (∀ bs st, s.engine.transfer = some (.faulted bs st) →
      ack { s with
        engine := ended .fault (some i) st
        card := if k.faultWriteError then s.card else cardWrite s.card (table i) bs
        port := { s.port with flags := s.port.flags ||| 4096#14 } })
    ∧ ∀ m l st0,
      ((s.engine.transfer = some .read ∧ m = s.card ∧ l = i ∧ st0 = s.engine.lastStatus)
        ∨ (s.engine.transfer = some .done ∧ k.writeBackError = false ∧ s.engine.state = .running ∧ d.linkEnable = true ∧ m = finished
            ∧ l = d.linkIndex ∧ st0 = .done)) →
      let bytes := cardReadN m (table l) 32
      (k.readError = true →
        ∃ t, ack t ∧ t.engine = ended .fault (some l) .memoryError ∧ flagSet .exportHalt t = true ∧ t.card = m ∧ t.evid = s.evid)
      ∧ (k.readError = false → field 0 1 bytes ≠ 1 →
        ∃ t, ack t ∧ t.engine = ended .stalled (some l) st0 ∧ flagSet .exportHalt t = true ∧ t.card = m ∧ t.evid = s.evid)
      ∧ (∀ st, k.readError = false → field 0 1 bytes = 1 → parseDescriptor bytes = .error st →
        ∃ t, ack t ∧ t.engine = ended .fault (some l) st ∧ flagSet .exportHalt t = true ∧ t.evid = s.evid
          ∧ t.card = (if k.faultWriteError then m
              else cardWrite m (table l) (3 :: (bytes.drop 1).take 4 ++ BitVec.ofNat 8 st.code :: bytes.drop 6)))
      ∧ ∀ d', k.readError = false → field 0 1 bytes = 1 → parseDescriptor bytes = .ok d' →
        ∃ t, ack t ∧ t.card = m ∧ t.evid = s.evid
          ∧ t.engine = ⟨if headEligible d' s.evid.queue.length s.evid.fence.isSome then .running else .waiting, some l, some d', st0, none⟩

/-- An error response to a record write leaves the queue as it was, writes the copy back FAULTED with MEMORY_ERROR unless card memory
refuses that too, and puts the engine in FAULT with EXPORT_HALT (R166); while that write-back is under way the engine keeps its state and
copy (log 40). An error response to a transfer at the end of a descriptor puts the engine in FAULT with EXPORT_HALT and nothing more
written, with MEMORY_ERROR, or with the status of the fault whose FAULTED write-back is refused (R157, R165, R166; log 40). -/
def Obligations.RecordWriteErrorFaults : Prop :=
  ∀ (k : CardInput) (d : Descriptor) (i : Nat) (s : State), k.hostWrites = [] →
    (s.engine.state = .running ∨ s.engine.state = .stopping) → s.engine.copy = some d → s.engine.index = some i →
    let fault := fun st : CompletionStatus => { s with
      engine := { state := .fault, index := some i, copy := none, lastStatus := st, transfer := none }
      port := { s.port with flags := s.port.flags ||| 4096#14 } }
    (s.engine.transfer = none → k.hold ≠ some .faulted →
      exec (.recordWriteError k false) s = .next { fault .memoryError with
        card := if k.faultWriteError then s.card
                else cardWrite s.card (s.cfg.tableBase + 32 * i) (d.bytes .faulted .memoryError) })
    ∧ (s.engine.transfer = none → k.hold = some .faulted →
      exec (.recordWriteError k false) s = .next { s with
        engine := { s.engine with transfer := some (.faulted (d.bytes .faulted .memoryError) .memoryError) } })
    ∧ ∀ took : Bool,
      (s.engine.transfer = some .done ∨ s.engine.transfer = some .stop ∨ s.engine.transfer = some .read →
        exec (.recordWriteError k took) s = .next (fault .memoryError))
      ∧ ∀ bs st, s.engine.transfer = some (.faulted bs st) → exec (.recordWriteError k took) s = .next (fault st)

/-- Card memory keeps its canonical form at every step: addresses rising and below 2^64, no entry equal to what an unlisted address
reads as. The form is the model's own (log 9). -/
def Obligations.CardMemoryStaysCanonical : Prop :=
  ∀ s t : State, cardWf s.card = true → step s = .next t → cardWf t.card = true

/-- A usable descriptor is read back from the bytes the engine writes it as (R155, 12 section 12.5). A mode or address control of code 3,
a block position at or above the block length, and a link index above 63 with the link enabled are INVALID; of the others, one whose base
or current address is no multiple of 64 is MISALIGNED, and the rest are usable, each field being the one the bytes spell (R157). -/
def Obligations.DescriptorsReadBack : Prop :=
  (∀ (d : Descriptor) (st : CompletionStatus), 1 ≤ d.blockLength → d.blockLength ≤ 256 → d.position < d.blockLength → d.linkIndex ≤ 63 →
    1 ≤ d.count → d.count ≤ 65536 → d.base < 2 ^ 64 → d.current < 2 ^ 64 → d.last < 2 ^ 64 → d.base % 64 = 0 → d.current % 64 = 0 →
    (d.bytes .armed st).length = 32 ∧ field 0 1 (d.bytes .armed st) = 1 ∧ parseDescriptor (d.bytes .armed st) = .ok d)
  ∧ ∀ bs : Bytes,
    let b1 := field 1 1 bs
    let len := if field 3 1 bs = 0 then 256 else field 3 1 bs
    let invalid := b1 % 4 = 3 ∨ b1 / 4 % 4 = 3 ∨ len ≤ field 4 1 bs ∨ (b1 / 16 % 2 = 1 ∧ 63 < field 2 1 bs)
    let aligned := field 8 8 bs % 64 = 0 ∧ field 16 8 bs % 64 = 0
    (invalid → parseDescriptor bs = .error .invalid)
    ∧ (¬ invalid → ¬ aligned → parseDescriptor bs = .error .misaligned)
    ∧ (¬ invalid → aligned → ∃ d, parseDescriptor bs = .ok d ∧ d.mode.code = b1 % 4 ∧ d.control.code = b1 / 4 % 4
        ∧ (d.linkEnable = true ↔ b1 / 16 % 2 = 1) ∧ (d.noticeOnDone = true ↔ b1 / 32 % 2 = 1) ∧ d.linkIndex = field 2 1 bs
        ∧ d.blockLength = len ∧ d.position = field 4 1 bs ∧ d.count = (if field 6 2 bs = 0 then 65536 else field 6 2 bs)
        ∧ d.base = field 8 8 bs ∧ d.current = field 16 8 bs ∧ d.last = field 24 8 bs)
end

