-- ==== Sys2Proof/Laws/Frames.lean ====
section
/-! SUPPORT. What each shared operation leaves as it was, one lemma per operation and field. -/

namespace Sys2Proof.Machine

/-! ### Notices and responses -/

@[simp] theorem raise_keeps (n : Notice) (s : State) :
    (raise n s).pending = s.pending ∧ (raise n s).osc = s.osc ∧ (raise n s).fresh = s.fresh ∧ (raise n s).phase = s.phase
     ∧ (raise n s).cfg = s.cfg ∧ (raise n s).clock = s.clock ∧ (raise n s).link = s.link ∧ (raise n s).peers = s.peers
     ∧ (raise n s).ref = s.ref ∧ (raise n s).steer = s.steer ∧ (raise n s).stamp = s.stamp ∧ (raise n s).entries = s.entries
     ∧ (raise n s).evid = s.evid ∧ (raise n s).engine = s.engine ∧ (raise n s).card = s.card
     ∧ (raise n s).port.transaction = s.port.transaction ∧ (raise n s).port.loaded = s.port.loaded
     ∧ (raise n s).port.enables = s.port.enables ∧ (raise n s).port.selfTest = s.port.selfTest := by
  refine ⟨rfl, rfl, rfl, rfl, rfl, rfl, rfl, rfl, rfl, rfl, rfl, rfl, rfl, rfl, rfl, rfl, rfl, rfl, rfl⟩

@[simp] theorem clearAllFlags_keeps (s : State) :
    (clearAllFlags s).pending = s.pending ∧ (clearAllFlags s).osc = s.osc ∧ (clearAllFlags s).fresh = s.fresh
     ∧ (clearAllFlags s).phase = s.phase ∧ (clearAllFlags s).cfg = s.cfg ∧ (clearAllFlags s).clock = s.clock
     ∧ (clearAllFlags s).link = s.link ∧ (clearAllFlags s).peers = s.peers ∧ (clearAllFlags s).ref = s.ref
     ∧ (clearAllFlags s).steer = s.steer ∧ (clearAllFlags s).stamp = s.stamp ∧ (clearAllFlags s).entries = s.entries
     ∧ (clearAllFlags s).evid = s.evid ∧ (clearAllFlags s).engine = s.engine ∧ (clearAllFlags s).card = s.card
     ∧ (clearAllFlags s).port.transaction = s.port.transaction ∧ (clearAllFlags s).port.loaded = s.port.loaded
     ∧ (clearAllFlags s).port.enables = s.port.enables ∧ (clearAllFlags s).port.selfTest = s.port.selfTest := by
  refine ⟨rfl, rfl, rfl, rfl, rfl, rfl, rfl, rfl, rfl, rfl, rfl, rfl, rfl, rfl, rfl, rfl, rfl, rfl, rfl⟩

@[simp] theorem clearFlags_keeps (m : BitVec 16) (s : State) :
    (clearFlags m s).pending = s.pending ∧ (clearFlags m s).osc = s.osc ∧ (clearFlags m s).fresh = s.fresh
     ∧ (clearFlags m s).phase = s.phase ∧ (clearFlags m s).cfg = s.cfg ∧ (clearFlags m s).clock = s.clock
     ∧ (clearFlags m s).link = s.link ∧ (clearFlags m s).peers = s.peers ∧ (clearFlags m s).ref = s.ref
     ∧ (clearFlags m s).steer = s.steer ∧ (clearFlags m s).stamp = s.stamp ∧ (clearFlags m s).entries = s.entries
     ∧ (clearFlags m s).evid = s.evid ∧ (clearFlags m s).engine = s.engine ∧ (clearFlags m s).card = s.card
     ∧ (clearFlags m s).port.transaction = s.port.transaction ∧ (clearFlags m s).port.loaded = s.port.loaded
     ∧ (clearFlags m s).port.enables = s.port.enables ∧ (clearFlags m s).port.selfTest = s.port.selfTest := by
  refine ⟨rfl, rfl, rfl, rfl, rfl, rfl, rfl, rfl, rfl, rfl, rfl, rfl, rfl, rfl, rfl, rfl, rfl, rfl, rfl⟩

@[simp] theorem respond_keeps (st : Status) (b : Bytes) (s : State) :
    (respond st b s).pending = s.pending ∧ (respond st b s).osc = s.osc ∧ (respond st b s).fresh = s.fresh
     ∧ (respond st b s).phase = s.phase ∧ (respond st b s).cfg = s.cfg ∧ (respond st b s).clock = s.clock
     ∧ (respond st b s).link = s.link ∧ (respond st b s).peers = s.peers ∧ (respond st b s).ref = s.ref
     ∧ (respond st b s).steer = s.steer ∧ (respond st b s).stamp = s.stamp ∧ (respond st b s).entries = s.entries
     ∧ (respond st b s).evid = s.evid ∧ (respond st b s).engine = s.engine ∧ (respond st b s).card = s.card
     ∧ (respond st b s).port.loaded = s.port.loaded ∧ (respond st b s).port.flags = s.port.flags
     ∧ (respond st b s).port.enables = s.port.enables ∧ (respond st b s).port.selfTest = s.port.selfTest := by
  refine ⟨rfl, rfl, rfl, rfl, rfl, rfl, rfl, rfl, rfl, rfl, rfl, rfl, rfl, rfl, rfl, rfl, rfl, rfl, rfl⟩

@[simp] theorem State.withPending_keeps (cs : List Instr) (s : State) :
    (State.withPending cs s).osc = s.osc ∧ (State.withPending cs s).fresh = s.fresh
     ∧ (State.withPending cs s).phase = s.phase ∧ (State.withPending cs s).cfg = s.cfg
     ∧ (State.withPending cs s).port = s.port ∧ (State.withPending cs s).clock = s.clock
     ∧ (State.withPending cs s).link = s.link ∧ (State.withPending cs s).peers = s.peers
     ∧ (State.withPending cs s).ref = s.ref ∧ (State.withPending cs s).steer = s.steer
     ∧ (State.withPending cs s).stamp = s.stamp ∧ (State.withPending cs s).entries = s.entries
     ∧ (State.withPending cs s).evid = s.evid ∧ (State.withPending cs s).engine = s.engine
     ∧ (State.withPending cs s).card = s.card := by
  refine ⟨rfl, rfl, rfl, rfl, rfl, rfl, rfl, rfl, rfl, rfl, rfl, rfl, rfl, rfl, rfl⟩

/-! ### Records -/

@[simp] theorem wakeEngine_keeps (s : State) :
    (wakeEngine s).pending = s.pending ∧ (wakeEngine s).osc = s.osc ∧ (wakeEngine s).fresh = s.fresh
     ∧ (wakeEngine s).phase = s.phase ∧ (wakeEngine s).cfg = s.cfg ∧ (wakeEngine s).port = s.port
     ∧ (wakeEngine s).clock = s.clock ∧ (wakeEngine s).link = s.link ∧ (wakeEngine s).peers = s.peers
     ∧ (wakeEngine s).ref = s.ref ∧ (wakeEngine s).steer = s.steer ∧ (wakeEngine s).stamp = s.stamp
     ∧ (wakeEngine s).entries = s.entries ∧ (wakeEngine s).evid = s.evid ∧ (wakeEngine s).card = s.card
     ∧ (wakeEngine s).engine.index = s.engine.index ∧ (wakeEngine s).engine.copy = s.engine.copy
     ∧ (wakeEngine s).engine.transfer = s.engine.transfer
     ∧ (wakeEngine s).engine.lastStatus = s.engine.lastStatus := by
  unfold wakeEngine; split
  · split <;> simp
  · simp

@[simp] theorem loseRecord_keeps (b : Body) (s : State) :
    (loseRecord b s).pending = s.pending ∧ (loseRecord b s).osc = s.osc ∧ (loseRecord b s).fresh = s.fresh
     ∧ (loseRecord b s).phase = s.phase ∧ (loseRecord b s).cfg = s.cfg ∧ (loseRecord b s).clock = s.clock
     ∧ (loseRecord b s).link = s.link ∧ (loseRecord b s).peers = s.peers ∧ (loseRecord b s).ref = s.ref
     ∧ (loseRecord b s).steer = s.steer ∧ (loseRecord b s).stamp = s.stamp ∧ (loseRecord b s).entries = s.entries
     ∧ (loseRecord b s).engine = s.engine ∧ (loseRecord b s).card = s.card
     ∧ (loseRecord b s).port.transaction = s.port.transaction ∧ (loseRecord b s).port.loaded = s.port.loaded
     ∧ (loseRecord b s).port.enables = s.port.enables ∧ (loseRecord b s).port.selfTest = s.port.selfTest
     ∧ (loseRecord b s).evid.fence = s.evid.fence ∧ (loseRecord b s).evid.boundary = s.evid.boundary := by
  refine ⟨rfl, rfl, rfl, rfl, rfl, rfl, rfl, rfl, rfl, rfl, rfl, rfl, rfl, rfl, rfl, rfl, rfl, rfl, rfl, rfl⟩

@[simp] theorem handRecord_keeps (b : Body) (s : State) :
    (handRecord b s).pending = s.pending ∧ (handRecord b s).osc = s.osc ∧ (handRecord b s).fresh = s.fresh
     ∧ (handRecord b s).phase = s.phase ∧ (handRecord b s).cfg = s.cfg ∧ (handRecord b s).clock = s.clock
     ∧ (handRecord b s).link = s.link ∧ (handRecord b s).peers = s.peers ∧ (handRecord b s).ref = s.ref
     ∧ (handRecord b s).steer = s.steer ∧ (handRecord b s).stamp = s.stamp ∧ (handRecord b s).entries = s.entries
     ∧ (handRecord b s).card = s.card ∧ (handRecord b s).port.transaction = s.port.transaction
     ∧ (handRecord b s).port.loaded = s.port.loaded ∧ (handRecord b s).port.enables = s.port.enables
     ∧ (handRecord b s).port.selfTest = s.port.selfTest ∧ (handRecord b s).engine.index = s.engine.index
     ∧ (handRecord b s).engine.copy = s.engine.copy
     ∧ (handRecord b s).engine.transfer = s.engine.transfer ∧ (handRecord b s).engine.lastStatus = s.engine.lastStatus
     ∧ (handRecord b s).evid.fence = s.evid.fence
      ∧ (handRecord b s).evid.boundary = s.evid.boundary := by unfold handRecord; split <;> simp [Evidence.append]

@[simp] theorem changeGrade_keeps (g : Grade) (c : GradeCause) (s : State) :
    (changeGrade g c s).pending = s.pending ∧ (changeGrade g c s).osc = s.osc ∧ (changeGrade g c s).fresh = s.fresh
     ∧ (changeGrade g c s).phase = s.phase ∧ (changeGrade g c s).cfg = s.cfg ∧ (changeGrade g c s).clock = s.clock
     ∧ (changeGrade g c s).link = s.link ∧ (changeGrade g c s).peers = s.peers ∧ (changeGrade g c s).ref = s.ref
     ∧ (changeGrade g c s).entries = s.entries ∧ (changeGrade g c s).card = s.card
     ∧ (changeGrade g c s).port.transaction = s.port.transaction ∧ (changeGrade g c s).port.loaded = s.port.loaded
     ∧ (changeGrade g c s).port.enables = s.port.enables ∧ (changeGrade g c s).port.selfTest = s.port.selfTest
     ∧ (changeGrade g c s).engine.index = s.engine.index ∧ (changeGrade g c s).engine.copy = s.engine.copy
     ∧ (changeGrade g c s).engine.transfer = s.engine.transfer
     ∧ (changeGrade g c s).engine.lastStatus = s.engine.lastStatus ∧ (changeGrade g c s).evid.fence = s.evid.fence
     ∧ (changeGrade g c s).evid.boundary = s.evid.boundary ∧ (changeGrade g c s).steer.state = s.steer.state
     ∧ (changeGrade g c s).steer.rf = s.steer.rf ∧ (changeGrade g c s).steer.rp = s.steer.rp
     ∧ (changeGrade g c s).steer.holdover = s.steer.holdover ∧ (changeGrade g c s).steer.incomplete = s.steer.incomplete
     ∧ (changeGrade g c s).steer.rateLimit = s.steer.rateLimit
     ∧ (changeGrade g c s).steer.stepDeferred = s.steer.stepDeferred ∧ (changeGrade g c s).steer.lockRun = s.steer.lockRun
     ∧ (changeGrade g c s).steer.unlockRun = s.steer.unlockRun ∧ (changeGrade g c s).steer.bound = s.steer.bound
     ∧ (changeGrade g c s).steer.latest = s.steer.latest ∧ (changeGrade g c s).steer.series = s.steer.series
     ∧ (changeGrade g c s).stamp.requests = s.stamp.requests ∧ (changeGrade g c s).stamp.responses = s.stamp.responses
     ∧ (changeGrade g c s).stamp.captures = s.stamp.captures ∧ (changeGrade g c s).stamp.overflow = s.stamp.overflow
     ∧ (changeGrade g c s).stamp.nextSeq = s.stamp.nextSeq ∧ (changeGrade g c s).stamp.floor = s.stamp.floor
     ∧ (changeGrade g c s).stamp.floorSeq = s.stamp.floorSeq ∧ (changeGrade g c s).stamp.batch = s.stamp.batch := by
  simp only [changeGrade]; split <;> simp

@[simp] theorem demote_keeps (s : State) :
    (demote s).pending = s.pending ∧ (demote s).osc = s.osc ∧ (demote s).fresh = s.fresh ∧ (demote s).phase = s.phase
     ∧ (demote s).cfg = s.cfg ∧ (demote s).clock = s.clock ∧ (demote s).link = s.link ∧ (demote s).peers = s.peers
     ∧ (demote s).ref = s.ref ∧ (demote s).entries = s.entries ∧ (demote s).card = s.card
     ∧ (demote s).port.transaction = s.port.transaction ∧ (demote s).port.loaded = s.port.loaded
     ∧ (demote s).port.enables = s.port.enables ∧ (demote s).port.selfTest = s.port.selfTest
     ∧ (demote s).engine.index = s.engine.index ∧ (demote s).engine.copy = s.engine.copy
     ∧ (demote s).engine.transfer = s.engine.transfer
     ∧ (demote s).engine.lastStatus = s.engine.lastStatus ∧ (demote s).evid.fence = s.evid.fence
     ∧ (demote s).evid.boundary = s.evid.boundary ∧ (demote s).steer.state = s.steer.state
     ∧ (demote s).steer.rf = s.steer.rf ∧ (demote s).steer.rp = s.steer.rp ∧ (demote s).steer.holdover = s.steer.holdover
     ∧ (demote s).steer.incomplete = s.steer.incomplete ∧ (demote s).steer.rateLimit = s.steer.rateLimit
     ∧ (demote s).steer.stepDeferred = s.steer.stepDeferred ∧ (demote s).steer.lockRun = s.steer.lockRun
     ∧ (demote s).steer.unlockRun = s.steer.unlockRun ∧ (demote s).steer.bound = s.steer.bound
     ∧ (demote s).steer.latest = s.steer.latest ∧ (demote s).steer.series = s.steer.series
     ∧ (demote s).stamp.requests = s.stamp.requests ∧ (demote s).stamp.responses = s.stamp.responses
     ∧ (demote s).stamp.captures = s.stamp.captures ∧ (demote s).stamp.overflow = s.stamp.overflow
     ∧ (demote s).stamp.nextSeq = s.stamp.nextSeq ∧ (demote s).stamp.floor = s.stamp.floor
     ∧ (demote s).stamp.floorSeq = s.stamp.floorSeq ∧ (demote s).stamp.batch = s.stamp.batch := by
  simp only [demote]; split <;> simp

/-! ### Waiting frames -/

@[simp] theorem requestFrame_keeps (i : Fin 32) (k : Bool) (f : Frame) (s : State) :
    (requestFrame i k f s).pending = s.pending ∧ (requestFrame i k f s).osc = s.osc ∧ (requestFrame i k f s).fresh = s.fresh
     ∧ (requestFrame i k f s).phase = s.phase ∧ (requestFrame i k f s).cfg = s.cfg ∧ (requestFrame i k f s).port = s.port
     ∧ (requestFrame i k f s).clock = s.clock ∧ (requestFrame i k f s).peers = s.peers ∧ (requestFrame i k f s).ref = s.ref
     ∧ (requestFrame i k f s).steer = s.steer ∧ (requestFrame i k f s).stamp = s.stamp
     ∧ (requestFrame i k f s).entries = s.entries ∧ (requestFrame i k f s).evid = s.evid
     ∧ (requestFrame i k f s).engine = s.engine ∧ (requestFrame i k f s).card = s.card := by
  refine ⟨rfl, rfl, rfl, rfl, rfl, rfl, rfl, rfl, rfl, rfl, rfl, rfl, rfl, rfl, rfl⟩

@[simp] theorem withdrawKind_keeps (i : Fin 32) (k : Bool) (s : State) :
    (withdrawKind i k s).pending = s.pending ∧ (withdrawKind i k s).osc = s.osc ∧ (withdrawKind i k s).fresh = s.fresh
     ∧ (withdrawKind i k s).phase = s.phase ∧ (withdrawKind i k s).cfg = s.cfg ∧ (withdrawKind i k s).port = s.port
     ∧ (withdrawKind i k s).clock = s.clock ∧ (withdrawKind i k s).peers = s.peers ∧ (withdrawKind i k s).ref = s.ref
     ∧ (withdrawKind i k s).steer = s.steer ∧ (withdrawKind i k s).stamp = s.stamp
     ∧ (withdrawKind i k s).entries = s.entries ∧ (withdrawKind i k s).evid = s.evid
     ∧ (withdrawKind i k s).engine = s.engine ∧ (withdrawKind i k s).card = s.card := by
  refine ⟨rfl, rfl, rfl, rfl, rfl, rfl, rfl, rfl, rfl, rfl, rfl, rfl, rfl, rfl, rfl⟩

@[simp] theorem withdrawSlot_keeps (i : Fin 32) (s : State) :
    (withdrawSlot i s).pending = s.pending ∧ (withdrawSlot i s).osc = s.osc ∧ (withdrawSlot i s).fresh = s.fresh
     ∧ (withdrawSlot i s).phase = s.phase ∧ (withdrawSlot i s).cfg = s.cfg ∧ (withdrawSlot i s).port = s.port
     ∧ (withdrawSlot i s).clock = s.clock ∧ (withdrawSlot i s).peers = s.peers ∧ (withdrawSlot i s).ref = s.ref
     ∧ (withdrawSlot i s).steer = s.steer ∧ (withdrawSlot i s).stamp = s.stamp ∧ (withdrawSlot i s).entries = s.entries
     ∧ (withdrawSlot i s).evid = s.evid ∧ (withdrawSlot i s).engine = s.engine ∧ (withdrawSlot i s).card = s.card := by
  refine ⟨rfl, rfl, rfl, rfl, rfl, rfl, rfl, rfl, rfl, rfl, rfl, rfl, rfl, rfl, rfl⟩

/-! ### Stamps -/

@[simp] theorem closeBatch_keeps (c : BatchCause) (s : State) :
    (closeBatch c s).pending = s.pending ∧ (closeBatch c s).osc = s.osc ∧ (closeBatch c s).fresh = s.fresh
     ∧ (closeBatch c s).phase = s.phase ∧ (closeBatch c s).cfg = s.cfg ∧ (closeBatch c s).clock = s.clock
     ∧ (closeBatch c s).link = s.link ∧ (closeBatch c s).peers = s.peers ∧ (closeBatch c s).ref = s.ref
     ∧ (closeBatch c s).steer = s.steer ∧ (closeBatch c s).entries = s.entries ∧ (closeBatch c s).card = s.card
     ∧ (closeBatch c s).port.transaction = s.port.transaction ∧ (closeBatch c s).port.loaded = s.port.loaded
     ∧ (closeBatch c s).port.enables = s.port.enables ∧ (closeBatch c s).port.selfTest = s.port.selfTest
     ∧ (closeBatch c s).engine.index = s.engine.index ∧ (closeBatch c s).engine.copy = s.engine.copy
     ∧ (closeBatch c s).engine.transfer = s.engine.transfer
     ∧ (closeBatch c s).engine.lastStatus = s.engine.lastStatus ∧ (closeBatch c s).evid.fence = s.evid.fence
     ∧ (closeBatch c s).evid.boundary = s.evid.boundary ∧ (closeBatch c s).stamp.requests = s.stamp.requests
     ∧ (closeBatch c s).stamp.responses = s.stamp.responses ∧ (closeBatch c s).stamp.captures = s.stamp.captures
     ∧ (closeBatch c s).stamp.overflow = s.stamp.overflow ∧ (closeBatch c s).stamp.nextSeq = s.stamp.nextSeq
     ∧ (closeBatch c s).stamp.floor = s.stamp.floor ∧ (closeBatch c s).stamp.floorSeq = s.stamp.floorSeq
     ∧ (closeBatch c s).stamp.gradeMark = s.stamp.gradeMark := by
  simp only [closeBatch]; split <;> simp

theorem closeNotice_shape (i : Fin 32) (s : State) :
    ∃ u s1, closeNotice i s = { s1 with stamp := u } ∧
      (s1 = s ∨ ∃ es, s1 = closeBatch .close { s with entries := es }) := by
  unfold closeNotice
  refine ⟨_, _, rfl, ?_⟩
  split
  · exact .inl rfl
  · exact .inr ⟨_, rfl⟩

@[simp] theorem closeNotice_keeps (i : Fin 32) (s : State) :
    (closeNotice i s).pending = s.pending ∧ (closeNotice i s).osc = s.osc ∧ (closeNotice i s).fresh = s.fresh
     ∧ (closeNotice i s).phase = s.phase ∧ (closeNotice i s).cfg = s.cfg ∧ (closeNotice i s).clock = s.clock
     ∧ (closeNotice i s).link = s.link ∧ (closeNotice i s).peers = s.peers ∧ (closeNotice i s).ref = s.ref
     ∧ (closeNotice i s).steer = s.steer ∧ (closeNotice i s).card = s.card
     ∧ (closeNotice i s).port.transaction = s.port.transaction ∧ (closeNotice i s).port.loaded = s.port.loaded
     ∧ (closeNotice i s).port.enables = s.port.enables ∧ (closeNotice i s).port.selfTest = s.port.selfTest
     ∧ (closeNotice i s).engine.index = s.engine.index ∧ (closeNotice i s).engine.copy = s.engine.copy
     ∧ (closeNotice i s).engine.transfer = s.engine.transfer
     ∧ (closeNotice i s).engine.lastStatus = s.engine.lastStatus ∧ (closeNotice i s).evid.fence = s.evid.fence
     ∧ (closeNotice i s).evid.boundary = s.evid.boundary := by
  obtain ⟨u, s1, h, rfl | ⟨es, rfl⟩⟩ := closeNotice_shape i s <;> rw [h] <;> simp

@[simp] theorem joinStamp_keeps (st : Stamp) (s : State) :
    (joinStamp st s).pending = s.pending ∧ (joinStamp st s).osc = s.osc ∧ (joinStamp st s).fresh = s.fresh
     ∧ (joinStamp st s).phase = s.phase ∧ (joinStamp st s).cfg = s.cfg ∧ (joinStamp st s).clock = s.clock
     ∧ (joinStamp st s).link = s.link ∧ (joinStamp st s).peers = s.peers ∧ (joinStamp st s).ref = s.ref
     ∧ (joinStamp st s).steer = s.steer ∧ (joinStamp st s).entries = s.entries ∧ (joinStamp st s).card = s.card
     ∧ (joinStamp st s).port.transaction = s.port.transaction ∧ (joinStamp st s).port.loaded = s.port.loaded
     ∧ (joinStamp st s).port.enables = s.port.enables ∧ (joinStamp st s).port.selfTest = s.port.selfTest
     ∧ (joinStamp st s).engine.index = s.engine.index ∧ (joinStamp st s).engine.copy = s.engine.copy
     ∧ (joinStamp st s).engine.transfer = s.engine.transfer
     ∧ (joinStamp st s).engine.lastStatus = s.engine.lastStatus ∧ (joinStamp st s).evid.fence = s.evid.fence
     ∧ (joinStamp st s).evid.boundary = s.evid.boundary ∧ (joinStamp st s).stamp.requests = s.stamp.requests
     ∧ (joinStamp st s).stamp.responses = s.stamp.responses ∧ (joinStamp st s).stamp.captures = s.stamp.captures
     ∧ (joinStamp st s).stamp.overflow = s.stamp.overflow ∧ (joinStamp st s).stamp.nextSeq = s.stamp.nextSeq
     ∧ (joinStamp st s).stamp.floor = s.stamp.floor ∧ (joinStamp st s).stamp.floorSeq = s.stamp.floorSeq
     ∧ (joinStamp st s).stamp.gradeMark = s.stamp.gradeMark := by
  simp only [joinStamp]; split <;> simp

@[simp] theorem refuseStamp_keeps (w : Refused) (r : Request) (s : State) :
    (refuseStamp w r s).pending = s.pending ∧ (refuseStamp w r s).osc = s.osc ∧ (refuseStamp w r s).fresh = s.fresh
     ∧ (refuseStamp w r s).phase = s.phase ∧ (refuseStamp w r s).cfg = s.cfg ∧ (refuseStamp w r s).port = s.port
     ∧ (refuseStamp w r s).clock = s.clock ∧ (refuseStamp w r s).link = s.link ∧ (refuseStamp w r s).peers = s.peers
     ∧ (refuseStamp w r s).ref = s.ref ∧ (refuseStamp w r s).steer = s.steer ∧ (refuseStamp w r s).entries = s.entries
     ∧ (refuseStamp w r s).evid = s.evid ∧ (refuseStamp w r s).engine = s.engine ∧ (refuseStamp w r s).card = s.card := by
  refine ⟨rfl, rfl, rfl, rfl, rfl, rfl, rfl, rfl, rfl, rfl, rfl, rfl, rfl, rfl, rfl⟩

@[simp] theorem issueStamp_keeps (r : Request) (x : RawSource) (n : Nat) (s : State) :
    (issueStamp r x n s).pending = s.pending ∧ (issueStamp r x n s).osc = s.osc ∧ (issueStamp r x n s).fresh = s.fresh
     ∧ (issueStamp r x n s).phase = s.phase ∧ (issueStamp r x n s).cfg = s.cfg ∧ (issueStamp r x n s).clock = s.clock
     ∧ (issueStamp r x n s).link = s.link ∧ (issueStamp r x n s).peers = s.peers ∧ (issueStamp r x n s).ref = s.ref
     ∧ (issueStamp r x n s).steer = s.steer ∧ (issueStamp r x n s).card = s.card
     ∧ (issueStamp r x n s).port.transaction = s.port.transaction ∧ (issueStamp r x n s).port.loaded = s.port.loaded
     ∧ (issueStamp r x n s).port.enables = s.port.enables ∧ (issueStamp r x n s).port.selfTest = s.port.selfTest
     ∧ (issueStamp r x n s).engine.index = s.engine.index ∧ (issueStamp r x n s).engine.copy = s.engine.copy
     ∧ (issueStamp r x n s).engine.transfer = s.engine.transfer
     ∧ (issueStamp r x n s).engine.lastStatus = s.engine.lastStatus ∧ (issueStamp r x n s).evid.fence = s.evid.fence
     ∧ (issueStamp r x n s).evid.boundary = s.evid.boundary := by
  simp only [issueStamp]; split <;> simp

theorem answerRequest_shape (r : Request) (s : State) :
    (∃ w, answerRequest r s = refuseStamp w r s) ∨ ∃ x n, answerRequest r s = issueStamp r x n s := by
  unfold answerRequest
  by_cases h : clockSet s = false
  · exact .inl ⟨_, if_pos h⟩
  · rw [if_neg h]
    cases s.stamp.nextSeq with
    | none => exact .inl ⟨_, rfl⟩
    | some n =>
      cases rawSource r s with
      | none => exact .inl ⟨_, rfl⟩
      | some x => exact .inr ⟨_, _, rfl⟩

@[simp] theorem answerRequest_keeps (r : Request) (s : State) :
    (answerRequest r s).pending = s.pending ∧ (answerRequest r s).osc = s.osc ∧ (answerRequest r s).fresh = s.fresh
     ∧ (answerRequest r s).phase = s.phase ∧ (answerRequest r s).cfg = s.cfg ∧ (answerRequest r s).clock = s.clock
     ∧ (answerRequest r s).link = s.link ∧ (answerRequest r s).peers = s.peers ∧ (answerRequest r s).ref = s.ref
     ∧ (answerRequest r s).steer = s.steer ∧ (answerRequest r s).card = s.card
     ∧ (answerRequest r s).port.transaction = s.port.transaction ∧ (answerRequest r s).port.loaded = s.port.loaded
     ∧ (answerRequest r s).port.enables = s.port.enables ∧ (answerRequest r s).port.selfTest = s.port.selfTest
     ∧ (answerRequest r s).engine.index = s.engine.index ∧ (answerRequest r s).engine.copy = s.engine.copy
     ∧ (answerRequest r s).engine.transfer = s.engine.transfer
     ∧ (answerRequest r s).engine.lastStatus = s.engine.lastStatus ∧ (answerRequest r s).evid.fence = s.evid.fence
     ∧ (answerRequest r s).evid.boundary = s.evid.boundary := by
  obtain ⟨w, h⟩ | ⟨x, n, h⟩ := answerRequest_shape r s <;> rw [h] <;> simp

/-! ### Auction Table -/

@[simp] theorem setEntry_keeps (i : Fin 32) (e : Entry) (s : State) :
    (setEntry i e s).pending = s.pending ∧ (setEntry i e s).osc = s.osc ∧ (setEntry i e s).fresh = s.fresh
     ∧ (setEntry i e s).phase = s.phase ∧ (setEntry i e s).cfg = s.cfg ∧ (setEntry i e s).port = s.port
     ∧ (setEntry i e s).clock = s.clock ∧ (setEntry i e s).link = s.link ∧ (setEntry i e s).peers = s.peers
     ∧ (setEntry i e s).ref = s.ref ∧ (setEntry i e s).steer = s.steer ∧ (setEntry i e s).stamp = s.stamp
     ∧ (setEntry i e s).evid = s.evid ∧ (setEntry i e s).engine = s.engine ∧ (setEntry i e s).card = s.card := by
  refine ⟨rfl, rfl, rfl, rfl, rfl, rfl, rfl, rfl, rfl, rfl, rfl, rfl, rfl, rfl, rfl⟩

@[simp] theorem clearLink_keeps (p : Option (Fin 32)) (s : State) :
    (clearLink p s).pending = s.pending ∧ (clearLink p s).osc = s.osc ∧ (clearLink p s).fresh = s.fresh
     ∧ (clearLink p s).phase = s.phase ∧ (clearLink p s).cfg = s.cfg ∧ (clearLink p s).port = s.port
     ∧ (clearLink p s).clock = s.clock ∧ (clearLink p s).link = s.link ∧ (clearLink p s).peers = s.peers
     ∧ (clearLink p s).ref = s.ref ∧ (clearLink p s).steer = s.steer ∧ (clearLink p s).stamp = s.stamp
     ∧ (clearLink p s).evid = s.evid ∧ (clearLink p s).engine = s.engine
      ∧ (clearLink p s).card = s.card := by cases p <;> simp [clearLink, clearPred, setPred]

@[simp] theorem clearPred_keeps (p : Option (Fin 32)) (s : State) :
    (clearPred p s).pending = s.pending ∧ (clearPred p s).osc = s.osc ∧ (clearPred p s).fresh = s.fresh
     ∧ (clearPred p s).phase = s.phase ∧ (clearPred p s).cfg = s.cfg ∧ (clearPred p s).port = s.port
     ∧ (clearPred p s).clock = s.clock ∧ (clearPred p s).link = s.link ∧ (clearPred p s).peers = s.peers
     ∧ (clearPred p s).ref = s.ref ∧ (clearPred p s).steer = s.steer ∧ (clearPred p s).stamp = s.stamp
     ∧ (clearPred p s).evid = s.evid ∧ (clearPred p s).engine = s.engine
      ∧ (clearPred p s).card = s.card := by cases p <;> simp [clearLink, clearPred, setPred]

@[simp] theorem setPred_keeps (i : Fin 32) (p : Option (Fin 32)) (s : State) :
    (setPred i p s).pending = s.pending ∧ (setPred i p s).osc = s.osc ∧ (setPred i p s).fresh = s.fresh
     ∧ (setPred i p s).phase = s.phase ∧ (setPred i p s).cfg = s.cfg ∧ (setPred i p s).port = s.port
     ∧ (setPred i p s).clock = s.clock ∧ (setPred i p s).link = s.link ∧ (setPred i p s).peers = s.peers
     ∧ (setPred i p s).ref = s.ref ∧ (setPred i p s).steer = s.steer ∧ (setPred i p s).stamp = s.stamp
     ∧ (setPred i p s).evid = s.evid ∧ (setPred i p s).engine = s.engine
      ∧ (setPred i p s).card = s.card := by cases p <;> simp [clearLink, clearPred, setPred]

@[simp] theorem voidOne_keeps (i : Fin 32) (r : VoidReason) (s : State) :
    (voidOne i r s).pending = s.pending ∧ (voidOne i r s).osc = s.osc ∧ (voidOne i r s).fresh = s.fresh
     ∧ (voidOne i r s).phase = s.phase ∧ (voidOne i r s).cfg = s.cfg ∧ (voidOne i r s).clock = s.clock
     ∧ (voidOne i r s).peers = s.peers ∧ (voidOne i r s).ref = s.ref ∧ (voidOne i r s).steer = s.steer
     ∧ (voidOne i r s).stamp = s.stamp ∧ (voidOne i r s).card = s.card
     ∧ (voidOne i r s).port.transaction = s.port.transaction ∧ (voidOne i r s).port.loaded = s.port.loaded
     ∧ (voidOne i r s).port.enables = s.port.enables ∧ (voidOne i r s).port.selfTest = s.port.selfTest
     ∧ (voidOne i r s).engine.index = s.engine.index ∧ (voidOne i r s).engine.copy = s.engine.copy
     ∧ (voidOne i r s).engine.transfer = s.engine.transfer
     ∧ (voidOne i r s).engine.lastStatus = s.engine.lastStatus ∧ (voidOne i r s).evid.fence = s.evid.fence
     ∧ (voidOne i r s).evid.boundary = s.evid.boundary := by simp [voidOne]

@[simp] theorem voidChain_keeps (n : Nat) (i : Fin 32) (r : VoidReason) (s : State) :
    (voidChain n i r s).pending = s.pending ∧ (voidChain n i r s).osc = s.osc ∧ (voidChain n i r s).fresh = s.fresh
     ∧ (voidChain n i r s).phase = s.phase ∧ (voidChain n i r s).cfg = s.cfg ∧ (voidChain n i r s).clock = s.clock
     ∧ (voidChain n i r s).peers = s.peers ∧ (voidChain n i r s).ref = s.ref ∧ (voidChain n i r s).steer = s.steer
     ∧ (voidChain n i r s).stamp = s.stamp ∧ (voidChain n i r s).card = s.card
     ∧ (voidChain n i r s).port.transaction = s.port.transaction ∧ (voidChain n i r s).port.loaded = s.port.loaded
     ∧ (voidChain n i r s).port.enables = s.port.enables ∧ (voidChain n i r s).port.selfTest = s.port.selfTest
     ∧ (voidChain n i r s).engine.index = s.engine.index ∧ (voidChain n i r s).engine.copy = s.engine.copy
     ∧ (voidChain n i r s).engine.transfer = s.engine.transfer
     ∧ (voidChain n i r s).engine.lastStatus = s.engine.lastStatus ∧ (voidChain n i r s).evid.fence = s.evid.fence
     ∧ (voidChain n i r s).evid.boundary = s.evid.boundary := by
  induction n generalizing i r s with
  | zero => simp [voidChain, closeChain]
  | succ n ih => simp only [voidChain]; split <;> simp [ih]

@[simp] theorem voidEntry_keeps (i : Fin 32) (r : VoidReason) (s : State) :
    (voidEntry i r s).pending = s.pending ∧ (voidEntry i r s).osc = s.osc ∧ (voidEntry i r s).fresh = s.fresh
     ∧ (voidEntry i r s).phase = s.phase ∧ (voidEntry i r s).cfg = s.cfg ∧ (voidEntry i r s).clock = s.clock
     ∧ (voidEntry i r s).peers = s.peers ∧ (voidEntry i r s).ref = s.ref ∧ (voidEntry i r s).steer = s.steer
     ∧ (voidEntry i r s).stamp = s.stamp ∧ (voidEntry i r s).card = s.card
     ∧ (voidEntry i r s).port.transaction = s.port.transaction ∧ (voidEntry i r s).port.loaded = s.port.loaded
     ∧ (voidEntry i r s).port.enables = s.port.enables ∧ (voidEntry i r s).port.selfTest = s.port.selfTest
     ∧ (voidEntry i r s).engine.index = s.engine.index ∧ (voidEntry i r s).engine.copy = s.engine.copy
     ∧ (voidEntry i r s).engine.transfer = s.engine.transfer
     ∧ (voidEntry i r s).engine.lastStatus = s.engine.lastStatus ∧ (voidEntry i r s).evid.fence = s.evid.fence
     ∧ (voidEntry i r s).evid.boundary = s.evid.boundary := by simp [voidEntry]

@[simp] theorem voidExchanging_keeps (s : State) :
    (voidExchanging s).pending = s.pending ∧ (voidExchanging s).osc = s.osc ∧ (voidExchanging s).fresh = s.fresh
     ∧ (voidExchanging s).phase = s.phase ∧ (voidExchanging s).cfg = s.cfg ∧ (voidExchanging s).clock = s.clock
     ∧ (voidExchanging s).peers = s.peers ∧ (voidExchanging s).ref = s.ref ∧ (voidExchanging s).steer = s.steer
     ∧ (voidExchanging s).stamp = s.stamp ∧ (voidExchanging s).card = s.card
     ∧ (voidExchanging s).port.transaction = s.port.transaction ∧ (voidExchanging s).port.loaded = s.port.loaded
     ∧ (voidExchanging s).port.enables = s.port.enables ∧ (voidExchanging s).port.selfTest = s.port.selfTest
     ∧ (voidExchanging s).engine.index = s.engine.index ∧ (voidExchanging s).engine.copy = s.engine.copy
     ∧ (voidExchanging s).engine.transfer = s.engine.transfer
     ∧ (voidExchanging s).engine.lastStatus = s.engine.lastStatus ∧ (voidExchanging s).evid.fence = s.evid.fence
     ∧ (voidExchanging s).evid.boundary = s.evid.boundary := by
  unfold voidExchanging; generalize List.finRange 32 = xs
  induction xs generalizing s with
  | nil => simp
  | cons x xs ih => simp only [List.foldl_cons, ih]; split <;> simp

@[simp] theorem drawShare_keeps (i : Fin 32) (s : State) :
    (drawShare i s).pending = s.pending ∧ (drawShare i s).osc = s.osc ∧ (drawShare i s).phase = s.phase
     ∧ (drawShare i s).cfg = s.cfg ∧ (drawShare i s).port = s.port ∧ (drawShare i s).clock = s.clock
     ∧ (drawShare i s).peers = s.peers ∧ (drawShare i s).ref = s.ref ∧ (drawShare i s).steer = s.steer
     ∧ (drawShare i s).stamp = s.stamp ∧ (drawShare i s).evid = s.evid ∧ (drawShare i s).engine = s.engine
     ∧ (drawShare i s).card = s.card := by
  simp only [drawShare]; split <;> simp

@[simp] theorem drawEntry_keeps (i : Fin 32) (s : State) :
    (drawEntry i s).pending = s.pending ∧ (drawEntry i s).osc = s.osc ∧ (drawEntry i s).phase = s.phase
     ∧ (drawEntry i s).cfg = s.cfg ∧ (drawEntry i s).port = s.port ∧ (drawEntry i s).clock = s.clock
     ∧ (drawEntry i s).peers = s.peers ∧ (drawEntry i s).ref = s.ref ∧ (drawEntry i s).steer = s.steer
     ∧ (drawEntry i s).stamp = s.stamp ∧ (drawEntry i s).evid = s.evid ∧ (drawEntry i s).engine = s.engine
     ∧ (drawEntry i s).card = s.card := by simp [drawEntry]

@[simp] theorem tallyEntry_keeps (i : Fin 32) (s : State) :
    (tallyEntry i s).pending = s.pending ∧ (tallyEntry i s).osc = s.osc ∧ (tallyEntry i s).fresh = s.fresh
     ∧ (tallyEntry i s).phase = s.phase ∧ (tallyEntry i s).cfg = s.cfg ∧ (tallyEntry i s).port = s.port
     ∧ (tallyEntry i s).clock = s.clock ∧ (tallyEntry i s).peers = s.peers ∧ (tallyEntry i s).ref = s.ref
     ∧ (tallyEntry i s).steer = s.steer ∧ (tallyEntry i s).stamp = s.stamp ∧ (tallyEntry i s).evid = s.evid
     ∧ (tallyEntry i s).engine = s.engine ∧ (tallyEntry i s).card = s.card := by
  simp only [tallyEntry]; split <;> simp

@[simp] theorem recordFix_keeps (i : Fin 32) (s : State) :
    (recordFix i s).pending = s.pending ∧ (recordFix i s).osc = s.osc ∧ (recordFix i s).fresh = s.fresh
     ∧ (recordFix i s).phase = s.phase ∧ (recordFix i s).cfg = s.cfg ∧ (recordFix i s).clock = s.clock
     ∧ (recordFix i s).link = s.link ∧ (recordFix i s).peers = s.peers ∧ (recordFix i s).ref = s.ref
     ∧ (recordFix i s).steer = s.steer ∧ (recordFix i s).stamp = s.stamp ∧ (recordFix i s).entries = s.entries
     ∧ (recordFix i s).card = s.card ∧ (recordFix i s).port.transaction = s.port.transaction
     ∧ (recordFix i s).port.loaded = s.port.loaded ∧ (recordFix i s).port.enables = s.port.enables
     ∧ (recordFix i s).port.selfTest = s.port.selfTest ∧ (recordFix i s).engine.index = s.engine.index
     ∧ (recordFix i s).engine.copy = s.engine.copy
     ∧ (recordFix i s).engine.transfer = s.engine.transfer ∧ (recordFix i s).engine.lastStatus = s.engine.lastStatus
     ∧ (recordFix i s).evid.fence = s.evid.fence ∧ (recordFix i s).evid.boundary = s.evid.boundary := by simp [recordFix]

@[simp] theorem fixEntry_keeps (i : Fin 32) (s : State) :
    (fixEntry i s).pending = s.pending ∧ (fixEntry i s).osc = s.osc ∧ (fixEntry i s).fresh = s.fresh
     ∧ (fixEntry i s).phase = s.phase ∧ (fixEntry i s).cfg = s.cfg ∧ (fixEntry i s).clock = s.clock
     ∧ (fixEntry i s).peers = s.peers ∧ (fixEntry i s).ref = s.ref ∧ (fixEntry i s).steer = s.steer
     ∧ (fixEntry i s).stamp = s.stamp ∧ (fixEntry i s).card = s.card ∧ (fixEntry i s).port.transaction = s.port.transaction
     ∧ (fixEntry i s).port.loaded = s.port.loaded ∧ (fixEntry i s).port.enables = s.port.enables
     ∧ (fixEntry i s).port.selfTest = s.port.selfTest ∧ (fixEntry i s).engine.index = s.engine.index
     ∧ (fixEntry i s).engine.copy = s.engine.copy
     ∧ (fixEntry i s).engine.transfer = s.engine.transfer ∧ (fixEntry i s).engine.lastStatus = s.engine.lastStatus
     ∧ (fixEntry i s).evid.fence = s.evid.fence ∧ (fixEntry i s).evid.boundary = s.evid.boundary := by
  simp only [fixEntry]; repeat' split <;> simp

@[simp] theorem closeOne_keeps (i : Fin 32) (s : State) :
    (closeOne i s).pending = s.pending ∧ (closeOne i s).osc = s.osc ∧ (closeOne i s).fresh = s.fresh
     ∧ (closeOne i s).phase = s.phase ∧ (closeOne i s).cfg = s.cfg ∧ (closeOne i s).clock = s.clock
     ∧ (closeOne i s).link = s.link ∧ (closeOne i s).peers = s.peers ∧ (closeOne i s).ref = s.ref
     ∧ (closeOne i s).steer = s.steer ∧ (closeOne i s).card = s.card ∧ (closeOne i s).port.transaction = s.port.transaction
     ∧ (closeOne i s).port.loaded = s.port.loaded ∧ (closeOne i s).port.enables = s.port.enables
     ∧ (closeOne i s).port.selfTest = s.port.selfTest ∧ (closeOne i s).engine.index = s.engine.index
     ∧ (closeOne i s).engine.copy = s.engine.copy
     ∧ (closeOne i s).engine.transfer = s.engine.transfer ∧ (closeOne i s).engine.lastStatus = s.engine.lastStatus
     ∧ (closeOne i s).evid.fence = s.evid.fence ∧ (closeOne i s).evid.boundary = s.evid.boundary := by simp [closeOne]

@[simp] theorem closeChain_keeps (n : Nat) (i : Fin 32) (s : State) :
    (closeChain n i s).pending = s.pending ∧ (closeChain n i s).osc = s.osc ∧ (closeChain n i s).phase = s.phase
     ∧ (closeChain n i s).cfg = s.cfg ∧ (closeChain n i s).clock = s.clock ∧ (closeChain n i s).peers = s.peers
     ∧ (closeChain n i s).ref = s.ref ∧ (closeChain n i s).steer = s.steer ∧ (closeChain n i s).card = s.card
     ∧ (closeChain n i s).port.transaction = s.port.transaction ∧ (closeChain n i s).port.loaded = s.port.loaded
     ∧ (closeChain n i s).port.enables = s.port.enables ∧ (closeChain n i s).port.selfTest = s.port.selfTest
     ∧ (closeChain n i s).engine.index = s.engine.index ∧ (closeChain n i s).engine.copy = s.engine.copy
     ∧ (closeChain n i s).engine.transfer = s.engine.transfer
     ∧ (closeChain n i s).engine.lastStatus = s.engine.lastStatus ∧ (closeChain n i s).evid.fence = s.evid.fence
     ∧ (closeChain n i s).evid.boundary = s.evid.boundary := by
  induction n generalizing i s with
  | zero => simp [voidChain, closeChain]
  | succ n ih => simp only [closeChain]; repeat' (first | (simp [ih]; done) | split)

@[simp] theorem closeEntry_keeps (i : Fin 32) (s : State) :
    (closeEntry i s).pending = s.pending ∧ (closeEntry i s).osc = s.osc ∧ (closeEntry i s).phase = s.phase
     ∧ (closeEntry i s).cfg = s.cfg ∧ (closeEntry i s).clock = s.clock ∧ (closeEntry i s).peers = s.peers
     ∧ (closeEntry i s).ref = s.ref ∧ (closeEntry i s).steer = s.steer ∧ (closeEntry i s).card = s.card
     ∧ (closeEntry i s).port.transaction = s.port.transaction ∧ (closeEntry i s).port.loaded = s.port.loaded
     ∧ (closeEntry i s).port.enables = s.port.enables ∧ (closeEntry i s).port.selfTest = s.port.selfTest
     ∧ (closeEntry i s).engine.index = s.engine.index ∧ (closeEntry i s).engine.copy = s.engine.copy
     ∧ (closeEntry i s).engine.transfer = s.engine.transfer
     ∧ (closeEntry i s).engine.lastStatus = s.engine.lastStatus ∧ (closeEntry i s).evid.fence = s.evid.fence
     ∧ (closeEntry i s).evid.boundary = s.evid.boundary := by simp [closeEntry]

@[simp] theorem drawReport_keeps (d : Draw) (s : State) :
    (drawReport d s).pending = s.pending ∧ (drawReport d s).osc = s.osc ∧ (drawReport d s).fresh = s.fresh
     ∧ (drawReport d s).phase = s.phase ∧ (drawReport d s).cfg = s.cfg ∧ (drawReport d s).port = s.port
     ∧ (drawReport d s).clock = s.clock ∧ (drawReport d s).link = s.link ∧ (drawReport d s).peers = s.peers
     ∧ (drawReport d s).ref = s.ref ∧ (drawReport d s).steer = s.steer ∧ (drawReport d s).stamp = s.stamp
     ∧ (drawReport d s).evid = s.evid ∧ (drawReport d s).engine = s.engine ∧ (drawReport d s).card = s.card := by
  simp only [drawReport]; split <;> simp

@[simp] theorem tallyReport_keeps (t : TallyFrame) (s : State) :
    (tallyReport t s).pending = s.pending ∧ (tallyReport t s).osc = s.osc ∧ (tallyReport t s).fresh = s.fresh
     ∧ (tallyReport t s).phase = s.phase ∧ (tallyReport t s).cfg = s.cfg ∧ (tallyReport t s).port = s.port
     ∧ (tallyReport t s).clock = s.clock ∧ (tallyReport t s).link = s.link ∧ (tallyReport t s).peers = s.peers
     ∧ (tallyReport t s).ref = s.ref ∧ (tallyReport t s).steer = s.steer ∧ (tallyReport t s).stamp = s.stamp
     ∧ (tallyReport t s).evid = s.evid ∧ (tallyReport t s).engine = s.engine ∧ (tallyReport t s).card = s.card := by
  simp only [tallyReport]; split <;> simp

@[simp] theorem releaseEntry_keeps (i : Fin 32) (s : State) :
    (releaseEntry i s).pending = s.pending ∧ (releaseEntry i s).osc = s.osc ∧ (releaseEntry i s).fresh = s.fresh
     ∧ (releaseEntry i s).phase = s.phase ∧ (releaseEntry i s).cfg = s.cfg ∧ (releaseEntry i s).port = s.port
     ∧ (releaseEntry i s).clock = s.clock ∧ (releaseEntry i s).peers = s.peers ∧ (releaseEntry i s).ref = s.ref
     ∧ (releaseEntry i s).steer = s.steer ∧ (releaseEntry i s).stamp = s.stamp ∧ (releaseEntry i s).evid = s.evid
     ∧ (releaseEntry i s).engine = s.engine ∧ (releaseEntry i s).card = s.card := by simp [releaseEntry]

/-! ### Peers and reference -/

@[simp] theorem putPeer_keeps (p : Peer) (s : State) :
    (putPeer p s).pending = s.pending ∧ (putPeer p s).osc = s.osc ∧ (putPeer p s).fresh = s.fresh
     ∧ (putPeer p s).phase = s.phase ∧ (putPeer p s).cfg = s.cfg ∧ (putPeer p s).port = s.port
     ∧ (putPeer p s).clock = s.clock ∧ (putPeer p s).link = s.link ∧ (putPeer p s).ref = s.ref
     ∧ (putPeer p s).steer = s.steer ∧ (putPeer p s).stamp = s.stamp ∧ (putPeer p s).entries = s.entries
     ∧ (putPeer p s).evid = s.evid ∧ (putPeer p s).engine = s.engine ∧ (putPeer p s).card = s.card := by
  refine ⟨rfl, rfl, rfl, rfl, rfl, rfl, rfl, rfl, rfl, rfl, rfl, rfl, rfl, rfl, rfl⟩

@[simp] theorem commitPeer_keeps (o : PeerState) (c : PeerCause) (p : Peer) (s : State) :
    (commitPeer o c p s).pending = s.pending ∧ (commitPeer o c p s).osc = s.osc ∧ (commitPeer o c p s).fresh = s.fresh
     ∧ (commitPeer o c p s).phase = s.phase ∧ (commitPeer o c p s).cfg = s.cfg ∧ (commitPeer o c p s).clock = s.clock
     ∧ (commitPeer o c p s).link = s.link ∧ (commitPeer o c p s).ref = s.ref ∧ (commitPeer o c p s).steer = s.steer
     ∧ (commitPeer o c p s).stamp = s.stamp ∧ (commitPeer o c p s).entries = s.entries ∧ (commitPeer o c p s).card = s.card
     ∧ (commitPeer o c p s).port.transaction = s.port.transaction ∧ (commitPeer o c p s).port.loaded = s.port.loaded
     ∧ (commitPeer o c p s).port.enables = s.port.enables ∧ (commitPeer o c p s).port.selfTest = s.port.selfTest
     ∧ (commitPeer o c p s).engine.index = s.engine.index ∧ (commitPeer o c p s).engine.copy = s.engine.copy
     ∧ (commitPeer o c p s).engine.transfer = s.engine.transfer
     ∧ (commitPeer o c p s).engine.lastStatus = s.engine.lastStatus ∧ (commitPeer o c p s).evid.fence = s.evid.fence
     ∧ (commitPeer o c p s).evid.boundary = s.evid.boundary := by
  simp only [commitPeer]; split <;> simp

@[simp] theorem beaconReport_keeps (b : Beacon) (t : Nat) (r : ReceiptResult) (s : State) :
    (beaconReport b t r s).pending = s.pending ∧ (beaconReport b t r s).osc = s.osc ∧ (beaconReport b t r s).fresh = s.fresh
     ∧ (beaconReport b t r s).phase = s.phase ∧ (beaconReport b t r s).cfg = s.cfg ∧ (beaconReport b t r s).clock = s.clock
     ∧ (beaconReport b t r s).link = s.link ∧ (beaconReport b t r s).ref = s.ref ∧ (beaconReport b t r s).steer = s.steer
     ∧ (beaconReport b t r s).stamp = s.stamp ∧ (beaconReport b t r s).entries = s.entries
     ∧ (beaconReport b t r s).card = s.card ∧ (beaconReport b t r s).port.transaction = s.port.transaction
     ∧ (beaconReport b t r s).port.loaded = s.port.loaded ∧ (beaconReport b t r s).port.enables = s.port.enables
     ∧ (beaconReport b t r s).port.selfTest = s.port.selfTest ∧ (beaconReport b t r s).engine.index = s.engine.index
     ∧ (beaconReport b t r s).engine.copy = s.engine.copy
     ∧ (beaconReport b t r s).engine.transfer = s.engine.transfer ∧ (beaconReport b t r s).engine.lastStatus = s.engine.lastStatus
     ∧ (beaconReport b t r s).evid.fence = s.evid.fence ∧ (beaconReport b t r s).evid.boundary = s.evid.boundary := by
  simp only [beaconReport]; split <;> simp

@[simp] theorem recordReference_keeps (o : RefState) (c : RefCause) (s : State) :
    (recordReference o c s).pending = s.pending ∧ (recordReference o c s).osc = s.osc
     ∧ (recordReference o c s).fresh = s.fresh ∧ (recordReference o c s).phase = s.phase
     ∧ (recordReference o c s).cfg = s.cfg ∧ (recordReference o c s).clock = s.clock ∧ (recordReference o c s).link = s.link
     ∧ (recordReference o c s).peers = s.peers ∧ (recordReference o c s).ref = s.ref
     ∧ (recordReference o c s).steer = s.steer ∧ (recordReference o c s).stamp = s.stamp
     ∧ (recordReference o c s).entries = s.entries ∧ (recordReference o c s).card = s.card
     ∧ (recordReference o c s).port.transaction = s.port.transaction ∧ (recordReference o c s).port.loaded = s.port.loaded
     ∧ (recordReference o c s).port.enables = s.port.enables ∧ (recordReference o c s).port.selfTest = s.port.selfTest
     ∧ (recordReference o c s).engine.index = s.engine.index ∧ (recordReference o c s).engine.copy = s.engine.copy
     ∧ (recordReference o c s).engine.transfer = s.engine.transfer
     ∧ (recordReference o c s).engine.lastStatus = s.engine.lastStatus ∧ (recordReference o c s).evid.fence = s.evid.fence
     ∧ (recordReference o c s).evid.boundary = s.evid.boundary := by simp [recordReference]

@[simp] theorem leaveState_keeps (o : RefState) (c : RefCause) (s : State) :
    (leaveState o c s).pending = s.pending ∧ (leaveState o c s).osc = s.osc ∧ (leaveState o c s).fresh = s.fresh
     ∧ (leaveState o c s).phase = s.phase ∧ (leaveState o c s).cfg = s.cfg ∧ (leaveState o c s).clock = s.clock
     ∧ (leaveState o c s).link = s.link ∧ (leaveState o c s).peers = s.peers ∧ (leaveState o c s).ref = s.ref
     ∧ (leaveState o c s).entries = s.entries ∧ (leaveState o c s).card = s.card
     ∧ (leaveState o c s).port.transaction = s.port.transaction ∧ (leaveState o c s).port.loaded = s.port.loaded
     ∧ (leaveState o c s).port.enables = s.port.enables ∧ (leaveState o c s).port.selfTest = s.port.selfTest
     ∧ (leaveState o c s).engine.index = s.engine.index ∧ (leaveState o c s).engine.copy = s.engine.copy
     ∧ (leaveState o c s).engine.transfer = s.engine.transfer
     ∧ (leaveState o c s).engine.lastStatus = s.engine.lastStatus ∧ (leaveState o c s).evid.fence = s.evid.fence
     ∧ (leaveState o c s).evid.boundary = s.evid.boundary ∧ (leaveState o c s).steer.state = s.steer.state
     ∧ (leaveState o c s).steer.rf = s.steer.rf ∧ (leaveState o c s).steer.rp = s.steer.rp
     ∧ (leaveState o c s).steer.holdover = s.steer.holdover ∧ (leaveState o c s).steer.incomplete = s.steer.incomplete
     ∧ (leaveState o c s).steer.rateLimit = s.steer.rateLimit ∧ (leaveState o c s).steer.stepDeferred = s.steer.stepDeferred
     ∧ (leaveState o c s).steer.lockRun = s.steer.lockRun ∧ (leaveState o c s).steer.unlockRun = s.steer.unlockRun
     ∧ (leaveState o c s).steer.bound = s.steer.bound ∧ (leaveState o c s).steer.latest = s.steer.latest
     ∧ (leaveState o c s).steer.series = s.steer.series ∧ (leaveState o c s).stamp.requests = s.stamp.requests
     ∧ (leaveState o c s).stamp.responses = s.stamp.responses ∧ (leaveState o c s).stamp.captures = s.stamp.captures
     ∧ (leaveState o c s).stamp.overflow = s.stamp.overflow ∧ (leaveState o c s).stamp.nextSeq = s.stamp.nextSeq
     ∧ (leaveState o c s).stamp.floor = s.stamp.floor ∧ (leaveState o c s).stamp.floorSeq = s.stamp.floorSeq
     ∧ (leaveState o c s).stamp.batch = s.stamp.batch := by
  simp only [leaveState]; split <;> simp

/-! ### Steps -/

@[simp] theorem stepClock_keeps (a : Int) (s : State) :
    (stepClock a s).pending = s.pending ∧ (stepClock a s).osc = s.osc ∧ (stepClock a s).fresh = s.fresh
     ∧ (stepClock a s).phase = s.phase ∧ (stepClock a s).cfg = s.cfg ∧ (stepClock a s).port = s.port
     ∧ (stepClock a s).peers = s.peers ∧ (stepClock a s).ref = s.ref ∧ (stepClock a s).stamp = s.stamp
     ∧ (stepClock a s).entries = s.entries ∧ (stepClock a s).evid = s.evid ∧ (stepClock a s).engine = s.engine
     ∧ (stepClock a s).card = s.card ∧ (stepClock a s).clock.running = s.clock.running
     ∧ (stepClock a s).clock.residue = s.clock.residue ∧ (stepClock a s).clock.rate = s.clock.rate := by
  refine ⟨rfl, rfl, rfl, rfl, rfl, rfl, rfl, rfl, rfl, rfl, rfl, rfl, rfl, rfl, rfl, rfl⟩

@[simp] theorem takeStep_keeps (a : Int) (c : StepCause) (s : State) :
    (takeStep a c s).pending = s.pending ∧ (takeStep a c s).osc = s.osc ∧ (takeStep a c s).fresh = s.fresh
     ∧ (takeStep a c s).phase = s.phase ∧ (takeStep a c s).cfg = s.cfg ∧ (takeStep a c s).stamp = s.stamp
     ∧ (takeStep a c s).entries = s.entries ∧ (takeStep a c s).card = s.card
     ∧ (takeStep a c s).port.transaction = s.port.transaction ∧ (takeStep a c s).port.loaded = s.port.loaded
     ∧ (takeStep a c s).port.enables = s.port.enables ∧ (takeStep a c s).port.selfTest = s.port.selfTest
     ∧ (takeStep a c s).engine.index = s.engine.index ∧ (takeStep a c s).engine.copy = s.engine.copy
     ∧ (takeStep a c s).engine.transfer = s.engine.transfer
     ∧ (takeStep a c s).engine.lastStatus = s.engine.lastStatus ∧ (takeStep a c s).evid.fence = s.evid.fence
     ∧ (takeStep a c s).evid.boundary = s.evid.boundary := by simp [takeStep]

@[simp] theorem recordDeferral_keeps (a : Int) (s : State) :
    (recordDeferral a s).pending = s.pending ∧ (recordDeferral a s).osc = s.osc ∧ (recordDeferral a s).fresh = s.fresh
     ∧ (recordDeferral a s).phase = s.phase ∧ (recordDeferral a s).cfg = s.cfg ∧ (recordDeferral a s).clock = s.clock
     ∧ (recordDeferral a s).link = s.link ∧ (recordDeferral a s).peers = s.peers ∧ (recordDeferral a s).ref = s.ref
     ∧ (recordDeferral a s).steer = s.steer ∧ (recordDeferral a s).stamp = s.stamp
     ∧ (recordDeferral a s).entries = s.entries ∧ (recordDeferral a s).card = s.card
     ∧ (recordDeferral a s).port.transaction = s.port.transaction ∧ (recordDeferral a s).port.loaded = s.port.loaded
     ∧ (recordDeferral a s).port.enables = s.port.enables ∧ (recordDeferral a s).port.selfTest = s.port.selfTest
     ∧ (recordDeferral a s).engine.index = s.engine.index ∧ (recordDeferral a s).engine.copy = s.engine.copy
     ∧ (recordDeferral a s).engine.transfer = s.engine.transfer
     ∧ (recordDeferral a s).engine.lastStatus = s.engine.lastStatus ∧ (recordDeferral a s).evid.fence = s.evid.fence
     ∧ (recordDeferral a s).evid.boundary = s.evid.boundary := by simp [recordDeferral]

@[simp] theorem stepInCold_keeps (a : Int) (c : StepCause) (s : State) :
    (stepInCold a c s).pending = s.pending ∧ (stepInCold a c s).osc = s.osc ∧ (stepInCold a c s).fresh = s.fresh
     ∧ (stepInCold a c s).phase = s.phase ∧ (stepInCold a c s).cfg = s.cfg ∧ (stepInCold a c s).stamp = s.stamp
     ∧ (stepInCold a c s).entries = s.entries ∧ (stepInCold a c s).card = s.card
     ∧ (stepInCold a c s).port.transaction = s.port.transaction ∧ (stepInCold a c s).port.loaded = s.port.loaded
     ∧ (stepInCold a c s).port.enables = s.port.enables ∧ (stepInCold a c s).port.selfTest = s.port.selfTest
     ∧ (stepInCold a c s).engine.index = s.engine.index ∧ (stepInCold a c s).engine.copy = s.engine.copy
     ∧ (stepInCold a c s).engine.transfer = s.engine.transfer
     ∧ (stepInCold a c s).engine.lastStatus = s.engine.lastStatus ∧ (stepInCold a c s).evid.fence = s.evid.fence
     ∧ (stepInCold a c s).evid.boundary = s.evid.boundary := by
  simp only [stepInCold]; split <;> simp

/-! ### The steering instant -/

@[simp] theorem judgePeer_keeps (c : Int) (s : State) (e : PeerSource) :
    (judgePeer c s e).pending = s.pending ∧ (judgePeer c s e).osc = s.osc ∧ (judgePeer c s e).fresh = s.fresh
      ∧ (judgePeer c s e).phase = s.phase ∧ (judgePeer c s e).cfg = s.cfg ∧ (judgePeer c s e).clock = s.clock
      ∧ (judgePeer c s e).link = s.link ∧ (judgePeer c s e).ref = s.ref ∧ (judgePeer c s e).steer = s.steer
      ∧ (judgePeer c s e).stamp = s.stamp ∧ (judgePeer c s e).entries = s.entries ∧ (judgePeer c s e).card = s.card
      ∧ (judgePeer c s e).port.transaction = s.port.transaction ∧ (judgePeer c s e).port.loaded = s.port.loaded
      ∧ (judgePeer c s e).port.enables = s.port.enables ∧ (judgePeer c s e).port.selfTest = s.port.selfTest
      ∧ (judgePeer c s e).engine.index = s.engine.index ∧ (judgePeer c s e).engine.copy = s.engine.copy
     ∧ (judgePeer c s e).engine.transfer = s.engine.transfer
      ∧ (judgePeer c s e).engine.lastStatus = s.engine.lastStatus ∧ (judgePeer c s e).evid.fence = s.evid.fence
      ∧ (judgePeer c s e).evid.boundary = s.evid.boundary := by
  simp only [judgePeer]; split <;> simp

@[simp] theorem agePeer_keeps (s : State) (i : Nat) :
    (agePeer s i).pending = s.pending ∧ (agePeer s i).osc = s.osc ∧ (agePeer s i).fresh = s.fresh
      ∧ (agePeer s i).phase = s.phase ∧ (agePeer s i).cfg = s.cfg ∧ (agePeer s i).clock = s.clock
      ∧ (agePeer s i).link = s.link ∧ (agePeer s i).ref = s.ref ∧ (agePeer s i).steer = s.steer
      ∧ (agePeer s i).stamp = s.stamp ∧ (agePeer s i).entries = s.entries ∧ (agePeer s i).card = s.card
      ∧ (agePeer s i).port.transaction = s.port.transaction ∧ (agePeer s i).port.loaded = s.port.loaded
      ∧ (agePeer s i).port.enables = s.port.enables ∧ (agePeer s i).port.selfTest = s.port.selfTest
      ∧ (agePeer s i).engine.index = s.engine.index ∧ (agePeer s i).engine.copy = s.engine.copy
     ∧ (agePeer s i).engine.transfer = s.engine.transfer
      ∧ (agePeer s i).engine.lastStatus = s.engine.lastStatus ∧ (agePeer s i).evid.fence = s.evid.fence
      ∧ (agePeer s i).evid.boundary = s.evid.boundary := by
  simp only [agePeer]; split <;> simp

theorem foldl_judgePeer_keeps (c : Int) (x : List PeerSource) (s : State) :
    (x.foldl (judgePeer c) s).pending = s.pending ∧ (x.foldl (judgePeer c) s).osc = s.osc
      ∧ (x.foldl (judgePeer c) s).fresh = s.fresh ∧ (x.foldl (judgePeer c) s).phase = s.phase
      ∧ (x.foldl (judgePeer c) s).cfg = s.cfg ∧ (x.foldl (judgePeer c) s).clock = s.clock
      ∧ (x.foldl (judgePeer c) s).link = s.link ∧ (x.foldl (judgePeer c) s).ref = s.ref
      ∧ (x.foldl (judgePeer c) s).steer = s.steer ∧ (x.foldl (judgePeer c) s).stamp = s.stamp
      ∧ (x.foldl (judgePeer c) s).entries = s.entries ∧ (x.foldl (judgePeer c) s).card = s.card
      ∧ (x.foldl (judgePeer c) s).port.transaction = s.port.transaction
      ∧ (x.foldl (judgePeer c) s).port.loaded = s.port.loaded ∧ (x.foldl (judgePeer c) s).port.enables = s.port.enables
      ∧ (x.foldl (judgePeer c) s).port.selfTest = s.port.selfTest
      ∧ (x.foldl (judgePeer c) s).engine.index = s.engine.index ∧ (x.foldl (judgePeer c) s).engine.copy = s.engine.copy
     ∧ (x.foldl (judgePeer c) s).engine.transfer = s.engine.transfer
      ∧ (x.foldl (judgePeer c) s).engine.lastStatus = s.engine.lastStatus
      ∧ (x.foldl (judgePeer c) s).evid.fence = s.evid.fence ∧ (x.foldl (judgePeer c) s).evid.boundary = s.evid.boundary := by
  induction x generalizing s with
  | nil => simp
  | cons x xs ih => simp only [List.foldl_cons, ih]; simp

theorem foldl_agePeer_keeps (x : List Nat) (s : State) :
    (x.foldl agePeer s).pending = s.pending ∧ (x.foldl agePeer s).osc = s.osc ∧ (x.foldl agePeer s).fresh = s.fresh
      ∧ (x.foldl agePeer s).phase = s.phase ∧ (x.foldl agePeer s).cfg = s.cfg ∧ (x.foldl agePeer s).clock = s.clock
      ∧ (x.foldl agePeer s).link = s.link ∧ (x.foldl agePeer s).ref = s.ref ∧ (x.foldl agePeer s).steer = s.steer
      ∧ (x.foldl agePeer s).stamp = s.stamp ∧ (x.foldl agePeer s).entries = s.entries
      ∧ (x.foldl agePeer s).card = s.card ∧ (x.foldl agePeer s).port.transaction = s.port.transaction
      ∧ (x.foldl agePeer s).port.loaded = s.port.loaded ∧ (x.foldl agePeer s).port.enables = s.port.enables
      ∧ (x.foldl agePeer s).port.selfTest = s.port.selfTest ∧ (x.foldl agePeer s).engine.index = s.engine.index
      ∧ (x.foldl agePeer s).engine.copy = s.engine.copy
     ∧ (x.foldl agePeer s).engine.transfer = s.engine.transfer ∧ (x.foldl agePeer s).engine.lastStatus = s.engine.lastStatus
      ∧ (x.foldl agePeer s).evid.fence = s.evid.fence ∧ (x.foldl agePeer s).evid.boundary = s.evid.boundary := by
  induction x generalizing s with
  | nil => simp
  | cons x xs ih => simp only [List.foldl_cons, ih]; simp

@[simp] theorem peersAtInstant_keeps (x : List PeerSource) (c : Option Int) (s : State) :
    (peersAtInstant x c s).pending = s.pending ∧ (peersAtInstant x c s).osc = s.osc ∧ (peersAtInstant x c s).fresh = s.fresh
     ∧ (peersAtInstant x c s).phase = s.phase ∧ (peersAtInstant x c s).cfg = s.cfg ∧ (peersAtInstant x c s).clock = s.clock
     ∧ (peersAtInstant x c s).link = s.link ∧ (peersAtInstant x c s).ref = s.ref ∧ (peersAtInstant x c s).steer = s.steer
     ∧ (peersAtInstant x c s).stamp = s.stamp ∧ (peersAtInstant x c s).entries = s.entries
     ∧ (peersAtInstant x c s).card = s.card ∧ (peersAtInstant x c s).port.transaction = s.port.transaction
     ∧ (peersAtInstant x c s).port.loaded = s.port.loaded ∧ (peersAtInstant x c s).port.enables = s.port.enables
     ∧ (peersAtInstant x c s).port.selfTest = s.port.selfTest ∧ (peersAtInstant x c s).engine.index = s.engine.index
     ∧ (peersAtInstant x c s).engine.copy = s.engine.copy
     ∧ (peersAtInstant x c s).engine.transfer = s.engine.transfer ∧ (peersAtInstant x c s).engine.lastStatus = s.engine.lastStatus
     ∧ (peersAtInstant x c s).evid.fence = s.evid.fence ∧ (peersAtInstant x c s).evid.boundary = s.evid.boundary := by
  cases c <;> simp only [peersAtInstant, foldl_agePeer_keeps, foldl_judgePeer_keeps] <;> simp

@[simp] theorem judgeReference_keeps (r : Reference) (c : Int) (s : State) :
    (judgeReference r c s).pending = s.pending ∧ (judgeReference r c s).osc = s.osc ∧ (judgeReference r c s).fresh = s.fresh
     ∧ (judgeReference r c s).phase = s.phase ∧ (judgeReference r c s).cfg = s.cfg ∧ (judgeReference r c s).clock = s.clock
     ∧ (judgeReference r c s).link = s.link ∧ (judgeReference r c s).peers = s.peers
     ∧ (judgeReference r c s).entries = s.entries ∧ (judgeReference r c s).card = s.card
     ∧ (judgeReference r c s).port.transaction = s.port.transaction ∧ (judgeReference r c s).port.loaded = s.port.loaded
     ∧ (judgeReference r c s).port.enables = s.port.enables ∧ (judgeReference r c s).port.selfTest = s.port.selfTest
     ∧ (judgeReference r c s).engine.index = s.engine.index ∧ (judgeReference r c s).engine.copy = s.engine.copy
     ∧ (judgeReference r c s).engine.transfer = s.engine.transfer
     ∧ (judgeReference r c s).engine.lastStatus = s.engine.lastStatus ∧ (judgeReference r c s).evid.fence = s.evid.fence
     ∧ (judgeReference r c s).evid.boundary = s.evid.boundary ∧ (judgeReference r c s).steer.state = s.steer.state
     ∧ (judgeReference r c s).steer.rf = s.steer.rf ∧ (judgeReference r c s).steer.rp = s.steer.rp
     ∧ (judgeReference r c s).steer.holdover = s.steer.holdover
     ∧ (judgeReference r c s).steer.incomplete = s.steer.incomplete
     ∧ (judgeReference r c s).steer.rateLimit = s.steer.rateLimit
     ∧ (judgeReference r c s).steer.stepDeferred = s.steer.stepDeferred
     ∧ (judgeReference r c s).steer.lockRun = s.steer.lockRun ∧ (judgeReference r c s).steer.unlockRun = s.steer.unlockRun
     ∧ (judgeReference r c s).steer.bound = s.steer.bound ∧ (judgeReference r c s).steer.latest = s.steer.latest
     ∧ (judgeReference r c s).steer.series = s.steer.series ∧ (judgeReference r c s).stamp.requests = s.stamp.requests
     ∧ (judgeReference r c s).stamp.responses = s.stamp.responses ∧ (judgeReference r c s).stamp.captures = s.stamp.captures
     ∧ (judgeReference r c s).stamp.overflow = s.stamp.overflow ∧ (judgeReference r c s).stamp.nextSeq = s.stamp.nextSeq
     ∧ (judgeReference r c s).stamp.floor = s.stamp.floor ∧ (judgeReference r c s).stamp.floorSeq = s.stamp.floorSeq
     ∧ (judgeReference r c s).stamp.batch = s.stamp.batch := by
  simp only [judgeReference]; split <;> [split; split; skip] <;> simp

@[simp] theorem judgeAll_keeps (x : List PeerSource) (r : Reference) (c : Option Int) (s : State) :
    (judgeAll x r c s).pending = s.pending ∧ (judgeAll x r c s).osc = s.osc ∧ (judgeAll x r c s).fresh = s.fresh
     ∧ (judgeAll x r c s).phase = s.phase ∧ (judgeAll x r c s).cfg = s.cfg ∧ (judgeAll x r c s).clock = s.clock
     ∧ (judgeAll x r c s).link = s.link ∧ (judgeAll x r c s).entries = s.entries ∧ (judgeAll x r c s).card = s.card
     ∧ (judgeAll x r c s).port.transaction = s.port.transaction ∧ (judgeAll x r c s).port.loaded = s.port.loaded
     ∧ (judgeAll x r c s).port.enables = s.port.enables ∧ (judgeAll x r c s).port.selfTest = s.port.selfTest
     ∧ (judgeAll x r c s).engine.index = s.engine.index ∧ (judgeAll x r c s).engine.copy = s.engine.copy
     ∧ (judgeAll x r c s).engine.transfer = s.engine.transfer
     ∧ (judgeAll x r c s).engine.lastStatus = s.engine.lastStatus ∧ (judgeAll x r c s).evid.fence = s.evid.fence
     ∧ (judgeAll x r c s).evid.boundary = s.evid.boundary ∧ (judgeAll x r c s).steer.state = s.steer.state
     ∧ (judgeAll x r c s).steer.rf = s.steer.rf ∧ (judgeAll x r c s).steer.rp = s.steer.rp
     ∧ (judgeAll x r c s).steer.holdover = s.steer.holdover ∧ (judgeAll x r c s).steer.incomplete = s.steer.incomplete
     ∧ (judgeAll x r c s).steer.rateLimit = s.steer.rateLimit ∧ (judgeAll x r c s).steer.stepDeferred = s.steer.stepDeferred
     ∧ (judgeAll x r c s).steer.lockRun = s.steer.lockRun ∧ (judgeAll x r c s).steer.unlockRun = s.steer.unlockRun
     ∧ (judgeAll x r c s).steer.bound = s.steer.bound ∧ (judgeAll x r c s).steer.latest = s.steer.latest
     ∧ (judgeAll x r c s).steer.series = s.steer.series ∧ (judgeAll x r c s).stamp.requests = s.stamp.requests
     ∧ (judgeAll x r c s).stamp.responses = s.stamp.responses ∧ (judgeAll x r c s).stamp.captures = s.stamp.captures
     ∧ (judgeAll x r c s).stamp.overflow = s.stamp.overflow ∧ (judgeAll x r c s).stamp.nextSeq = s.stamp.nextSeq
     ∧ (judgeAll x r c s).stamp.floor = s.stamp.floor ∧ (judgeAll x r c s).stamp.floorSeq = s.stamp.floorSeq
     ∧ (judgeAll x r c s).stamp.batch = s.stamp.batch := by
  cases c <;> simp [judgeAll]

theorem formGrade_shape (x : Combination) (s : State) :
    formGrade x s = s ∨ ∃ u g c, formGrade x s = changeGrade g c { s with steer.bound := u } := by
  unfold formGrade
  by_cases h : s.steer.state = .cold
  · exact .inl (if_pos h)
  · rw [if_neg h]
    cases x.cstar with
    | some g => exact .inr ⟨_, _, _, rfl⟩
    | none => exact .inr ⟨_, _, _, rfl⟩

@[simp] theorem formGrade_keeps (x : Combination) (s : State) :
    (formGrade x s).pending = s.pending ∧ (formGrade x s).osc = s.osc ∧ (formGrade x s).fresh = s.fresh
     ∧ (formGrade x s).phase = s.phase ∧ (formGrade x s).cfg = s.cfg ∧ (formGrade x s).clock = s.clock
     ∧ (formGrade x s).link = s.link ∧ (formGrade x s).peers = s.peers ∧ (formGrade x s).ref = s.ref
     ∧ (formGrade x s).entries = s.entries ∧ (formGrade x s).card = s.card
     ∧ (formGrade x s).port.transaction = s.port.transaction ∧ (formGrade x s).port.loaded = s.port.loaded
     ∧ (formGrade x s).port.enables = s.port.enables ∧ (formGrade x s).port.selfTest = s.port.selfTest
     ∧ (formGrade x s).engine.index = s.engine.index ∧ (formGrade x s).engine.copy = s.engine.copy
     ∧ (formGrade x s).engine.transfer = s.engine.transfer
     ∧ (formGrade x s).engine.lastStatus = s.engine.lastStatus ∧ (formGrade x s).evid.fence = s.evid.fence
     ∧ (formGrade x s).evid.boundary = s.evid.boundary ∧ (formGrade x s).steer.state = s.steer.state
     ∧ (formGrade x s).steer.rf = s.steer.rf ∧ (formGrade x s).steer.rp = s.steer.rp
     ∧ (formGrade x s).steer.holdover = s.steer.holdover ∧ (formGrade x s).steer.incomplete = s.steer.incomplete
     ∧ (formGrade x s).steer.rateLimit = s.steer.rateLimit ∧ (formGrade x s).steer.stepDeferred = s.steer.stepDeferred
     ∧ (formGrade x s).steer.lockRun = s.steer.lockRun ∧ (formGrade x s).steer.unlockRun = s.steer.unlockRun
     ∧ (formGrade x s).steer.latest = s.steer.latest ∧ (formGrade x s).steer.series = s.steer.series
     ∧ (formGrade x s).stamp.requests = s.stamp.requests ∧ (formGrade x s).stamp.responses = s.stamp.responses
     ∧ (formGrade x s).stamp.captures = s.stamp.captures ∧ (formGrade x s).stamp.overflow = s.stamp.overflow
     ∧ (formGrade x s).stamp.nextSeq = s.stamp.nextSeq ∧ (formGrade x s).stamp.floor = s.stamp.floor
     ∧ (formGrade x s).stamp.floorSeq = s.stamp.floorSeq ∧ (formGrade x s).stamp.batch = s.stamp.batch := by
  obtain h | ⟨u, g, c, h⟩ := formGrade_shape x s <;> rw [h] <;> simp

@[simp] theorem setKind_keeps (k : OutcomeKind) (s : State) :
    (setKind k s).pending = s.pending ∧ (setKind k s).osc = s.osc ∧ (setKind k s).fresh = s.fresh
     ∧ (setKind k s).phase = s.phase ∧ (setKind k s).cfg = s.cfg ∧ (setKind k s).port = s.port
     ∧ (setKind k s).clock = s.clock ∧ (setKind k s).link = s.link ∧ (setKind k s).peers = s.peers
     ∧ (setKind k s).ref = s.ref ∧ (setKind k s).stamp = s.stamp ∧ (setKind k s).entries = s.entries
     ∧ (setKind k s).evid = s.evid ∧ (setKind k s).engine = s.engine ∧ (setKind k s).card = s.card
     ∧ (setKind k s).steer.state = s.steer.state ∧ (setKind k s).steer.rf = s.steer.rf ∧ (setKind k s).steer.rp = s.steer.rp
     ∧ (setKind k s).steer.holdover = s.steer.holdover ∧ (setKind k s).steer.incomplete = s.steer.incomplete
     ∧ (setKind k s).steer.rateLimit = s.steer.rateLimit ∧ (setKind k s).steer.stepDeferred = s.steer.stepDeferred
     ∧ (setKind k s).steer.lockRun = s.steer.lockRun ∧ (setKind k s).steer.unlockRun = s.steer.unlockRun
     ∧ (setKind k s).steer.bound = s.steer.bound ∧ (setKind k s).steer.series = s.steer.series
     ∧ (setKind k s).steer.grade = s.steer.grade := by simp [setKind]

@[simp] theorem slew_keeps (c : Int) (s : State) :
    (slew c s).pending = s.pending ∧ (slew c s).osc = s.osc ∧ (slew c s).fresh = s.fresh ∧ (slew c s).phase = s.phase
     ∧ (slew c s).cfg = s.cfg ∧ (slew c s).port = s.port ∧ (slew c s).link = s.link ∧ (slew c s).peers = s.peers
     ∧ (slew c s).ref = s.ref ∧ (slew c s).stamp = s.stamp ∧ (slew c s).entries = s.entries ∧ (slew c s).evid = s.evid
     ∧ (slew c s).engine = s.engine ∧ (slew c s).card = s.card ∧ (slew c s).clock.running = s.clock.running
     ∧ (slew c s).clock.present = s.clock.present ∧ (slew c s).clock.residue = s.clock.residue
     ∧ (slew c s).steer.state = s.steer.state ∧ (slew c s).steer.holdover = s.steer.holdover
     ∧ (slew c s).steer.stepDeferred = s.steer.stepDeferred ∧ (slew c s).steer.lockRun = s.steer.lockRun
     ∧ (slew c s).steer.unlockRun = s.steer.unlockRun ∧ (slew c s).steer.bound = s.steer.bound
     ∧ (slew c s).steer.grade = s.steer.grade ∧ (slew c s).steer.latest = s.steer.latest
     ∧ (slew c s).steer.series = s.steer.series := by simp [slew]

@[simp] theorem deferStep_keeps (c : Int) (s : State) :
    (deferStep c s).pending = s.pending ∧ (deferStep c s).osc = s.osc ∧ (deferStep c s).fresh = s.fresh
     ∧ (deferStep c s).phase = s.phase ∧ (deferStep c s).cfg = s.cfg ∧ (deferStep c s).link = s.link
     ∧ (deferStep c s).peers = s.peers ∧ (deferStep c s).ref = s.ref ∧ (deferStep c s).stamp = s.stamp
     ∧ (deferStep c s).entries = s.entries ∧ (deferStep c s).card = s.card
     ∧ (deferStep c s).port.transaction = s.port.transaction ∧ (deferStep c s).port.loaded = s.port.loaded
     ∧ (deferStep c s).port.enables = s.port.enables ∧ (deferStep c s).port.selfTest = s.port.selfTest
     ∧ (deferStep c s).engine.index = s.engine.index ∧ (deferStep c s).engine.copy = s.engine.copy
     ∧ (deferStep c s).engine.transfer = s.engine.transfer
     ∧ (deferStep c s).engine.lastStatus = s.engine.lastStatus ∧ (deferStep c s).evid.fence = s.evid.fence
     ∧ (deferStep c s).evid.boundary = s.evid.boundary ∧ (deferStep c s).clock.running = s.clock.running
     ∧ (deferStep c s).clock.present = s.clock.present ∧ (deferStep c s).clock.residue = s.clock.residue
     ∧ (deferStep c s).steer.state = s.steer.state ∧ (deferStep c s).steer.holdover = s.steer.holdover
     ∧ (deferStep c s).steer.lockRun = s.steer.lockRun ∧ (deferStep c s).steer.unlockRun = s.steer.unlockRun
     ∧ (deferStep c s).steer.bound = s.steer.bound ∧ (deferStep c s).steer.grade = s.steer.grade
     ∧ (deferStep c s).steer.series = s.steer.series := by
  simp only [deferStep]; split <;> simp

@[simp] theorem applyMoved_keeps (c : Int) (s : State) :
    (applyMoved c s).pending = s.pending ∧ (applyMoved c s).osc = s.osc ∧ (applyMoved c s).fresh = s.fresh
     ∧ (applyMoved c s).phase = s.phase ∧ (applyMoved c s).cfg = s.cfg ∧ (applyMoved c s).stamp = s.stamp
     ∧ (applyMoved c s).entries = s.entries ∧ (applyMoved c s).card = s.card
     ∧ (applyMoved c s).port.transaction = s.port.transaction ∧ (applyMoved c s).port.loaded = s.port.loaded
     ∧ (applyMoved c s).port.enables = s.port.enables ∧ (applyMoved c s).port.selfTest = s.port.selfTest
     ∧ (applyMoved c s).engine.index = s.engine.index ∧ (applyMoved c s).engine.copy = s.engine.copy
     ∧ (applyMoved c s).engine.transfer = s.engine.transfer
     ∧ (applyMoved c s).engine.lastStatus = s.engine.lastStatus ∧ (applyMoved c s).evid.fence = s.evid.fence
     ∧ (applyMoved c s).evid.boundary = s.evid.boundary := by
  simp only [applyMoved]; split
  · split <;> simp
  · simp

@[simp] theorem applyCold_keeps (c : Int) (s : State) :
    (applyCold c s).pending = s.pending ∧ (applyCold c s).osc = s.osc ∧ (applyCold c s).fresh = s.fresh
     ∧ (applyCold c s).phase = s.phase ∧ (applyCold c s).cfg = s.cfg ∧ (applyCold c s).stamp = s.stamp
     ∧ (applyCold c s).entries = s.entries ∧ (applyCold c s).card = s.card
     ∧ (applyCold c s).port.transaction = s.port.transaction ∧ (applyCold c s).port.loaded = s.port.loaded
     ∧ (applyCold c s).port.enables = s.port.enables ∧ (applyCold c s).port.selfTest = s.port.selfTest
     ∧ (applyCold c s).engine.index = s.engine.index ∧ (applyCold c s).engine.copy = s.engine.copy
     ∧ (applyCold c s).engine.transfer = s.engine.transfer
     ∧ (applyCold c s).engine.lastStatus = s.engine.lastStatus ∧ (applyCold c s).evid.fence = s.evid.fence
     ∧ (applyCold c s).evid.boundary = s.evid.boundary := by
  simp only [applyCold]; split <;> simp

@[simp] theorem applyCombination_keeps (c : Int) (s : State) :
    (applyCombination c s).pending = s.pending ∧ (applyCombination c s).osc = s.osc ∧ (applyCombination c s).fresh = s.fresh
     ∧ (applyCombination c s).phase = s.phase ∧ (applyCombination c s).cfg = s.cfg ∧ (applyCombination c s).stamp = s.stamp
     ∧ (applyCombination c s).entries = s.entries ∧ (applyCombination c s).card = s.card
     ∧ (applyCombination c s).port.transaction = s.port.transaction ∧ (applyCombination c s).port.loaded = s.port.loaded
     ∧ (applyCombination c s).port.enables = s.port.enables ∧ (applyCombination c s).port.selfTest = s.port.selfTest
     ∧ (applyCombination c s).engine.index = s.engine.index ∧ (applyCombination c s).engine.copy = s.engine.copy
     ∧ (applyCombination c s).engine.transfer = s.engine.transfer
     ∧ (applyCombination c s).engine.lastStatus = s.engine.lastStatus ∧ (applyCombination c s).evid.fence = s.evid.fence
     ∧ (applyCombination c s).evid.boundary = s.evid.boundary := by
  simp only [applyCombination]; split <;> simp

@[simp] theorem enterHoldover_keeps (s : State) :
    (enterHoldover s).pending = s.pending ∧ (enterHoldover s).osc = s.osc ∧ (enterHoldover s).fresh = s.fresh
     ∧ (enterHoldover s).phase = s.phase ∧ (enterHoldover s).cfg = s.cfg ∧ (enterHoldover s).port = s.port
     ∧ (enterHoldover s).link = s.link ∧ (enterHoldover s).peers = s.peers ∧ (enterHoldover s).ref = s.ref
     ∧ (enterHoldover s).stamp = s.stamp ∧ (enterHoldover s).entries = s.entries ∧ (enterHoldover s).evid = s.evid
     ∧ (enterHoldover s).engine = s.engine ∧ (enterHoldover s).card = s.card
     ∧ (enterHoldover s).clock.running = s.clock.running ∧ (enterHoldover s).clock.present = s.clock.present
     ∧ (enterHoldover s).clock.residue = s.clock.residue ∧ (enterHoldover s).steer.holdover = s.steer.holdover
     ∧ (enterHoldover s).steer.stepDeferred = s.steer.stepDeferred ∧ (enterHoldover s).steer.bound = s.steer.bound
     ∧ (enterHoldover s).steer.grade = s.steer.grade ∧ (enterHoldover s).steer.latest = s.steer.latest
     ∧ (enterHoldover s).steer.series = s.steer.series := by simp [enterHoldover]

@[simp] theorem applyNone_keeps (s : State) :
    (applyNone s).pending = s.pending ∧ (applyNone s).osc = s.osc ∧ (applyNone s).fresh = s.fresh
     ∧ (applyNone s).phase = s.phase ∧ (applyNone s).cfg = s.cfg ∧ (applyNone s).port = s.port ∧ (applyNone s).link = s.link
     ∧ (applyNone s).peers = s.peers ∧ (applyNone s).ref = s.ref ∧ (applyNone s).stamp = s.stamp
     ∧ (applyNone s).entries = s.entries ∧ (applyNone s).evid = s.evid ∧ (applyNone s).engine = s.engine
     ∧ (applyNone s).card = s.card ∧ (applyNone s).clock.running = s.clock.running
     ∧ (applyNone s).clock.present = s.clock.present ∧ (applyNone s).clock.residue = s.clock.residue
     ∧ (applyNone s).steer.holdover = s.steer.holdover ∧ (applyNone s).steer.stepDeferred = s.steer.stepDeferred
     ∧ (applyNone s).steer.bound = s.steer.bound ∧ (applyNone s).steer.grade = s.steer.grade
     ∧ (applyNone s).steer.latest = s.steer.latest ∧ (applyNone s).steer.series = s.steer.series := by
  simp only [applyNone]; split <;> simp

@[simp] theorem applyOutcome_keeps (c : Option Int) (s : State) :
    (applyOutcome c s).pending = s.pending ∧ (applyOutcome c s).osc = s.osc ∧ (applyOutcome c s).fresh = s.fresh
     ∧ (applyOutcome c s).phase = s.phase ∧ (applyOutcome c s).cfg = s.cfg ∧ (applyOutcome c s).stamp = s.stamp
     ∧ (applyOutcome c s).entries = s.entries ∧ (applyOutcome c s).card = s.card
     ∧ (applyOutcome c s).port.transaction = s.port.transaction ∧ (applyOutcome c s).port.loaded = s.port.loaded
     ∧ (applyOutcome c s).port.enables = s.port.enables ∧ (applyOutcome c s).port.selfTest = s.port.selfTest
     ∧ (applyOutcome c s).engine.index = s.engine.index ∧ (applyOutcome c s).engine.copy = s.engine.copy
     ∧ (applyOutcome c s).engine.transfer = s.engine.transfer
     ∧ (applyOutcome c s).engine.lastStatus = s.engine.lastStatus ∧ (applyOutcome c s).evid.fence = s.evid.fence
     ∧ (applyOutcome c s).evid.boundary = s.evid.boundary := by
  cases c <;> simp [applyOutcome]

@[simp] theorem recordSync_keeps (s : State) :
    (recordSync s).pending = s.pending ∧ (recordSync s).osc = s.osc ∧ (recordSync s).fresh = s.fresh
     ∧ (recordSync s).phase = s.phase ∧ (recordSync s).cfg = s.cfg ∧ (recordSync s).clock = s.clock
     ∧ (recordSync s).link = s.link ∧ (recordSync s).peers = s.peers ∧ (recordSync s).ref = s.ref
     ∧ (recordSync s).steer = s.steer ∧ (recordSync s).stamp = s.stamp ∧ (recordSync s).entries = s.entries
     ∧ (recordSync s).card = s.card ∧ (recordSync s).port.transaction = s.port.transaction
     ∧ (recordSync s).port.loaded = s.port.loaded ∧ (recordSync s).port.enables = s.port.enables
     ∧ (recordSync s).port.selfTest = s.port.selfTest ∧ (recordSync s).engine.index = s.engine.index
     ∧ (recordSync s).engine.copy = s.engine.copy
     ∧ (recordSync s).engine.transfer = s.engine.transfer ∧ (recordSync s).engine.lastStatus = s.engine.lastStatus
     ∧ (recordSync s).evid.fence = s.evid.fence ∧ (recordSync s).evid.boundary = s.evid.boundary := by
  simp only [recordSync]; split <;> simp

@[simp] theorem takeCheckpoint_keeps (c : CheckpointCause) (s : State) :
    (takeCheckpoint c s).pending = s.pending ∧ (takeCheckpoint c s).osc = s.osc ∧ (takeCheckpoint c s).fresh = s.fresh
     ∧ (takeCheckpoint c s).phase = s.phase ∧ (takeCheckpoint c s).cfg = s.cfg ∧ (takeCheckpoint c s).clock = s.clock
     ∧ (takeCheckpoint c s).link = s.link ∧ (takeCheckpoint c s).peers = s.peers ∧ (takeCheckpoint c s).ref = s.ref
     ∧ (takeCheckpoint c s).steer = s.steer ∧ (takeCheckpoint c s).stamp = s.stamp
     ∧ (takeCheckpoint c s).entries = s.entries ∧ (takeCheckpoint c s).card = s.card
     ∧ (takeCheckpoint c s).port.transaction = s.port.transaction ∧ (takeCheckpoint c s).port.loaded = s.port.loaded
     ∧ (takeCheckpoint c s).port.enables = s.port.enables ∧ (takeCheckpoint c s).port.selfTest = s.port.selfTest
     ∧ (takeCheckpoint c s).engine.index = s.engine.index ∧ (takeCheckpoint c s).engine.copy = s.engine.copy
     ∧ (takeCheckpoint c s).engine.transfer = s.engine.transfer
     ∧ (takeCheckpoint c s).engine.lastStatus = s.engine.lastStatus ∧ (takeCheckpoint c s).evid.fence = s.evid.fence
     ∧ (takeCheckpoint c s).evid.boundary = s.evid.boundary := by simp [takeCheckpoint]

@[simp] theorem periodicCheckpoint_keeps (s : State) :
    (periodicCheckpoint s).pending = s.pending ∧ (periodicCheckpoint s).osc = s.osc ∧ (periodicCheckpoint s).fresh = s.fresh
     ∧ (periodicCheckpoint s).phase = s.phase ∧ (periodicCheckpoint s).cfg = s.cfg ∧ (periodicCheckpoint s).clock = s.clock
     ∧ (periodicCheckpoint s).link = s.link ∧ (periodicCheckpoint s).peers = s.peers ∧ (periodicCheckpoint s).ref = s.ref
     ∧ (periodicCheckpoint s).steer = s.steer ∧ (periodicCheckpoint s).stamp = s.stamp
     ∧ (periodicCheckpoint s).entries = s.entries ∧ (periodicCheckpoint s).card = s.card
     ∧ (periodicCheckpoint s).port.transaction = s.port.transaction ∧ (periodicCheckpoint s).port.loaded = s.port.loaded
     ∧ (periodicCheckpoint s).port.enables = s.port.enables ∧ (periodicCheckpoint s).port.selfTest = s.port.selfTest
     ∧ (periodicCheckpoint s).engine.index = s.engine.index ∧ (periodicCheckpoint s).engine.copy = s.engine.copy
     ∧ (periodicCheckpoint s).engine.transfer = s.engine.transfer
     ∧ (periodicCheckpoint s).engine.lastStatus = s.engine.lastStatus
      ∧ (periodicCheckpoint s).evid.fence = s.evid.fence := by
  simp only [periodicCheckpoint]; split
  · simp
  · split <;> simp

@[simp] theorem steeringInstant_keeps (s : State) :
    (steeringInstant s).pending = s.pending ∧ (steeringInstant s).osc = s.osc ∧ (steeringInstant s).phase = s.phase
     ∧ (steeringInstant s).cfg = s.cfg ∧ (steeringInstant s).entries = s.entries ∧ (steeringInstant s).card = s.card
     ∧ (steeringInstant s).port.transaction = s.port.transaction ∧ (steeringInstant s).port.loaded = s.port.loaded
     ∧ (steeringInstant s).port.enables = s.port.enables ∧ (steeringInstant s).port.selfTest = s.port.selfTest
     ∧ (steeringInstant s).engine.index = s.engine.index ∧ (steeringInstant s).engine.copy = s.engine.copy
     ∧ (steeringInstant s).engine.transfer = s.engine.transfer
     ∧ (steeringInstant s).engine.lastStatus = s.engine.lastStatus ∧ (steeringInstant s).evid.fence = s.evid.fence
     ∧ (steeringInstant s).stamp.requests = s.stamp.requests ∧ (steeringInstant s).stamp.responses = s.stamp.responses
     ∧ (steeringInstant s).stamp.captures = s.stamp.captures ∧ (steeringInstant s).stamp.overflow = s.stamp.overflow
     ∧ (steeringInstant s).stamp.nextSeq = s.stamp.nextSeq ∧ (steeringInstant s).stamp.floor = s.stamp.floor
     ∧ (steeringInstant s).stamp.floorSeq = s.stamp.floorSeq
      ∧ (steeringInstant s).stamp.batch = s.stamp.batch := by simp [steeringInstant]

/-! ### Edges and frames -/

@[simp] theorem qualificationReport_keeps (t : Int) (s : State) :
    (qualificationReport t s).pending = s.pending ∧ (qualificationReport t s).osc = s.osc
     ∧ (qualificationReport t s).fresh = s.fresh ∧ (qualificationReport t s).phase = s.phase
     ∧ (qualificationReport t s).cfg = s.cfg ∧ (qualificationReport t s).stamp = s.stamp
     ∧ (qualificationReport t s).entries = s.entries ∧ (qualificationReport t s).card = s.card
     ∧ (qualificationReport t s).port.transaction = s.port.transaction
     ∧ (qualificationReport t s).port.loaded = s.port.loaded ∧ (qualificationReport t s).port.enables = s.port.enables
     ∧ (qualificationReport t s).port.selfTest = s.port.selfTest ∧ (qualificationReport t s).engine.index = s.engine.index
     ∧ (qualificationReport t s).engine.copy = s.engine.copy
     ∧ (qualificationReport t s).engine.transfer = s.engine.transfer
     ∧ (qualificationReport t s).engine.lastStatus = s.engine.lastStatus
     ∧ (qualificationReport t s).evid.fence = s.evid.fence ∧ (qualificationReport t s).evid.boundary = s.evid.boundary := by
  simp only [qualificationReport]; split <;> simp

@[simp] theorem goodEdge_keeps (n : Nat) (s : State) :
    (goodEdge n s).pending = s.pending ∧ (goodEdge n s).osc = s.osc ∧ (goodEdge n s).fresh = s.fresh
     ∧ (goodEdge n s).phase = s.phase ∧ (goodEdge n s).cfg = s.cfg ∧ (goodEdge n s).stamp = s.stamp
     ∧ (goodEdge n s).entries = s.entries ∧ (goodEdge n s).card = s.card
     ∧ (goodEdge n s).port.transaction = s.port.transaction ∧ (goodEdge n s).port.loaded = s.port.loaded
     ∧ (goodEdge n s).port.enables = s.port.enables ∧ (goodEdge n s).port.selfTest = s.port.selfTest
     ∧ (goodEdge n s).engine.index = s.engine.index ∧ (goodEdge n s).engine.copy = s.engine.copy
     ∧ (goodEdge n s).engine.transfer = s.engine.transfer
     ∧ (goodEdge n s).engine.lastStatus = s.engine.lastStatus ∧ (goodEdge n s).evid.fence = s.evid.fence
     ∧ (goodEdge n s).evid.boundary = s.evid.boundary := by
  simp only [goodEdge]; split <;> simp

@[simp] theorem badEdge_keeps (v : Verdict) (s : State) :
    (badEdge v s).pending = s.pending ∧ (badEdge v s).osc = s.osc ∧ (badEdge v s).fresh = s.fresh
     ∧ (badEdge v s).phase = s.phase ∧ (badEdge v s).cfg = s.cfg ∧ (badEdge v s).clock = s.clock
     ∧ (badEdge v s).link = s.link ∧ (badEdge v s).peers = s.peers ∧ (badEdge v s).entries = s.entries
     ∧ (badEdge v s).card = s.card ∧ (badEdge v s).port.transaction = s.port.transaction
     ∧ (badEdge v s).port.loaded = s.port.loaded ∧ (badEdge v s).port.enables = s.port.enables
     ∧ (badEdge v s).port.selfTest = s.port.selfTest ∧ (badEdge v s).engine.index = s.engine.index
     ∧ (badEdge v s).engine.copy = s.engine.copy
     ∧ (badEdge v s).engine.transfer = s.engine.transfer ∧ (badEdge v s).engine.lastStatus = s.engine.lastStatus
     ∧ (badEdge v s).evid.fence = s.evid.fence ∧ (badEdge v s).evid.boundary = s.evid.boundary
     ∧ (badEdge v s).steer.state = s.steer.state ∧ (badEdge v s).steer.rf = s.steer.rf ∧ (badEdge v s).steer.rp = s.steer.rp
     ∧ (badEdge v s).steer.holdover = s.steer.holdover ∧ (badEdge v s).steer.incomplete = s.steer.incomplete
     ∧ (badEdge v s).steer.rateLimit = s.steer.rateLimit ∧ (badEdge v s).steer.stepDeferred = s.steer.stepDeferred
     ∧ (badEdge v s).steer.lockRun = s.steer.lockRun ∧ (badEdge v s).steer.unlockRun = s.steer.unlockRun
     ∧ (badEdge v s).steer.bound = s.steer.bound ∧ (badEdge v s).steer.latest = s.steer.latest
     ∧ (badEdge v s).steer.series = s.steer.series ∧ (badEdge v s).stamp.requests = s.stamp.requests
     ∧ (badEdge v s).stamp.responses = s.stamp.responses ∧ (badEdge v s).stamp.captures = s.stamp.captures
     ∧ (badEdge v s).stamp.overflow = s.stamp.overflow ∧ (badEdge v s).stamp.nextSeq = s.stamp.nextSeq
     ∧ (badEdge v s).stamp.floor = s.stamp.floor ∧ (badEdge v s).stamp.floorSeq = s.stamp.floorSeq
     ∧ (badEdge v s).stamp.batch = s.stamp.batch := by
  simp only [badEdge]; split <;> simp

@[simp] theorem departFrame_keeps (s : State) :
    (departFrame s).pending = s.pending ∧ (departFrame s).osc = s.osc ∧ (departFrame s).fresh = s.fresh
     ∧ (departFrame s).phase = s.phase ∧ (departFrame s).cfg = s.cfg ∧ (departFrame s).port = s.port
     ∧ (departFrame s).clock = s.clock ∧ (departFrame s).peers = s.peers ∧ (departFrame s).ref = s.ref
     ∧ (departFrame s).steer = s.steer ∧ (departFrame s).stamp = s.stamp ∧ (departFrame s).entries = s.entries
     ∧ (departFrame s).evid = s.evid ∧ (departFrame s).engine = s.engine ∧ (departFrame s).card = s.card := by
  simp only [departFrame]; split
  · simp
  · split <;> simp

@[simp] theorem acceptBeacon_keeps (b : Beacon) (t : Nat) (s : State) :
    (acceptBeacon b t s).pending = s.pending ∧ (acceptBeacon b t s).osc = s.osc ∧ (acceptBeacon b t s).fresh = s.fresh
     ∧ (acceptBeacon b t s).phase = s.phase ∧ (acceptBeacon b t s).cfg = s.cfg ∧ (acceptBeacon b t s).clock = s.clock
     ∧ (acceptBeacon b t s).ref = s.ref ∧ (acceptBeacon b t s).steer = s.steer ∧ (acceptBeacon b t s).stamp = s.stamp
     ∧ (acceptBeacon b t s).entries = s.entries ∧ (acceptBeacon b t s).card = s.card
     ∧ (acceptBeacon b t s).port.transaction = s.port.transaction ∧ (acceptBeacon b t s).port.loaded = s.port.loaded
     ∧ (acceptBeacon b t s).port.enables = s.port.enables ∧ (acceptBeacon b t s).port.selfTest = s.port.selfTest
     ∧ (acceptBeacon b t s).engine.index = s.engine.index ∧ (acceptBeacon b t s).engine.copy = s.engine.copy
     ∧ (acceptBeacon b t s).engine.transfer = s.engine.transfer
     ∧ (acceptBeacon b t s).engine.lastStatus = s.engine.lastStatus ∧ (acceptBeacon b t s).evid.fence = s.evid.fence
     ∧ (acceptBeacon b t s).evid.boundary = s.evid.boundary := by simp [acceptBeacon]

@[simp] theorem deliver_keeps (f : Frame) (t : Nat) (s : State) :
    (deliver f t s).pending = s.pending ∧ (deliver f t s).osc = s.osc ∧ (deliver f t s).fresh = s.fresh
     ∧ (deliver f t s).phase = s.phase ∧ (deliver f t s).cfg = s.cfg ∧ (deliver f t s).clock = s.clock
     ∧ (deliver f t s).ref = s.ref ∧ (deliver f t s).steer = s.steer ∧ (deliver f t s).stamp = s.stamp
     ∧ (deliver f t s).card = s.card ∧ (deliver f t s).port.transaction = s.port.transaction
     ∧ (deliver f t s).port.loaded = s.port.loaded ∧ (deliver f t s).port.enables = s.port.enables
     ∧ (deliver f t s).port.selfTest = s.port.selfTest ∧ (deliver f t s).engine.index = s.engine.index
     ∧ (deliver f t s).engine.copy = s.engine.copy
     ∧ (deliver f t s).engine.transfer = s.engine.transfer ∧ (deliver f t s).engine.lastStatus = s.engine.lastStatus
     ∧ (deliver f t s).evid.fence = s.evid.fence ∧ (deliver f t s).evid.boundary = s.evid.boundary := by
  cases f <;> simp [deliver]

@[simp] theorem conflict_keeps (f : Frame) (t : Nat) (s : State) :
    (conflict f t s).pending = s.pending ∧ (conflict f t s).osc = s.osc ∧ (conflict f t s).fresh = s.fresh
     ∧ (conflict f t s).phase = s.phase ∧ (conflict f t s).cfg = s.cfg ∧ (conflict f t s).clock = s.clock
     ∧ (conflict f t s).link = s.link ∧ (conflict f t s).peers = s.peers ∧ (conflict f t s).ref = s.ref
     ∧ (conflict f t s).steer = s.steer ∧ (conflict f t s).stamp = s.stamp ∧ (conflict f t s).entries = s.entries
     ∧ (conflict f t s).card = s.card ∧ (conflict f t s).port.transaction = s.port.transaction
     ∧ (conflict f t s).port.loaded = s.port.loaded ∧ (conflict f t s).port.enables = s.port.enables
     ∧ (conflict f t s).port.selfTest = s.port.selfTest ∧ (conflict f t s).engine.index = s.engine.index
     ∧ (conflict f t s).engine.copy = s.engine.copy
     ∧ (conflict f t s).engine.transfer = s.engine.transfer ∧ (conflict f t s).engine.lastStatus = s.engine.lastStatus
     ∧ (conflict f t s).evid.fence = s.evid.fence ∧ (conflict f t s).evid.boundary = s.evid.boundary := by
  cases f <;> simp [conflict]

@[simp] theorem countError_keeps (s : State) :
    (countError s).pending = s.pending ∧ (countError s).osc = s.osc ∧ (countError s).fresh = s.fresh
     ∧ (countError s).phase = s.phase ∧ (countError s).cfg = s.cfg ∧ (countError s).port = s.port
     ∧ (countError s).clock = s.clock ∧ (countError s).peers = s.peers ∧ (countError s).ref = s.ref
     ∧ (countError s).steer = s.steer ∧ (countError s).stamp = s.stamp ∧ (countError s).entries = s.entries
     ∧ (countError s).evid = s.evid ∧ (countError s).engine = s.engine ∧ (countError s).card = s.card := by simp [countError]

@[simp] theorem countForeign_keeps (s : State) :
    (countForeign s).pending = s.pending ∧ (countForeign s).osc = s.osc ∧ (countForeign s).fresh = s.fresh
     ∧ (countForeign s).phase = s.phase ∧ (countForeign s).cfg = s.cfg ∧ (countForeign s).port = s.port
     ∧ (countForeign s).clock = s.clock ∧ (countForeign s).peers = s.peers ∧ (countForeign s).ref = s.ref
     ∧ (countForeign s).steer = s.steer ∧ (countForeign s).stamp = s.stamp ∧ (countForeign s).entries = s.entries
     ∧ (countForeign s).evid = s.evid ∧ (countForeign s).engine = s.engine
      ∧ (countForeign s).card = s.card := by simp [countForeign]

@[simp] theorem checkFrame_keeps (x : Bytes) (d : Bool) (t : Nat) (s : State) :
    (checkFrame x d t s).pending = s.pending ∧ (checkFrame x d t s).osc = s.osc ∧ (checkFrame x d t s).fresh = s.fresh
     ∧ (checkFrame x d t s).phase = s.phase ∧ (checkFrame x d t s).cfg = s.cfg ∧ (checkFrame x d t s).clock = s.clock
     ∧ (checkFrame x d t s).ref = s.ref ∧ (checkFrame x d t s).steer = s.steer ∧ (checkFrame x d t s).stamp = s.stamp
     ∧ (checkFrame x d t s).card = s.card ∧ (checkFrame x d t s).port.transaction = s.port.transaction
     ∧ (checkFrame x d t s).port.loaded = s.port.loaded ∧ (checkFrame x d t s).port.enables = s.port.enables
     ∧ (checkFrame x d t s).port.selfTest = s.port.selfTest ∧ (checkFrame x d t s).engine.index = s.engine.index
     ∧ (checkFrame x d t s).engine.copy = s.engine.copy
     ∧ (checkFrame x d t s).engine.transfer = s.engine.transfer ∧ (checkFrame x d t s).engine.lastStatus = s.engine.lastStatus
     ∧ (checkFrame x d t s).evid.fence = s.evid.fence ∧ (checkFrame x d t s).evid.boundary = s.evid.boundary := by
  simp only [checkFrame]; split
  · simp
  · split
    · simp
    · split
      · simp
      · split <;> simp

/-! ### Export -/

@[simp] theorem enterFault_keeps (i : Option Nat) (st : CompletionStatus) (s : State) :
    (enterFault i st s).pending = s.pending ∧ (enterFault i st s).osc = s.osc ∧ (enterFault i st s).fresh = s.fresh
     ∧ (enterFault i st s).phase = s.phase ∧ (enterFault i st s).cfg = s.cfg ∧ (enterFault i st s).clock = s.clock
     ∧ (enterFault i st s).link = s.link ∧ (enterFault i st s).peers = s.peers ∧ (enterFault i st s).ref = s.ref
     ∧ (enterFault i st s).steer = s.steer ∧ (enterFault i st s).stamp = s.stamp ∧ (enterFault i st s).entries = s.entries
     ∧ (enterFault i st s).evid = s.evid ∧ (enterFault i st s).card = s.card
     ∧ (enterFault i st s).port.transaction = s.port.transaction ∧ (enterFault i st s).port.loaded = s.port.loaded
     ∧ (enterFault i st s).port.enables = s.port.enables
      ∧ (enterFault i st s).port.selfTest = s.port.selfTest := by simp [enterFault]

@[simp] theorem enterStalled_keeps (i : Nat) (s : State) :
    (enterStalled i s).pending = s.pending ∧ (enterStalled i s).osc = s.osc ∧ (enterStalled i s).fresh = s.fresh
     ∧ (enterStalled i s).phase = s.phase ∧ (enterStalled i s).cfg = s.cfg ∧ (enterStalled i s).clock = s.clock
     ∧ (enterStalled i s).link = s.link ∧ (enterStalled i s).peers = s.peers ∧ (enterStalled i s).ref = s.ref
     ∧ (enterStalled i s).steer = s.steer ∧ (enterStalled i s).stamp = s.stamp ∧ (enterStalled i s).entries = s.entries
     ∧ (enterStalled i s).evid = s.evid ∧ (enterStalled i s).card = s.card
     ∧ (enterStalled i s).port.transaction = s.port.transaction ∧ (enterStalled i s).port.loaded = s.port.loaded
     ∧ (enterStalled i s).port.enables = s.port.enables
      ∧ (enterStalled i s).port.selfTest = s.port.selfTest := by simp [enterStalled]

@[simp] theorem enterStopped_keeps (s : State) :
    (enterStopped s).pending = s.pending ∧ (enterStopped s).osc = s.osc ∧ (enterStopped s).fresh = s.fresh
     ∧ (enterStopped s).phase = s.phase ∧ (enterStopped s).cfg = s.cfg ∧ (enterStopped s).port = s.port
     ∧ (enterStopped s).clock = s.clock ∧ (enterStopped s).link = s.link ∧ (enterStopped s).peers = s.peers
     ∧ (enterStopped s).ref = s.ref ∧ (enterStopped s).steer = s.steer ∧ (enterStopped s).stamp = s.stamp
     ∧ (enterStopped s).entries = s.entries ∧ (enterStopped s).evid = s.evid
      ∧ (enterStopped s).card = s.card := by simp [enterStopped]

@[simp] theorem workFrom_keeps (d : Descriptor) (s : State) :
    (workFrom d s).pending = s.pending ∧ (workFrom d s).osc = s.osc ∧ (workFrom d s).fresh = s.fresh
     ∧ (workFrom d s).phase = s.phase ∧ (workFrom d s).cfg = s.cfg ∧ (workFrom d s).port = s.port
     ∧ (workFrom d s).clock = s.clock ∧ (workFrom d s).link = s.link ∧ (workFrom d s).peers = s.peers
     ∧ (workFrom d s).ref = s.ref ∧ (workFrom d s).steer = s.steer ∧ (workFrom d s).stamp = s.stamp
     ∧ (workFrom d s).entries = s.entries ∧ (workFrom d s).evid = s.evid ∧ (workFrom d s).card = s.card := by simp [workFrom]

@[simp] theorem writeCard_keeps (a : Nat) (x : Bytes) (e : Bool) (s : State) :
    (writeCard a x e s).pending = s.pending ∧ (writeCard a x e s).osc = s.osc ∧ (writeCard a x e s).fresh = s.fresh
     ∧ (writeCard a x e s).phase = s.phase ∧ (writeCard a x e s).cfg = s.cfg ∧ (writeCard a x e s).port = s.port
     ∧ (writeCard a x e s).clock = s.clock ∧ (writeCard a x e s).link = s.link ∧ (writeCard a x e s).peers = s.peers
     ∧ (writeCard a x e s).ref = s.ref ∧ (writeCard a x e s).steer = s.steer ∧ (writeCard a x e s).stamp = s.stamp
     ∧ (writeCard a x e s).entries = s.entries ∧ (writeCard a x e s).evid = s.evid
      ∧ (writeCard a x e s).engine = s.engine := by
  simp only [writeCard]; split <;> simp

@[simp] theorem hostFirst_keeps (c : CardInput) (s : State) :
    (hostFirst c s).pending = s.pending ∧ (hostFirst c s).osc = s.osc ∧ (hostFirst c s).fresh = s.fresh
     ∧ (hostFirst c s).phase = s.phase ∧ (hostFirst c s).cfg = s.cfg ∧ (hostFirst c s).port = s.port
     ∧ (hostFirst c s).clock = s.clock ∧ (hostFirst c s).link = s.link ∧ (hostFirst c s).peers = s.peers
     ∧ (hostFirst c s).ref = s.ref ∧ (hostFirst c s).steer = s.steer ∧ (hostFirst c s).stamp = s.stamp
     ∧ (hostFirst c s).entries = s.entries ∧ (hostFirst c s).evid = s.evid
      ∧ (hostFirst c s).engine = s.engine := by simp [hostFirst]

@[simp] theorem hostLate_keeps (c : CardInput) (s : State) :
    (hostLate c s).pending = s.pending ∧ (hostLate c s).osc = s.osc ∧ (hostLate c s).fresh = s.fresh
     ∧ (hostLate c s).phase = s.phase ∧ (hostLate c s).cfg = s.cfg ∧ (hostLate c s).port = s.port
     ∧ (hostLate c s).clock = s.clock ∧ (hostLate c s).link = s.link ∧ (hostLate c s).peers = s.peers
     ∧ (hostLate c s).ref = s.ref ∧ (hostLate c s).steer = s.steer ∧ (hostLate c s).stamp = s.stamp
     ∧ (hostLate c s).entries = s.entries ∧ (hostLate c s).evid = s.evid
      ∧ (hostLate c s).engine = s.engine := by simp [hostLate]

@[simp] theorem faultWriteBack_keeps (b : Bytes) (e : CompletionStatus) (c : CardInput) (s : State) :
    (faultWriteBack b e c s).pending = s.pending ∧ (faultWriteBack b e c s).osc = s.osc ∧ (faultWriteBack b e c s).fresh = s.fresh
     ∧ (faultWriteBack b e c s).phase = s.phase ∧ (faultWriteBack b e c s).cfg = s.cfg ∧ (faultWriteBack b e c s).clock = s.clock
     ∧ (faultWriteBack b e c s).link = s.link ∧ (faultWriteBack b e c s).peers = s.peers ∧ (faultWriteBack b e c s).ref = s.ref
     ∧ (faultWriteBack b e c s).steer = s.steer ∧ (faultWriteBack b e c s).stamp = s.stamp
     ∧ (faultWriteBack b e c s).entries = s.entries ∧ (faultWriteBack b e c s).evid = s.evid
     ∧ (faultWriteBack b e c s).port.transaction = s.port.transaction ∧ (faultWriteBack b e c s).port.loaded = s.port.loaded
     ∧ (faultWriteBack b e c s).port.enables = s.port.enables ∧ (faultWriteBack b e c s).port.selfTest = s.port.selfTest := by
  simp only [faultWriteBack]; split <;> simp

/-- A FAULTED write-back either stays under way, with nothing else changed, or ends in FAULT with its status, written where card memory took
it. -/
theorem faultWriteBack_cases (b : Bytes) (e : CompletionStatus) (c : CardInput) (s : State) :
    (c.hold = some .faulted ∧ faultWriteBack b e c s = { s with engine.transfer := some (.faulted b e) })
    ∨ (c.hold ≠ some .faulted ∧ (faultWriteBack b e c s).engine = ⟨.fault, s.engine.index, none, e, none⟩
        ∧ (faultWriteBack b e c s).card
            = if c.faultWriteError then s.card else cardWrite s.card (descriptorAddress s.cfg (s.engine.index.getD 0)) b) := by
  by_cases h : c.hold = some .faulted
  · exact .inl ⟨h, if_pos h⟩
  · refine .inr ⟨h, ?_, ?_⟩ <;> rw [faultWriteBack, if_neg h]
    · rfl
    · rw [(enterFault_keeps _ _ _).2.2.2.2.2.2.2.2.2.2.2.2.2.1, writeCard]; split <;> rfl

@[simp] theorem readDescriptor_keeps (i : Nat) (c : CardInput) (s : State) :
    (readDescriptor i c s).pending = s.pending ∧ (readDescriptor i c s).osc = s.osc ∧ (readDescriptor i c s).fresh = s.fresh
     ∧ (readDescriptor i c s).phase = s.phase ∧ (readDescriptor i c s).cfg = s.cfg ∧ (readDescriptor i c s).clock = s.clock
     ∧ (readDescriptor i c s).link = s.link ∧ (readDescriptor i c s).peers = s.peers ∧ (readDescriptor i c s).ref = s.ref
     ∧ (readDescriptor i c s).steer = s.steer ∧ (readDescriptor i c s).stamp = s.stamp
     ∧ (readDescriptor i c s).entries = s.entries ∧ (readDescriptor i c s).evid = s.evid
     ∧ (readDescriptor i c s).port.transaction = s.port.transaction ∧ (readDescriptor i c s).port.loaded = s.port.loaded
     ∧ (readDescriptor i c s).port.enables = s.port.enables ∧ (readDescriptor i c s).port.selfTest = s.port.selfTest := by
  simp only [readDescriptor]; split
  · simp
  · split
    · simp
    · split <;> simp

@[simp] theorem readInCommand_keeps (i : Nat) (c : CardInput) (s : State) :
    (readInCommand i c s).pending = s.pending ∧ (readInCommand i c s).osc = s.osc ∧ (readInCommand i c s).fresh = s.fresh
     ∧ (readInCommand i c s).phase = s.phase ∧ (readInCommand i c s).cfg = s.cfg ∧ (readInCommand i c s).clock = s.clock
     ∧ (readInCommand i c s).link = s.link ∧ (readInCommand i c s).peers = s.peers ∧ (readInCommand i c s).ref = s.ref
     ∧ (readInCommand i c s).steer = s.steer ∧ (readInCommand i c s).stamp = s.stamp
     ∧ (readInCommand i c s).entries = s.entries ∧ (readInCommand i c s).evid = s.evid
     ∧ (readInCommand i c s).port.transaction = s.port.transaction ∧ (readInCommand i c s).port.loaded = s.port.loaded
     ∧ (readInCommand i c s).port.enables = s.port.enables ∧ (readInCommand i c s).port.selfTest = s.port.selfTest := by
  simp [readInCommand]

@[simp] theorem stopWriteBack_keeps (d : Descriptor) (c : CardInput) (s : State) :
    (stopWriteBack d c s).pending = s.pending ∧ (stopWriteBack d c s).osc = s.osc ∧ (stopWriteBack d c s).fresh = s.fresh
     ∧ (stopWriteBack d c s).phase = s.phase ∧ (stopWriteBack d c s).cfg = s.cfg ∧ (stopWriteBack d c s).clock = s.clock
     ∧ (stopWriteBack d c s).link = s.link ∧ (stopWriteBack d c s).peers = s.peers ∧ (stopWriteBack d c s).ref = s.ref
     ∧ (stopWriteBack d c s).steer = s.steer ∧ (stopWriteBack d c s).stamp = s.stamp
     ∧ (stopWriteBack d c s).entries = s.entries ∧ (stopWriteBack d c s).evid = s.evid
     ∧ (stopWriteBack d c s).port.transaction = s.port.transaction ∧ (stopWriteBack d c s).port.loaded = s.port.loaded
     ∧ (stopWriteBack d c s).port.enables = s.port.enables ∧ (stopWriteBack d c s).port.selfTest = s.port.selfTest := by
  simp only [stopWriteBack]; split <;> simp

@[simp] theorem strayWrite_keeps (b : Bool) (s : State) :
    (strayWrite b s).pending = s.pending ∧ (strayWrite b s).osc = s.osc ∧ (strayWrite b s).fresh = s.fresh
     ∧ (strayWrite b s).phase = s.phase ∧ (strayWrite b s).cfg = s.cfg ∧ (strayWrite b s).port = s.port
     ∧ (strayWrite b s).clock = s.clock ∧ (strayWrite b s).link = s.link ∧ (strayWrite b s).peers = s.peers
     ∧ (strayWrite b s).ref = s.ref ∧ (strayWrite b s).steer = s.steer ∧ (strayWrite b s).stamp = s.stamp
     ∧ (strayWrite b s).entries = s.entries ∧ (strayWrite b s).evid = s.evid ∧ (strayWrite b s).engine = s.engine := by
  simp only [strayWrite]; split
  · split
    · split <;> simp
    · simp
  · simp

@[simp] theorem recordLoss_keeps (s : State) :
    (recordLoss s).pending = s.pending ∧ (recordLoss s).osc = s.osc ∧ (recordLoss s).fresh = s.fresh
     ∧ (recordLoss s).phase = s.phase ∧ (recordLoss s).cfg = s.cfg ∧ (recordLoss s).clock = s.clock
     ∧ (recordLoss s).link = s.link ∧ (recordLoss s).peers = s.peers ∧ (recordLoss s).ref = s.ref
     ∧ (recordLoss s).steer = s.steer ∧ (recordLoss s).stamp = s.stamp ∧ (recordLoss s).entries = s.entries
     ∧ (recordLoss s).card = s.card ∧ (recordLoss s).port.transaction = s.port.transaction
     ∧ (recordLoss s).port.loaded = s.port.loaded ∧ (recordLoss s).port.enables = s.port.enables
     ∧ (recordLoss s).port.selfTest = s.port.selfTest ∧ (recordLoss s).engine.index = s.engine.index
     ∧ (recordLoss s).engine.copy = s.engine.copy
     ∧ (recordLoss s).engine.transfer = s.engine.transfer ∧ (recordLoss s).engine.lastStatus = s.engine.lastStatus
     ∧ (recordLoss s).evid.fence = s.evid.fence ∧ (recordLoss s).evid.boundary = s.evid.boundary := by
  simp only [recordLoss]; split <;> simp

@[simp] theorem fenceWritten_keeps (n : Nat) (s : State) :
    (fenceWritten n s).pending = s.pending ∧ (fenceWritten n s).osc = s.osc ∧ (fenceWritten n s).fresh = s.fresh
     ∧ (fenceWritten n s).phase = s.phase ∧ (fenceWritten n s).cfg = s.cfg ∧ (fenceWritten n s).clock = s.clock
     ∧ (fenceWritten n s).link = s.link ∧ (fenceWritten n s).peers = s.peers ∧ (fenceWritten n s).ref = s.ref
     ∧ (fenceWritten n s).steer = s.steer ∧ (fenceWritten n s).stamp = s.stamp ∧ (fenceWritten n s).entries = s.entries
     ∧ (fenceWritten n s).engine = s.engine ∧ (fenceWritten n s).card = s.card
     ∧ (fenceWritten n s).port.transaction = s.port.transaction ∧ (fenceWritten n s).port.loaded = s.port.loaded
     ∧ (fenceWritten n s).port.enables = s.port.enables ∧ (fenceWritten n s).port.selfTest = s.port.selfTest
     ∧ (fenceWritten n s).evid.queue = s.evid.queue ∧ (fenceWritten n s).evid.nextNumber = s.evid.nextNumber
     ∧ (fenceWritten n s).evid.chain = s.evid.chain ∧ (fenceWritten n s).evid.losses = s.evid.losses
     ∧ (fenceWritten n s).evid.lostRange = s.evid.lostRange ∧ (fenceWritten n s).evid.boundary = s.evid.boundary := by
  simp only [fenceWritten]; split <;> simp

@[simp] theorem removeHead_keeps (n : Nat) (q : List Record) (s : State) :
    (removeHead n q s).pending = s.pending ∧ (removeHead n q s).osc = s.osc ∧ (removeHead n q s).fresh = s.fresh
     ∧ (removeHead n q s).phase = s.phase ∧ (removeHead n q s).cfg = s.cfg ∧ (removeHead n q s).clock = s.clock
     ∧ (removeHead n q s).link = s.link ∧ (removeHead n q s).peers = s.peers ∧ (removeHead n q s).ref = s.ref
     ∧ (removeHead n q s).steer = s.steer ∧ (removeHead n q s).stamp = s.stamp ∧ (removeHead n q s).entries = s.entries
     ∧ (removeHead n q s).card = s.card ∧ (removeHead n q s).port.transaction = s.port.transaction
     ∧ (removeHead n q s).port.loaded = s.port.loaded ∧ (removeHead n q s).port.enables = s.port.enables
     ∧ (removeHead n q s).port.selfTest = s.port.selfTest ∧ (removeHead n q s).engine.index = s.engine.index
     ∧ (removeHead n q s).engine.copy = s.engine.copy
     ∧ (removeHead n q s).engine.transfer = s.engine.transfer ∧ (removeHead n q s).engine.lastStatus = s.engine.lastStatus
     ∧ (removeHead n q s).evid.boundary = s.evid.boundary := by simp [removeHead]

@[simp] theorem writeDone_keeps (d : Descriptor) (s : State) :
    (writeDone d s).pending = s.pending ∧ (writeDone d s).osc = s.osc ∧ (writeDone d s).fresh = s.fresh
     ∧ (writeDone d s).phase = s.phase ∧ (writeDone d s).cfg = s.cfg ∧ (writeDone d s).clock = s.clock
     ∧ (writeDone d s).link = s.link ∧ (writeDone d s).peers = s.peers ∧ (writeDone d s).ref = s.ref
     ∧ (writeDone d s).steer = s.steer ∧ (writeDone d s).stamp = s.stamp ∧ (writeDone d s).entries = s.entries
     ∧ (writeDone d s).evid = s.evid ∧ (writeDone d s).port.transaction = s.port.transaction
     ∧ (writeDone d s).port.loaded = s.port.loaded ∧ (writeDone d s).port.enables = s.port.enables
     ∧ (writeDone d s).port.selfTest = s.port.selfTest ∧ (writeDone d s).engine.state = s.engine.state
     ∧ (writeDone d s).engine.index = s.engine.index ∧ (writeDone d s).engine.copy = s.engine.copy
     ∧ (writeDone d s).engine.transfer = s.engine.transfer := by
  simp only [writeDone]; split <;> simp

@[simp] theorem holdTransfer_keeps (x : EngineTransfer) (d : Descriptor) (s : State) :
    (holdTransfer x d s).pending = s.pending ∧ (holdTransfer x d s).osc = s.osc
     ∧ (holdTransfer x d s).fresh = s.fresh ∧ (holdTransfer x d s).phase = s.phase
     ∧ (holdTransfer x d s).cfg = s.cfg ∧ (holdTransfer x d s).clock = s.clock
     ∧ (holdTransfer x d s).link = s.link ∧ (holdTransfer x d s).peers = s.peers
     ∧ (holdTransfer x d s).ref = s.ref ∧ (holdTransfer x d s).steer = s.steer
     ∧ (holdTransfer x d s).stamp = s.stamp ∧ (holdTransfer x d s).entries = s.entries
     ∧ (holdTransfer x d s).evid = s.evid ∧ (holdTransfer x d s).port = s.port
     ∧ (holdTransfer x d s).card = s.card := by
  simp [holdTransfer]

@[simp] theorem followLink_keeps (d : Descriptor) (c : CardInput) (s : State) :
    (followLink d c s).pending = s.pending ∧ (followLink d c s).osc = s.osc ∧ (followLink d c s).fresh = s.fresh
     ∧ (followLink d c s).phase = s.phase ∧ (followLink d c s).cfg = s.cfg ∧ (followLink d c s).clock = s.clock
     ∧ (followLink d c s).link = s.link ∧ (followLink d c s).peers = s.peers ∧ (followLink d c s).ref = s.ref
     ∧ (followLink d c s).steer = s.steer ∧ (followLink d c s).stamp = s.stamp
     ∧ (followLink d c s).entries = s.entries ∧ (followLink d c s).evid = s.evid
     ∧ (followLink d c s).port.transaction = s.port.transaction ∧ (followLink d c s).port.loaded = s.port.loaded
     ∧ (followLink d c s).port.enables = s.port.enables ∧ (followLink d c s).port.selfTest = s.port.selfTest := by
  simp only [followLink]; split
  · simp
  · split
    · split <;> simp
    · simp

@[simp] theorem completeDescriptor_keeps (d : Descriptor) (c : CardInput) (s : State) :
    (completeDescriptor d c s).pending = s.pending ∧ (completeDescriptor d c s).osc = s.osc
     ∧ (completeDescriptor d c s).fresh = s.fresh ∧ (completeDescriptor d c s).phase = s.phase
     ∧ (completeDescriptor d c s).cfg = s.cfg ∧ (completeDescriptor d c s).clock = s.clock
     ∧ (completeDescriptor d c s).link = s.link ∧ (completeDescriptor d c s).peers = s.peers
     ∧ (completeDescriptor d c s).ref = s.ref ∧ (completeDescriptor d c s).steer = s.steer
     ∧ (completeDescriptor d c s).stamp = s.stamp ∧ (completeDescriptor d c s).entries = s.entries
     ∧ (completeDescriptor d c s).evid = s.evid
     ∧ (completeDescriptor d c s).port.transaction = s.port.transaction
     ∧ (completeDescriptor d c s).port.loaded = s.port.loaded
     ∧ (completeDescriptor d c s).port.enables = s.port.enables
     ∧ (completeDescriptor d c s).port.selfTest = s.port.selfTest := by
  simp only [completeDescriptor]; split
  · simp
  · split <;> simp

@[simp] theorem finishStop_keeps (d : Descriptor) (c : CardInput) (s : State) :
    (finishStop d c s).pending = s.pending ∧ (finishStop d c s).osc = s.osc ∧ (finishStop d c s).fresh = s.fresh
     ∧ (finishStop d c s).phase = s.phase ∧ (finishStop d c s).cfg = s.cfg ∧ (finishStop d c s).clock = s.clock
     ∧ (finishStop d c s).link = s.link ∧ (finishStop d c s).peers = s.peers ∧ (finishStop d c s).ref = s.ref
     ∧ (finishStop d c s).steer = s.steer ∧ (finishStop d c s).stamp = s.stamp
     ∧ (finishStop d c s).entries = s.entries ∧ (finishStop d c s).evid = s.evid
     ∧ (finishStop d c s).port.transaction = s.port.transaction ∧ (finishStop d c s).port.loaded = s.port.loaded
     ∧ (finishStop d c s).port.enables = s.port.enables ∧ (finishStop d c s).port.selfTest = s.port.selfTest := by
  simp only [finishStop]; split <;> simp

@[simp] theorem afterWrite_keeps (d : Descriptor) (c : CardInput) (s : State) :
    (afterWrite d c s).pending = s.pending ∧ (afterWrite d c s).osc = s.osc ∧ (afterWrite d c s).fresh = s.fresh
     ∧ (afterWrite d c s).phase = s.phase ∧ (afterWrite d c s).cfg = s.cfg ∧ (afterWrite d c s).clock = s.clock
     ∧ (afterWrite d c s).link = s.link ∧ (afterWrite d c s).peers = s.peers ∧ (afterWrite d c s).ref = s.ref
     ∧ (afterWrite d c s).steer = s.steer ∧ (afterWrite d c s).stamp = s.stamp ∧ (afterWrite d c s).entries = s.entries
     ∧ (afterWrite d c s).evid = s.evid ∧ (afterWrite d c s).port.transaction = s.port.transaction
     ∧ (afterWrite d c s).port.loaded = s.port.loaded ∧ (afterWrite d c s).port.enables = s.port.enables
     ∧ (afterWrite d c s).port.selfTest = s.port.selfTest := by
  simp only [afterWrite]; split
  · simp
  · split <;> simp

@[simp] theorem resumeTransfer_keeps (x : EngineTransfer) (d : Descriptor) (c : CardInput) (s : State) :
    (resumeTransfer x d c s).pending = s.pending ∧ (resumeTransfer x d c s).osc = s.osc
     ∧ (resumeTransfer x d c s).fresh = s.fresh ∧ (resumeTransfer x d c s).phase = s.phase
     ∧ (resumeTransfer x d c s).cfg = s.cfg ∧ (resumeTransfer x d c s).clock = s.clock
     ∧ (resumeTransfer x d c s).link = s.link ∧ (resumeTransfer x d c s).peers = s.peers
     ∧ (resumeTransfer x d c s).ref = s.ref ∧ (resumeTransfer x d c s).steer = s.steer
     ∧ (resumeTransfer x d c s).stamp = s.stamp ∧ (resumeTransfer x d c s).entries = s.entries
     ∧ (resumeTransfer x d c s).evid = s.evid ∧ (resumeTransfer x d c s).port.transaction = s.port.transaction
     ∧ (resumeTransfer x d c s).port.loaded = s.port.loaded
     ∧ (resumeTransfer x d c s).port.enables = s.port.enables
     ∧ (resumeTransfer x d c s).port.selfTest = s.port.selfTest := by
  cases x <;> simp only [resumeTransfer] <;> first | simp | (split <;> simp)

@[simp] theorem acknowledge_keeps (r : Record) (q : List Record) (d : Descriptor) (c : CardInput) (s : State) :
    (acknowledge r q d c s).pending = s.pending ∧ (acknowledge r q d c s).osc = s.osc
     ∧ (acknowledge r q d c s).fresh = s.fresh ∧ (acknowledge r q d c s).phase = s.phase
     ∧ (acknowledge r q d c s).cfg = s.cfg ∧ (acknowledge r q d c s).clock = s.clock ∧ (acknowledge r q d c s).link = s.link
     ∧ (acknowledge r q d c s).peers = s.peers ∧ (acknowledge r q d c s).ref = s.ref
     ∧ (acknowledge r q d c s).steer = s.steer ∧ (acknowledge r q d c s).stamp = s.stamp
     ∧ (acknowledge r q d c s).entries = s.entries ∧ (acknowledge r q d c s).port.transaction = s.port.transaction
     ∧ (acknowledge r q d c s).port.loaded = s.port.loaded ∧ (acknowledge r q d c s).port.enables = s.port.enables
     ∧ (acknowledge r q d c s).port.selfTest = s.port.selfTest
      ∧ (acknowledge r q d c s).evid.boundary = s.evid.boundary := by simp [acknowledge]

@[simp] theorem acknowledgeNext_keeps (d : Descriptor) (c : CardInput) (s : State) :
    (acknowledgeNext d c s).pending = s.pending ∧ (acknowledgeNext d c s).osc = s.osc
     ∧ (acknowledgeNext d c s).fresh = s.fresh ∧ (acknowledgeNext d c s).phase = s.phase
     ∧ (acknowledgeNext d c s).cfg = s.cfg ∧ (acknowledgeNext d c s).clock = s.clock
     ∧ (acknowledgeNext d c s).link = s.link ∧ (acknowledgeNext d c s).peers = s.peers
     ∧ (acknowledgeNext d c s).ref = s.ref ∧ (acknowledgeNext d c s).steer = s.steer
     ∧ (acknowledgeNext d c s).stamp = s.stamp ∧ (acknowledgeNext d c s).entries = s.entries
     ∧ (acknowledgeNext d c s).port.transaction = s.port.transaction
     ∧ (acknowledgeNext d c s).port.loaded = s.port.loaded
     ∧ (acknowledgeNext d c s).port.enables = s.port.enables
     ∧ (acknowledgeNext d c s).port.selfTest = s.port.selfTest
     ∧ (acknowledgeNext d c s).evid.boundary = s.evid.boundary := by
  simp only [acknowledgeNext]; split <;> simp

@[simp] theorem stopEngine_keeps (c : CardInput) (s : State) :
    (stopEngine c s).pending = s.pending ∧ (stopEngine c s).osc = s.osc ∧ (stopEngine c s).fresh = s.fresh
     ∧ (stopEngine c s).phase = s.phase ∧ (stopEngine c s).cfg = s.cfg ∧ (stopEngine c s).clock = s.clock
     ∧ (stopEngine c s).link = s.link ∧ (stopEngine c s).peers = s.peers ∧ (stopEngine c s).ref = s.ref
     ∧ (stopEngine c s).steer = s.steer ∧ (stopEngine c s).stamp = s.stamp ∧ (stopEngine c s).entries = s.entries
     ∧ (stopEngine c s).evid = s.evid ∧ (stopEngine c s).port.transaction = s.port.transaction
     ∧ (stopEngine c s).port.loaded = s.port.loaded ∧ (stopEngine c s).port.enables = s.port.enables
     ∧ (stopEngine c s).port.selfTest = s.port.selfTest := by
  simp only [stopEngine]; split <;> simp

@[simp] theorem stopWhole_keeps (c : CardInput) (s : State) :
    (stopWhole c s).pending = s.pending ∧ (stopWhole c s).osc = s.osc ∧ (stopWhole c s).fresh = s.fresh
     ∧ (stopWhole c s).phase = s.phase ∧ (stopWhole c s).cfg = s.cfg ∧ (stopWhole c s).clock = s.clock
     ∧ (stopWhole c s).link = s.link ∧ (stopWhole c s).peers = s.peers ∧ (stopWhole c s).ref = s.ref
     ∧ (stopWhole c s).steer = s.steer ∧ (stopWhole c s).stamp = s.stamp ∧ (stopWhole c s).entries = s.entries
     ∧ (stopWhole c s).evid = s.evid ∧ (stopWhole c s).port.transaction = s.port.transaction
     ∧ (stopWhole c s).port.loaded = s.port.loaded ∧ (stopWhole c s).port.enables = s.port.enables
     ∧ (stopWhole c s).port.selfTest = s.port.selfTest := by
  simp only [stopWhole]; split <;> simp

/-! ### Resets and START -/

@[simp] theorem warmBlocks_keeps (b : Bool) (s : State) :
    (warmBlocks b s).pending = s.pending ∧ (warmBlocks b s).osc = s.osc ∧ (warmBlocks b s).fresh = s.fresh
     ∧ (warmBlocks b s).phase = s.phase ∧ (warmBlocks b s).cfg = s.cfg ∧ (warmBlocks b s).clock = s.clock
     ∧ (warmBlocks b s).peers = s.peers ∧ (warmBlocks b s).steer = s.steer ∧ (warmBlocks b s).entries = s.entries
     ∧ (warmBlocks b s).card = s.card ∧ (warmBlocks b s).port.transaction = s.port.transaction
     ∧ (warmBlocks b s).port.loaded = s.port.loaded ∧ (warmBlocks b s).port.enables = s.port.enables
     ∧ (warmBlocks b s).port.selfTest = s.port.selfTest ∧ (warmBlocks b s).evid.queue = s.evid.queue
     ∧ (warmBlocks b s).evid.nextNumber = s.evid.nextNumber ∧ (warmBlocks b s).evid.chain = s.evid.chain
     ∧ (warmBlocks b s).evid.losses = s.evid.losses ∧ (warmBlocks b s).evid.lostRange = s.evid.lostRange
     ∧ (warmBlocks b s).evid.boundary = s.evid.boundary := by simp [warmBlocks]

@[simp] theorem warmRecords_keeps (b : ResetBody) (o : RefState) (s : State) :
    (warmRecords b o s).pending = s.pending ∧ (warmRecords b o s).osc = s.osc ∧ (warmRecords b o s).fresh = s.fresh
     ∧ (warmRecords b o s).phase = s.phase ∧ (warmRecords b o s).cfg = s.cfg ∧ (warmRecords b o s).clock = s.clock
     ∧ (warmRecords b o s).peers = s.peers ∧ (warmRecords b o s).ref = s.ref ∧ (warmRecords b o s).card = s.card
     ∧ (warmRecords b o s).port.transaction = s.port.transaction ∧ (warmRecords b o s).port.loaded = s.port.loaded
     ∧ (warmRecords b o s).port.enables = s.port.enables ∧ (warmRecords b o s).port.selfTest = s.port.selfTest
     ∧ (warmRecords b o s).engine.index = s.engine.index ∧ (warmRecords b o s).engine.copy = s.engine.copy
     ∧ (warmRecords b o s).engine.transfer = s.engine.transfer
     ∧ (warmRecords b o s).engine.lastStatus = s.engine.lastStatus ∧ (warmRecords b o s).evid.fence = s.evid.fence
     ∧ (warmRecords b o s).evid.boundary = s.evid.boundary ∧ (warmRecords b o s).steer.state = s.steer.state
     ∧ (warmRecords b o s).steer.rf = s.steer.rf ∧ (warmRecords b o s).steer.rp = s.steer.rp
     ∧ (warmRecords b o s).steer.holdover = s.steer.holdover ∧ (warmRecords b o s).steer.incomplete = s.steer.incomplete
     ∧ (warmRecords b o s).steer.rateLimit = s.steer.rateLimit
     ∧ (warmRecords b o s).steer.stepDeferred = s.steer.stepDeferred ∧ (warmRecords b o s).steer.lockRun = s.steer.lockRun
     ∧ (warmRecords b o s).steer.unlockRun = s.steer.unlockRun ∧ (warmRecords b o s).steer.bound = s.steer.bound
     ∧ (warmRecords b o s).steer.latest = s.steer.latest ∧ (warmRecords b o s).steer.series = s.steer.series
     ∧ (warmRecords b o s).stamp.requests = s.stamp.requests ∧ (warmRecords b o s).stamp.responses = s.stamp.responses
     ∧ (warmRecords b o s).stamp.captures = s.stamp.captures ∧ (warmRecords b o s).stamp.overflow = s.stamp.overflow
     ∧ (warmRecords b o s).stamp.nextSeq = s.stamp.nextSeq ∧ (warmRecords b o s).stamp.floor = s.stamp.floor
     ∧ (warmRecords b o s).stamp.floorSeq = s.stamp.floorSeq ∧ (warmRecords b o s).stamp.batch = s.stamp.batch := by
  simp only [warmRecords]; split <;> split <;> simp

@[simp] theorem takeWarmReset_keeps (c : ResetCause) (b : Bool) (s : State) :
    (takeWarmReset c b s).pending = s.pending ∧ (takeWarmReset c b s).osc = s.osc ∧ (takeWarmReset c b s).fresh = s.fresh
     ∧ (takeWarmReset c b s).phase = s.phase ∧ (takeWarmReset c b s).cfg = s.cfg ∧ (takeWarmReset c b s).clock = s.clock
     ∧ (takeWarmReset c b s).peers = s.peers ∧ (takeWarmReset c b s).card = s.card
     ∧ (takeWarmReset c b s).port.transaction = s.port.transaction ∧ (takeWarmReset c b s).port.loaded = s.port.loaded
     ∧ (takeWarmReset c b s).port.enables = s.port.enables ∧ (takeWarmReset c b s).port.selfTest = s.port.selfTest
     ∧ (takeWarmReset c b s).evid.boundary = s.evid.boundary ∧ (takeWarmReset c b s).steer.state = s.steer.state
     ∧ (takeWarmReset c b s).steer.rf = s.steer.rf ∧ (takeWarmReset c b s).steer.rp = s.steer.rp
     ∧ (takeWarmReset c b s).steer.holdover = s.steer.holdover ∧ (takeWarmReset c b s).steer.incomplete = s.steer.incomplete
     ∧ (takeWarmReset c b s).steer.rateLimit = s.steer.rateLimit
     ∧ (takeWarmReset c b s).steer.stepDeferred = s.steer.stepDeferred ∧ (takeWarmReset c b s).steer.lockRun = s.steer.lockRun
     ∧ (takeWarmReset c b s).steer.unlockRun = s.steer.unlockRun ∧ (takeWarmReset c b s).steer.bound = s.steer.bound
     ∧ (takeWarmReset c b s).steer.latest = s.steer.latest ∧ (takeWarmReset c b s).steer.series = s.steer.series := by
  simp only [takeWarmReset]; split <;> simp

end Sys2Proof.Machine
end

