-- ==== Sys2Proof/Laws/State.lean ====
section
/-! SUPPORT. What each small update of the state leaves of each field, so that no later proof unfolds a record update. -/

namespace Sys2Proof.Machine

/-! ### Raising a flag -/

@[simp] theorem raise_pending (n : Notice) (s : State) : (raise n s).pending = s.pending := rfl
@[simp] theorem raise_osc (n : Notice) (s : State) : (raise n s).osc = s.osc := rfl
@[simp] theorem raise_fresh (n : Notice) (s : State) : (raise n s).fresh = s.fresh := rfl
@[simp] theorem raise_phase (n : Notice) (s : State) : (raise n s).phase = s.phase := rfl
@[simp] theorem raise_cfg (n : Notice) (s : State) : (raise n s).cfg = s.cfg := rfl
@[simp] theorem raise_clock (n : Notice) (s : State) : (raise n s).clock = s.clock := rfl
@[simp] theorem raise_link (n : Notice) (s : State) : (raise n s).link = s.link := rfl
@[simp] theorem raise_peers (n : Notice) (s : State) : (raise n s).peers = s.peers := rfl
@[simp] theorem raise_ref (n : Notice) (s : State) : (raise n s).ref = s.ref := rfl
@[simp] theorem raise_steer (n : Notice) (s : State) : (raise n s).steer = s.steer := rfl
@[simp] theorem raise_stamp (n : Notice) (s : State) : (raise n s).stamp = s.stamp := rfl
@[simp] theorem raise_entries (n : Notice) (s : State) : (raise n s).entries = s.entries := rfl
@[simp] theorem raise_evid (n : Notice) (s : State) : (raise n s).evid = s.evid := rfl
@[simp] theorem raise_engine (n : Notice) (s : State) : (raise n s).engine = s.engine := rfl
@[simp] theorem raise_card (n : Notice) (s : State) : (raise n s).card = s.card := rfl
@[simp] theorem raise_port_loaded (n : Notice) (s : State) : (raise n s).port.loaded = s.port.loaded := rfl
@[simp] theorem raise_port_enables (n : Notice) (s : State) : (raise n s).port.enables = s.port.enables := rfl
@[simp] theorem raise_port_selfTest (n : Notice) (s : State) : (raise n s).port.selfTest = s.port.selfTest := rfl
@[simp] theorem raise_port_transaction (n : Notice) (s : State) : (raise n s).port.transaction = s.port.transaction := rfl
@[simp] theorem raise_flags (n : Notice) (s : State) : (raise n s).port.flags = s.port.flags ||| BitVec.twoPow 14 n.index := rfl

/-! ### Clearing flags -/

@[simp] theorem clearAllFlags_pending (s : State) : (clearAllFlags s).pending = s.pending := rfl
@[simp] theorem clearAllFlags_osc (s : State) : (clearAllFlags s).osc = s.osc := rfl
@[simp] theorem clearAllFlags_fresh (s : State) : (clearAllFlags s).fresh = s.fresh := rfl
@[simp] theorem clearAllFlags_phase (s : State) : (clearAllFlags s).phase = s.phase := rfl
@[simp] theorem clearAllFlags_cfg (s : State) : (clearAllFlags s).cfg = s.cfg := rfl
@[simp] theorem clearAllFlags_clock (s : State) : (clearAllFlags s).clock = s.clock := rfl
@[simp] theorem clearAllFlags_link (s : State) : (clearAllFlags s).link = s.link := rfl
@[simp] theorem clearAllFlags_peers (s : State) : (clearAllFlags s).peers = s.peers := rfl
@[simp] theorem clearAllFlags_ref (s : State) : (clearAllFlags s).ref = s.ref := rfl
@[simp] theorem clearAllFlags_steer (s : State) : (clearAllFlags s).steer = s.steer := rfl
@[simp] theorem clearAllFlags_stamp (s : State) : (clearAllFlags s).stamp = s.stamp := rfl
@[simp] theorem clearAllFlags_entries (s : State) : (clearAllFlags s).entries = s.entries := rfl
@[simp] theorem clearAllFlags_evid (s : State) : (clearAllFlags s).evid = s.evid := rfl
@[simp] theorem clearAllFlags_engine (s : State) : (clearAllFlags s).engine = s.engine := rfl
@[simp] theorem clearAllFlags_card (s : State) : (clearAllFlags s).card = s.card := rfl
@[simp] theorem clearAllFlags_port_loaded (s : State) : (clearAllFlags s).port.loaded = s.port.loaded := rfl
@[simp] theorem clearAllFlags_port_enables (s : State) : (clearAllFlags s).port.enables = s.port.enables := rfl
@[simp] theorem clearAllFlags_port_selfTest (s : State) : (clearAllFlags s).port.selfTest = s.port.selfTest := rfl
@[simp] theorem clearAllFlags_port_transaction (s : State) : (clearAllFlags s).port.transaction = s.port.transaction := rfl
@[simp] theorem clearAllFlags_flags (s : State) : (clearAllFlags s).port.flags = 0 := rfl

/-! ### Clearing named flags -/

@[simp] theorem clearFlags_pending (x : BitVec 16) (s : State) : (clearFlags x s).pending = s.pending := rfl
@[simp] theorem clearFlags_osc (x : BitVec 16) (s : State) : (clearFlags x s).osc = s.osc := rfl
@[simp] theorem clearFlags_fresh (x : BitVec 16) (s : State) : (clearFlags x s).fresh = s.fresh := rfl
@[simp] theorem clearFlags_phase (x : BitVec 16) (s : State) : (clearFlags x s).phase = s.phase := rfl
@[simp] theorem clearFlags_cfg (x : BitVec 16) (s : State) : (clearFlags x s).cfg = s.cfg := rfl
@[simp] theorem clearFlags_clock (x : BitVec 16) (s : State) : (clearFlags x s).clock = s.clock := rfl
@[simp] theorem clearFlags_link (x : BitVec 16) (s : State) : (clearFlags x s).link = s.link := rfl
@[simp] theorem clearFlags_peers (x : BitVec 16) (s : State) : (clearFlags x s).peers = s.peers := rfl
@[simp] theorem clearFlags_ref (x : BitVec 16) (s : State) : (clearFlags x s).ref = s.ref := rfl
@[simp] theorem clearFlags_steer (x : BitVec 16) (s : State) : (clearFlags x s).steer = s.steer := rfl
@[simp] theorem clearFlags_stamp (x : BitVec 16) (s : State) : (clearFlags x s).stamp = s.stamp := rfl
@[simp] theorem clearFlags_entries (x : BitVec 16) (s : State) : (clearFlags x s).entries = s.entries := rfl
@[simp] theorem clearFlags_evid (x : BitVec 16) (s : State) : (clearFlags x s).evid = s.evid := rfl
@[simp] theorem clearFlags_engine (x : BitVec 16) (s : State) : (clearFlags x s).engine = s.engine := rfl
@[simp] theorem clearFlags_card (x : BitVec 16) (s : State) : (clearFlags x s).card = s.card := rfl
@[simp] theorem clearFlags_port_loaded (x : BitVec 16) (s : State) : (clearFlags x s).port.loaded = s.port.loaded := rfl
@[simp] theorem clearFlags_port_enables (x : BitVec 16) (s : State) : (clearFlags x s).port.enables = s.port.enables := rfl
@[simp] theorem clearFlags_port_selfTest (x : BitVec 16) (s : State) : (clearFlags x s).port.selfTest = s.port.selfTest := rfl
@[simp] theorem clearFlags_port_transaction (x : BitVec 16) (s : State) : (clearFlags x s).port.transaction = s.port.transaction := rfl
@[simp] theorem clearFlags_flags (x : BitVec 16) (s : State) : (clearFlags x s).port.flags = s.port.flags &&& ~~~(x.setWidth 14) := rfl

/-! ### Answering a command -/

@[simp] theorem respond_pending (st : Status) (b : Bytes) (s : State) : (respond st b s).pending = s.pending := rfl
@[simp] theorem respond_osc (st : Status) (b : Bytes) (s : State) : (respond st b s).osc = s.osc := rfl
@[simp] theorem respond_fresh (st : Status) (b : Bytes) (s : State) : (respond st b s).fresh = s.fresh := rfl
@[simp] theorem respond_phase (st : Status) (b : Bytes) (s : State) : (respond st b s).phase = s.phase := rfl
@[simp] theorem respond_cfg (st : Status) (b : Bytes) (s : State) : (respond st b s).cfg = s.cfg := rfl
@[simp] theorem respond_clock (st : Status) (b : Bytes) (s : State) : (respond st b s).clock = s.clock := rfl
@[simp] theorem respond_link (st : Status) (b : Bytes) (s : State) : (respond st b s).link = s.link := rfl
@[simp] theorem respond_peers (st : Status) (b : Bytes) (s : State) : (respond st b s).peers = s.peers := rfl
@[simp] theorem respond_ref (st : Status) (b : Bytes) (s : State) : (respond st b s).ref = s.ref := rfl
@[simp] theorem respond_steer (st : Status) (b : Bytes) (s : State) : (respond st b s).steer = s.steer := rfl
@[simp] theorem respond_stamp (st : Status) (b : Bytes) (s : State) : (respond st b s).stamp = s.stamp := rfl
@[simp] theorem respond_entries (st : Status) (b : Bytes) (s : State) : (respond st b s).entries = s.entries := rfl
@[simp] theorem respond_evid (st : Status) (b : Bytes) (s : State) : (respond st b s).evid = s.evid := rfl
@[simp] theorem respond_engine (st : Status) (b : Bytes) (s : State) : (respond st b s).engine = s.engine := rfl
@[simp] theorem respond_card (st : Status) (b : Bytes) (s : State) : (respond st b s).card = s.card := rfl
@[simp] theorem respond_port_loaded (st : Status) (b : Bytes) (s : State) : (respond st b s).port.loaded = s.port.loaded := rfl
@[simp] theorem respond_port_flags (st : Status) (b : Bytes) (s : State) : (respond st b s).port.flags = s.port.flags := rfl
@[simp] theorem respond_port_enables (st : Status) (b : Bytes) (s : State) : (respond st b s).port.enables = s.port.enables := rfl
@[simp] theorem respond_port_selfTest (st : Status) (b : Bytes) (s : State) : (respond st b s).port.selfTest = s.port.selfTest := rfl
@[simp] theorem respond_transaction (st : Status) (b : Bytes) (s : State) : (respond st b s).port.transaction = .executed ⟨st, b⟩ false := rfl

/-! ### The queue of waiting commands -/

@[simp] theorem State.withPending_osc (cs : List Instr) (s : State) : (State.withPending cs s).osc = s.osc := rfl
@[simp] theorem State.withPending_fresh (cs : List Instr) (s : State) : (State.withPending cs s).fresh = s.fresh := rfl
@[simp] theorem State.withPending_phase (cs : List Instr) (s : State) : (State.withPending cs s).phase = s.phase := rfl
@[simp] theorem State.withPending_cfg (cs : List Instr) (s : State) : (State.withPending cs s).cfg = s.cfg := rfl
@[simp] theorem State.withPending_port (cs : List Instr) (s : State) : (State.withPending cs s).port = s.port := rfl
@[simp] theorem State.withPending_clock (cs : List Instr) (s : State) : (State.withPending cs s).clock = s.clock := rfl
@[simp] theorem State.withPending_link (cs : List Instr) (s : State) : (State.withPending cs s).link = s.link := rfl
@[simp] theorem State.withPending_peers (cs : List Instr) (s : State) : (State.withPending cs s).peers = s.peers := rfl
@[simp] theorem State.withPending_ref (cs : List Instr) (s : State) : (State.withPending cs s).ref = s.ref := rfl
@[simp] theorem State.withPending_steer (cs : List Instr) (s : State) : (State.withPending cs s).steer = s.steer := rfl
@[simp] theorem State.withPending_stamp (cs : List Instr) (s : State) : (State.withPending cs s).stamp = s.stamp := rfl
@[simp] theorem State.withPending_entries (cs : List Instr) (s : State) : (State.withPending cs s).entries = s.entries := rfl
@[simp] theorem State.withPending_evid (cs : List Instr) (s : State) : (State.withPending cs s).evid = s.evid := rfl
@[simp] theorem State.withPending_engine (cs : List Instr) (s : State) : (State.withPending cs s).engine = s.engine := rfl
@[simp] theorem State.withPending_card (cs : List Instr) (s : State) : (State.withPending cs s).card = s.card := rfl
@[simp] theorem State.withPending_pending (cs : List Instr) (s : State) : (State.withPending cs s).pending = cs := rfl

/-! ### A reply -/

@[simp] theorem State.replied_pending (s : State) (st : Status) (b : Bytes) : (State.replied s st b).pending = s.pending := rfl
@[simp] theorem State.replied_osc (s : State) (st : Status) (b : Bytes) : (State.replied s st b).osc = s.osc := rfl
@[simp] theorem State.replied_fresh (s : State) (st : Status) (b : Bytes) : (State.replied s st b).fresh = s.fresh := rfl
@[simp] theorem State.replied_phase (s : State) (st : Status) (b : Bytes) : (State.replied s st b).phase = s.phase := rfl
@[simp] theorem State.replied_cfg (s : State) (st : Status) (b : Bytes) : (State.replied s st b).cfg = s.cfg := rfl
@[simp] theorem State.replied_clock (s : State) (st : Status) (b : Bytes) : (State.replied s st b).clock = s.clock := rfl
@[simp] theorem State.replied_link (s : State) (st : Status) (b : Bytes) : (State.replied s st b).link = s.link := rfl
@[simp] theorem State.replied_peers (s : State) (st : Status) (b : Bytes) : (State.replied s st b).peers = s.peers := rfl
@[simp] theorem State.replied_ref (s : State) (st : Status) (b : Bytes) : (State.replied s st b).ref = s.ref := rfl
@[simp] theorem State.replied_steer (s : State) (st : Status) (b : Bytes) : (State.replied s st b).steer = s.steer := rfl
@[simp] theorem State.replied_stamp (s : State) (st : Status) (b : Bytes) : (State.replied s st b).stamp = s.stamp := rfl
@[simp] theorem State.replied_entries (s : State) (st : Status) (b : Bytes) : (State.replied s st b).entries = s.entries := rfl
@[simp] theorem State.replied_evid (s : State) (st : Status) (b : Bytes) : (State.replied s st b).evid = s.evid := rfl
@[simp] theorem State.replied_engine (s : State) (st : Status) (b : Bytes) : (State.replied s st b).engine = s.engine := rfl
@[simp] theorem State.replied_card (s : State) (st : Status) (b : Bytes) : (State.replied s st b).card = s.card := rfl
@[simp] theorem State.replied_port_loaded (s : State) (st : Status) (b : Bytes) : (State.replied s st b).port.loaded = s.port.loaded := rfl
@[simp] theorem State.replied_port_flags (s : State) (st : Status) (b : Bytes) : (State.replied s st b).port.flags = s.port.flags := rfl
@[simp] theorem State.replied_port_enables (s : State) (st : Status) (b : Bytes) : (State.replied s st b).port.enables = s.port.enables := rfl
@[simp] theorem State.replied_port_selfTest (s : State) (st : Status) (b : Bytes) : (State.replied s st b).port.selfTest = s.port.selfTest := rfl
@[simp] theorem State.replied_transaction (s : State) (st : Status) (b : Bytes) : (State.replied s st b).port.transaction = .executed ⟨st, b⟩ false := rfl

/-! ### An entry in its slot -/

@[simp] theorem setEntry_pending (i : Fin 32) (e : Entry) (s : State) : (setEntry i e s).pending = s.pending := rfl
@[simp] theorem setEntry_osc (i : Fin 32) (e : Entry) (s : State) : (setEntry i e s).osc = s.osc := rfl
@[simp] theorem setEntry_fresh (i : Fin 32) (e : Entry) (s : State) : (setEntry i e s).fresh = s.fresh := rfl
@[simp] theorem setEntry_phase (i : Fin 32) (e : Entry) (s : State) : (setEntry i e s).phase = s.phase := rfl
@[simp] theorem setEntry_cfg (i : Fin 32) (e : Entry) (s : State) : (setEntry i e s).cfg = s.cfg := rfl
@[simp] theorem setEntry_port (i : Fin 32) (e : Entry) (s : State) : (setEntry i e s).port = s.port := rfl
@[simp] theorem setEntry_clock (i : Fin 32) (e : Entry) (s : State) : (setEntry i e s).clock = s.clock := rfl
@[simp] theorem setEntry_link (i : Fin 32) (e : Entry) (s : State) : (setEntry i e s).link = s.link := rfl
@[simp] theorem setEntry_peers (i : Fin 32) (e : Entry) (s : State) : (setEntry i e s).peers = s.peers := rfl
@[simp] theorem setEntry_ref (i : Fin 32) (e : Entry) (s : State) : (setEntry i e s).ref = s.ref := rfl
@[simp] theorem setEntry_steer (i : Fin 32) (e : Entry) (s : State) : (setEntry i e s).steer = s.steer := rfl
@[simp] theorem setEntry_stamp (i : Fin 32) (e : Entry) (s : State) : (setEntry i e s).stamp = s.stamp := rfl
@[simp] theorem setEntry_evid (i : Fin 32) (e : Entry) (s : State) : (setEntry i e s).evid = s.evid := rfl
@[simp] theorem setEntry_engine (i : Fin 32) (e : Entry) (s : State) : (setEntry i e s).engine = s.engine := rfl
@[simp] theorem setEntry_card (i : Fin 32) (e : Entry) (s : State) : (setEntry i e s).card = s.card := rfl
@[simp] theorem setEntry_entries (i : Fin 32) (e : Entry) (s : State) : (setEntry i e s).entries = s.entries.set i e := rfl

/-! ### The engine -/

@[simp] theorem enterStopped_pending (s : State) : (enterStopped s).pending = s.pending := rfl
@[simp] theorem enterStopped_osc (s : State) : (enterStopped s).osc = s.osc := rfl
@[simp] theorem enterStopped_fresh (s : State) : (enterStopped s).fresh = s.fresh := rfl
@[simp] theorem enterStopped_phase (s : State) : (enterStopped s).phase = s.phase := rfl
@[simp] theorem enterStopped_cfg (s : State) : (enterStopped s).cfg = s.cfg := rfl
@[simp] theorem enterStopped_port (s : State) : (enterStopped s).port = s.port := rfl
@[simp] theorem enterStopped_clock (s : State) : (enterStopped s).clock = s.clock := rfl
@[simp] theorem enterStopped_link (s : State) : (enterStopped s).link = s.link := rfl
@[simp] theorem enterStopped_peers (s : State) : (enterStopped s).peers = s.peers := rfl
@[simp] theorem enterStopped_ref (s : State) : (enterStopped s).ref = s.ref := rfl
@[simp] theorem enterStopped_steer (s : State) : (enterStopped s).steer = s.steer := rfl
@[simp] theorem enterStopped_stamp (s : State) : (enterStopped s).stamp = s.stamp := rfl
@[simp] theorem enterStopped_entries (s : State) : (enterStopped s).entries = s.entries := rfl
@[simp] theorem enterStopped_evid (s : State) : (enterStopped s).evid = s.evid := rfl
@[simp] theorem enterStopped_card (s : State) : (enterStopped s).card = s.card := rfl
@[simp] theorem enterStopped_engine (s : State) : (enterStopped s).engine = { s.engine with state := .stopped, index := none, copy := none, transfer := none } := rfl

/-! ### The kind of the latest outcome -/

@[simp] theorem setKind_pending (k : OutcomeKind) (s : State) : (setKind k s).pending = s.pending := rfl
@[simp] theorem setKind_osc (k : OutcomeKind) (s : State) : (setKind k s).osc = s.osc := rfl
@[simp] theorem setKind_fresh (k : OutcomeKind) (s : State) : (setKind k s).fresh = s.fresh := rfl
@[simp] theorem setKind_phase (k : OutcomeKind) (s : State) : (setKind k s).phase = s.phase := rfl
@[simp] theorem setKind_cfg (k : OutcomeKind) (s : State) : (setKind k s).cfg = s.cfg := rfl
@[simp] theorem setKind_port (k : OutcomeKind) (s : State) : (setKind k s).port = s.port := rfl
@[simp] theorem setKind_clock (k : OutcomeKind) (s : State) : (setKind k s).clock = s.clock := rfl
@[simp] theorem setKind_link (k : OutcomeKind) (s : State) : (setKind k s).link = s.link := rfl
@[simp] theorem setKind_peers (k : OutcomeKind) (s : State) : (setKind k s).peers = s.peers := rfl
@[simp] theorem setKind_ref (k : OutcomeKind) (s : State) : (setKind k s).ref = s.ref := rfl
@[simp] theorem setKind_stamp (k : OutcomeKind) (s : State) : (setKind k s).stamp = s.stamp := rfl
@[simp] theorem setKind_entries (k : OutcomeKind) (s : State) : (setKind k s).entries = s.entries := rfl
@[simp] theorem setKind_evid (k : OutcomeKind) (s : State) : (setKind k s).evid = s.evid := rfl
@[simp] theorem setKind_engine (k : OutcomeKind) (s : State) : (setKind k s).engine = s.engine := rfl
@[simp] theorem setKind_card (k : OutcomeKind) (s : State) : (setKind k s).card = s.card := rfl

/-! ### A peer's record -/

@[simp] theorem putPeer_pending (p : Peer) (s : State) : (putPeer p s).pending = s.pending := rfl
@[simp] theorem putPeer_osc (p : Peer) (s : State) : (putPeer p s).osc = s.osc := rfl
@[simp] theorem putPeer_fresh (p : Peer) (s : State) : (putPeer p s).fresh = s.fresh := rfl
@[simp] theorem putPeer_phase (p : Peer) (s : State) : (putPeer p s).phase = s.phase := rfl
@[simp] theorem putPeer_cfg (p : Peer) (s : State) : (putPeer p s).cfg = s.cfg := rfl
@[simp] theorem putPeer_port (p : Peer) (s : State) : (putPeer p s).port = s.port := rfl
@[simp] theorem putPeer_clock (p : Peer) (s : State) : (putPeer p s).clock = s.clock := rfl
@[simp] theorem putPeer_link (p : Peer) (s : State) : (putPeer p s).link = s.link := rfl
@[simp] theorem putPeer_ref (p : Peer) (s : State) : (putPeer p s).ref = s.ref := rfl
@[simp] theorem putPeer_steer (p : Peer) (s : State) : (putPeer p s).steer = s.steer := rfl
@[simp] theorem putPeer_stamp (p : Peer) (s : State) : (putPeer p s).stamp = s.stamp := rfl
@[simp] theorem putPeer_entries (p : Peer) (s : State) : (putPeer p s).entries = s.entries := rfl
@[simp] theorem putPeer_evid (p : Peer) (s : State) : (putPeer p s).evid = s.evid := rfl
@[simp] theorem putPeer_engine (p : Peer) (s : State) : (putPeer p s).engine = s.engine := rfl
@[simp] theorem putPeer_card (p : Peer) (s : State) : (putPeer p s).card = s.card := rfl

/-! ### A tick -/

@[simp] theorem tick_pending (s : State) : (tick s).pending = s.pending := rfl
@[simp] theorem tick_fresh (s : State) : (tick s).fresh = s.fresh := rfl
@[simp] theorem tick_phase (s : State) : (tick s).phase = s.phase := rfl
@[simp] theorem tick_cfg (s : State) : (tick s).cfg = s.cfg := rfl
@[simp] theorem tick_port (s : State) : (tick s).port = s.port := rfl
@[simp] theorem tick_peers (s : State) : (tick s).peers = s.peers := rfl
@[simp] theorem tick_ref (s : State) : (tick s).ref = s.ref := rfl
@[simp] theorem tick_stamp (s : State) : (tick s).stamp = s.stamp := rfl
@[simp] theorem tick_entries (s : State) : (tick s).entries = s.entries := rfl
@[simp] theorem tick_evid (s : State) : (tick s).evid = s.evid := rfl
@[simp] theorem tick_engine (s : State) : (tick s).engine = s.engine := rfl
@[simp] theorem tick_card (s : State) : (tick s).card = s.card := rfl
@[simp] theorem tick_osc (s : State) : (tick s).osc = s.osc + 1 := rfl
@[simp] theorem tick_clock (s : State) : (tick s).clock = advanceClock s.clock := rfl

/-! ### A step of the clock -/

@[simp] theorem stepClock_pending (a : Int) (s : State) : (stepClock a s).pending = s.pending := rfl
@[simp] theorem stepClock_osc (a : Int) (s : State) : (stepClock a s).osc = s.osc := rfl
@[simp] theorem stepClock_fresh (a : Int) (s : State) : (stepClock a s).fresh = s.fresh := rfl
@[simp] theorem stepClock_phase (a : Int) (s : State) : (stepClock a s).phase = s.phase := rfl
@[simp] theorem stepClock_cfg (a : Int) (s : State) : (stepClock a s).cfg = s.cfg := rfl
@[simp] theorem stepClock_port (a : Int) (s : State) : (stepClock a s).port = s.port := rfl
@[simp] theorem stepClock_peers (a : Int) (s : State) : (stepClock a s).peers = s.peers := rfl
@[simp] theorem stepClock_ref (a : Int) (s : State) : (stepClock a s).ref = s.ref := rfl
@[simp] theorem stepClock_stamp (a : Int) (s : State) : (stepClock a s).stamp = s.stamp := rfl
@[simp] theorem stepClock_entries (a : Int) (s : State) : (stepClock a s).entries = s.entries := rfl
@[simp] theorem stepClock_evid (a : Int) (s : State) : (stepClock a s).evid = s.evid := rfl
@[simp] theorem stepClock_engine (a : Int) (s : State) : (stepClock a s).engine = s.engine := rfl
@[simp] theorem stepClock_card (a : Int) (s : State) : (stepClock a s).card = s.card := rfl
@[simp] theorem stepClock_rate (a : Int) (s : State) : (stepClock a s).clock.rate = s.clock.rate := rfl
@[simp] theorem stepClock_residue (a : Int) (s : State) : (stepClock a s).clock.residue = s.clock.residue := rfl
@[simp] theorem stepClock_running (a : Int) (s : State) : (stepClock a s).clock.running = s.clock.running := rfl

/-! ### Answers -/

/-- A reply is the answer of the one operation every command uses. -/
theorem respond_eq_replied (st : Status) (b : Bytes) (s : State) : respond st b s = s.replied st b := rfl

/-- What a received command does: nothing where its transaction is past its command, REFUSED_RANGE where its length is wrong, and else
its own effect. -/
theorem onCommand_cases (len : Nat) (body : Bytes) (run : State → State) (s : State) :
    (s.port.transaction ≠ .absent ∧ onCommand len body run s = s)
      ∨ (s.port.transaction = .absent ∧ body.length ≠ len ∧ onCommand len body run s = respond .refusedRange [] s)
      ∨ (s.port.transaction = .absent ∧ body.length = len ∧ onCommand len body run s = run s) := by
  cases h : s.port.transaction with
  | absent =>
    by_cases hl : body.length = len
    · exact .inr (.inr ⟨rfl, hl, by simp [onCommand, h, hl]⟩)
    · exact .inr (.inl ⟨rfl, hl, by simp [onCommand, h, hl]⟩)
  | executed r o => exact .inl ⟨by simp, by simp [onCommand, h]⟩
  | abandoned _ => exact .inl ⟨by simp, by simp [onCommand, h]⟩

end Sys2Proof.Machine
end

