-- ==== Sys2Proof/Laws/Auctions.lean ====
section
/-! SUPPORT. The Auction Table: an entry read after one was put, and what each operation does to the order of the table. -/

namespace Sys2Proof.Machine

/-- An entry read after one was put in its slot. -/
theorem entries_set (es : Vector Entry 32) (i j : Fin 32) (e : Entry) : (es.set i e)[j] = if i = j then e else es[j] := by
  simp only [Fin.getElem_fin, Vector.getElem_set, Fin.ext_iff]

@[simp] theorem entries_set_self (es : Vector Entry 32) (i : Fin 32) (e : Entry) : (es.set i e)[i] = e := by
  rw [entries_set, if_pos rfl]

theorem entries_set_ne (es : Vector Entry 32) {i j : Fin 32} (e : Entry) (h : i ≠ j) : (es.set i e)[j] = es[j] := by
  rw [entries_set, if_neg h]

/-- One entry becomes another of the same group, link and predecessor, live only where it was, and FREE only where it is unchanged. -/
structure Entry.Moves (e e' : Entry) : Prop where
  group : e'.group = e.group
  link : e'.link = e.link
  pred : e'.pred = e.pred
  live : e'.state.live = true → e.state.live = true
  free : e'.state = .free → e' = e

theorem Entry.Moves.refl (e : Entry) : e.Moves e := ⟨rfl, rfl, rfl, id, fun _ => rfl⟩

theorem Entry.Moves.trans {a b c : Entry} (h : a.Moves b) (g : b.Moves c) : a.Moves c where
  group := g.group.trans h.group
  link := g.link.trans h.link
  pred := g.pred.trans h.pred
  live := fun x => h.live (g.live x)
  free := fun x => by
    have h1 := g.free x
    rw [h1] at x ⊢
    exact h.free x

/-- Every entry of a table moves so. -/
def TableMoves (a b : Vector Entry 32) : Prop := ∀ i : Fin 32, a[i].Moves b[i]

theorem TableMoves.refl (a : Vector Entry 32) : TableMoves a a := fun _ => .refl _

theorem TableMoves.trans {a b c : Vector Entry 32} (h : TableMoves a b) (g : TableMoves b c) : TableMoves a c :=
  fun i => (h i).trans (g i)

/-- A table that moves so stays in order. -/
theorem TableMoves.ok {a b : Vector Entry 32} (h : TableMoves a b) (ha : AuctionsOk a) : AuctionsOk b where
  oneLive := fun i j hi hj hg => ha.oneLive i j ((h i).live hi) ((h j).live hj) (by rw [← (h i).group, ← (h j).group, hg])
  forward := fun i j hl => by rw [(h j).pred]; exact ha.forward i j (by rw [← (h i).link]; exact hl)
  backward := fun i j hp => by rw [(h i).link]; exact ha.backward i j (by rw [← (h j).pred]; exact hp)
  cleared := fun i hf => by
    have h1 := (h i).free hf
    rw [h1] at hf ⊢
    exact ha.cleared i hf

/-- One entry put in its slot. -/
theorem TableMoves.put {a : Vector Entry 32} {i : Fin 32} {e : Entry} (h : a[i].Moves e) : TableMoves a (a.set i e) := by
  intro j
  rw [entries_set]
  split
  · rename_i hij
    subst hij
    exact h
  · exact .refl _

/-- An entry becomes VOID out of its chain: its own predecessor field and the link that names it are cleared. -/
theorem unlink_ok {a : Vector Entry 32} {i : Fin 32} {e : Entry} (ha : AuctionsOk a) (hl : e.link = a[i].link) (hp : e.pred = none)
    (hv : e.state = .void) :
    AuctionsOk (match a[i].pred with
      | none => a.set i e
      | some p => (a.set i e).set p { (a.set i e)[p] with link := none }) := by
  have key : ∀ b : Vector Entry 32, (∀ j, b[j].state = (if i = j then .void else a[j].state)) →
      (∀ j, j ≠ i → b[j].group = a[j].group ∧ b[j].pred = a[j].pred) → b[i].pred = none →
      (∀ j, b[j].link = if a[i].pred = some j then none else a[j].link) →
      (∀ j, j ≠ i → a[i].pred ≠ some j → b[j] = a[j]) → AuctionsOk b := by
    intro b h1 h2 h3 h4 h5
    refine ⟨?_, ?_, ?_, ?_⟩
    · intro x y hx hy hg
      rw [h1] at hx hy
      by_cases hxi : i = x
      · simp [hxi, EntryState.live] at hx
      · by_cases hyi : i = y
        · simp [hyi, EntryState.live] at hy
        · rw [if_neg hxi] at hx
          rw [if_neg hyi] at hy
          refine ha.oneLive x y hx hy ?_
          rw [← (h2 x (Ne.symm hxi)).1, ← (h2 y (Ne.symm hyi)).1, hg]
    · intro x y hxy
      rw [h4] at hxy
      split at hxy
      · simp at hxy
      · rename_i hne
        have h6 := ha.forward x y hxy
        by_cases hyi : y = i
        · subst hyi; exact absurd h6 hne
        · rw [(h2 y hyi).2]; exact h6
    · intro x y hxy
      by_cases hyi : y = i
      · subst hyi; rw [h3] at hxy; simp at hxy
      · rw [(h2 y hyi).2] at hxy
        have h6 := ha.backward x y hxy
        rw [h4]
        split
        · rename_i hpx
          have h7 := ha.backward x i hpx
          rw [h6] at h7
          exact absurd (Option.some.inj h7) hyi
        · exact h6
    · intro x hx
      rw [h1] at hx
      split at hx
      · simp at hx
      · rename_i hxi
        have h6 := ha.cleared x hx
        by_cases hpx : a[i].pred = some x
        · have h7 := ha.backward x i hpx
          rw [h6] at h7
          simp [Entry.freed] at h7
        · rw [h5 x (Ne.symm hxi) hpx]; exact h6
  cases hpi : a[i].pred with
  | none =>
    simp only
    refine key _ ?_ ?_ ?_ ?_ ?_
    · intro j; rw [entries_set]; split <;> simp_all
    · intro j hj; rw [entries_set_ne _ _ (Ne.symm hj)]; exact ⟨rfl, rfl⟩
    · rw [entries_set_self]; exact hp
    · intro j; rw [entries_set, hpi]; simp only [reduceCtorEq, if_false]; split
      · rename_i hij; subst hij; exact hl
      · rfl
    · intro j hj _; rw [entries_set_ne _ _ (Ne.symm hj)]
  | some p =>
    simp only
    refine key _ ?_ ?_ ?_ ?_ ?_
    · intro j
      rw [entries_set]
      split
      · rename_i hpj; subst hpj
        simp only [entries_set]; split <;> simp_all
      · rw [entries_set]; split <;> simp_all
    · intro j hj
      rw [entries_set]
      split
      · rename_i hpj; subst hpj
        simp only [entries_set_ne _ _ (Ne.symm hj)]; exact ⟨trivial, trivial⟩
      · rw [entries_set_ne _ _ (Ne.symm hj)]; exact ⟨rfl, rfl⟩
    · rw [entries_set]
      split
      · rename_i hpj; subst hpj
        simp only [entries_set_self]; exact hp
      · rw [entries_set_self]; exact hp
    · intro j
      rw [entries_set, hpi]
      simp only [Option.some.injEq]
      split
      · rfl
      · rw [entries_set]
        split
        · rename_i hij; subst hij; exact hl
        · rfl
    · intro j hj hpj
      rw [hpi] at hpj
      rw [entries_set_ne _ _ (fun h => hpj (by rw [h])), entries_set_ne _ _ (Ne.symm hj)]

/-- One entry voided leaves the table in order. -/
theorem voidOne_ok {i : Fin 32} {r : VoidReason} {s : State} (h : AuctionsOk s.entries) : AuctionsOk (voidOne i r s).entries := by
  have h1 := unlink_ok (i := i) (e := { s.entries[i] with state := .void, reason := some r, pred := none }) h rfl rfl rfl
  simp only [voidOne, clearLink]
  cases hp : s.entries[i].pred with
  | none =>
    rw [hp] at h1
    simpa using h1
  | some p =>
    rw [hp] at h1
    simp only [setEntry_entries, raise_keeps, handRecord_keeps, withdrawSlot_keeps]
    exact h1

theorem voidChain_ok {n : Nat} {i : Fin 32} {r : VoidReason} {s : State} (h : AuctionsOk s.entries) :
    AuctionsOk (voidChain n i r s).entries := by
  induction n generalizing i r s with
  | zero => exact h
  | succ n ih =>
    simp only [voidChain]
    split
    · exact voidOne_ok h
    · exact ih (voidOne_ok h)

theorem voidEntry_ok {i : Fin 32} {r : VoidReason} {s : State} (h : AuctionsOk s.entries) : AuctionsOk (voidEntry i r s).entries :=
  voidChain_ok h

theorem voidExchanging_ok {s : State} (h : AuctionsOk s.entries) : AuctionsOk (voidExchanging s).entries := by
  simp only [voidExchanging]
  generalize List.finRange 32 = l
  induction l generalizing s with
  | nil => exact h
  | cons i l ih =>
    rw [List.foldl_cons]
    apply ih
    split
    · exact voidEntry_ok h
    · exact h

end Sys2Proof.Machine
end

