-- ==== Sys2Proof/Laws/Card.lean ====
section
/-! SUPPORT. Card memory: every operation on it keeps the canonical form, and a read after a write. -/

namespace Sys2Proof.Machine

/-- The canonical form, said of all entries at once. -/
theorem cardWf_iff (m : List Host.Cell) :
    cardWf m = true ↔ m.Pairwise (fun x y => x.1 < y.1) ∧ ∀ x ∈ m, x.1 < 18446744073709551616 ∧ x.2 ≠ cardDefault := by
  induction m with
  | nil => simp [cardWf]
  | cons x m ih =>
    obtain ⟨a, b⟩ := x
    cases m with
    | nil => simp [cardWf]
    | cons y m =>
      obtain ⟨a', b'⟩ := y
      simp only [cardWf, Bool.and_eq_true, decide_eq_true_eq, ih, List.pairwise_cons, List.mem_cons, forall_eq_or_imp]
      constructor
      · rintro ⟨⟨h1, h2⟩, ⟨h3, h4⟩, h5, h6⟩
        exact ⟨⟨⟨h1, fun z hz => lt_trans h1 (h3 z hz)⟩, h3, h4⟩, ⟨lt_trans h1 h5.1, h2⟩, h5, h6⟩
      · rintro ⟨⟨⟨h1, -⟩, h3, h4⟩, ⟨-, h2⟩, h5, h6⟩
        exact ⟨⟨h1, h2⟩, ⟨h3, h4⟩, h5, h6⟩

/-- A put adds at most the entry put. -/
theorem mem_cardPut {a : Nat} {b : Byte} {m : List Host.Cell} {x : Host.Cell} (h : x ∈ cardPut a b m) :
    x ∈ m ∨ (x = (a, b) ∧ b ≠ cardDefault) := by
  induction m with
  | nil => simp only [cardPut] at h; split at h <;> simp_all
  | cons y m ih =>
    obtain ⟨a', b'⟩ := y
    simp only [cardPut] at h
    split at h
    · split at h <;> simp_all <;> tauto
    · split at h
      · split at h <;> simp_all <;> tauto
      · rcases List.mem_cons.1 h with h | h
        · simp [h]
        · rcases ih h with h | h <;> simp [h]

/-- A put keeps the canonical form. -/
theorem cardPut_wf {a : Nat} {b : Byte} {m : List Host.Cell} (ha : a < 18446744073709551616) (h : cardWf m = true) :
    cardWf (cardPut a b m) = true := by
  rw [cardWf_iff] at h ⊢
  refine ⟨?_, fun x hx => ?_⟩
  · obtain ⟨hp, -⟩ := h
    induction m with
    | nil => simp only [cardPut]; split <;> simp
    | cons y m ih =>
      obtain ⟨a', b'⟩ := y
      obtain ⟨h1, h2⟩ := List.pairwise_cons.1 hp
      simp only [cardPut]
      split
      · rename_i hlt
        split
        · exact hp
        · refine List.pairwise_cons.2 ⟨fun z hz => ?_, hp⟩
          rcases List.mem_cons.1 hz with rfl | hz
          · exact hlt
          · exact lt_trans hlt (h1 z hz)
      · rename_i hlt
        split
        · rename_i heq
          subst heq
          split
          · exact h2
          · exact List.pairwise_cons.2 ⟨h1, h2⟩
        · rename_i hne
          refine List.pairwise_cons.2 ⟨fun z hz => ?_, ih h2⟩
          rcases mem_cardPut hz with hz | ⟨rfl, -⟩
          · exact h1 z hz
          · exact lt_of_le_of_ne (not_lt.1 hlt) (Ne.symm hne)
  · rcases mem_cardPut hx with hx | ⟨rfl, hb⟩
    · exact h.2 x hx
    · exact ⟨ha, hb⟩

/-- A key below all others is not listed. -/
theorem cardRead_of_lt {a : Nat} {m : List Host.Cell} (h : ∀ x ∈ m, a < x.1) : cardRead m a = cardDefault := by
  induction m with
  | nil => rfl
  | cons y m ih =>
    obtain ⟨a', b'⟩ := y
    have h1 : a < a' := h (a', b') (by simp)
    have h2 := ih (fun x hx => h x (by simp [hx]))
    have h3 : (a == a') = false := by simp; omega
    simpa [cardRead, List.lookup, h3] using h2

/-- The byte at the head's address and elsewhere. -/
theorem cardRead_cons (a x : Nat) (b : Byte) (m : List Host.Cell) :
    cardRead ((a, b) :: m) x = if x = a then b else cardRead m x := by
  by_cases h : x = a
  · simp [cardRead, h]
  · have : (x == a) = false := by simpa using h
    simp [cardRead, List.lookup, this, h]

/-- A read after one byte was put: that byte at its address, every other as before. -/
theorem cardRead_cardPut {a : Nat} {b : Byte} {m : List Host.Cell} (x : Nat) (h : cardWf m = true) :
    cardRead (cardPut a b m) x = if x = a then b else cardRead m x := by
  obtain ⟨hp, -⟩ := (cardWf_iff m).1 h
  clear h
  induction m with
  | nil =>
    simp only [cardPut]
    split
    · rename_i hb; split <;> simp [cardRead, hb]
    · rw [cardRead_cons]
  | cons y m ih =>
    obtain ⟨a', b'⟩ := y
    obtain ⟨h1, h2⟩ := List.pairwise_cons.1 hp
    simp only [cardPut]
    split
    · rename_i hlt
      split
      · rename_i hb
        split
        · rename_i hx
          subst hx
          rw [hb]
          refine cardRead_of_lt (fun z hz => ?_)
          rcases List.mem_cons.1 hz with rfl | hz
          · exact hlt
          · exact lt_trans hlt (h1 z hz)
        · rfl
      · rw [cardRead_cons]
    · split
      · rename_i heq
        subst heq
        split
        · rename_i hb
          rw [cardRead_cons]
          split
          · rename_i hx
            subst hx
            rw [hb]
            exact cardRead_of_lt h1
          · rfl
        · rw [cardRead_cons, cardRead_cons]; split <;> rfl
      · rename_i hne
        rw [cardRead_cons, cardRead_cons, ih h2]
        by_cases hx : x = a'
        · subst hx; simp [Ne.symm hne]
        · simp [hx]

/-- A write keeps the canonical form. -/
theorem cardWrite_wf {a : Nat} {bs : Bytes} {m : List Host.Cell} (h : cardWf m = true) : cardWf (cardWrite m a bs) = true := by
  induction bs generalizing a m with
  | nil => exact h
  | cons b bs ih => exact ih (cardPut_wf (Nat.mod_lt _ (by decide)) h)

/-- The host's own writes keep the canonical form. -/
theorem cardHost_wf {ws : List (BitVec 64 × Byte)} {m : List Host.Cell} (h : cardWf m = true) : cardWf (cardHost m ws) = true := by
  induction ws generalizing m with
  | nil => exact h
  | cons w ws ih =>
    rw [cardHost, List.foldl_cons]
    exact ih (cardPut_wf w.1.isLt h)

/-- A read after a write that does not wrap: the byte written within it, every other byte as before. -/
theorem cardRead_cardWrite {a : Nat} {bs : Bytes} {m : List Host.Cell} (x : Nat) (h : cardWf m = true)
    (hw : a + bs.length ≤ 18446744073709551616) :
    cardRead (cardWrite m a bs) x = if a ≤ x ∧ x < a + bs.length then bs.getD (x - a) 0 else cardRead m x := by
  induction bs generalizing a m with
  | nil =>
    rw [if_neg (by simp)]
    rfl
  | cons b bs ih =>
    simp only [List.length_cons] at hw
    have ha : a % 18446744073709551616 = a := Nat.mod_eq_of_lt (by omega)
    simp only [cardWrite, ha]
    rw [ih (cardPut_wf (by omega) h) (by omega), cardRead_cardPut x h]
    by_cases h1 : x = a
    · subst h1; simp
    · by_cases h2 : a + 1 ≤ x ∧ x < a + 1 + bs.length
      · have h3 : a ≤ x ∧ x < a + (bs.length + 1) := by omega
        obtain ⟨k, hk⟩ : ∃ k, x - a = k + 1 := ⟨x - a - 1, by omega⟩
        have h4 : x - (a + 1) = k := by omega
        simp [h2, h3, hk, h4]
      · have h3 : ¬ (a ≤ x ∧ x < a + (bs.length + 1)) := by omega
        rw [if_neg h2, if_neg h1, if_neg (by simpa using h3)]

/-- What has been written is read back, where it does not wrap. -/
theorem cardReadN_cardWrite {a : Nat} {bs : Bytes} {m : List Host.Cell} (h : cardWf m = true)
    (hw : a + bs.length ≤ 18446744073709551616) : cardReadN (cardWrite m a bs) a bs.length = bs := by
  apply List.ext_getElem
  · simp [cardReadN]
  · intro i h1 h2
    have hi : a + i < 18446744073709551616 := by omega
    simp only [cardReadN, List.getElem_map, List.getElem_range, Nat.mod_eq_of_lt hi]
    rw [cardRead_cardWrite _ h hw, if_pos (by omega)]
    simp [h2]

end Sys2Proof.Machine
end

