-- ==== Sys2Proof/Laws/Evidence.lean ====
section
/-! SUPPORT. What a block that hands records can do to the Evidence Unit: records join the tail, losses are counted, the checkpoint
boundary moves, and nothing else. One lemma per operation, and what follows of the queue, its numbers and its chain. -/

namespace Sys2Proof.Machine

/-- The Evidence Unit after records have been handed to it. -/
inductive Evidence.Grows : Evidence → Evidence → Prop where
  | refl (e : Evidence) : Evidence.Grows e e
  /-- a record within the room of its class joins the tail, numbered and chained -/
  | append (e : Evidence) (r : Record) : e.queue.length < r.body.capacity → r.number = e.nextNumber →
      r.check = linkCheck e.chain r.head → Evidence.Grows e (e.append r)
  /-- losses are counted, or the boundary moves -/
  | note (e : Evidence) (l : Vector Nat 11) (r : Option (Nat × Nat)) (b : Option Nat) :
      Evidence.Grows e { e with losses := l, lostRange := r, boundary := b }
  | trans {a b c : Evidence} : Evidence.Grows a b → Evidence.Grows b c → Evidence.Grows a c

/-! ### What growth means -/

theorem Evidence.Grows.keepsQueue {a b : Evidence} (h : a.Grows b) : a.queue <+: b.queue := by
  induction h with
  | refl e => exact List.prefix_refl _
  | append e r _ _ _ => exact List.prefix_append _ _
  | note e l r b => exact List.prefix_refl _
  | trans _ _ h1 h2 => exact h1.trans h2

theorem Evidence.Grows.numbers {a b : Evidence} (h : a.Grows b) : a.nextNumber ≤ b.nextNumber := by
  induction h with
  | refl e => exact le_refl _
  | append e r _ _ _ => exact Nat.le_succ _
  | note e l r b => exact le_refl _
  | trans _ _ h1 h2 => exact h1.trans h2

theorem Evidence.Grows.fence_eq {a b : Evidence} (h : a.Grows b) : b.fence = a.fence := by
  induction h with
  | refl e => rfl
  | append e r _ _ _ => rfl
  | note e l r b => rfl
  | trans _ _ h1 h2 => exact h2.trans h1

/-- A chain with one more element at its end. -/
theorem isChain_concat {α : Type} {R : α → α → Prop} {q : List α} {x : α} (h : q.IsChain R)
    (hx : ∀ y, q.getLast? = some y → R y x) : (q ++ [x]).IsChain R := by
  rw [List.isChain_append]
  refine ⟨h, by simp, fun y hy z hz => ?_⟩
  simp only [List.head?_cons, Option.mem_def, Option.some.injEq] at hz
  subst hz
  exact hx y hy

/-- Records handed keep the Evidence Queue in order. -/
theorem Evidence.Grows.ok {a b : Evidence} (h : a.Grows b) : EvidenceOk a → EvidenceOk b := by
  induction h with
  | refl e => exact id
  | append e r hcap hnum hchk =>
    intro h
    have hcap' : e.queue.length < 512 ∧ (r.body.kind.ordinary = true → e.queue.length < 496) := by
      unfold Body.capacity at hcap
      split at hcap <;> simp_all
      omega
    refine ⟨?_, ?_, ?_, ?_, ?_, ?_, ?_, ?_, ?_⟩
    · simp only [Evidence.append, List.length_append, List.length_singleton]; omega
    · simp only [Evidence.append, ordinaryHeld, List.countP_append, List.countP_singleton]
      have h1 := h.ordinary
      have h2 := List.countP_le_length (p := fun r : Record => r.body.kind.ordinary) (l := e.queue)
      unfold ordinaryHeld at h1
      split
      · have := hcap'.2 (by assumption); omega
      · omega
    · exact isChain_concat h.rising (fun y hy => by rw [hnum, (h.tail y hy).1])
    · exact isChain_concat h.linked (fun y hy => by rw [hchk, (h.tail y hy).2])
    · intro x hx
      simp only [Evidence.append, List.getLast?_append, List.getLast?_singleton, Option.some_or, Option.some.injEq] at hx
      subst hx
      exact ⟨by simp [Evidence.append, hnum], rfl⟩
    · simp only [Evidence.append]; omega
    · intro h1
      have := h.start
      simp only [Evidence.append] at h1
      omega
    · intro x hx h1
      simp only [Evidence.append, List.mem_append, List.mem_singleton] at hx
      rcases hx with hx | rfl
      · exact h.first x hx h1
      · rw [hchk, h.origin (by rw [← hnum, h1])]
    · intro n hn
      obtain ⟨x, hx, h2⟩ := h.fence n hn
      exact ⟨x, List.mem_append_left _ hx, h2⟩
  | note e l r b => exact fun h => ⟨h.total, h.ordinary, h.rising, h.linked, h.tail, h.start, h.origin, h.first, h.fence⟩
  | trans _ _ h1 h2 => exact fun h => h2 (h1 h)

/-! ### One lemma per operation

Each says: what has grown from `e` so far has grown from `e` still, after the operation. -/

/-- The queue of records as a handed record leaves it. -/
theorem handRecord_evid (b : Body) (s : State) :
    (handRecord b s).evid = if s.evid.queue.length < b.capacity then s.evid.append (makeRecord b s) else (loseRecord b s).evid := by
  unfold handRecord admitted
  by_cases h : s.evid.queue.length < b.capacity <;> simp [h]

theorem handRecord_grows {e : Evidence} {b : Body} {s : State} (h : e.Grows s.evid) : e.Grows (handRecord b s).evid := by
  rw [handRecord_evid]
  split
  · rename_i hc
    exact h.trans (.append _ _ hc rfl rfl)
  · exact h.trans (.note _ _ _ _)

theorem changeGrade_grows {e : Evidence} {g : Grade} {c : GradeCause} {s : State} (h : e.Grows s.evid) :
    e.Grows (changeGrade g c s).evid := by
  simp only [changeGrade]
  split
  · exact h
  · exact handRecord_grows h

theorem demote_grows {e : Evidence} {s : State} (h : e.Grows s.evid) :
    e.Grows (demote s).evid := by
  simp only [demote]
  split
  · exact changeGrade_grows h
  · exact h

theorem closeBatch_grows {e : Evidence} {c : BatchCause} {s : State} (h : e.Grows s.evid) :
    e.Grows (closeBatch c s).evid := by
  simp only [closeBatch]
  split
  · exact h
  · exact handRecord_grows h

theorem closeNotice_grows {e : Evidence} {i : Fin 32} {s : State} (h : e.Grows s.evid) :
    e.Grows (closeNotice i s).evid := by
  obtain ⟨u, s1, hs, rfl | ⟨es, rfl⟩⟩ := closeNotice_shape i s <;> rw [hs]
  · exact h
  · exact closeBatch_grows h

theorem joinStamp_grows {e : Evidence} {st : Stamp} {s : State} (h : e.Grows s.evid) :
    e.Grows (joinStamp st s).evid := by
  simp only [joinStamp]
  split
  · exact closeBatch_grows h
  · exact h

theorem issueStamp_grows {e : Evidence} {r : Request} {x : RawSource} {n : Nat} {s : State} (h : e.Grows s.evid) :
    e.Grows (issueStamp r x n s).evid := by
  simp only [issueStamp]
  refine joinStamp_grows ?_
  split
  · exact closeBatch_grows h
  · exact h

theorem answerRequest_grows {e : Evidence} {r : Request} {s : State} (h : e.Grows s.evid) :
    e.Grows (answerRequest r s).evid := by
  obtain ⟨w, hs⟩ | ⟨x, n, hs⟩ := answerRequest_shape r s <;> rw [hs]
  · exact h
  · exact issueStamp_grows h

theorem voidOne_grows {e : Evidence} {i : Fin 32} {r : VoidReason} {s : State} (h : e.Grows s.evid) :
    e.Grows (voidOne i r s).evid := by
  simp only [voidOne, clearLink_keeps, raise_keeps]
  exact handRecord_grows h

theorem voidChain_grows {e : Evidence} {n : Nat} {i : Fin 32} {r : VoidReason} {s : State} (h : e.Grows s.evid) :
    e.Grows (voidChain n i r s).evid := by
  induction n generalizing i r s with
  | zero => exact h
  | succ n ih =>
    simp only [voidChain]
    split
    · exact voidOne_grows h
    · exact ih (voidOne_grows h)

theorem voidEntry_grows {e : Evidence} {i : Fin 32} {r : VoidReason} {s : State} (h : e.Grows s.evid) :
    e.Grows (voidEntry i r s).evid := by
  exact voidChain_grows h

/-- Growth over a run of operations, each of which grows. -/
theorem foldl_grows {α : Type} {f : State → α → State} {e : Evidence}
    (hf : ∀ (s : State) (x : α), e.Grows s.evid → e.Grows (f s x).evid) (l : List α) {s : State} (h : e.Grows s.evid) :
    e.Grows (l.foldl f s).evid := by
  induction l generalizing s with
  | nil => exact h
  | cons x l ih => exact ih (hf s x h)

theorem voidExchanging_grows {e : Evidence} {s : State} (h : e.Grows s.evid) :
    e.Grows (voidExchanging s).evid := by
  refine foldl_grows (fun s i h => ?_) _ h
  split
  · exact voidEntry_grows h
  · exact h

theorem recordFix_grows {e : Evidence} {i : Fin 32} {s : State} (h : e.Grows s.evid) :
    e.Grows (recordFix i s).evid := by
  exact handRecord_grows h

theorem fixEntry_grows {e : Evidence} {i : Fin 32} {s : State} (h : e.Grows s.evid) :
    e.Grows (fixEntry i s).evid := by
  simp only [fixEntry]
  split
  · split
    · exact recordFix_grows h
    · exact recordFix_grows h
  · exact voidEntry_grows h

theorem closeOne_grows {e : Evidence} {i : Fin 32} {s : State} (h : e.Grows s.evid) :
    e.Grows (closeOne i s).evid := by
  simp only [closeOne, raise_keeps]
  exact handRecord_grows (closeNotice_grows h)

theorem closeChain_grows {e : Evidence} {n : Nat} {i : Fin 32} {s : State} (h : e.Grows s.evid) :
    e.Grows (closeChain n i s).evid := by
  induction n generalizing i s with
  | zero => exact h
  | succ n ih =>
    have h1 := closeOne_grows (i := i) h
    simp only [closeChain]
    generalize closeOne i s = s1 at h1
    split
    · exact h1
    · split
      · exact h1
      · split
        · exact voidEntry_grows h1
        · split
          · exact voidEntry_grows h1
          · split
            · exact h1
            · split
              · simp only [drawShare_keeps]; exact h1
              · split
                · exact ih (recordFix_grows h1)
                · exact recordFix_grows h1

theorem closeEntry_grows {e : Evidence} {i : Fin 32} {s : State} (h : e.Grows s.evid) :
    e.Grows (closeEntry i s).evid := by
  exact closeChain_grows h

theorem commitPeer_grows {e : Evidence} {o : PeerState} {c : PeerCause} {p : Peer} {s : State} (h : e.Grows s.evid) :
    e.Grows (commitPeer o c p s).evid := by
  simp only [commitPeer]
  split
  · exact h
  · exact handRecord_grows h

theorem beaconReport_grows {e : Evidence} {b : Beacon} {t : Nat} {r : ReceiptResult} {s : State} (h : e.Grows s.evid) :
    e.Grows (beaconReport b t r s).evid := by
  simp only [beaconReport]
  split
  · exact h
  · exact commitPeer_grows h

theorem recordReference_grows {e : Evidence} {o : RefState} {c : RefCause} {s : State} (h : e.Grows s.evid) :
    e.Grows (recordReference o c s).evid := by
  exact handRecord_grows h

theorem leaveState_grows {e : Evidence} {o : RefState} {c : RefCause} {s : State} (h : e.Grows s.evid) :
    e.Grows (leaveState o c s).evid := by
  simp only [leaveState]
  split
  · exact demote_grows (recordReference_grows h)
  · exact recordReference_grows h

theorem takeStep_grows {e : Evidence} {a : Int} {c : StepCause} {s : State} (h : e.Grows s.evid) :
    e.Grows (takeStep a c s).evid := by
  simp only [takeStep, raise_keeps]
  exact handRecord_grows h

theorem recordDeferral_grows {e : Evidence} {a : Int} {s : State} (h : e.Grows s.evid) :
    e.Grows (recordDeferral a s).evid := by
  exact handRecord_grows h

theorem stepInCold_grows {e : Evidence} {a : Int} {c : StepCause} {s : State} (h : e.Grows s.evid) :
    e.Grows (stepInCold a c s).evid := by
  simp only [stepInCold]
  split
  · exact h
  · exact takeStep_grows h

theorem judgePeer_grows {e : Evidence} {c : Int} {x : PeerSource} {s : State} (h : e.Grows s.evid) :
    e.Grows (judgePeer c s x).evid := by
  simp only [judgePeer]
  split
  · exact h
  · exact commitPeer_grows h

theorem agePeer_grows {e : Evidence} {i : Nat} {s : State} (h : e.Grows s.evid) :
    e.Grows (agePeer s i).evid := by
  simp only [agePeer]
  split
  · exact h
  · exact commitPeer_grows h

theorem peersAtInstant_grows {e : Evidence} {x : List PeerSource} {c : Option Int} {s : State} (h : e.Grows s.evid) :
    e.Grows (peersAtInstant x c s).evid := by
  simp only [peersAtInstant]
  refine foldl_grows (fun s i h => agePeer_grows h) _ ?_
  split
  · exact h
  · exact foldl_grows (fun s i h => judgePeer_grows h) _ h

theorem judgeReference_grows {e : Evidence} {r : Reference} {c : Int} {s : State} (h : e.Grows s.evid) :
    e.Grows (judgeReference r c s).evid := by
  simp only [judgeReference]
  split
  · split
    · exact leaveState_grows h
    · exact h
  · split
    · exact leaveState_grows h
    · exact h
  · exact h

theorem judgeAll_grows {e : Evidence} {x : List PeerSource} {r : Reference} {c : Option Int} {s : State} (h : e.Grows s.evid) :
    e.Grows (judgeAll x r c s).evid := by
  simp only [judgeAll]
  split
  · exact peersAtInstant_grows h
  · exact judgeReference_grows (peersAtInstant_grows h)

theorem formGrade_grows {e : Evidence} {x : Combination} {s : State} (h : e.Grows s.evid) :
    e.Grows (formGrade x s).evid := by
  simp only [formGrade]
  split
  · exact h
  · split
    · exact changeGrade_grows h
    · exact changeGrade_grows h

theorem deferStep_grows {e : Evidence} {c : Int} {s : State} (h : e.Grows s.evid) :
    e.Grows (deferStep c s).evid := by
  simp only [deferStep, setKind_keeps]
  split
  · exact h
  · exact recordDeferral_grows h

theorem applyMoved_grows {e : Evidence} {c : Int} {s : State} (h : e.Grows s.evid) :
    e.Grows (applyMoved c s).evid := by
  simp only [applyMoved]
  split
  · split
    · exact deferStep_grows h
    · exact takeStep_grows h
  · exact h

theorem applyCold_grows {e : Evidence} {c : Int} {s : State} (h : e.Grows s.evid) :
    e.Grows (applyCold c s).evid := by
  simp only [applyCold]
  split
  · exact h
  · exact takeStep_grows h

theorem applyCombination_grows {e : Evidence} {c : Int} {s : State} (h : e.Grows s.evid) :
    e.Grows (applyCombination c s).evid := by
  simp only [applyCombination]
  split
  · exact applyCold_grows h
  · exact applyMoved_grows h

theorem applyOutcome_grows {e : Evidence} {c : Option Int} {s : State} (h : e.Grows s.evid) :
    e.Grows (applyOutcome c s).evid := by
  cases c with
  | none => simp only [applyOutcome, applyNone_keeps]; exact h
  | some c => exact applyCombination_grows h

theorem recordSync_grows {e : Evidence} {s : State} (h : e.Grows s.evid) :
    e.Grows (recordSync s).evid := by
  simp only [recordSync]
  split
  · exact h
  · exact handRecord_grows h

theorem takeCheckpoint_grows {e : Evidence} {c : CheckpointCause} {s : State} (h : e.Grows s.evid) :
    e.Grows (takeCheckpoint c s).evid := by
  exact handRecord_grows h

theorem periodicCheckpoint_grows {e : Evidence} {s : State} (h : e.Grows s.evid) :
    e.Grows (periodicCheckpoint s).evid := by
  simp only [periodicCheckpoint]
  split
  · exact h
  · split
    · exact (takeCheckpoint_grows h).trans (.note _ _ _ _)
    · exact h

theorem steeringInstant_grows {e : Evidence} {s : State} (h : e.Grows s.evid) :
    e.Grows (steeringInstant s).evid := by
  simp only [steeringInstant]
  exact periodicCheckpoint_grows (recordSync_grows (applyOutcome_grows (judgeAll_grows (formGrade_grows h))))

theorem qualificationReport_grows {e : Evidence} {t : Int} {s : State} (h : e.Grows s.evid) :
    e.Grows (qualificationReport t s).evid := by
  simp only [qualificationReport]
  split
  · exact stepInCold_grows h
  · exact h

theorem goodEdge_grows {e : Evidence} {n : Nat} {s : State} (h : e.Grows s.evid) :
    e.Grows (goodEdge n s).evid := by
  simp only [goodEdge]
  split
  · exact recordReference_grows h
  · exact qualificationReport_grows (recordReference_grows h)
  · exact h

theorem badEdge_grows {e : Evidence} {v : Verdict} {s : State} (h : e.Grows s.evid) :
    e.Grows (badEdge v s).evid := by
  simp only [badEdge]
  split
  · exact leaveState_grows h
  · exact h

theorem acceptBeacon_grows {e : Evidence} {b : Beacon} {t : Nat} {s : State} (h : e.Grows s.evid) :
    e.Grows (acceptBeacon b t s).evid := by
  simp only [acceptBeacon]
  exact beaconReport_grows h

theorem deliver_grows {e : Evidence} {f : Frame} {t : Nat} {s : State} (h : e.Grows s.evid) :
    e.Grows (deliver f t s).evid := by
  cases f with
  | beacon b => exact acceptBeacon_grows h
  | draw d => simp only [deliver, drawReport_keeps]; exact h
  | tally d => simp only [deliver, tallyReport_keeps]; exact h

theorem conflict_grows {e : Evidence} {f : Frame} {t : Nat} {s : State} (h : e.Grows s.evid) :
    e.Grows (conflict f t s).evid := by
  cases f with
  | beacon b => exact handRecord_grows h
  | draw d => exact h
  | tally d => exact h

theorem checkFrame_grows {e : Evidence} {x : Bytes} {d : Bool} {t : Nat} {s : State} (h : e.Grows s.evid) :
    e.Grows (checkFrame x d t s).evid := by
  simp only [checkFrame]
  split
  · exact h
  · split
    · exact h
    · split
      · exact h
      · split
        · exact conflict_grows h
        · exact deliver_grows h

theorem warmRecords_grows {e : Evidence} {b : ResetBody} {o : RefState} {s : State} (h : e.Grows s.evid) :
    e.Grows (warmRecords b o s).evid := by
  simp only [warmRecords]
  have h1 : e.Grows (if o.tracking = true then recordReference o .reset (handRecord (.reset b) s)
      else handRecord (.reset b) s).evid := by
    split
    · exact recordReference_grows (handRecord_grows h)
    · exact handRecord_grows h
  split
  · exact demote_grows (voidExchanging_grows h1)
  · exact voidExchanging_grows h1

end Sys2Proof.Machine
end

