-- ==== Sys2Proof/Laws/Notices.lean ====
section
/-! SUPPORT. No operation of a block clears a notice flag. One lemma per operation: a flag set before it is set after it. -/

namespace Sys2Proof.Machine

/-- Raising sets the flag raised. -/
theorem raise_sets (n : Notice) (s : State) : flagSet n (raise n s) = true := by
  cases n <;> simp [flagSet, raise, Notice.index]

theorem raise_holds {n m : Notice} {s : State} (h : flagSet n s = true) : flagSet n (raise m s) = true := by
  simp only [flagSet, raise, BitVec.getLsbD_or, Bool.or_eq_true] at *
  exact .inl h

/-- The flags are a matter of the Service Port Controller alone. -/
theorem flagSet_of_port {n : Notice} {s t : State} (hp : t.port = s.port) (h : flagSet n s = true) : flagSet n t = true := by
  rw [flagSet, hp]
  exact h

theorem wakeEngine_holds {n : Notice} {s : State} (h : flagSet n s = true) : flagSet n (wakeEngine s) = true :=
  flagSet_of_port (by simp) h

theorem handRecord_holds {n : Notice} {b : Body} {s : State} (h : flagSet n s = true) : flagSet n (handRecord b s) = true := by
  unfold handRecord
  split
  · exact wakeEngine_holds h
  · exact raise_holds h

theorem changeGrade_holds {n : Notice} {g : Grade} {c : GradeCause} {s : State} (h : flagSet n s = true) :
    flagSet n (changeGrade g c s) = true := by
  simp only [changeGrade]
  split
  · exact h
  · exact raise_holds (handRecord_holds h)

theorem demote_holds {n : Notice} {s : State} (h : flagSet n s = true) :
    flagSet n (demote s) = true := by
  simp only [demote]
  split
  · exact changeGrade_holds h
  · exact h

theorem closeBatch_holds {n : Notice} {c : BatchCause} {s : State} (h : flagSet n s = true) :
    flagSet n (closeBatch c s) = true := by
  simp only [closeBatch]
  split
  · exact h
  · exact handRecord_holds h

theorem closeNotice_holds {n : Notice} {i : Fin 32} {s : State} (h : flagSet n s = true) :
    flagSet n (closeNotice i s) = true := by
  obtain ⟨u, s1, hs, rfl | ⟨es, rfl⟩⟩ := closeNotice_shape i s <;> rw [hs]
  · exact h
  · exact closeBatch_holds h

theorem joinStamp_holds {n : Notice} {st : Stamp} {s : State} (h : flagSet n s = true) :
    flagSet n (joinStamp st s) = true := by
  simp only [joinStamp]
  split
  · exact closeBatch_holds h
  · exact h

theorem issueStamp_holds {n : Notice} {r : Request} {x : RawSource} {k : Nat} {s : State} (h : flagSet n s = true) :
    flagSet n (issueStamp r x k s) = true := by
  simp only [issueStamp]
  refine joinStamp_holds ?_
  split
  · exact closeBatch_holds h
  · exact h

theorem answerRequest_holds {n : Notice} {r : Request} {s : State} (h : flagSet n s = true) :
    flagSet n (answerRequest r s) = true := by
  obtain ⟨w, hs⟩ | ⟨x, k, hs⟩ := answerRequest_shape r s <;> rw [hs]
  · exact h
  · exact issueStamp_holds h

theorem voidOne_holds {n : Notice} {i : Fin 32} {r : VoidReason} {s : State} (h : flagSet n s = true) :
    flagSet n (voidOne i r s) = true := by
  simp only [voidOne]
  refine flagSet_of_port (clearLink_keeps _ _).2.2.2.2.2.1 (raise_holds (handRecord_holds h))

theorem voidChain_holds {n : Notice} {k : Nat} {i : Fin 32} {r : VoidReason} {s : State} (h : flagSet n s = true) :
    flagSet n (voidChain k i r s) = true := by
  induction k generalizing i r s with
  | zero => exact h
  | succ k ih =>
    simp only [voidChain]
    split
    · exact voidOne_holds h
    · exact ih (voidOne_holds h)

theorem voidEntry_holds {n : Notice} {i : Fin 32} {r : VoidReason} {s : State} (h : flagSet n s = true) :
    flagSet n (voidEntry i r s) = true := by
  exact voidChain_holds h

/-- A run of operations, none of which clears the flag. -/
theorem foldl_holds {α : Type} {f : State → α → State} {n : Notice}
    (hf : ∀ (s : State) (x : α), flagSet n s = true → flagSet n (f s x) = true) (l : List α) {s : State}
    (h : flagSet n s = true) : flagSet n (l.foldl f s) = true := by
  induction l generalizing s with
  | nil => exact h
  | cons x l ih => exact ih (hf s x h)

theorem voidExchanging_holds {n : Notice} {s : State} (h : flagSet n s = true) :
    flagSet n (voidExchanging s) = true := by
  refine foldl_holds (fun s i h => ?_) _ h
  split
  · exact voidEntry_holds h
  · exact h

theorem recordFix_holds {n : Notice} {i : Fin 32} {s : State} (h : flagSet n s = true) :
    flagSet n (recordFix i s) = true := by
  exact raise_holds (handRecord_holds h)

theorem fixEntry_holds {n : Notice} {i : Fin 32} {s : State} (h : flagSet n s = true) :
    flagSet n (fixEntry i s) = true := by
  simp only [fixEntry]
  split
  · split
    · exact raise_holds (recordFix_holds h)
    · exact recordFix_holds h
  · exact voidEntry_holds h

theorem closeOne_holds {n : Notice} {i : Fin 32} {s : State} (h : flagSet n s = true) :
    flagSet n (closeOne i s) = true := by
  simp only [closeOne]
  exact raise_holds (handRecord_holds (closeNotice_holds h))

theorem closeChain_holds {n : Notice} {k : Nat} {i : Fin 32} {s : State} (h : flagSet n s = true) :
    flagSet n (closeChain k i s) = true := by
  induction k generalizing i s with
  | zero => exact h
  | succ k ih =>
    have h1 := closeOne_holds (i := i) h
    simp only [closeChain]
    generalize closeOne i s = s1 at h1
    split
    · exact h1
    · split
      · exact h1
      · split
        · exact voidEntry_holds h1
        · split
          · exact voidEntry_holds h1
          · split
            · exact h1
            · split
              · exact flagSet_of_port (by simp) h1
              · split
                · exact ih (recordFix_holds h1)
                · exact recordFix_holds h1

theorem closeEntry_holds {n : Notice} {i : Fin 32} {s : State} (h : flagSet n s = true) :
    flagSet n (closeEntry i s) = true := by
  exact closeChain_holds h

theorem commitPeer_holds {n : Notice} {o : PeerState} {c : PeerCause} {p : Peer} {s : State} (h : flagSet n s = true) :
    flagSet n (commitPeer o c p s) = true := by
  simp only [commitPeer]
  split
  · exact h
  · exact raise_holds (handRecord_holds h)

theorem beaconReport_holds {n : Notice} {b : Beacon} {t : Nat} {r : ReceiptResult} {s : State} (h : flagSet n s = true) :
    flagSet n (beaconReport b t r s) = true := by
  simp only [beaconReport]
  split
  · exact h
  · exact commitPeer_holds h

theorem recordReference_holds {n : Notice} {o : RefState} {c : RefCause} {s : State} (h : flagSet n s = true) :
    flagSet n (recordReference o c s) = true := by
  exact raise_holds (handRecord_holds h)

theorem leaveState_holds {n : Notice} {o : RefState} {c : RefCause} {s : State} (h : flagSet n s = true) :
    flagSet n (leaveState o c s) = true := by
  simp only [leaveState]
  split
  · exact demote_holds (recordReference_holds h)
  · exact recordReference_holds h

theorem takeStep_holds {n : Notice} {a : Int} {c : StepCause} {s : State} (h : flagSet n s = true) :
    flagSet n (takeStep a c s) = true := by
  simp only [takeStep]
  exact raise_holds (handRecord_holds h)

theorem recordDeferral_holds {n : Notice} {a : Int} {s : State} (h : flagSet n s = true) :
    flagSet n (recordDeferral a s) = true := by
  exact raise_holds (handRecord_holds h)

theorem stepInCold_holds {n : Notice} {a : Int} {c : StepCause} {s : State} (h : flagSet n s = true) :
    flagSet n (stepInCold a c s) = true := by
  simp only [stepInCold]
  split
  · exact h
  · exact takeStep_holds h

theorem judgePeer_holds {n : Notice} {c : Int} {x : PeerSource} {s : State} (h : flagSet n s = true) :
    flagSet n (judgePeer c s x) = true := by
  simp only [judgePeer]
  split
  · exact h
  · exact commitPeer_holds h

theorem agePeer_holds {n : Notice} {i : Nat} {s : State} (h : flagSet n s = true) :
    flagSet n (agePeer s i) = true := by
  simp only [agePeer]
  split
  · exact h
  · exact commitPeer_holds h

theorem peersAtInstant_holds {n : Notice} {x : List PeerSource} {c : Option Int} {s : State} (h : flagSet n s = true) :
    flagSet n (peersAtInstant x c s) = true := by
  simp only [peersAtInstant]
  refine foldl_holds (fun s i h => agePeer_holds h) _ ?_
  split
  · exact h
  · exact foldl_holds (fun s i h => judgePeer_holds h) _ h

theorem judgeReference_holds {n : Notice} {r : Reference} {c : Int} {s : State} (h : flagSet n s = true) :
    flagSet n (judgeReference r c s) = true := by
  simp only [judgeReference]
  split
  · split
    · exact leaveState_holds h
    · exact h
  · split
    · exact leaveState_holds h
    · exact h
  · exact h

theorem judgeAll_holds {n : Notice} {x : List PeerSource} {r : Reference} {c : Option Int} {s : State} (h : flagSet n s = true) :
    flagSet n (judgeAll x r c s) = true := by
  simp only [judgeAll]
  split
  · exact peersAtInstant_holds h
  · exact judgeReference_holds (peersAtInstant_holds h)

theorem formGrade_holds {n : Notice} {x : Combination} {s : State} (h : flagSet n s = true) :
    flagSet n (formGrade x s) = true := by
  obtain hs | ⟨g, c, u, hs⟩ := formGrade_shape x s <;> rw [hs]
  · exact h
  · exact changeGrade_holds h

theorem deferStep_holds {n : Notice} {c : Int} {s : State} (h : flagSet n s = true) :
    flagSet n (deferStep c s) = true := by
  simp only [deferStep]
  split
  · exact h
  · exact recordDeferral_holds (flagSet_of_port rfl h)

theorem applyMoved_holds {n : Notice} {c : Int} {s : State} (h : flagSet n s = true) :
    flagSet n (applyMoved c s) = true := by
  simp only [applyMoved]
  split
  · split
    · exact deferStep_holds h
    · exact takeStep_holds h
  · exact h

theorem applyCold_holds {n : Notice} {c : Int} {s : State} (h : flagSet n s = true) :
    flagSet n (applyCold c s) = true := by
  simp only [applyCold]
  split
  · exact h
  · exact takeStep_holds h

theorem applyCombination_holds {n : Notice} {c : Int} {s : State} (h : flagSet n s = true) :
    flagSet n (applyCombination c s) = true := by
  simp only [applyCombination]
  split
  · exact applyCold_holds h
  · exact applyMoved_holds h

theorem applyOutcome_holds {n : Notice} {c : Option Int} {s : State} (h : flagSet n s = true) :
    flagSet n (applyOutcome c s) = true := by
  cases c with
  | none => exact flagSet_of_port (by simp [applyOutcome]) h
  | some c => exact applyCombination_holds h

theorem recordSync_holds {n : Notice} {s : State} (h : flagSet n s = true) :
    flagSet n (recordSync s) = true := by
  simp only [recordSync]
  split
  · exact h
  · exact handRecord_holds h

theorem takeCheckpoint_holds {n : Notice} {c : CheckpointCause} {s : State} (h : flagSet n s = true) :
    flagSet n (takeCheckpoint c s) = true := by
  exact handRecord_holds h

theorem periodicCheckpoint_holds {n : Notice} {s : State} (h : flagSet n s = true) :
    flagSet n (periodicCheckpoint s) = true := by
  simp only [periodicCheckpoint]
  split
  · exact h
  · split
    · exact takeCheckpoint_holds h
    · exact h

theorem steeringInstant_holds {n : Notice} {s : State} (h : flagSet n s = true) :
    flagSet n (steeringInstant s) = true := by
  simp only [steeringInstant]
  exact periodicCheckpoint_holds (recordSync_holds (applyOutcome_holds (judgeAll_holds (formGrade_holds h))))

theorem qualificationReport_holds {n : Notice} {t : Int} {s : State} (h : flagSet n s = true) :
    flagSet n (qualificationReport t s) = true := by
  simp only [qualificationReport]
  split
  · exact stepInCold_holds h
  · exact h

theorem goodEdge_holds {n : Notice} {k : Nat} {s : State} (h : flagSet n s = true) :
    flagSet n (goodEdge k s) = true := by
  simp only [goodEdge]
  split
  · exact recordReference_holds h
  · exact qualificationReport_holds (recordReference_holds h)
  · exact h

theorem badEdge_holds {n : Notice} {v : Verdict} {s : State} (h : flagSet n s = true) :
    flagSet n (badEdge v s) = true := by
  simp only [badEdge]
  split
  · exact leaveState_holds h
  · exact h

theorem acceptBeacon_holds {n : Notice} {b : Beacon} {t : Nat} {s : State} (h : flagSet n s = true) :
    flagSet n (acceptBeacon b t s) = true := by
  simp only [acceptBeacon]
  exact beaconReport_holds h

theorem deliver_holds {n : Notice} {f : Frame} {t : Nat} {s : State} (h : flagSet n s = true) :
    flagSet n (deliver f t s) = true := by
  cases f with
  | beacon b => exact acceptBeacon_holds h
  | draw d => exact flagSet_of_port (by simp [deliver]) h
  | tally d => exact flagSet_of_port (by simp [deliver]) h

theorem conflict_holds {n : Notice} {f : Frame} {t : Nat} {s : State} (h : flagSet n s = true) :
    flagSet n (conflict f t s) = true := by
  cases f with
  | beacon b => exact handRecord_holds (raise_holds h)
  | draw d => exact raise_holds h
  | tally d => exact raise_holds h

theorem checkFrame_holds {n : Notice} {x : Bytes} {d : Bool} {t : Nat} {s : State} (h : flagSet n s = true) :
    flagSet n (checkFrame x d t s) = true := by
  simp only [checkFrame]
  split
  · exact h
  · split
    · exact h
    · split
      · exact h
      · split
        · exact conflict_holds h
        · exact deliver_holds h

theorem enterFault_holds {n : Notice} {i : Option Nat} {st : CompletionStatus} {s : State} (h : flagSet n s = true) :
    flagSet n (enterFault i st s) = true := by
  exact raise_holds h

theorem enterStalled_holds {n : Notice} {i : Nat} {s : State} (h : flagSet n s = true) :
    flagSet n (enterStalled i s) = true := by
  exact raise_holds h

theorem writeCard_holds {n : Notice} {a : Nat} {x : Bytes} {e : Bool} {s : State} (h : flagSet n s = true) :
    flagSet n (writeCard a x e s) = true := by
  exact flagSet_of_port (by simp) h

theorem faultWriteBack_holds {n : Notice} {b : Bytes} {e : CompletionStatus} {c : CardInput} {s : State} (h : flagSet n s = true) :
    flagSet n (faultWriteBack b e c s) = true := by
  simp only [faultWriteBack]
  split
  · exact flagSet_of_port rfl h
  · exact enterFault_holds (writeCard_holds h)

theorem readDescriptor_holds {n : Notice} {i : Nat} {c : CardInput} {s : State} (h : flagSet n s = true) :
    flagSet n (readDescriptor i c s) = true := by
  simp only [readDescriptor]
  split
  · exact enterFault_holds h
  · split
    · exact enterStalled_holds h
    · split
      · exact faultWriteBack_holds (flagSet_of_port rfl h)
      · exact h

theorem stopWriteBack_holds {n : Notice} {d : Descriptor} {c : CardInput} {s : State} (h : flagSet n s = true) :
    flagSet n (stopWriteBack d c s) = true := by
  simp only [stopWriteBack]
  split
  · exact enterFault_holds h
  · refine flagSet_of_port ?_ h
    simp

theorem recordLoss_holds {n : Notice} {s : State} (h : flagSet n s = true) :
    flagSet n (recordLoss s) = true := by
  simp only [recordLoss]
  split
  · exact handRecord_holds h
  · exact h

theorem fenceWritten_holds {n : Notice} {k : Nat} {s : State} (h : flagSet n s = true) :
    flagSet n (fenceWritten k s) = true := by
  simp only [fenceWritten]
  split
  · exact raise_holds h
  · exact h

theorem removeHead_holds {n : Notice} {k : Nat} {q : List Record} {s : State} (h : flagSet n s = true) :
    flagSet n (removeHead k q s) = true := by
  simp only [removeHead]
  exact fenceWritten_holds (recordLoss_holds h)

theorem writeDone_holds {n : Notice} {d : Descriptor} {s : State} (h : flagSet n s = true) :
    flagSet n (writeDone d s) = true := by
  have h1 : flagSet n (writeCard (descriptorAddress s.cfg (s.engine.index.getD 0)) (d.bytes .spent .done) false s) = true :=
    writeCard_holds h
  simp only [writeDone]
  generalize writeCard (descriptorAddress s.cfg (s.engine.index.getD 0)) (d.bytes .spent .done) false s = s1 at h1
  split
  · exact raise_holds (flagSet_of_port rfl h1)
  · exact flagSet_of_port rfl h1

theorem followLink_holds {n : Notice} {d : Descriptor} {c : CardInput} {s : State} (h : flagSet n s = true) :
    flagSet n (followLink d c s) = true := by
  simp only [followLink]
  split
  · exact flagSet_of_port rfl h
  · split
    · split
      · exact flagSet_of_port rfl h
      · exact readDescriptor_holds (flagSet_of_port rfl h)
    · exact flagSet_of_port rfl h

theorem completeDescriptor_holds {n : Notice} {d : Descriptor} {c : CardInput} {s : State} (h : flagSet n s = true) :
    flagSet n (completeDescriptor d c s) = true := by
  simp only [completeDescriptor]
  split
  · exact flagSet_of_port rfl h
  · split
    · exact enterFault_holds h
    · exact followLink_holds (writeDone_holds h)

theorem finishStop_holds {n : Notice} {d : Descriptor} {c : CardInput} {s : State} (h : flagSet n s = true) :
    flagSet n (finishStop d c s) = true := by
  simp only [finishStop]
  split
  · exact flagSet_of_port rfl h
  · exact stopWriteBack_holds h

theorem afterWrite_holds {n : Notice} {d : Descriptor} {c : CardInput} {s : State} (h : flagSet n s = true) :
    flagSet n (afterWrite d c s) = true := by
  simp only [afterWrite]
  split
  · exact completeDescriptor_holds h
  · split
    · exact finishStop_holds h
    · exact flagSet_of_port rfl h

theorem resumeTransfer_holds {n : Notice} {x : EngineTransfer} {d : Descriptor} {c : CardInput} {s : State} (h : flagSet n s = true) :
    flagSet n (resumeTransfer x d c s) = true := by
  cases x
  · exact completeDescriptor_holds h
  · exact finishStop_holds h
  · simp only [resumeTransfer]
    split
    · exact h
    · exact readDescriptor_holds (flagSet_of_port rfl h)
  · exact faultWriteBack_holds h

theorem acknowledge_holds {n : Notice} {r : Record} {q : List Record} {d : Descriptor} {c : CardInput} {s : State} (h : flagSet n s = true) :
    flagSet n (acknowledge r q d c s) = true := by
  simp only [acknowledge]
  exact afterWrite_holds (removeHead_holds (writeCard_holds h))

theorem acknowledgeNext_holds {n : Notice} {d : Descriptor} {c : CardInput} {s : State} (h : flagSet n s = true) :
    flagSet n (acknowledgeNext d c s) = true := by
  simp only [acknowledgeNext]
  split
  · exact resumeTransfer_holds h
  · exact acknowledge_holds h
  · exact h

theorem stopEngine_holds {n : Notice} {c : CardInput} {s : State} (h : flagSet n s = true) :
    flagSet n (stopEngine c s) = true := by
  simp only [stopEngine]
  split <;> first | exact h | exact stopWriteBack_holds h | exact flagSet_of_port rfl h

theorem stopWhole_holds {n : Notice} {c : CardInput} {s : State} (h : flagSet n s = true) :
    flagSet n (stopWhole c s) = true := by
  simp only [stopWhole]
  split
  · exact stopEngine_holds (resumeTransfer_holds h)
  · exact stopEngine_holds h

end Sys2Proof.Machine
end

