-- ==== Sys2Proof/Laws/Chains.lean ====
section
/-! SUPPORT. Chains of links: all that voiding an entry does down its chain, and what following a chain reaches. -/

namespace Sys2Proof.Machine

/-- The VOID body of an entry as the table holds it. -/
theorem voidBody_of (es : Vector Entry 32) (i : Fin 32) (r : VoidReason) : Body.void (voidBody i es[i] r) = voidBodyOf es i r := by
  unfold voidBody voidBodyOf
  generalize es[i] = e
  cases h1 : e.offset <;> cases h2 : e.tc <;> simp

/-- A body other than the one lost is counted or enqueued, and no flag but EVIDENCE_LOSS is set. -/
theorem handRecord_flag {n : Notice} (b : Body) (s : State) (h : n ≠ .evidenceLoss) : flagSet n (handRecord b s) = flagSet n s := by
  have hw : ∀ t : State, flagSet n (wakeEngine t) = flagSet n t := fun t => by simp [flagSet]
  unfold handRecord
  split
  · rw [hw]; rfl
  · cases n <;> simp_all [flagSet, loseRecord, raise, Notice.index]

theorem raise_flag {n m : Notice} (s : State) (h : n ≠ m) : flagSet n (raise m s) = flagSet n s := by
  cases n <;> cases m <;> simp_all [flagSet, raise, Notice.index]

/-- The entries as the clearing of a link leaves them. -/
theorem clearLink_entries (p : Option (Fin 32)) (s : State) (j : Fin 32) :
    (clearLink p s).entries[j] = if p = some j then { s.entries[j] with link := none } else s.entries[j] := by
  cases p with
  | none => simp [clearLink]
  | some k =>
    simp only [clearLink, setEntry_entries, entries_set, Option.some.injEq]
    split
    · rename_i hk; subst hk; rfl
    · rfl

/-- The entries as voiding one leaves them, slot by slot. -/
theorem voidOne_entries {i : Fin 32} {r : VoidReason} {s : State} (h : AuctionsOk s.entries) (hi : s.entries[i].link ≠ some i) (j : Fin 32) :
    (voidOne i r s).entries[j] =
      if j = i then { s.entries[i] with state := .void, reason := some r, pred := none }
      else if s.entries[i].pred = some j then { s.entries[j] with link := none } else s.entries[j] := by
  have hpi : s.entries[i].pred ≠ some i := fun hh => hi (h.backward i i hh)
  simp only [voidOne, clearLink_entries, raise_keeps, handRecord_keeps, withdrawSlot_keeps, setEntry_entries, entries_set]
  by_cases hj : j = i
  · subst hj; rw [if_neg hpi]; simp
  · simp [hj, Ne.symm hj]

/-- Voiding one entry, its successor apart: the record, the flags, the waiting frames (R122). -/
theorem voidOne_effects (i : Fin 32) (r : VoidReason) (s : State) :
    (voidOne i r s).link.waiting = s.link.waiting.filter (fun w => decide (w.slot ≠ i))
    ∧ (s.evid.queue.length < 512 → ∃ x : Record, (voidOne i r s).evid.queue = s.evid.queue ++ [x] ∧ x.body = voidBodyOf s.entries i r
        ∧ x.number = s.evid.nextNumber ∧ (voidOne i r s).evid.nextNumber = s.evid.nextNumber + 1)
    ∧ flagSet .auctionVoid (voidOne i r s) = true
    ∧ ∀ n : Notice, n ≠ .auctionVoid → n ≠ .evidenceLoss → flagSet n (voidOne i r s) = flagSet n s := by
  have hport : ∀ (p : Option (Fin 32)) (n : Notice) (t : State), flagSet n (clearLink p t) = flagSet n t := fun p n t => by
    simp [flagSet]
  refine ⟨?_, fun hq => ?_, ?_, fun n h1 h2 => ?_⟩
  · simp only [voidOne, clearLink_keeps, raise_keeps, handRecord_keeps, withdrawSlot, setEntry_keeps, settleTx]
    (repeat' split) <;> simp
  · have hcap : (Body.void (voidBody i s.entries[i] r)).capacity = 512 := rfl
    simp only [voidOne, clearLink_keeps, raise_keeps, handRecord_evid, withdrawSlot_keeps, setEntry_keeps, hcap, if_pos hq]
    exact ⟨_, rfl, voidBody_of _ _ _, by simp [makeRecord], rfl⟩
  · rw [voidOne, hport]; exact raise_sets _ _
  · rw [voidOne, hport, raise_flag _ h1, handRecord_flag _ _ h2]; simp [flagSet]

/-- Voiding an entry and its chain does all that R122 says, and no more. -/
theorem voidChain_voids {n : Nat} {i : Fin 32} {r : VoidReason} {rest : List (Fin 32)} {s : State} (hn : rest.length < n)
    (h : AuctionsOk s.entries) (hc : isChainFrom s.entries i rest) : ChainVoided r i rest s (voidChain n i r s) := by
  induction rest generalizing n i r s with
  | nil =>
    obtain ⟨n, rfl⟩ : ∃ m, n = m + 1 := ⟨n - 1, by simp at hn; omega⟩
    have hl : s.entries[i].link = none := hc.2.2 i (by simp)
    have hs : voidChain (n + 1) i r s = voidOne i r s := by rw [voidChain, hl]
    have he := voidOne_entries (r := r) h (i := i) (by rw [hl]; simp)
    have hpi : ∀ p, s.entries[i].pred = some p → p ≠ i := fun p hp hh => by
      have := h.backward p i hp; rw [hh, hl] at this; simp at this
    obtain ⟨f1, f2, f3, f4⟩ := voidOne_effects i r s
    rw [hs]
    refine ⟨?_, fun p hp => ?_, by simp, fun j hj hp => ?_, ?_, fun hq => ?_, f3, f4, by simp⟩
    · rw [he, if_pos rfl]
      simp only [hl]
    · rw [he, if_neg (hpi p hp), if_pos hp]
    · rw [he, if_neg (by simpa using hj), if_neg hp]
    · rw [f1]; simp
    · obtain ⟨x, x1, x2, x3, -⟩ := f2 (by simp at hq; omega)
      exact ⟨[x], x1, by simp [x2], by simp [x3]⟩
  | cons j rest ih =>
    obtain ⟨n, rfl⟩ : ∃ m, n = m + 1 := ⟨n - 1, by simp at hn; omega⟩
    obtain ⟨c1, c2, c3⟩ := hc
    have hl : s.entries[i].link = some j := (List.isChain_cons_cons.1 c2).1
    have hs : voidChain (n + 1) i r s = voidChain n j .predecessor (voidOne i r s) := by rw [voidChain, hl]
    have hij : j ≠ i := fun hh => by simp [hh] at c1
    have he := voidOne_entries (r := r) h (i := i) (by rw [hl]; simpa using hij)
    have hnp : ∀ p, s.entries[i].pred = some p → p ∉ i :: j :: rest := by
      intro p hp hm
      have hb := h.backward p i hp
      obtain ⟨a, b, hab⟩ := List.append_of_mem hm
      rw [hab] at c2 c3
      cases b with
      | nil => have := c3 p (by simp); rw [hb] at this; simp at this
      | cons q b =>
        have : s.entries[p].link = some q := by
          have := (List.isChain_append.1 c2).2.1
          exact (List.isChain_cons_cons.1 this).1
        rw [hb] at this
        have hq : i = q := by simpa using this
        have hm2 : q ∈ j :: rest := by
          cases a with
          | nil => simp at hab; rw [hab.2.1]; simp
          | cons a0 a => simp at hab; rw [hab.2]; simp
        rw [← hq] at hm2
        exact (List.nodup_cons.1 c1).1 hm2
    have hk : ∀ k ∈ j :: rest, (voidOne i r s).entries[k] = s.entries[k] := by
      intro k hk
      rw [he, if_neg (fun hh : k = i => (List.nodup_cons.1 c1).1 (hh ▸ hk)), if_neg (fun hh => hnp k hh (List.mem_cons_of_mem _ hk))]
    have hc1 : isChainFrom (voidOne i r s).entries j rest := by
      refine ⟨(List.nodup_cons.1 c1).2, ?_, fun k hk1 => ?_⟩
      · have := (List.isChain_cons_cons.1 c2).2
        refine List.IsChain.imp_of_mem_imp ?_ this
        intro a b ha hb hab
        rw [hk a ha]; exact hab
      · rw [hk k (List.mem_of_getLast? hk1)]
        exact c3 k (by rw [List.getLast?_cons_cons]; exact hk1)
    have g := ih (n := n) (r := .predecessor) (s := voidOne i r s) (by simp at hn; omega) (voidOne_ok h) hc1
    obtain ⟨f1, f2, f3, f4⟩ := voidOne_effects i r s
    have hjp : (voidOne i r s).entries[j].pred = some i := by rw [hk j (by simp)]; exact h.forward i j hl
    rw [hs]
    generalize voidChain n j .predecessor (voidOne i r s) = t at g ⊢
    refine ⟨?_, fun p hp => ?_, fun k hk1 => ?_, fun k hk1 hp => ?_, ?_, fun hq => ?_, g.flag, fun m h1 h2 => ?_, ?_⟩
    · rw [g.predecessor i hjp, he, if_pos rfl]
    · have h1 := hnp p hp
      rw [g.others p (fun hh => h1 (List.mem_cons_of_mem _ hh)) (by rw [hjp]; intro hh; simp at hh; simp [hh] at h1), he,
        if_neg (fun hh => by simp [hh] at h1), if_pos hp]
    · rcases List.mem_cons.1 hk1 with rfl | hk2
      · rw [g.first, hk _ (by simp)]
      · rw [g.successors k hk2, hk k hk1]
    · rw [g.others k (fun hh => hk1 (List.mem_cons_of_mem _ hh)) (by rw [hjp]; intro hh; simp at hh; simp [hh] at hk1), he,
        if_neg (fun hh => by simp [hh] at hk1), if_neg hp]
    · rw [g.withdrawn, f1, List.filter_filter]
      congr 1
      funext w
      simp [Bool.and_comm]
    · obtain ⟨x, x1, x2, x3, x4⟩ := f2 (by simp at hq; omega)
      obtain ⟨l, l1, l2, l3⟩ := g.records (by rw [x1]; simp at hq ⊢; omega)
      have hb : ∀ k ∈ j :: rest, voidBodyOf (voidOne i r s).entries k .predecessor = voidBodyOf s.entries k .predecessor := fun k hk1 => by
        simp only [voidBodyOf, hk k hk1]
      refine ⟨x :: l, by rw [l1, x1]; simp, ?_, ?_⟩
      · rw [List.map_cons, l2, x2, List.map_cons, hb j (by simp)]
        congr 2
        exact List.map_congr_left (fun k hk1 => hb k (List.mem_cons_of_mem _ hk1))
      · rw [List.map_cons, l3, x3, x4]; simp [List.range'_succ]
    · rw [g.flags m h1 h2, f4 m h1 h2]
    · obtain ⟨k1, k2, k3, k4, k5, k6, k7⟩ := g.kept
      exact ⟨k1.trans (by simp), k2.trans (by simp), k3.trans (by simp), k4.trans (by simp), k5.trans (by simp), k6.trans (by simp),
        k7.trans (by simp)⟩

/-- A chain without a repeat has at most 32 entries, so that voiding one of them voids it to its end. -/
theorem voidEntry_voids {i : Fin 32} {r : VoidReason} {rest : List (Fin 32)} {s : State} (h : AuctionsOk s.entries)
    (hc : isChainFrom s.entries i rest) : ChainVoided r i rest s (voidEntry i r s) := by
  refine voidChain_voids ?_ h hc
  have := hc.1.length_le_card
  simp at this
  omega

/-- The slot that one link leads to. -/
def nextSlot (es : Vector Entry 32) (x : Option (Fin 32)) : Option (Fin 32) := x.bind (fun y => es[y].link)

theorem nextSlot_iterate_none (es : Vector Entry 32) (n : Nat) : (nextSlot es)^[n] none = none := by
  induction n with
  | zero => rfl
  | succ n ih => rw [Function.iterate_succ_apply]; exact ih

/-- Following at most `fuel` links reaches a slot where fewer than `fuel` of them lead to it. -/
theorem chainReaches_fuel (s : State) (i : Fin 32) (fuel : Nat) (j : Fin 32) :
    chainReaches s i fuel j = true ↔ ∃ n, n < fuel ∧ (nextSlot s.entries)^[n] (some j) = some i := by
  induction fuel generalizing j with
  | zero => simp [chainReaches]
  | succ fuel ih =>
    have hstep : ∀ n, (nextSlot s.entries)^[n + 1] (some j) = (nextSlot s.entries)^[n] s.entries[j].link := fun n => rfl
    rw [chainReaches, Bool.or_eq_true, decide_eq_true_eq]
    constructor
    · rintro (rfl | h)
      · exact ⟨0, by omega, rfl⟩
      · cases hl : s.entries[j].link with
        | none => rw [hl] at h; simp at h
        | some k =>
          rw [hl] at h
          obtain ⟨n, hn, hk⟩ := (ih k).1 h
          exact ⟨n + 1, by omega, by rw [hstep, hl]; exact hk⟩
    · rintro ⟨n, hn, hk⟩
      cases n with
      | zero => left; simpa using hk
      | succ n =>
        right
        rw [hstep] at hk
        cases hl : s.entries[j].link with
        | none => rw [hl, nextSlot_iterate_none] at hk; simp at hk
        | some k =>
          rw [hl] at hk
          exact (ih k).2 ⟨n, by omega, hk⟩

/-- Over 32 slots, 33 links followed reach every slot that any number of them reaches. -/
theorem chainReaches_iff (s : State) (i j : Fin 32) :
    chainReaches s i 33 j = true ↔ ∃ n, (nextSlot s.entries)^[n] (some j) = some i := by
  rw [chainReaches_fuel]
  refine ⟨fun ⟨n, _, h⟩ => ⟨n, h⟩, fun h => ?_⟩
  classical
  refine ⟨Nat.find h, ?_, Nat.find_spec h⟩
  have hspec := Nat.find_spec h
  have hmin : ∀ m, m < Nat.find h → (nextSlot s.entries)^[m] (some j) ≠ some i := fun m hm => Nat.find_min h hm
  generalize Nat.find h = n at hspec hmin ⊢
  have hinj : ∀ a b, a < b → b ≤ n → (nextSlot s.entries)^[a] (some j) ≠ (nextSlot s.entries)^[b] (some j) := by
    intro a b hab hb heq
    refine hmin (n - b + a) (by omega) ?_
    rw [Function.iterate_add_apply, heq, ← Function.iterate_add_apply, Nat.sub_add_cancel hb, hspec]
  have hsome : ∀ m, m ≤ n → ∃ k, (nextSlot s.entries)^[m] (some j) = some k := by
    intro m hm
    cases hx : (nextSlot s.entries)^[m] (some j) with
    | some k => exact ⟨k, rfl⟩
    | none =>
      have : (nextSlot s.entries)^[n] (some j) = none := by
        rw [show n = n - m + m by omega, Function.iterate_add_apply, hx, nextSlot_iterate_none]
      rw [this] at hspec; simp at hspec
  have hcard := Fintype.card_le_of_injective (fun m : Fin (n + 1) => (hsome m (by omega)).choose) (by
    intro a b hab
    have ha := (hsome a (by omega)).choose_spec
    have hb := (hsome b (by omega)).choose_spec
    simp only at hab
    rw [hab] at ha
    rcases lt_trichotomy a.val b.val with h1 | h1 | h1
    · exact absurd (ha.trans hb.symm) (hinj _ _ h1 (by omega))
    · exact Fin.ext h1
    · exact absurd (hb.trans ha.symm) (hinj _ _ h1 (by omega)))
  simp at hcard
  omega

end Sys2Proof.Machine
end

