-- ==== Sys2Proof/Laws/Encoding.lean ====
section
/-! SUPPORT. Whole numbers in bytes: lengths, and a field read back from where it was written. -/

namespace Sys2Proof.Machine

@[simp] theorem le_length (n v : Nat) : (le n v).length = n := by
  induction n generalizing v with
  | zero => rfl
  | succ n ih => simp [le, ih]

@[simp] theorem leInt_length (n : Nat) (v : Int) : (leInt n v).length = n := le_length _ _

@[simp] theorem timeBytes_length (t : Nat) : (timeBytes t).length = 11 := by simp [timeBytes]

@[simp] theorem stampTimeBytes_length (t : Nat) : (stampTimeBytes t).length = 10 := by simp [stampTimeBytes]

@[simp] theorem amountBytes_length (a : Int) : (amountBytes a).length = 8 := by
  unfold amountBytes; split <;> simp

@[simp] theorem flagBytes_length (b : Bool) : (flagBytes b).length = 1 := le_length _ _

@[simp] theorem setBytes_length (m : BitVec 16) : (setBytes m).length = 2 := le_length _ _

/-- What `n` bytes hold of a number. -/
@[simp] theorem leNat_le (n v : Nat) : leNat (le n v) = v % 256 ^ n := by
  induction n generalizing v with
  | zero => simp [le, leNat, Nat.mod_one]
  | succ n ih =>
    have h : 256 ^ (n + 1) = 256 * 256 ^ n := by ring
    rw [le, leNat, ih, BitVec.toNat_ofNat, h, Nat.mod_mul]

/-- A number that fits its bytes is read back. -/
theorem leNat_le_of_lt {n v : Nat} (h : v < 256 ^ n) : leNat (le n v) = v := by
  rw [leNat_le, Nat.mod_eq_of_lt h]

/-- Bytes hold a number below 256 to their count. -/
theorem leNat_lt (bs : Bytes) : leNat bs < 256 ^ bs.length := by
  induction bs with
  | nil => simp [leNat]
  | cons b bs ih =>
    have hb := b.isLt
    simp only [leNat, List.length_cons, Nat.pow_succ]
    omega

/-- The field that begins after a run of bytes. -/
theorem field_append {pre mid post : Bytes} {off len : Nat} (h1 : pre.length = off) (h2 : mid.length = len) :
    field off len (pre ++ (mid ++ post)) = leNat mid := by
  subst h1 h2
  simp [field]

/-- A field past a run of bytes is the field of what follows the run. -/
theorem field_drop {pre post : Bytes} {off len : Nat} (h : pre.length ≤ off) :
    field off len (pre ++ post) = field (off - pre.length) len post := by
  rw [field, field, List.drop_append, List.drop_eq_nil_of_le h, List.nil_append]

/-- A field at the front that was written there. -/
theorem field_le {n v : Nat} {post : Bytes} : field 0 n (le n v ++ post) = v % 256 ^ n := by
  have h := field_append (pre := []) (mid := le n v) (post := post) (off := 0) (len := n) rfl (le_length _ _)
  simpa using h

/-- A field is below 256 to its length. -/
theorem field_lt (off len : Nat) (bs : Bytes) : field off len bs < 256 ^ len := by
  refine lt_of_lt_of_le (leNat_lt _) (Nat.pow_le_pow_right (by decide) ?_)
  simp [List.length_take]

/-- The bytes of a receipt, a frame's body and a record. -/
@[simp] theorem Receipt.bytes_length (r : Receipt) : r.bytes.length = 14 := by simp [Receipt.bytes]

theorem receipts_length (rs : List Receipt) : (rs.flatMap Receipt.bytes).length = 14 * rs.length := by
  induction rs with
  | nil => rfl
  | cons r rs ih => simp [List.flatMap_cons, ih]; omega

@[simp] theorem Response.bytes_length (r : Response) : r.bytes.length = 4 + r.body.length := by simp [Response.bytes]; omega

/-- A normalised time is read back from its field. -/
theorem time_parts {t : Nat} (h : t ≤ maxTime) :
    t / fineSec < 256 ^ 6 ∧ t / fineNs % 1000000000 < 256 ^ 4 ∧ t % fineNs < 256 ^ 1
      ∧ (t / fineSec * 1000000000 + t / fineNs % 1000000000) * 256 + t % fineNs = t := by
  simp only [maxTime, fineSec, fineNs] at *
  omega

end Sys2Proof.Machine
end

