-- ==== Sys2Proof/WellFormed.lean ====
section
/-! DEFINITION. Which commands can come from the outside at all: a body is at most as long as its 2-byte length field can say, and a
command named unknown has a code that names no command (12 section 12.7). -/

namespace Sys2Proof

/-- A body length fits the header's 2-byte length field (12 section 12.7). -/
def bodyFits (body : Bytes) : Bool := decide (body.length ≤ 65535)

/-- A command code that names none of the eighteen commands (R170, 12 section 12.7: code 0 and codes 19 to 255). -/
def codeUnknown (code : Byte) : Bool := decide (code.toNat = 0 ∨ 19 ≤ code.toNat)

/-- The commands that can be received. -/
def Instr.wellFormed : Instr → Bool
  | .powerOnReset _ _ _ => true
  | .resetLineEdge _ _ => true
  | .chipSelectRelease _ => true
  | .unknownCommand code body => codeUnknown code && bodyFits body
  | .identify body => bodyFits body
  | .loadConfig body => bodyFits body
  | .start body => bodyFits body
  | .setTime body => bodyFits body
  | .readStatus body => bodyFits body
  | .readPeer body => bodyFits body
  | .armAuction body => bodyFits body
  | .cancelAuction body => bodyFits body
  | .releaseAuction body => bodyFits body
  | .readAuction body => bodyFits body
  | .fence body => bodyFits body
  | .checkpoint body => bodyFits body
  | .exportStart body _ => bodyFits body
  | .exportResume body _ => bodyFits body
  | .exportStop body _ => bodyFits body
  | .readNotices body => bodyFits body
  | .clearNotices body => bodyFits body
  | .warmReset body => bodyFits body
  | .beaconInstant => true
  | .segmentIdle => true
  | .accessWaitComplete => true
  | .frameSent => true
  | .frameArrival => true
  | .frameReceived _ _ => true
  | .labelReceived _ => true
  | .edge => true
  | .edgeTimeout => true
  | .steeringInstant => true
  | .requestArrival _ _ _ _ => true
  | .stampEvent => true
  | .responseTaken => true
  | .captureEdge _ => true
  | .drawInstant _ => true
  | .tallyInstant _ => true
  | .fixInstant _ => true
  | .closeInstant _ => true
  | .recordWriteAck _ => true
  | .recordWriteError _ _ => true

end Sys2Proof
end

