-- ==== Sys2Proof/Tests/Slice0.lean ====
section
/-! SUPPORT. The tests: what WellFormed refuses, the spec's own worked examples, one step at a time, and for each statement that has
hypotheses a state and operands that meet them together, each clause of it. -/

namespace Sys2Proof.Tests

open Sys2Proof Sys2Proof.Machine

set_option Elab.async false

/-! ### States the tests start from -/

/-- The state a command leaves. -/
def after (c : Instr) (s : State) : State :=
  match exec c s with
  | .next t => t
  | .fault _ => s
  | .refused _ => s

/-- A card side that answers every transfer and writes nothing of its own. -/
def quiet : CardInput := ⟨[], [], false, false, false, false, none⟩

/-- The configuration of the example of 05 section 5.11, {0, 3, 5, 7, 9}. -/
def cfg0 : Settings := { Settings.unset with
  stationId := 0, membership := 681#16, faults := 1, period := 250, delayBound := 10000, disagreeLimit := 1000, refFitted := true,
  refBound := 50, stepThreshold := 1000000, lockThreshold := 100, unlockThreshold := 500, rateMax := 1000000,
  acquireBank := ⟨1, 4, 500000⟩, trackBank := ⟨2, 6, 100000⟩, drift := 100000, limitA := 1000, limitG := 5000, granularity := 100,
  rounding := .nearest, batchSize := 64, quorum := 2 }

/-- A paired peer with a usable estimate, in fine units. -/
def peer (id : Nat) (theta delay : Int) (grade : Grade) (bound : Nat) : Peer := { Peer.fresh id with
  state := .paired, latest := some ⟨1, 0, 0⟩, grade := grade, bound := bound, pairing := some ⟨1, 0, 0⟩,
  estimate := some ⟨theta, delay⟩, valid := true }

/-- The four peers of 05 section 5.11. -/
def peers0 : List Peer :=
  [peer 3 33280 465920 .anchored 45, peer 5 31360 358400 .agreed 300, peer 7 (-634880) 435200 .agreed 50,
   peer 9 32512 384000 .agreed 280]

/-- The station of 05 section 5.11 at its steering instant. -/
def track : State := { State.reset with
  phase := .run, cfg := cfg0, clock := ⟨true, 1280128000000000, 0, -3210⟩, peers := peers0
  ref := { Reference.powerOn with state := .valid, run := 4, theta := some 30272, prev := some ⟨5000, 0⟩, latestGood := some 5000 }
  steer := { Steering.powerOn with
    state := .track, rf := -3210, rp := 0, holdover := some (-3205), bound := 210, grade := .anchored
    series := some ⟨1280192000000000, true⟩ }
  link := { Link.powerOn with series := some ⟨1280192000000000, true⟩ } }

/-- The same station in COLD, as START leaves it but for the time. -/
def cold : State := { track with steer := { Steering.powerOn with series := some ⟨1280192000000000, true⟩ } }

/-- A record, for queues of a given length. -/
def anyRecord : Record := ⟨1, .free, 0, 0, .fence 0 none .none, 0⟩

/-- The station with `n` records in its Evidence Queue. -/
def holding (n : Nat) (s : State) : State := { s with evid.queue := List.replicate n anyRecord }

/-- The entry of 08 section 8.12, in a state. -/
def entry12 (st : EntryState) : Entry := { Entry.freed with
  state := st, group := 12, tn := some 30000000, window := 30000, leadL := 10000, leadS := 5000, leadE := 1000, quorum := 2 }

/-- The station with an entry in slot 3 and its clock at a time in ms. -/
def serving (e : Entry) (ms : Nat) (s : State) : State :=
  { s with entries := s.entries.set 3 e, clock.present := ms * 256000000 }

/-- A configuration record of 84 bytes with the values of `cfg0` (12 section 12.6). -/
def goodRecord : Bytes :=
  le 1 0 ++ le 2 681 ++ le 1 1 ++ le 2 250 ++ le 4 10000 ++ le 4 1000 ++ le 1 1 ++ le 4 50 ++ leInt 4 (-40) ++ le 4 1000000
    ++ le 4 100 ++ le 4 500 ++ le 4 1000000 ++ le 1 1 ++ le 1 4 ++ le 4 500000 ++ le 1 2 ++ le 1 6 ++ le 4 100000 ++ le 4 100000
    ++ le 4 1000 ++ le 4 5000 ++ le 2 100 ++ le 1 1 ++ le 2 64 ++ le 1 2 ++ le 2 1 ++ le 8 65536 ++ le 2 16383 ++ le 3 0

/-- Bytes with some in place of others. -/
def patch (off : Nat) (bs r : Bytes) : Bytes := r.take off ++ bs ++ r.drop (off + bs.length)

/-- The station with the record loaded, and after START. -/
def loadedStation : State := { State.reset with port.loaded := some goodRecord }

def started : State := after (.start []) loadedStation

/-! ### WellFormed -/

/-- Code 5 is READ_STATUS, so no unknown command carries it (12 section 12.7). -/
theorem test_known_code_refused : (Instr.unknownCommand 5 []).wellFormed = false := by decide

theorem test_unknown_codes_pass : (Instr.unknownCommand 0 []).wellFormed = true ∧ (Instr.unknownCommand 19 []).wellFormed = true := by
  decide

/-- A body of 65,536 bytes has no length in the header's 2 bytes (12 section 12.7), whichever command carries it. -/
theorem test_long_body_refused : bodyFits (List.replicate 65536 0) = false ∧ bodyFits (List.replicate 65535 0) = true := by
  constructor <;> (unfold bodyFits; rw [List.length_replicate]; decide)

theorem test_long_body_commands (b : Bytes) (h : bodyFits b = false) (k : CardInput) :
    ∀ c ∈ [Instr.identify b, .loadConfig b, .start b, .setTime b, .readStatus b, .readPeer b, .armAuction b, .cancelAuction b,
      .releaseAuction b, .readAuction b, .fence b, .checkpoint b, .exportStart b k, .exportResume b k, .exportStop b k,
      .readNotices b, .clearNotices b, .warmReset b, .unknownCommand 0 b], c.wellFormed = false := by
  simp [Instr.wellFormed, h]

/-! ### Formats -/

/-- The check value of the CRC the spec names (R16: CRC-32C, reflected, both ends inverted): that of the digits 1 to 9. -/
theorem test_crc32c : crc32c [0x31, 0x32, 0x33, 0x34, 0x35, 0x36, 0x37, 0x38, 0x39] = 0xE3069283#32 := by decide +kernel

/-- Frame lengths and code places of 12 section 12.3. -/
theorem test_frame_bytes :
    (Frame.draw ⟨4, 12, 30000000, 2100000000⟩).bytes.length = 20
      ∧ (Frame.draw ⟨4, 12, 30000000, 2100000000⟩).bytes.take 16 = [2, 4, 12, 0, 0x80, 0xC3, 0xC9, 1, 0, 0, 0, 0, 0, 0x75, 0x2B, 0x7D]
      ∧ (Frame.tally ⟨4, 12, 30000000, 82, 20594⟩).bytes.length = 22 := by decide +kernel

/-- An issued stamp is 32 bytes, as a refused one is (12 section 12.2), and a record 64 (12 section 12.4). -/
theorem test_record_lengths :
    (StampResponse.issued ⟨0, 8401, 600000000, .up, false, true, false, .closed, .agreed, 203, 7⟩).bytes.length = 32
      ∧ (StampResponse.refused 0 .noCapture 2 0 7).bytes.length = 32 ∧ anyRecord.bytes.length = 64 := by decide +kernel

/-- The rounding examples under R102, in fine units: G = 100. -/
theorem test_rounding :
    roundStamp .nearest 100 319936 = 1200 ∧ roundingOf .nearest 100 319936 = .down
      ∧ roundStamp .nearest 100 320000 = 1300 ∧ roundingOf .nearest 100 320000 = .up
      ∧ roundStamp .nearest 100 332800 = 1300 ∧ roundingOf .nearest 100 332800 = .exact
      ∧ roundStamp .truncate 100 332775 = 1200 ∧ roundingOf .truncate 100 332775 = .down := by decide +kernel

/-- The estimates under R33: θ = 130.0 ns and d = 1,820.0 ns, and both one fine unit later. -/
theorem test_estimate :
    estimateOf 0 432640 0 499200 = ⟨33280, 465920⟩ ∧ estimateOf 0 432640 0 499201 = ⟨33280, 465920⟩
      ∧ (estimateOf 0 499201 0 432640).theta = -33281 := by decide +kernel

/-- Words of the opcode table: it gives none (log 34). -/
theorem test_no_table_words : decodeTableWord 8 1 = none ∧ track.withFetchWord 8 1 = track := ⟨rfl, rfl⟩

/-- A command frame as it is shifted in, and one whose body is not whole (R169). -/
theorem test_received_command :
    receivedCommand quiet (commandFrame 17 [1, 2] ++ [9]) = some (.clearNotices [1, 2])
      ∧ receivedCommand quiet [17, 2, 0, 1] = none := by decide

/-- Example records of the procedure of chapter 11: B = 8, a station id outside the membership, f = 2 with five members and a reference
(K = 5 is not above 5) and with four members and none. -/
theorem test_config_refusals :
    goodRecord.length = 84 ∧ firstBadField goodRecord = none ∧ firstBadField (patch 66 [8, 0] goodRecord) = some 25
      ∧ firstBadField (patch 0 [1] goodRecord) = some 1 ∧ firstBadField (patch 3 [2] goodRecord) = none
      ∧ firstBadField (patch 14 [0] (patch 1 [0x29, 2, 2] goodRecord)) = some 3 := by decide +kernel

/-! ### The worked examples, one step each -/

/-- 01 section 1.9: 250,000,000 oscillator ns at −3,210 ppt add 63,999,999,794.56 fine units. Here one 250,000th of it, 1,000 ns, adds
255,999.99917824. -/
theorem test_clock_advance :
    advanceTicks 5 ⟨true, 0, 0, -3210⟩ = ⟨true, 2, 999999983950, -3210⟩ := by decide +kernel

/-- 01 section 1.9: the step of +450,000,000 ns at 5,000.75 s for the station 5 there. -/
theorem test_step_drops_members :
    Series.drop 64000000000 1280307200000000 ⟨1280256000000000, false⟩ = ⟨1280320000000000, false⟩
      ∧ Series.drop 64000000000 1280307200000000 ⟨1280212000000000, false⟩ = ⟨1280340000000000, false⟩ := by decide +kernel

/-- 05 section 5.11, the whole instant. -/
theorem test_steering_instant :
    (let t := after .steeringInstant track
     t.steer.rf = 4454 ∧ t.steer.rp = 100000 ∧ t.clock.rate = 104454 ∧ t.steer.holdover = some (-3210) ∧ t.steer.bound = 203
      ∧ t.steer.grade = .anchored ∧ t.steer.state = .track ∧ t.steer.incomplete = true ∧ t.steer.rateLimit = false
      ∧ t.steer.latest = some ⟨31392, 2240, some .agreed, 5, 3, .slew, true⟩) := by decide +kernel

/-- 05 section 5.12, instant A: C = +3,000,000.0 ns while an entry is FIXED. -/
theorem test_deferred_step :
    (let s := { serving { entry12 .fixed with tn := some 20000000, tc := some 20000600 } 20000250 track with
        steer := { track.steer with rf := 4454 }
        peers := [peer 3 768000002 465920 .agreed 50, peer 5 767999998 465920 .agreed 50, peer 7 768000000 465920 .agreed 50,
                  peer 9 768000010 465920 .agreed 50] }
     let t := after .steeringInstant s
     t.steer.rf = 1000000 ∧ t.steer.rp = 100000 ∧ t.clock.rate = 1000000 ∧ t.steer.unlockRun = 1 ∧ t.steer.incomplete = true
      ∧ t.steer.rateLimit = true ∧ t.steer.stepDeferred = true ∧ t.steer.state = .track
      ∧ t.clock.present = s.clock.present) := by decide +kernel

/-- 06 section 6.9: a bad edge demotes ANCHORED to AGREED and keeps U. -/
theorem test_bad_edge :
    (let t := after .edge { track with
        ref := { track.ref with label := some ⟨5001, false⟩ }
        steer := { track.steer with bound := 203, latest := some ⟨31392, 2240, some .agreed, 5, 3, .slew, true⟩ } }
     t.steer.grade = .agreed ∧ t.steer.bound = 203 ∧ t.ref.state = .seeking ∧ t.ref.verdict = .unlocked ∧ t.stamp.gradeMark = true
      ∧ t.evid.queue.map (fun r => r.body.kind) = [.reference, .grade]) := by decide +kernel

/-- 06 section 6.9: the first instant without a combination, and the one at which U passes Limit_G. -/
theorem test_no_combination :
    (let s := fun u g st => { track with
        ref := Reference.powerOn, peers := [], steer := { track.steer with bound := u, grade := g, state := st } }
     (after .steeringInstant (s 983 .agreed .track)).steer.bound = 1008
      ∧ (after .steeringInstant (s 983 .agreed .track)).steer.grade = .holdover
      ∧ (after .steeringInstant (s 983 .agreed .track)).steer.state = .holdover
      ∧ (after .steeringInstant (s 4983 .holdover .holdover)).steer.grade = .free) := by decide +kernel

/-- 07 section 7.7, event 2: request A sets the cut of group 7 and closes the open batch of 40. -/
theorem test_stamp_sets_cut :
    (let e : Entry := { entry12 .fixed with group := 7, tn := some 20000000, tc := some 20000600 }
     let s := { serving e 0 track with
       clock := ⟨true, 20000599999960 * 256, 0, 0⟩
       stamp := { StampUnit.powerOn with
         requests := [⟨0, 0, 7, 5⟩], nextSeq := some 8401, floor := 20000599999700, floorSeq := some 8400
         batch := some ⟨8361, 40, 0, 20000000000000, 20000599999700, 0⟩ } }
     let t := after .stampEvent s
     t.stamp.responses = [.issued ⟨0, 8401, 20000600000000, .up, false, false, false, .closed, .anchored, 210, 5⟩]
      ∧ t.entries[3].cut = some 8401 ∧ t.stamp.floor = 20000600000000 ∧ t.stamp.floorSeq = some 8401
      ∧ t.stamp.batch.map (fun b => (b.first, b.count, b.held)) = some (8401, 1, 0)
      ∧ t.evid.queue.map (fun r => r.body.kind) = [.batch]) := by decide +kernel

/-- 07 section 7.7, event 7: the close of group 9 cuts at the next sequence and closes the batch of 3. -/
theorem test_close_cuts :
    (let e : Entry := { entry12 .fixed with group := 9, tn := some 20000000, tc := some 20000601 }
     let s := { serving e 20000601 track with
       stamp := { StampUnit.powerOn with
         nextSeq := some 8404, floor := 20000600000000, floorSeq := some 8401
         batch := some ⟨8401, 3, 1, 20000600000000, 20000600000000, 0⟩ } }
     let t := after (.closeInstant 3) s
     t.entries[3].state = .closed ∧ t.entries[3].cut = some 8404 ∧ t.stamp.floor = 20000601000000 ∧ t.stamp.floorSeq = some 8404
      ∧ t.stamp.batch = none ∧ t.evid.queue.map (fun r => r.body.kind) = [.batch, .close]) := by decide +kernel

/-- 08 section 8.12: the sums of station 1 and of station 6. -/
theorem test_tally_offsets :
    (let e := fun (own : Nat) (xs : List (Nat × BitVec 32)) => { entry12 .drawing with drawn := true, ownShare := some (BitVec.ofNat 32 own), shares := xs }
     ownOffset (e 3000000000 [(4, 2100000000#32), (6, 1234567890#32)]) = 20594
      ∧ memberSet 1 (e 3000000000 [(4, 2100000000#32), (6, 1234567890#32)]) = 82#16
      ∧ ownOffset (e 1234567890 [(1, 3000000000#32)]) = 7890 ∧ memberSet 6 (e 1234567890 [(1, 3000000000#32)]) = 66#16) := by
  decide +kernel

/-- The entry of station 6 there, with its three tallies, seen by a station with id `own`. -/
def tallied : Entry := { entry12 .tallying with
  tallies := [(1, .tally 82 20594), (4, .tally 82 20594), (6, .tally 66 7890)] }

/-- 08 section 8.12: the fix at station 6 (ADOPTED) and at station 1 (AGREED); with Q_e = 3 it is SPLIT. -/
theorem test_settle :
    settle 6 tallied = (20594, .adopted, 2) ∧ settle 1 tallied = (20594, .agreed, 2)
      ∧ settle 6 { tallied with quorum := 3 } = (20594, .split, 2) := by decide +kernel

/-- 09 section 9.10: at 496 records an ordinary record is refused and counted, and a priority record is admitted. -/
theorem test_reserve :
    (let s := handRecord (.idConflict 7 0 0 0) (holding 496 track)
     s.evid.queue.length = 496 ∧ s.evid.losses[2] = 1 ∧ flagSet .evidenceLoss s = true)
      ∧ (handRecord (.grade (gradeBody .agreed .combination track)) (holding 496 track)).evid.queue.length = 497 := by
  decide +kernel

/-- Descriptor 0 of 10 section 10.8: RUN, INCREMENT, count 3, block length 256. -/
def ringCopy : Descriptor := ⟨.run, .increment, true, true, 1, 256, 0, 3, 0x4000, 0x4000, 0⟩

/-- 10 section 10.8, event 1: record 201 at 0x4000. -/
def exporting (d : Descriptor) (st : EngineState) (queue : List Record) : State :=
  { track with engine := ⟨st, some 0, some d, .none, none⟩, cfg := { cfg0 with tableBase := 0x10000 }, evid.queue := queue }

def record201 : Record := { anyRecord with number := 201 }

theorem test_record_write :
    (let t := after (.recordWriteAck quiet) (exporting ringCopy .running [record201])
     t.engine = ⟨.waiting, some 0, some { ringCopy with position := 1, current := 0x4040, count := 2, last := 201 }, .none, none⟩
      ∧ t.evid.queue = [] ∧ cardReadN t.card 0x4000 64 = record201.bytes) := by decide +kernel

/-- 10 section 10.8, event 2: the third write completes the descriptor; the link read finds descriptor 1 as memory holds it. -/
theorem test_completion_follows_link :
    (let d : Descriptor := { ringCopy with position := 2, current := 0x4080, count := 1, last := 202 }
     let next : Descriptor := ⟨.block, .incrementRestart, true, true, 0, 2, 0, 2, 0x8000, 0x8000, 0⟩
     let s := { exporting d .running [record201] with card := cardWrite [] 0x10020 (next.bytes .armed .none) }
     let t := after (.recordWriteAck quiet) s
     t.engine = ⟨.waiting, some 1, some next, .done, none⟩ ∧ flagSet .exportDone t = true
      ∧ cardReadN t.card 0x10000 7 = [2, 0x35, 1, 0, 3, 1, 0]) := by decide +kernel

/-- An idle station answers a next state. -/
theorem idle_step (s : State) (h : s.pending = []) : ∃ t, step s = .next t := ⟨idle s, by unfold step; rw [h]⟩

/-- The station with a transfer at a descriptor's end under way. -/
def underWay (x : Option EngineTransfer) (d : Descriptor) (st : EngineState) (queue : List Record) : State :=
  { exporting d st queue with engine.transfer := x }

/-- With every entry FREE no step meets a span. -/
theorem no_span (s : State) (h : s.entries = Vector.replicate 32 Entry.freed) (a : Int) : ¬ stepMeetsSpan a s := by
  simp [stepMeetsSpan, h, Entry.freed]

/-! ### Witnesses: what meets the hypotheses of each statement -/

theorem witness_StepRunsFrontCommand : (track.withPending [.identify [], .edge]).pending = .identify [] :: [.edge] := rfl

theorem witness_EmptyQueueIdles :
    State.reset.pending = [] ∧ nextOwnEvent State.reset = none ∧ track.pending = [] ∧ nextOwnEvent track = some .steeringInstant := by
  decide +kernel

/-- The station with nothing due, a tick before its clock moves, and its steering series at a next member. -/
def calm (next : Nat) : State := { track with
  clock := { track.clock with residue := residueUnit - 1 }
  steer := { track.steer with series := some ⟨next, false⟩ }, link := { track.link with series := some ⟨1280192000000000, false⟩ } }

/-- A next member that the tick's present time just reaches, and one a fine unit later. -/
theorem witness_EmptyQueueIdles_series :
    (advanceClock (calm 0).clock).present = 1280128000000001
      ∧ ∀ n ∈ [1280128000000001, 1280128000000002], nextOwnEvent (calm n) = none ∧ (calm n).pending = []
        ∧ (calm n).steer.series = some ⟨n, false⟩ := by decide +kernel

theorem witness_RunAndSetClockStay :
    (∀ e r k, Instr.edge ≠ .powerOnReset e r k) ∧ (∃ t, exec .edge track = .next t) ∧ track.phase = .run ∧ clockSet track = true :=
  ⟨nofun, ⟨after .edge track, rfl⟩, rfl, rfl⟩

theorem witness_OnlySteeringMovesTheClock :
    (∀ e r k, Instr.responseTaken ≠ .powerOnReset e r k) ∧ (∀ b, Instr.responseTaken ≠ .start b)
      ∧ (∃ t, exec .responseTaken (serving (entry12 .drawing) 29990000 track) = .next t)
      ∧ (∀ b, Instr.responseTaken ≠ .setTime b) ∧ Instr.responseTaken ≠ .edge ∧ Instr.responseTaken ≠ .steeringInstant
      ∧ (∀ st ∈ [EntryState.drawing, .tallying, .fixed], ∃ i : Fin 32, (serving (entry12 st) 29990000 track).entries[i].state = st)
      ∧ (let s := serving (entry12 .armed) 29990000 track
         s.entries[(3 : Fin 32)].state = .armed
          ∧ (s.entries[(3 : Fin 32)].tn.getD 0 - s.entries[(3 : Fin 32)].leadL) * 256000000 ≤ s.clock.present)
      ∧ stepMeetsSpan 0 (serving (entry12 .armed) 29990000 track) :=
  ⟨nofun, nofun, ⟨_, rfl⟩, nofun, nofun, nofun, fun _ _ => ⟨3, rfl⟩, by decide +kernel,
    ⟨3, .inr (.inr (.inr ⟨rfl, .inl (by decide +kernel)⟩))⟩⟩

theorem witness_FlagsStaySet :
    (∀ e r k, Instr.edge ≠ .powerOnReset e r k) ∧ (∀ d k, Instr.edge ≠ .resetLineEdge d k)
      ∧ (∀ k, Instr.edge ≠ .chipSelectRelease k) ∧ (∀ b, Instr.edge ≠ .clearNotices b)
      ∧ (∃ t, exec .edge (raise .fenceDone track) = .next t) ∧ flagSet .fenceDone (raise .fenceDone track) = true
      ∧ (∀ b, Instr.edge ≠ .start b)
      ∧ (let s := { raise .fenceDone track with port.enables := 8192 }
         flagSet .fenceDone s = true ∧ s.port.enables.getLsbD Notice.fenceDone.index = true) :=
  ⟨nofun, nofun, nofun, nofun, ⟨after .edge (raise .fenceDone track), rfl⟩, by decide, nofun, by decide⟩

theorem witness_ClockAdvancesExactly :
    (let c : Clock := ⟨true, maxTime - 258, 1999999999999, 500000000⟩
     c.running = true ∧ c.residue < 2000000000000 ∧ |c.rate| ≤ 500000000 ∧ c.present + 257 * 1 < maxTime)
      ∧ (let c : Clock := ⟨true, maxTime, 0, -500000000⟩
         c.running = true ∧ c.residue < 2000000000000 ∧ |c.rate| ≤ 500000000 ∧ c.present = maxTime) := by decide +kernel

theorem witness_StepsAndSeries :
    (let s := { track with clock.present := 0 }
     0 ≤ (s.clock.present : Int) + (maxTime : Nat) ∧ (s.clock.present : Int) + (maxTime : Nat) ≤ maxTime
      ∧ s.clock.present < (stepClock 1 s).clock.present ∧ (stepClock (-1) s).clock.present ≤ s.clock.present)
      ∧ (0 < 1 ∧ 7 < (⟨8, false⟩ : Series).next)
      ∧ (Series.drop 1 8 ⟨8, false⟩).next = 8 + 1 * 1 := by decide +kernel

theorem witness_transaction_absent : State.reset.port.transaction = .absent ∧ track.port.transaction = .absent := ⟨rfl, rfl⟩

theorem witness_IdentifyReplies : State.reset.port.transaction = .absent := rfl

theorem witness_RefusedBeforeItsTests :
    track.port.transaction = .absent
      ∧ (∀ b, Instr.identify b ≠ .unknownCommand 1 b)
      ∧ commandParts (.identify [0]) = some (1, [0]) ∧ requiredLength 1 = some 0 ∧ [(0 : Byte)].length ≠ 0
      ∧ commandParts (.loadConfig []) = some (2, []) ∧ requiredLength 2 = some 84 ∧ ([] : Bytes).length ≠ 84
      ∧ commandParts (.exportStart [] quiet) = some (13, []) ∧ requiredLength 13 = some 1 ∧ ([] : Bytes).length ≠ 1 :=
  ⟨rfl, nofun, by decide⟩

theorem witness_RefusedInThePhase :
    State.reset.phase = .config ∧ State.reset.port.transaction = .absent ∧ quiet.hostWrites = []
      ∧ commandParts (.readPeer [3]) = some (6, [3]) ∧ requiredLength 6 = some 1 ∧ [(3 : Byte)].length = 1
      ∧ requiredLength 4 = some 10 ∧ requiredLength 7 = some 34 ∧ requiredLength 11 = some 4 ∧ requiredLength 12 = some 0
      ∧ track.phase = .run ∧ State.reset.port.loaded = none
      ∧ { loadedStation with port.selfTest.evidenceFail := true }.port.selfTest.evidenceFail = true := by decide +kernel

theorem witness_ReadsReplyWithoutEffect :
    track.port.transaction = .absent ∧ 32 ≤ (32 : Byte).toNat ∧ track.phase = .run
      ∧ findPeer (3 : Byte).toNat track = some (peer 3 33280 465920 .anchored 45) ∧ findPeer (1 : Byte).toNat track = none := by
  decide +kernel

theorem witness_NoticeCommands : track.port.transaction = .absent := rfl

theorem witness_LoadConfigTested :
    goodRecord.length = 84 ∧ State.reset.port.transaction = .absent ∧ State.reset.phase = .config
      ∧ (∀ i < 30, 1 ≤ i → fieldOk goodRecord i = true)
      ∧ (patch 39 [16] goodRecord).length = 84 ∧ fieldOk (patch 39 [16] goodRecord) 14 = false
      ∧ (∀ j < 14, 1 ≤ j → fieldOk (patch 39 [16] goodRecord) j = true) ∧ track.phase = .run := by decide +kernel

theorem witness_StartEntersRun :
    (let s := holding 511 loadedStation
     s.phase = .config ∧ s.port.loaded = some goodRecord ∧ s.port.selfTest.evidenceFail = false ∧ s.port.transaction = .absent
      ∧ s.engine.state = .stopped ∧ s.evid.queue.length < 512) := by decide +kernel

/-- A record with a batch size of 0, and one of 16, each with a negative cable delay and TRUNCATE. -/
theorem witness_StartEntersRun_record :
    ∀ n ∈ [0, 16],
      (let r := patch 65 (le 1 0 ++ le 2 n) goodRecord
       field 66 2 r = n ∧ field 65 1 r = 0 ∧ firstBadField r = none ∧ (BitVec.ofNat 32 (field 19 4 r)).toInt = -40
        ∧ (∃ t, exec (.start []) { State.reset with port.loaded := some r } = .next t ∧ t.phase = .run)) := by
  intro n hn
  simp only [List.mem_cons, List.not_mem_nil, or_false] at hn
  rcases hn with rfl | rfl
  · exact ⟨by decide +kernel, by decide +kernel, by decide +kernel, by decide +kernel, _, rfl, by decide +kernel⟩
  · exact ⟨by decide +kernel, by decide +kernel, by decide +kernel, by decide +kernel, _, rfl, by decide +kernel⟩

theorem witness_SetTimeSetsTheClock :
    (le 6 0 ++ le 4 1000000000).length = 10 ∧ (le 6 (2 ^ 48 - 1) ++ le 4 999999999).length = 10
      ∧ cold.phase = .run ∧ cold.port.transaction = .absent ∧ track.phase = .run ∧ track.steer.state ≠ .cold ∧ cold.steer.state = .cold
      ∧ 999999999 < field 6 4 (le 6 0 ++ le 4 1000000000) ∧ field 6 4 (le 6 (2 ^ 48 - 1) ++ le 4 999999999) ≤ 999999999
      ∧ (∀ a, ¬ stepMeetsSpan a cold)
      ∧ stepMeetsSpan ((((2 ^ 48 - 1) * 1000000000 + 999999999) * 256 : Nat) - 0) { cold with entries := cold.entries.set 3 (entry12 .fixed) } :=
  ⟨by decide, by decide, rfl, rfl, rfl, nofun, rfl, by decide, by decide, no_span _ rfl, ⟨3, .inr (.inr (.inl rfl))⟩⟩

theorem witness_ResetsAreTaken :
    track.port.transaction = .absent
      ∧ (∀ o, { track with port.transaction := .abandoned o }.port.transaction = .abandoned o)
      ∧ (after (.identify []) track).port.transaction = .executed ⟨.ok, [0x41, 0x0C, 0x60, 0x04, 0x01, 0, 1]⟩ false
      ∧ (after (.warmReset []) track).port.transaction = .executed ⟨.ok, []⟩ true
      ∧ (after (.resetLineEdge true ⟨false, false⟩) (after (.warmReset []) track)).port.transaction = .abandoned true
      ∧ (∀ x ∈ [none, some EngineTransfer.done, some .stop, some .read, some (.faulted [3] .invalid)], ∀ st ∈ [EngineState.running, .stopping],
          let s := underWay x ringCopy st [record201]
          s.engine.state = st ∧ s.engine.copy = some ringCopy ∧ s.engine.transfer = x ∧ s.evid.queue = record201 :: []
            ∧ s.engine.index = some 0)
      ∧ (exporting ringCopy .waiting []).engine.state ≠ .running ∧ track.engine.copy = none := by decide +kernel

/-- A warm reset of a station with a VALID reference, the grade ANCHORED, an entry that tallies and one that is FIXED (R152, R136, R87):
the records, the flags, and which entry is kept. -/
theorem test_warm_reset :
    (let s := { serving (entry12 .tallying) 29995000 track with port.flags := 16383, evid.fence := some 3 }
     let s := { s with entries := s.entries.set 4 { entry12 .fixed with group := 13 }, ref.label := some ⟨5001, true⟩ }
     let t := after (.resetLineEdge false ⟨false, true⟩) s
     t.evid.queue.map (fun r => r.body.kind) = [.reset, .reference, .void, .grade] ∧ t.evid.fence = none
      ∧ t.entries[(3 : Fin 32)].state = .void ∧ t.entries[(4 : Fin 32)].state = .fixed ∧ t.port.flags = 0b10001001
      ∧ t.ref.cutLabel = true ∧ t.ref.label = none ∧ t.steer.grade = .free ∧ t.clock = s.clock) := by decide +kernel

/-- A label that was being received at the reset is discarded at its end, the next one is taken (R57). -/
theorem test_cut_label :
    (let t := after (.resetLineEdge false ⟨false, true⟩) track
     let l : RefLabel := ⟨5001, true⟩
     (after (.labelReceived l.bytes) t).ref.label = none
      ∧ (after (.labelReceived l.bytes) (after (.labelReceived l.bytes) t)).ref.label = some l) := by decide +kernel

/-- A reset that cuts a completion write-back short: the record stays removed, the descriptor stays ARMED, the status stays (R167). -/
theorem test_reset_cuts_write_back :
    (let d : Descriptor := { ringCopy with position := 2, current := 0x4080, count := 1, linkEnable := false }
     let s := { exporting d .running [record201] with card := cardWrite [] 0x10000 (d.bytes .armed .none) }
     let t := after (.resetLineEdge false ⟨false, false⟩) (after (.recordWriteAck { quiet with hold := some .done }) s)
     t.evid.queue.map (fun r => r.body.kind) = [.reset, .reference, .grade] ∧ t.engine = Engine.powerOn
      ∧ cardReadN t.card 0x10000 1 = [1]) := by decide +kernel

/-- A reset in the FAULTED write-back of a linked descriptor that card memory has accepted: the descriptor reads FAULTED and MISALIGNED,
the status stays DONE, and the RESET record says RUNNING (R157, R167). -/
theorem test_reset_in_fault_write_back :
    (let d : Descriptor := { ringCopy with position := 2, current := 0x4080, count := 1 }
     let bad : Descriptor := { ringCopy with current := 0x4001 }
     let s := { exporting d .running [record201] with card := cardWrite [] 0x10020 (bad.bytes .armed .none) }
     let u := after (.recordWriteAck { quiet with hold := some .faulted }) s
     let t := after (.resetLineEdge false ⟨true, false⟩) u
     u.engine.state = .running ∧ u.engine.index = some 1 ∧ cardReadN u.card 0x10020 1 = [1]
      ∧ t.engine = { Engine.powerOn with lastStatus := .done } ∧ cardReadN t.card 0x10020 6 = [3, 53, 1, 0, 0, 4]
      ∧ (match t.evid.queue.head?.map Record.body with | some (.reset b) => some b.engine | _ => none) = some .running
      ∧ (after (.recordWriteAck quiet) u).engine = ⟨.fault, some 1, none, .misaligned, none⟩
      ∧ (after (.recordWriteError quiet false) u).engine = ⟨.fault, some 1, none, .misaligned, none⟩
      ∧ (after (.recordWriteError quiet false) u).card = u.card) := by decide +kernel

/-- An EXPORT_STOP while the linked descriptor is being read finishes the read; a fault it ends in leaves the answer OK (R165). -/
theorem test_stop_ends_in_fault :
    (let s := { exporting ringCopy .running [] with engine.transfer := some .read }
     let t := after (.exportStop [] { quiet with readError := true }) s
     t.engine = ⟨.fault, some 0, none, .memoryError, none⟩ ∧ t.port.transaction = .executed ⟨.ok, []⟩ false) := by decide +kernel

/-- A frame that began in CONFIG keeps the segment busy after START, and is not counted at its end (R14). -/
theorem test_frame_before_start :
    (let t := after (.start []) (after .frameArrival loadedStation)
     t.phase = .run ∧ t.link.busy = true ∧ (after (.frameReceived [] true) t).link.linkErrors = 0
      ∧ (after .segmentIdle t).link.busy = false) := by decide +kernel

/-- The request of 12 section 12.2: kind, line, group and tag, little-endian; and what a transaction shifts out (R169). -/
theorem test_request_and_fill :
    (after (.requestArrival 1 3 #v[0x0C, 0x01] #v[4, 3, 2, 1]) track).stamp.requests = [⟨1, 3, 0x010C, 0x01020304⟩]
      ∧ (List.range 4).map (fun n => Transaction.shiftedOut n (.executed ⟨.ok, []⟩ false)) = [0xA5, 0, 0, 0]
      ∧ Transaction.shiftedOut 4 (.executed ⟨.ok, []⟩ false) = 0xFF ∧ Transaction.shiftedOut 0 (.abandoned true) = 0xFF := by
  decide +kernel

/-- The station with a transmitter state, a busy or idle segment, and frames that have begun to arrive. -/
def onLink (tx : Tx) (busy : Bool) (incoming : List Incoming) : State :=
  { track with osc := 51200, link := { track.link with tx := tx, busy := busy, incoming := incoming } }

def whole : Incoming := ⟨100, false, false⟩

def someDraw : Frame := .draw ⟨3, 12, 30000000, 5⟩

def ownDraw : Frame := .draw ⟨0, 12, 30000000, 5⟩

def ownBeacon : Beacon := ⟨0, 65535, maxTime, .free, .cold, max32, [⟨15, 0, maxTime⟩]⟩

theorem witness_SegmentIsSensed :
    track.phase = .run ∧ (onLink .idle false []).link.busy = false ∧ (∀ f, (onLink .idle false []).link.tx ≠ .sending f)
      ∧ (onLink (.sending someDraw) false []).link.tx = .sending someDraw ∧ (onLink .idle true [whole]).link.busy = true :=
  ⟨rfl, rfl, nofun, rfl, rfl⟩

/-- Station 0 waits 100 oscillator ns, 51,200 ticks, from the count 0. -/
theorem witness_FramesAreSent :
    track.phase = .run ∧ track.link.series = some ⟨1280192000000000, true⟩
      ∧ (let s := onLink (.deferring 0) false []
         s.phase = .run ∧ s.link.tx = .deferring 0 ∧ s.link.busy = false ∧ 0 + 512 * ((s.cfg.stationId + 1) * 100) ≤ s.osc)
      ∧ { onLink (.deferring 0) false [] with link.pendingBeacon := true }.link.pendingBeacon = true
      ∧ (onLink (.deferring 0) false []).link.pendingBeacon = false
      ∧ { onLink (.deferring 0) false [] with link.waiting := [⟨3, false, someDraw⟩] }.link.waiting = ⟨3, false, someDraw⟩ :: [] := by
  decide +kernel

theorem witness_FrameSentEndsSending :
    (let s := { onLink (.sending (.beacon ownBeacon)) false [] with link.history := List.replicate 4 ⟨0, 0⟩ }
     s.link.tx = .sending (.beacon ownBeacon) ∧ s.link.history.length ≤ 4) ∧ ∀ b, someDraw ≠ .beacon b :=
  ⟨⟨rfl, by decide⟩, nofun⟩

theorem witness_RejectedFramesAreCounted :
    (onLink .idle true [whole]).phase = .run ∧ (onLink .idle true [whole]).link.incoming = whole :: [] ∧ whole.discarded = false
      ∧ whole.overlapped = false ∧ { whole with discarded := true }.discarded = true
      ∧ frameWhole [] = false ∧ { whole with overlapped := true }.overlapped = true
      ∧ frameWhole (Frame.draw ⟨1, 12, 0, 0⟩).bytes = true
      ∧ inSet (field 1 1 (Frame.draw ⟨1, 12, 0, 0⟩).bytes) cfg0.membership = false
      ∧ frameWhole (Frame.draw ⟨3, 0, 0, 0⟩).bytes = true ∧ inSet (field 1 1 (Frame.draw ⟨3, 0, 0, 0⟩).bytes) cfg0.membership = true
      ∧ parseFrame (Frame.draw ⟨3, 0, 0, 0⟩).bytes = none
      ∧ { loadedStation with link.incoming := [whole] }.phase = .config := by decide +kernel

/-- Bytes with the check that ends a frame after them (R16). -/
def sealFrame (b : Bytes) : Bytes := b ++ le 4 (crc32c b).toNat

/-- A BEACON of station 3, byte by byte (12 section 12.3): the nanosecond part, the two codes, and receipts by id and nanosecond part. -/
def rawBeacon (nanos grade steer : Nat) (receipts : List (Nat × Nat)) : Bytes :=
  sealFrame (le 1 1 ++ le 1 3 ++ le 2 13 ++ le 6 0 ++ le 4 nanos ++ le 1 0 ++ le 1 grade ++ le 1 steer ++ le 4 0
    ++ le 1 receipts.length ++ receipts.flatMap (fun r => le 1 r.1 ++ le 2 0 ++ le 6 0 ++ le 4 r.2 ++ le 1 0))

/-- The frame is whole and of a member, and what would make it malformed, for its kind (R24). -/
abbrev judged (bytes : Bytes) (malformed : Prop) : Prop :=
  frameWhole bytes = true ∧ inSet (field 1 1 bytes) cfg0.membership = true ∧ malformed

/-- Each reason for which a whole frame is malformed, at its boundary, and frames that none applies to. -/
theorem witness_RejectedFramesAreCounted_malformed :
    judged (rawBeacon 1000000000 3 3 []) (999999999 < field 10 4 (rawBeacon 1000000000 3 3 []))
      ∧ judged (rawBeacon 0 4 3 []) (3 < field 15 1 (rawBeacon 0 4 3 []))
      ∧ judged (rawBeacon 0 3 4 []) (3 < field 16 1 (rawBeacon 0 3 4 []))
      ∧ judged (rawBeacon 0 0 0 [(5, 1000000000)]) (999999999 < field 31 4 (rawBeacon 0 0 0 [(5, 1000000000)]))
      ∧ judged (rawBeacon 0 0 0 [(16, 0)]) (15 < field 22 1 (rawBeacon 0 0 0 [(16, 0)]))
      ∧ judged (rawBeacon 0 0 0 [(3, 0)]) (field 22 1 (rawBeacon 0 0 0 [(3, 0)]) = 3)
      ∧ judged (rawBeacon 0 0 0 [(5, 0), (5, 0)]) (field 36 1 (rawBeacon 0 0 0 [(5, 0), (5, 0)]) ≤ field 22 1 (rawBeacon 0 0 0 [(5, 0), (5, 0)]))
      ∧ judged (rawBeacon 999999999 3 3 [(5, 999999999), (15, 0)]) (parseFrame (rawBeacon 999999999 3 3 [(5, 999999999), (15, 0)]) ≠ none)
      ∧ judged (Frame.draw ⟨3, 1, maxTn + 1, 0⟩).bytes (281474976710655 * 1000 + 999 < field 4 8 (Frame.draw ⟨3, 1, maxTn + 1, 0⟩).bytes)
      ∧ judged (Frame.draw ⟨3, 1, maxTn, 0⟩).bytes (parseFrame (Frame.draw ⟨3, 1, maxTn, 0⟩).bytes ≠ none)
      ∧ judged (Frame.tally ⟨3, 1, 0, 0, 3600000⟩).bytes (3600000 ≤ field 14 4 (Frame.tally ⟨3, 1, 0, 0, 3600000⟩).bytes)
      ∧ judged (Frame.tally ⟨3, 0, 0, 0, 0⟩).bytes (field 2 2 (Frame.tally ⟨3, 0, 0, 0, 0⟩).bytes = 0)
      ∧ judged (Frame.tally ⟨3, 1, maxTn, 0, 3599999⟩).bytes (parseFrame (Frame.tally ⟨3, 1, maxTn, 0, 3599999⟩).bytes ≠ none) := by
  decide +kernel

theorem witness_OwnIdFrameIsAConflict :
    ownDraw.inRange ∧ ownDraw.sender = 0 ∧ (Frame.beacon ownBeacon).inRange ∧ (Frame.beacon ownBeacon).sender = 0
      ∧ inSet cfg0.stationId cfg0.membership = true ∧ (onLink .idle true [whole]).cfg = cfg0
      ∧ (onLink .idle true [whole]).link.incoming = whole :: [] ∧ whole.discarded = false ∧ whole.overlapped = false
      ∧ (∀ b, ownDraw ≠ .beacon b) ∧ (holding 495 (onLink .idle true [whole])).evid.queue.length < 496 :=
  ⟨by simp [Frame.inRange, ownDraw], rfl, by simp [Frame.inRange, ownBeacon, receiptsOrdered], rfl, by decide, rfl, rfl, rfl, rfl, nofun,
    by decide +kernel⟩

/-- Beacon 13 of 03 section 3.8, with the receipt of beacon 87. -/
def beacon13 (receipts : List Receipt) : Beacon := ⟨3, 13, 588000102400, .anchored, .track, 45, receipts⟩

theorem witness_AcceptedBeaconUpdatesPeer :
    (Frame.beacon (beacon13 [⟨0, 87, 576000524800⟩])).inRange ∧ (Frame.beacon (beacon13 [])).inRange
      ∧ inSet 3 cfg0.membership = true ∧ 3 ≠ cfg0.stationId ∧ (onLink .idle true [whole]).phase = .run
      ∧ findPeer 3 (onLink .idle true [whole]) = some (peer 3 33280 465920 .anchored 45)
      ∧ (beacon13 [⟨0, 87, 576000524800⟩]).receipts.find? (fun r => decide (r.peer = cfg0.stationId)) = some ⟨0, 87, 576000524800⟩
      ∧ [(⟨87, 576000025600⟩ : Sent)].find? (fun y => decide (y.seq = 87)) = some ⟨87, 576000025600⟩
      ∧ (beacon13 []).receipts.find? (fun r => decide (r.peer = cfg0.stationId)) = none
      ∧ (peer 3 33280 465920 .anchored 45).pairing ≠ none ∧ (peer 3 33280 465920 .anchored 45).miss < 3
      ∧ { peer 3 33280 465920 .anchored 45 with miss := 3 }.miss = 3 :=
  ⟨by simp [Frame.inRange, beacon13, receiptsOrdered, maxTime, max32, fineSec], by simp [Frame.inRange, beacon13, receiptsOrdered, maxTime, max32, fineSec], by decide +kernel⟩

/-- What beacon 13 with some receipts makes of peer 3's record, its state before and after. -/
def beaconMoves (p : Peer) (receipts : List Receipt) : Option (PeerState × PeerState) :=
  let s := { onLink .idle true [⟨588000535040, false, false⟩] with link.history := [⟨87, 576000025600⟩], peers := [p] }
  (findPeer 3 (after (.frameReceived (Frame.beacon (beacon13 receipts)).bytes false) s)).map (fun q => (p.state, q.state))

/-- Each change of state that a beacon makes, without one, with one that matches, and with one whose sequence is not in the history. -/
theorem witness_AcceptedBeaconUpdatesPeer_states :
    (let paired := peer 3 33280 465920 .anchored 45
     let own := fun m : BitVec 16 => [(⟨0, m, 576000524800⟩ : Receipt)]
     beaconMoves (Peer.fresh 3) [] = some (.absent, .heard)
      ∧ beaconMoves (Peer.fresh 3) (own 86) = some (.absent, .heard)
      ∧ beaconMoves { Peer.fresh 3 with state := .heard, miss := 4 } (own 86) = some (.heard, .heard)
      ∧ beaconMoves { Peer.fresh 3 with state := .silent } [] = some (.silent, .heard)
      ∧ beaconMoves { paired with miss := 2 } (own 86) = some (.paired, .paired)
      ∧ beaconMoves { paired with miss := 3 } (own 86) = some (.paired, .heard)
      ∧ beaconMoves { paired with miss := 3, state := .excluded, mark := true } [] = some (.excluded, .heard)
      ∧ beaconMoves (Peer.fresh 3) (own 87) = some (.absent, .paired)
      ∧ beaconMoves { Peer.fresh 3 with state := .heard } (own 87) = some (.heard, .paired)
      ∧ beaconMoves { paired with state := .silent } (own 87) = some (.silent, .paired)
      ∧ beaconMoves { Peer.fresh 3 with state := .heard, mark := true } (own 87) = some (.heard, .excluded)
      ∧ beaconMoves { paired with state := .silent, mark := true } (own 87) = some (.silent, .excluded)
      ∧ beaconMoves { paired with state := .silent } [] = some (.silent, .paired)) := by decide +kernel

/-- What beacon 13 gives there: θ = +130.0 ns and d = 1,820.0 ns. -/
theorem test_beacon13 :
    (let s := { onLink .idle true [⟨588000535040, false, false⟩] with link.history := [⟨87, 576000025600⟩], peers := [Peer.fresh 3] }
     let t := after (.frameReceived (Frame.beacon (beacon13 [⟨0, 87, 576000524800⟩])).bytes false) s
     (findPeer 3 t).map (fun p => (p.state, p.estimate, p.miss)) = some (.paired, some ⟨33280, 465920⟩, 0)) := by decide +kernel

/-- A table with one entry in slot 3 is in order. -/
theorem table_in_order (e : Entry) (h1 : e.state ≠ .free) (h2 : e.link = none) (h3 : e.pred = none) (ms : Nat) (s : State)
    (h : s.entries = Vector.replicate 32 Entry.freed) : AuctionsOk (serving e ms s).entries := by
  have hs : ∀ i : Fin 32, (serving e ms s).entries[i] = if i = 3 then e else Entry.freed := by
    intro i
    simp only [serving, h]
    revert i
    simp [Fin.forall_fin_succ]
  constructor
  · intro i j hi hj _
    rw [hs] at hi hj
    by_cases a : i = 3 <;> by_cases b : j = 3 <;> simp_all [Entry.freed, EntryState.live]
  · intro i j hi
    rw [hs] at hi
    by_cases a : i = 3 <;> simp_all [Entry.freed]
  · intro i j hi
    rw [hs] at hi
    by_cases a : j = 3 <;> simp_all [Entry.freed]
  · intro i hi
    rw [hs] at hi ⊢
    by_cases a : i = 3 <;> simp_all

theorem witness_AcceptedAuctionFramesReachTheEntry :
    (let s := fun e => serving e 29990000 (onLink .idle true [whole])
     AuctionsOk (s (entry12 .armed)).entries ∧ AuctionsOk (s (entry12 .drawing)).entries ∧ AuctionsOk (s (entry12 .tallying)).entries
      ∧ (s (entry12 .armed)).phase = .run ∧ (s (entry12 .armed)).link.incoming = whole :: []
      ∧ (s (entry12 .armed)).entries[(3 : Fin 32)] = entry12 .armed)
      ∧ someDraw.inRange ∧ inSet 3 cfg0.membership = true ∧ 3 ≠ cfg0.stationId ∧ 0 < (entry12 .armed).window
      ∧ (entry12 .armed).group = 12 ∧ (entry12 .armed).tn = some 30000000 ∧ inSet 3 (entry12 .armed).conflicts = false
      ∧ (entry12 .armed).shares.lookup 3 = none
      ∧ { entry12 .drawing with shares := [(3, 6#32)] }.shares.lookup 3 = some 6#32 ∧ 6#32 ≠ 5#32
      ∧ (Frame.tally ⟨3, 12, 30000000, 9, 29999⟩).inRange ∧ 29999 < (entry12 .tallying).window
      ∧ (entry12 .tallying).tallies.lookup 3 = none
      ∧ inSet 3 { entry12 .armed with conflicts := 8 }.conflicts = true
      ∧ { entry12 .drawing with shares := [(3, 5#32)] }.shares.lookup 3 = some 5#32
      ∧ { entry12 .armed with window := 0 }.window = 0 ∧ 30000 ≤ (30000 : Nat) ∧ (entry12 .drawing).window ≤ 30000
      ∧ (Frame.tally ⟨3, 12, 30000000, 9, 30000⟩).inRange
      ∧ (∀ v ∈ [Tally.tally 9 29999, .tally 8 29999, .tally 9 0, .dropped],
          { entry12 .drawing with tallies := [(3, v)] }.tallies.lookup 3 = some v)
      ∧ (∀ st ∈ [EntryState.closed, .void], (entry12 st).state.live = false
          ∧ ∀ j : Fin 32, j ≠ 3 → ¬ ((serving (entry12 st) 29990000 track).entries[j].group = 12
              ∧ (serving (entry12 st) 29990000 track).entries[j].tn = some 30000000)) := by
  refine ⟨⟨table_in_order _ (by decide) rfl rfl _ _ rfl, table_in_order _ (by decide) rfl rfl _ _ rfl, table_in_order _ (by decide) rfl rfl _ _ rfl,
    rfl, rfl, rfl⟩, by simp [Frame.inRange, someDraw], by decide, by decide, by decide, rfl, rfl, by decide, rfl, rfl, by decide,
    by simp [Frame.inRange], by decide, rfl, by decide, rfl, rfl, le_refl _, le_refl _, by simp [Frame.inRange], by decide, by decide +kernel⟩

theorem witness_FramesReadBack : someDraw.inRange ∧ (Frame.beacon ownBeacon).inRange :=
  ⟨by simp [Frame.inRange, someDraw], by simp [Frame.inRange, ownBeacon, receiptsOrdered]⟩

/-- A label whose lock indicator is 2, its check right. -/
def badLock : Bytes := le 6 0 ++ le 1 2 ++ le 4 (crc32c (le 6 0 ++ le 1 2)).toNat

theorem witness_LabelReceived :
    track.phase = .run ∧ track.ref.state ≠ .absent ∧ track.ref.cutLabel = false
      ∧ { track with ref.cutLabel := true }.ref.cutLabel = true ∧ (⟨2 ^ 48 - 1, true⟩ : RefLabel).second < 2 ^ 48 ∧ ([] : Bytes).length ≠ 11
      ∧ badLock.length = 11 ∧ 1 < field 6 1 badLock
      ∧ field 7 4 (List.replicate 11 0) ≠ (crc32c ((List.replicate 11 0).take 7)).toNat := by decide +kernel

/-- The station with a reference in a state, its label, and its oscillator at a count. -/
def referenced (st : RefState) (l : Option RefLabel) (p : Option PrevEdge) (osc : Nat) : State :=
  { track with osc := osc, ref := { track.ref with state := st, label := l, prev := p } }

theorem witness_EdgeMovesTheReference :
    track.phase = .run ∧ (referenced .seeking none none 0).ref.state = .seeking ∧ (referenced .seeking none none 0).ref.label = none
      ∧ (referenced .seeking (some ⟨5001, false⟩) none 0).ref.label = some ⟨5001, false⟩
      ∧ (referenced .seeking (some ⟨5001, true⟩) none 0).ref.label = some ⟨5001, true⟩
      ∧ (referenced .seeking (some ⟨5001, true⟩) none 0).ref.prev = none
      ∧ (referenced .valid (some ⟨5001, true⟩) (some ⟨5000, 0⟩) 0).ref.state = .valid
      ∧ (referenced .disputed (some ⟨5001, true⟩) (some ⟨5000, 0⟩) 0).ref.prev = some ⟨5000, 0⟩
      ∧ (5001 = (⟨5000, 0⟩ : PrevEdge).second + 1 ∧ ∀ osc ∈ [512 * 999950000, 512 * 1000050000],
          (⟨5000, 0⟩ : PrevEdge).osc + 512 * 999950000 ≤ osc ∧ osc ≤ (⟨5000, 0⟩ : PrevEdge).osc + 512 * 1000050000)
      ∧ (referenced .valid none (some ⟨5000, 0⟩) 0).ref.label = none
      ∧ loadedStation.phase = .config ∧ { track with ref.state := .absent }.ref.state = .absent
      ∧ (∀ st ∈ [RefState.seeking, .qualifying, .valid, .disputed], ∀ l ∈ [none, some ⟨5001, false⟩, some ⟨5002, true⟩, some ⟨5001, true⟩],
          (referenced st l (some ⟨5000, 0⟩) (512 * 999950000 - 1)).ref.state = st
            ∧ (referenced st l (some ⟨5000, 0⟩) (512 * 999950000 - 1)).ref.label = l)
      ∧ 5002 ≠ (⟨5000, 0⟩ : PrevEdge).second + 1 ∧ 512 * 999950000 - 1 < (⟨5000, 0⟩ : PrevEdge).osc + 512 * 999950000
      ∧ (⟨5000, 0⟩ : PrevEdge).osc + 512 * 1000050000 < 512 * 1000050000 + 1
      ∧ (holding 495 track).evid.queue.length < 496
      ∧ (∀ n ∈ [1, 2], { track.ref with run := n }.run < 3) ∧ 3 ≤ { track.ref with run := 3 }.run
      ∧ track.steer.state ≠ .cold ∧ cold.steer.state = .cold ∧ (∀ a, ¬ stepMeetsSpan a cold)
      ∧ (track.ref.state ≠ .valid ∨ cold.steer.grade ≠ .anchored) ∧ track.steer.grade = .anchored :=
  ⟨rfl, rfl, rfl, rfl, rfl, rfl, rfl, rfl, by decide, rfl, rfl, rfl, by decide, by decide, by decide, by decide, by decide +kernel,
    by decide, by decide, nofun, rfl, no_span _ rfl, .inr nofun, rfl⟩

/-- The third good edge of a run qualifies, and in COLD the clock takes the reference's time: the REFERENCE record, then the STEP record
(R51, R79). With no cable delay the clock reads 5,001 s after it. -/
theorem test_qualifying_edge :
    (let s := { referenced .qualifying (some ⟨5001, true⟩) (some ⟨5000, 0⟩) (512 * 1000000000) with steer := cold.steer, ref.run := 3 }
     let t := after .edge s
     t.ref.state = .valid ∧ t.ref.run = 0 ∧ t.ref.theta = some 0 ∧ t.clock.present = 5001 * 256000000000 ∧ t.steer.state = .acquire
      ∧ t.evid.queue.map (fun r => r.body.kind) = [.reference, .step]) := by decide +kernel

theorem witness_EdgeTimeoutSeeks :
    (let s := holding 495 (referenced .valid none (some ⟨5000, 7⟩) (7 + 512 * 1500000000))
     s.phase = .run ∧ s.ref.state = .valid ∧ s.ref.prev = some ⟨5000, 7⟩
      ∧ (⟨5000, 7⟩ : PrevEdge).osc + 512 * 1500000000 ≤ s.osc ∧ s.evid.queue.length < 496) := by decide +kernel

theorem witness_CorrectionLiesBetweenOffsets :
    selectClass (2 * cfg0.faults + 1) (admittedSources cfg0 track.ref (sourceList track)) = some .agreed
      ∧ (combine 0 cfg0 (admittedSources cfg0 track.ref (sourceList track))).retained.length = 3 := by decide +kernel

/-- Each class, as the highest that three sources have or exceed; two sources have none, and with f = 0 one is enough. -/
theorem witness_CorrectionLiesBetweenOffsets_classes :
    (∀ g ∈ [Grade.anchored, .agreed, .holdover, .free],
        let xs := (List.range 2).map (fun n => (⟨n, n, .anchored, 5⟩ : Source)) ++ [⟨9, -7, g, 3⟩]
        selectClass 3 xs = some g ∧ selectClass 3 (xs.take 2) = none ∧ (combine 0 cfg0 xs).retained.length = 1)
      ∧ selectClass 1 [⟨0, 5, .free, 1⟩] = some .free ∧ (combine 0 { cfg0 with faults := 0 } [⟨0, 5, .free, 1⟩]).retained.length = 1 := by
  decide +kernel

/-- The station with peers 3,000,000 ns away (05 section 5.12, instant A). -/
def offBeat : State := { track with
  peers := [peer 3 768000002 465920 .agreed 50, peer 5 767999998 465920 .agreed 50, peer 7 768000000 465920 .agreed 50,
            peer 9 768000010 465920 .agreed 50] }

theorem witness_SteeringInstantSlews :
    track.phase = .run ∧ track.steer.series = some ⟨1280192000000000, true⟩ ∧ track.steer.state ≠ .cold
      ∧ (instantCombination track).cstar = some .agreed
      ∧ (correctionOf (instantCombination track).retained).natAbs < track.cfg.stepThreshold * 256
      ∧ (let s := serving (entry12 .fixed) 5000500 offBeat
         s.phase = .run ∧ s.steer.series = some ⟨1280192000000000, true⟩ ∧ s.steer.state ≠ .cold
          ∧ (instantCombination s).cstar = some .agreed
          ∧ s.cfg.stepThreshold * 256 ≤ (correctionOf (instantCombination s).retained).natAbs
          ∧ s.steer.stepDeferred = false ∧ (holding 495 s).evid.queue.length < 496 ∧ s.entries[(3 : Fin 32)].state = .fixed) := by
  decide +kernel

theorem witness_FirstCombinationSetsTheClock :
    cold.phase = .run ∧ cold.steer.series = some ⟨1280192000000000, true⟩ ∧ cold.steer.state = .cold
      ∧ (instantCombination cold).cstar = some .agreed
      ∧ (∀ a, ¬ stepMeetsSpan a cold) ∧ (∀ a, ¬ stepMeetsSpan a offBeat)
      ∧ offBeat.phase = .run ∧ offBeat.steer.series = some ⟨1280192000000000, true⟩ ∧ (instantCombination offBeat).cstar = some .agreed
      ∧ offBeat.cfg.stepThreshold * 256 ≤ (correctionOf (instantCombination offBeat).retained).natAbs
      ∧ (holding 495 offBeat).evid.queue.length < 496 :=
  ⟨rfl, rfl, rfl, by decide +kernel, no_span _ rfl, no_span _ rfl, rfl, rfl, by decide +kernel, by decide +kernel, by decide +kernel⟩

/-- Outside COLD the step's instant forms the grade FREE, a change from ANCHORED and none from FREE; a VALID reference far from the peers
is DISPUTED at its fourth such instant, and one that has not disagreed before stays VALID. -/
theorem witness_FirstCombinationSetsTheClock_grade :
    (let r := (instantCombination offBeat).retained
     offBeat.steer.state = .track ∧ offBeat.steer.grade = .anchored ∧ { offBeat with steer.grade := .free }.steer.grade = .free
      ∧ gradeOf cfg0 .agreed (instantCombination offBeat).refRetained (boundOf cfg0 r) = .free
      ∧ offBeat.evid.queue.length < 512 ∧ offBeat.ref.state = .valid ∧ (after .steeringInstant offBeat).ref.state = .valid
      ∧ (after .steeringInstant { offBeat with ref.disagree := 3 }).ref.state = .disputed) := by decide +kernel

/-- The station without a source, in a steering state. -/
def alone (st : SteerState) : State := { track with peers := [], ref := Reference.powerOn, steer := { track.steer with state := st } }

theorem witness_InstantWithoutCombination :
    ∀ st ∈ [SteerState.cold, .acquire, .track, .holdover],
      (alone st).phase = .run ∧ (alone st).steer.series = some ⟨1280192000000000, true⟩
        ∧ (instantCombination (alone st)).cstar = none ∧ (alone st).steer.state = st := by decide +kernel

/-- The station whose peer 7, far from the others, has disagreed three times, and whose reference's runs are at a count. -/
def judging (runs : Nat) (st : RefState) : State := { track with
  ref := { track.ref with state := st, disagree := runs, agree := runs, theta := some 30272 }
  peers := track.peers.map (fun p => if p.id = 7 then { p with disagree := 3 } else p) }

theorem witness_SteeringInstantJudges :
    (∀ n ∈ [2, 3], ∀ st ∈ [RefState.valid, .disputed],
        let s := judging n st
        s.phase = .run ∧ s.steer.series = some ⟨1280192000000000, true⟩ ∧ (s.peers.map Peer.id).Nodup
          ∧ (instantCombination s).cstar ≠ none ∧ s.ref.state = st ∧ s.ref.theta = some 30272)
      ∧ (let s := judging 0 .valid
         s.cfg.disagreeLimit * 256 < (-634880 - correctionOf (instantCombination s).retained).natAbs
          ∧ ¬ s.cfg.disagreeLimit * 256 < (33280 - correctionOf (instantCombination s).retained).natAbs)
      ∧ (instantCombination (alone .track)).cstar = none ∧ (judging 0 .seeking).ref.state ≠ .valid
      ∧ (holding 490 track).evid.queue.length < 496
      ∧ (∀ b ∈ [track.clock.present, track.clock.present + 1],
          { track with evid.boundary := some b }.evid.boundary = some b) := by decide +kernel

/-- The fourth disagreement in a row excludes peer 7, with a PEER record, and a beacon two instants old makes peer 3 SILENT (R39, R41,
R43); the SYNC record is the last (R80). -/
theorem test_exclusion :
    (let s := judging 0 .valid
     let s := { s with peers := s.peers.map (fun p => if p.id = 3 then { p with age := 1 } else p) }
     let t := after .steeringInstant s
     t.peers.map (fun p => (p.id, p.state, p.mark)) = [(3, .silent, false), (5, .paired, false), (7, .excluded, true), (9, .paired, false)]
      ∧ t.evid.queue.map (fun r => r.body.kind) = [.peer, .peer, .sync] ∧ t.ref.agree = 1) := by decide +kernel

theorem witness_RatesStayLimited :
    RateOk track ∧ RateOk (alone .holdover) ∧ ∃ t, step track = .next t := by
  refine ⟨⟨by decide, by decide, by decide, ?_, nofun⟩, ⟨by decide, by decide, by decide, ?_, nofun⟩, idle_step _ rfl⟩ <;>
  · intro h e
    cases e
    decide

theorem witness_GradeStaysBacked : GradeOk track ∧ GradeOk loadedStation ∧ ∃ t, step track = .next t := by
  refine ⟨⟨fun _ => rfl, by decide, nofun, by decide, nofun⟩, ⟨nofun, nofun, fun _ => rfl, by decide, ?_⟩, idle_step _ rfl⟩
  intro r e
  cases e
  decide +kernel

theorem witness_OrderPortTransfers :
    { track.stamp with requests := List.replicate 63 ⟨0, 0, 0, 0⟩ }.requests.length < 64
      ∧ 64 ≤ { track.stamp with requests := List.replicate 64 ⟨0, 0, 0, 0⟩ }.requests.length
      ∧ { track.stamp with responses := [.refused 0 .notReady 0 0 0] }.responses = .refused 0 .notReady 0 0 0 :: [] := by
  decide +kernel

/-- The station with `n` captures in the queue of line 3. -/
def captured (n : Nat) : State := { track with stamp.captures := track.stamp.captures.set 3 (List.replicate n 256000) }

theorem witness_CaptureEdgeIsQueued :
    clockSet cold = false ∧ clockSet (captured 7) = true ∧ (captured 7).stamp.captures[(3 : Fin 4)].length < 8
      ∧ clockSet (captured 8) = true ∧ 8 ≤ (captured 8).stamp.captures[(3 : Fin 4)].length := by decide +kernel

/-- The station with a request at the head, `n` responses, and a next sequence. -/
def asked (r : Request) (n : Nat) (next : Option Nat) (s : State) : State := { s with stamp := { s.stamp with
  requests := [r], responses := List.replicate n (.refused 0 .notReady 0 0 0), nextSeq := next } }

theorem witness_StampEventRefuses :
    (asked ⟨0, 0, 0, 0⟩ 63 (some 1) cold).stamp.responses.length < 64 ∧ clockSet (asked ⟨0, 0, 0, 0⟩ 63 (some 1) cold) = false
      ∧ (asked ⟨0, 0, 0, 0⟩ 63 none track).stamp.responses.length < 64 ∧ clockSet (asked ⟨0, 0, 0, 0⟩ 63 none track) = true
      ∧ (asked ⟨0, 0, 0, 0⟩ 63 none track).stamp.nextSeq = none
      ∧ (∀ r ∈ [(⟨2, 0, 0, 0⟩ : Request), ⟨1, 4, 0, 0⟩, ⟨1, 3, 0, 0⟩],
          (asked r 63 (some 1) track).stamp.requests = r :: [] ∧ (asked r 63 (some 1) track).stamp.nextSeq ≠ none
          ∧ (2 ≤ r.kind.toNat ∨ (r.kind = 1 ∧ 4 ≤ r.line.toNat)
            ∨ (r.kind = 1 ∧ ∃ i : Fin 4, r.line.toNat = i.val ∧ (asked r 63 (some 1) track).stamp.captures[i] = [])))
      ∧ 64 ≤ (asked ⟨0, 0, 0, 0⟩ 64 (some 1) track).stamp.responses.length := by decide +kernel

theorem witness_StampEventIssues :
    (let s := asked ⟨0, 0, 12, 9⟩ 63 (some 18446744073709551615) track
     s.stamp.requests = ⟨0, 0, 12, 9⟩ :: [] ∧ s.stamp.responses.length < 64 ∧ clockSet s = true
      ∧ s.stamp.nextSeq = some 18446744073709551615)
      ∧ (let s := asked ⟨1, 3, 12, 9⟩ 63 (some 1) (captured 1)
         s.stamp.requests = ⟨1, 3, 12, 9⟩ :: [] ∧ s.stamp.responses.length < 64 ∧ clockSet s = true ∧ s.stamp.nextSeq = some 1
          ∧ ((3 : Byte).toNat = (3 : Fin 4).val ∧ s.stamp.captures[(3 : Fin 4)] = 256000 :: []))
      ∧ (let s := { serving { entry12 .fixed with tc := some 30000000 } 30000001 track with stamp.floor := 29999999999999 }
         s.entries[(3 : Fin 32)].state = .fixed ∧ s.entries[(3 : Fin 32)].cut = none
          ∧ s.entries[(3 : Fin 32)].tcNs ≤ 30000001000000 ∧ s.stamp.floor < s.entries[(3 : Fin 32)].tcNs)
      ∧ (∀ n ∈ [63, 64], let b : Batch := ⟨1, n, 0, 0, 0, 0⟩
          { track with stamp.batch := some b }.stamp.batch = some b)
      ∧ 63 + 1 = cfg0.batchSize ∧ 1 < cfg0.batchSize ∧ (holding 495 track).evid.queue.length < 496
      ∧ (∀ st ∈ [EntryState.armed, .drawing, .tallying, .fixed, .closed], (serving (entry12 st) 0 track).entries[(3 : Fin 32)].state = st
          ∧ (serving (entry12 st) 0 track).entries[(3 : Fin 32)].group = 12)
      ∧ AuctionsOk (serving (entry12 .fixed) 0 track).entries :=
  ⟨by decide +kernel, by decide +kernel, by decide +kernel, by decide +kernel, by decide, by decide, by decide +kernel, by decide +kernel,
    table_in_order _ (by decide) rfl rfl _ _ rfl⟩

/-- A FIXED entry whose Tc equals the floor, with a floor sequence and without one; and raw times above, at and below their rounded one. -/
theorem witness_StampEventIssues_floor :
    (∀ q ∈ [some 8401, none],
        let s := { serving { entry12 .fixed with tc := some 30000000 } 30000001 track with stamp.floor := 30000000000000, stamp.floorSeq := q }
        s.entries[(3 : Fin 32)].state = .fixed ∧ s.entries[(3 : Fin 32)].cut = none ∧ s.entries[(3 : Fin 32)].tcNs = s.stamp.floor
          ∧ s.stamp.floorSeq = q)
      ∧ (∀ raw ∈ [319936, 320000, 332800], { track with clock.present := raw }.clock.present = raw)
      ∧ roundStamp .nearest 100 319936 * 256 < 319936 ∧ 320000 < roundStamp .nearest 100 320000 * 256
      ∧ roundStamp .nearest 100 332800 * 256 = 332800 := by decide +kernel

theorem witness_StampTimesAreRounded :
    maxTime ≤ maxTime ∧ (281474976710655 * 1000000000 + (1000000000 - 1000)) * 2 + 1000 > 0
      ∧ ((281474976710655 * 1000000000 + (1000000000 - 1000)) * 2 + 1000) * 128 ≤ maxTime
      ∧ ((281474976710655 * 1000000000 + (1000000000 - 1000)) * 2 + 1000) * 128 - 1
          < ((281474976710655 * 1000000000 + (1000000000 - 1000)) * 2 + 1000) * 128
      ∧ ∀ g ∈ [1, 10, 100, 1000], (g = 1 ∨ g = 10 ∨ g = 100 ∨ g = 1000) := by decide +kernel

theorem witness_FloorNeverDecreases :
    (∀ e r k, Instr.stampEvent ≠ .powerOnReset e r k)
      ∧ (let s := asked ⟨0, 0, 12, 9⟩ 0 (some 7) track
         (∃ t, exec .stampEvent s = .next t) ∧ s.stamp.nextSeq = some 7 ∧ (after .stampEvent s).stamp.nextSeq = some 8
          ∧ ∃ st, .issued st ∈ (after .stampEvent s).stamp.responses ∧ .issued st ∉ s.stamp.responses) := by
  refine ⟨nofun, ⟨_, rfl⟩, rfl, by decide +kernel,
    ⟨0, 7, 5000500000000, .exact, false, false, false, .none, .anchored, 210, 9⟩, by decide +kernel, by decide +kernel⟩

theorem witness_QueuesStayBounded :
    QueuesOk (onLink .idle true [whole]) ∧ ∃ t, step (onLink .idle true [whole]) = .next t := by
  refine ⟨⟨by decide, by decide, by decide +kernel, by decide, .nil, fun _ => rfl, nofun⟩, idle_step _ rfl⟩

/-- The body of an ARM_AUCTION for a slot: group 12, Tn 30,000,000 ms, W 3,600,000 ms, the least leads, a link. -/
def armBody (slot start link : Nat) : Bytes :=
  le 1 slot ++ le 2 12 ++ le 8 30000000 ++ le 4 3600000 ++ le 4 1600 ++ le 4 600 ++ le 4 100 ++ le 1 0 ++ le 1 start ++ le 1 link
    ++ le 4 86400000

theorem witness_ArmAuctionFillsTheEntry :
    (armBody 31 0 255).length = 34 ∧ track.port.transaction = .absent ∧ track.phase = .run ∧ cold.steer.state = .cold
      ∧ track.steer.state ≠ .cold ∧ (armFields (armBody 31 0 255)).inRange = true ∧ (armFields (armBody 31 0 255)).slot = 31
      ∧ (armFields (armBody 3 0 255)).slot = (3 : Fin 32).val
      ∧ (serving (entry12 .closed) 0 track).entries[(3 : Fin 32)].state ≠ .free ∧ track.entries[(31 : Fin 32)].state = .free
      ∧ (∃ j : Fin 32, (serving (entry12 .held) 0 track).entries[j].group = BitVec.ofNat 16 (armFields (armBody 31 0 255)).group
          ∧ (serving (entry12 .held) 0 track).entries[j].state.live = true)
      ∧ ¬ (∃ j : Fin 32, track.entries[j].group = BitVec.ofNat 16 (armFields (armBody 31 0 255)).group
          ∧ track.entries[j].state.live = true)
      ∧ track.clock.present < (30000000 - 1600) * 256000000 ∧ track.stamp.floor ≤ 30000000 * 1000000
      ∧ (armFields (armBody 31 0 255)).link = 255 ∧ (armFields (armBody 31 1 3)).link = (3 : Fin 32).val
      ∧ (armFields (armBody 31 1 3)).inRange = true
      ∧ (let s := serving { entry12 .held with group := 13 } 0 track
         s.entries[(3 : Fin 32)].state = .held ∧ s.entries[(3 : Fin 32)].pred = none ∧ s.entries[(3 : Fin 32)].link = none
          ∧ ¬ ∃ j : Fin 32, s.entries[j].group = 12 ∧ s.entries[j].state.live = true) := by decide +kernel

/-- Slot 3 links to slot 4, which is HELD. -/
def linking : Entry := { entry12 .armed with link := some 4 }

def waiting : Entry := { Entry.freed with state := .held, group := 13, leadL := 86399999, pred := some 3 }

def chained : State := { track with entries := (track.entries.set 3 linking).set 4 waiting }

/-- Each refusal of ARM_AUCTION at its boundary: the slot 32, W above its largest, a lead difference one too small, an end of the window
one past the largest; a target that is ARMED, that has a predecessor, or from which the chain reaches the slot; a draw instant just reached
and a Tn just below the floor. And a target that carries a link of its own. -/
theorem witness_ArmAuctionFillsTheEntry_refusals :
    (armFields (armBody 32 0 255)).inRange = false ∧ (armFields (patch 11 (le 4 3600001) (armBody 31 0 255))).inRange = false
      ∧ (armFields (patch 15 (le 4 1599) (armBody 31 0 255))).inRange = false
      ∧ (armFields (patch 3 (le 8 (maxTn - 3600000 + 1)) (armBody 31 0 255))).inRange = false
      ∧ (armFields (patch 3 (le 8 (maxTn - 3600000)) (armBody 31 0 255))).inRange = true
      ∧ (armFields (armBody 31 1 32)).inRange = false ∧ (armFields (armBody 31 1 31)).inRange = true
      ∧ (serving (entry12 .armed) 0 track).entries[(3 : Fin 32)].state ≠ .held
      ∧ chained.entries[(4 : Fin 32)].state = .held ∧ chained.entries[(4 : Fin 32)].pred = some 3
      ∧ (let s := serving { entry12 .held with link := some 31 } 0 track
         s.entries[(3 : Fin 32)].state = .held ∧ s.entries[(3 : Fin 32)].pred = none ∧ s.entries[(31 : Fin 32)].state = .free
          ∧ linkFree 31 (some 3) s = false)
      ∧ 30000000 * 256000000 ≤ { track with clock.present := (30000000 - 1600) * 256000000 }.clock.present + 1600 * 256000000
      ∧ 30000000 * 1000000 < { track with stamp.floor := 30000000000001 }.stamp.floor
      ∧ (let s := { track with entries := (track.entries.set 3 { entry12 .held with group := 13, link := some 4 }).set 4 { waiting with group := 14 } }
         linkFree 31 (some 3) s = true ∧ s.entries[(3 : Fin 32)].link = some 4) := by decide +kernel

theorem witness_CancelAndRelease :
    track.port.transaction = .absent ∧ track.entries[(3 : Fin 32)].state.live = false
      ∧ track.entries[(3 : Fin 32)].state ≠ .closed ∧ track.entries[(3 : Fin 32)].state ≠ .void
      ∧ (let e := (serving { entry12 .fixed with offset := some 5, tc := some 30000005 } 0 track).entries[(3 : Fin 32)]
         e.state.live = true ∧ e.link = none ∧ e.pred = none ∧ e.offset = some 5 ∧ e.tc = some 30000005)
      ∧ (serving (entry12 .armed) 0 track).entries[(3 : Fin 32)].offset = none
      ∧ (4 : Fin 32) ≠ 3 ∧ AuctionsOk chained.entries ∧ chained.entries[(3 : Fin 32)].state.live = true
      ∧ chained.entries[(3 : Fin 32)].link = some 4
      ∧ AuctionsOk (serving (entry12 .closed) 0 track).entries
      ∧ (serving (entry12 .closed) 0 track).entries[(3 : Fin 32)].state = .closed := by
  have hs : ∀ i : Fin 32, chained.entries[i]
      = if i = 4 then waiting else if i = 3 then linking else Entry.freed := by
    intro i
    revert i
    simp [Fin.forall_fin_succ, chained, track, State.reset]
  refine ⟨rfl, by decide, by decide, by decide, by decide, rfl, by decide, ⟨?_, ?_, ?_, ?_⟩, by decide, rfl,
    table_in_order _ (by decide) rfl rfl _ _ rfl, rfl⟩
  · intro i j hi hj
    rw [hs] at hi hj
    rw [hs, hs]
    by_cases a : i = 4 <;> by_cases b : j = 4 <;> by_cases c : i = 3 <;> by_cases d : j = 3 <;>
      simp_all [Entry.freed, EntryState.live, entry12, linking, waiting]
  · intro i j hi
    rw [hs] at hi ⊢
    by_cases a : i = 4 <;> by_cases c : i = 3 <;> simp_all [Entry.freed, entry12, linking, waiting]
  · intro i j hi
    rw [hs] at hi ⊢
    by_cases a : j = 4 <;> by_cases c : j = 3 <;> simp_all [Entry.freed, entry12, linking, waiting]
    subst hi
    simp
  · intro i hi
    rw [hs] at hi ⊢
    by_cases a : i = 4 <;> by_cases c : i = 3 <;> simp_all [entry12, linking, waiting]

/-- The chain from slot 3 is slot 4; slot 4, whose predecessor is slot 3, is a chain alone; slot 32 is none. -/
theorem witness_CancelAndRelease_chain :
    isChainFrom chained.entries 3 [4] ∧ isChainFrom chained.entries 4 [] ∧ chained.entries[(4 : Fin 32)].state.live = true
      ∧ chained.entries[(4 : Fin 32)].pred = some 3 ∧ chained.evid.queue.length + 2 ≤ 512 ∧ 31 < (32#8).toNat := by
  unfold isChainFrom
  decide +kernel

theorem witness_DrawInstantDraws :
    (let s := serving (entry12 .armed) 29990000 track
     s.entries[(3 : Fin 32)].state = .armed ∧ s.entries[(3 : Fin 32)].tn = some 30000000 ∧ s.entries[(3 : Fin 32)].leadL ≤ 30000000
      ∧ (30000000 - s.entries[(3 : Fin 32)].leadL) * 256000000 ≤ s.clock.present ∧ 0 < s.entries[(3 : Fin 32)].window
      ∧ s.steer.grade ≠ .free ∧ s.port.selfTest.randomFail = false)
      ∧ cold.steer.grade = .free ∧ { entry12 .armed with window := 0 }.window = 0 := by decide +kernel

theorem witness_TallyInstantTallies :
    (let s := serving (entry12 .drawing) 29995000 track
     s.entries[(3 : Fin 32)].state = .drawing ∧ s.entries[(3 : Fin 32)].tn = some 30000000 ∧ s.entries[(3 : Fin 32)].leadS ≤ 30000000
      ∧ (30000000 - s.entries[(3 : Fin 32)].leadS) * 256000000 ≤ s.clock.present ∧ 0 < s.entries[(3 : Fin 32)].window
      ∧ (∀ w ∈ s.link.waiting, w.slot = 3 → w.isTally = true) ∧ (s.link.tx = .idle → s.link.hasWaiting = false)
      ∧ { s.entries[(3 : Fin 32)] with window := 0 }.window = 0) ∧ (∀ n, track.link.tx = .deferring n → track.link.hasWaiting = true) :=
  ⟨by decide +kernel, nofun⟩

theorem witness_FixInstantSettles :
    (let s := { serving tallied 29999000 track with stamp.floor := 30000000000000, cfg := { cfg0 with stationId := 6 } }
     s.entries[(3 : Fin 32)].state = .tallying ∧ s.entries[(3 : Fin 32)].tn = some 30000000 ∧ s.entries[(3 : Fin 32)].leadE ≤ 30000000
      ∧ (30000000 - s.entries[(3 : Fin 32)].leadE) * 256000000 ≤ s.clock.present ∧ s.stamp.floor ≤ 30000000 * 1000000
      ∧ s.entries[(3 : Fin 32)].window ≠ 0 ∧ s.entries[(3 : Fin 32)].tallies.lookup s.cfg.stationId = some (.tally 66 7890)
      ∧ (counted tallied).countP (fun x => decide (x.2 = 7890)) < tallied.quorum
      ∧ { tallied with quorum := 1 }.quorum ≤ (counted tallied).countP (fun x => decide (x.2 = 7890))
      ∧ { tallied with window := 0 }.window = 0) := by decide +kernel

/-- A floor one above Tc, on a table in order, whose chain from slot 3 is slot 3 alone; and two offsets of one count, of which the one with
the larger member set is best, and of one member set size the smaller. -/
theorem witness_FixInstantSettles_floor :
    (let s := { serving tallied 29999000 track with stamp.floor := (30000000 + 20594) * 1000000 + 1, cfg := { cfg0 with stationId := 6 } }
     AuctionsOk s.entries ∧ isChainFrom s.entries 3 [] ∧ (30000000 + 20594) * 1000000 < s.stamp.floor)
      ∧ (settle 1 { tallied with quorum := 3, tallies := [(1, .tally 66 7890), (4, .tally 82 20594)] }).1 = 20594
      ∧ (settle 1 { tallied with quorum := 3, tallies := [(1, .tally 82 20594), (4, .tally 82 7890)] }).1 = 7890 := by
  refine ⟨⟨table_in_order tallied (by decide) rfl rfl 29999000 track rfl, ?_, by decide⟩, by decide +kernel, by decide +kernel⟩
  unfold isChainFrom
  decide +kernel

/-- Slot 3 is FIXED with Tc 30,000,000 ms and may link to slot 4, which is HELD. -/
def atTc (cut : Option Nat) (link : Option (Fin 32)) : Entry := { entry12 .fixed with
  offset := some 0, tc := some 30000000, cut := cut, link := link, linkDelay := 86400000 }

def closing (cut : Option Nat) (link : Option (Fin 32)) : State :=
  { track with clock.present := 30000000 * 256000000, entries := (track.entries.set 3 (atTc cut link)).set 4 waiting }

/-- Slot 3 is FIXED with a Tc, linked after a delay to slot 4, HELD with the leads 10,000 and 5,000 ms; the clock is past Tc. -/
def late (cut : Option Nat) (tc delay past : Nat) : State :=
  { track with
    clock.present := (tc + past) * 256000000
    entries := (track.entries.set 3 { entry12 .fixed with offset := some 0, tc := some tc, cut := cut, link := some 4, linkDelay := delay }).set 4
      { entry12 .held with group := 13, tn := none, pred := some 3 } }

theorem witness_CloseInstantCloses :
    (∀ l ∈ [none, some (4 : Fin 32)], ∀ c ∈ [none, some 8401],
      (closing c l).entries[(3 : Fin 32)].state = .fixed ∧ (closing c l).entries[(3 : Fin 32)].tc = some 30000000
        ∧ 30000000 * 256000000 ≤ (closing c l).clock.present ∧ (closing c l).stamp.floor ≤ 30000000 * 1000000
        ∧ (closing c l).entries[(3 : Fin 32)].link = l ∧ (closing c l).entries[(3 : Fin 32)].cut = c)
      ∧ (4 : Fin 32) ≠ 3 ∧ (closing none (some 4)).entries[(4 : Fin 32)].state = .held
      ∧ (let d := (closing none (some 4)).entries[(3 : Fin 32)].linkDelay
         30000000 + d ≤ maxTn ∧ (closing none (some 4)).stamp.floor ≤ (30000000 + d) * 1000000
          ∧ (closing none (some 4)).clock.present
              < (30000000 + d - (closing none (some 4)).entries[(4 : Fin 32)].leadL) * 256000000)
      ∧ (∀ c ∈ [late none 30000000 86400000 0, late none maxTn 1 0, late none 30000000 10000 0, late none 30000000 10000 10000],
          c.entries[(3 : Fin 32)].state = .fixed ∧ c.entries[(3 : Fin 32)].link = some 4 ∧ c.entries[(4 : Fin 32)].state = .held
            ∧ c.entries[(4 : Fin 32)].pred = some 3 ∧ c.entries[(4 : Fin 32)].link = none)
      ∧ maxTn < maxTn + 1
      ∧ (let c := late none 30000000 10000 0
         c.clock.present < (30000000 + 10000 - 5000) * 256000000 ∧ (30000000 + 10000 - 10000) * 256000000 ≤ c.clock.present
          ∧ 0 < c.entries[(4 : Fin 32)].window ∧ c.steer.grade ≠ .free ∧ c.port.selfTest.randomFail = false)
      ∧ (let c := late none 30000000 10000 9999
         (30000000 + 10000 - 5000) * 256000000 ≤ c.clock.present ∧ c.clock.present < (30000000 + 10000) * 256000000)
      ∧ (30000000 + 10000) * 256000000 ≤ (late none 30000000 10000 10000).clock.present
      ∧ 30000000 * 1000000 < { late (some 1) 30000000 0 0 with stamp.floor := 30000000000001 }.stamp.floor := by decide +kernel

theorem witness_AuctionTableStaysInOrder :
    AuctionsOk (serving (entry12 .armed) 29990000 track).entries ∧ ∃ t, step (serving (entry12 .armed) 29990000 track) = .next t :=
  ⟨table_in_order _ (by decide) rfl rfl _ _ rfl, idle_step _ rfl⟩

theorem witness_FenceAndCheckpoint :
    track.phase = .run ∧ track.port.transaction = .absent ∧ (le 4 77).length = 4 ∧ (holding 511 track).evid.queue.length < 512
      ∧ 512 ≤ (holding 512 track).evid.queue.length ∧ { track with evid.fence := some 3 }.evid.fence ≠ none
      ∧ track.evid.fence = none ∧ track.stamp.batch = none
      ∧ { track with stamp.batch := some ⟨1, 1, 0, 0, 0, 0⟩ }.stamp.batch ≠ none
      ∧ (holding 495 track).evid.queue.length < 496 ∧ 496 ≤ (holding 496 track).evid.queue.length := by decide +kernel

/-- The station with two records in its Evidence Queue. -/
def noted : State := takeCheckpoint .command (takeCheckpoint .command track)

theorem witness_EvidenceStaysChained : EvidenceOk noted.evid ∧ noted.evid.queue.length = 2 ∧ ∃ t, step noted = .next t := by
  have h : EvidenceOk track.evid :=
    ⟨by decide, by decide, by decide, by decide, by simp [track, State.reset, Evidence.powerOn], by decide,
      fun _ => rfl, by simp [track, State.reset, Evidence.powerOn], nofun⟩
  have g : track.evid.Grows noted.evid := takeCheckpoint_grows (takeCheckpoint_grows (.refl _))
  exact ⟨g.ok h, by decide +kernel, idle_step _ (by simp only [noted, takeCheckpoint, handRecord_keeps]; rfl)⟩

theorem witness_EvidenceLeavesOnlyWhenAcknowledged :
    (∀ e r k, Instr.checkpoint [] ≠ .powerOnReset e r k) ∧ (∀ k, Instr.checkpoint [] ≠ .recordWriteAck k)
      ∧ (∃ t, exec (.checkpoint []) noted = .next t) ∧ noted.evid.queue ≠ [] := ⟨nofun, nofun, ⟨_, rfl⟩, by decide +kernel⟩

/-- The station with an engine in a state and bytes at descriptor 63 of its table. -/
def tabled (st : EngineState) (bs : Bytes) : State :=
  { exporting ringCopy st [] with card := cardWrite [] 0x107E0 bs, engine := ⟨st, some 63, none, .none, none⟩ }

theorem witness_ExportStartReadsTheDescriptor :
    (tabled .stopped []).phase = .run ∧ (tabled .stopped []).port.transaction = .absent ∧ (63 : Byte).toNat ≤ 63
      ∧ quiet.hostWrites = [] ∧ quiet.hostWritesLate = [] ∧ (tabled .stopped []).engine.state = .stopped
      ∧ (tabled .stalled []).engine.state = .stalled ∧ (tabled .stalled []).engine.index = some (63 : Byte).toNat
      ∧ { quiet with readError := true }.readError = true ∧ quiet.readError = false
      ∧ field 0 1 (cardReadN (tabled .stopped []).card 0x107E0 32) ≠ 1
      ∧ (let bs := cardReadN (tabled .stopped (ringCopy.bytes .armed .none)).card 0x107E0 32
         field 0 1 bs = 1 ∧ parseDescriptor bs = .ok ringCopy)
      ∧ (let bs := cardReadN (tabled .stopped ({ ringCopy with current := 0x4001 }.bytes .armed .none)).card 0x107E0 32
         field 0 1 bs = 1 ∧ parseDescriptor bs = .error .misaligned) := by decide +kernel

/-- The station whose engine is at work on descriptor 0, with a usable descriptor at the link index 1. -/
def linked (st : EngineState) (queue : List Record) : State :=
  { exporting { ringCopy with position := 2, current := 0x4080, count := 1 } st queue with
    card := cardWrite [] 0x10020 (ringCopy.bytes .armed .none) }

theorem witness_ExportStopAndRefusals :
    (exporting ringCopy .waiting []).phase = .run ∧ (exporting ringCopy .waiting []).port.transaction = .absent
      ∧ quiet.hostWrites = [] ∧ (exporting ringCopy .waiting []).engine.copy = some ringCopy
      ∧ (exporting ringCopy .waiting []).engine.index = some 0 ∧ quiet.writeBackError = false
      ∧ { quiet with writeBackError := true }.writeBackError = true
      ∧ (∀ st ∈ [EngineState.stopped, .running, .waiting, .stalled, .stopping, .fault], (exporting ringCopy st []).engine.state = st)
      ∧ 63 < (64 : Byte).toNat ∧ (63 : Byte).toNat ≤ 63
      ∧ (exporting ringCopy .running []).engine.transfer = none
      ∧ (∀ x ∈ [EngineTransfer.done, .read, .faulted [3] .invalid], (underWay (some x) ringCopy .running []).engine.state = .running
          ∧ (underWay (some x) ringCopy .running []).engine.transfer = some x
          ∧ (underWay (some x) ringCopy .running []).engine.copy = some ringCopy
          ∧ (underWay (some x) ringCopy .running []).engine.index = some 0)
      ∧ quiet.hostWritesLate = [] ∧ ringCopy.linkEnable = true ∧ { ringCopy with linkEnable := false }.linkEnable = false
      ∧ quiet.readError = false ∧ { quiet with readError := true }.readError = true ∧ quiet.stopWriteError = false
      ∧ (let bs := cardReadN (linked .running [record201]).card 0x10020 32
         field 0 1 bs = 1 ∧ parseDescriptor bs = .ok ringCopy ∧ headEligible ringCopy 1 false = true ∧ headEligible ringCopy 0 false = false)
      ∧ (let bs := { ringCopy with current := 0x4001 }.bytes .armed .none
         field 0 1 bs = 1 ∧ parseDescriptor bs = .error .misaligned ∧ cardReadN (cardWrite [] 0x10020 bs) 0x10020 32 = bs)
      ∧ field 0 1 (cardReadN track.card 0x10020 32) ≠ 1 := by decide +kernel

theorem witness_RecordWriteIsAcknowledged :
    (let s := { exporting { ringCopy with current := 0xFFFFFFFFFFFFFFC0 } .running [record201] with evid.fence := some 201 }
     quiet.hostWrites = [] ∧ cardWf s.card = true ∧ s.engine.state = .running ∧ s.engine.transfer = none
      ∧ s.engine.copy = some { ringCopy with current := 0xFFFFFFFFFFFFFFC0 } ∧ s.evid.queue = record201 :: []
      ∧ 0xFFFFFFFFFFFFFFC0 + 64 ≤ 18446744073709551616 ∧ (List.replicate 511 anyRecord).length < 512 ∧ record201.bytes.length = 64
      ∧ ringCopy.mode ≠ .single ∧ ringCopy.count - 1 ≠ 0 ∧ (∀ n ∈ s.evid.losses.toList, n = 0) ∧ s.evid.fence = some record201.number)
      ∧ (let d : Descriptor := ⟨.block, .incrementRestart, true, true, 0, 2, 1, 2, 0x8000, 0x8040, 0⟩
         d.mode ≠ .single ∧ d.blockLength ≤ d.position + 1 ∧ d.count - 1 ≠ 0)
      ∧ (∃ n ∈ (countLoss .sync (Vector.replicate 11 0)).toList, n ≠ 0) := by decide +kernel

theorem witness_CompletionWritesBack :
    (let d : Descriptor := { ringCopy with position := 2, current := 0x4080, count := 1, linkEnable := false }
     let s := fun st => exporting d st [record201]
     quiet.hostWrites = [] ∧ quiet.writeBackError = false ∧ (s .running).engine.copy = some d ∧ (s .running).engine.index = some 0
      ∧ (s .running).evid.queue = record201 :: [] ∧ (∀ n ∈ (s .running).evid.losses.toList, n = 0) ∧ (s .running).evid.fence = none
      ∧ (s .running).engine.state = .running ∧ (s .stopping).engine.state = .stopping
      ∧ (s .running).engine.transfer = none ∧ quiet.hostWritesLate = [] ∧ quiet.hold = none
      ∧ (d.advanced record201.number false).complete = true ∧ d.linkEnable = false
      ∧ (ringCopy.advanced record201.number false).complete = false)
      ∧ (let s := linked .running [record201]
         s.engine.state = .running ∧ s.engine.index = some 0
          ∧ ∃ d, s.engine.copy = some d ∧ d.linkEnable = true ∧ (d.advanced record201.number false).complete = true
            ∧ (let bs := cardReadN (cardWrite (cardWrite s.card d.current record201.bytes) 0x10000
                  ((d.advanced record201.number false).bytes .spent .done)) 0x10020 32
               field 0 1 bs = 1 ∧ parseDescriptor bs = .ok ringCopy))
      ∧ { quiet with readError := true }.readError = true ∧ { quiet with writeBackError := true }.writeBackError = true
      ∧ (∀ x ∈ [EndTransfer.done, .stop, .read, .faulted], { quiet with hold := some x }.hold = some x)
      ∧ (∀ x ∈ [EngineTransfer.done, .stop, .read, .faulted [3] .invalid], ∀ st ∈ [EngineState.running, .stopping],
          let s := underWay (some x) ringCopy st []
          s.engine.state = st ∧ s.engine.copy = some ringCopy ∧ s.engine.index = some 0 ∧ s.engine.transfer = some x)
      ∧ (let d : Descriptor := { ringCopy with position := 2, current := 0x4080, count := 1 }
         let card := cardWrite [] 0x10020 ({ ringCopy with current := 0x4001 }.bytes .armed .none)
         let bs := cardReadN (cardWrite (cardWrite card d.current record201.bytes) 0x10000
           ((d.advanced record201.number false).bytes .spent .done)) 0x10020 32
         field 0 1 bs = 1 ∧ parseDescriptor bs = .error .misaligned)
      ∧ (∃ n ∈ (countLoss .sync (Vector.replicate 11 0)).toList, n ≠ 0) ∧ ([] : List Record).length < 512 :=
  ⟨by decide +kernel, ⟨rfl, rfl, { ringCopy with position := 2, current := 0x4080, count := 1 }, rfl, rfl, by decide +kernel, by decide +kernel⟩,
    rfl, rfl, by decide, by decide, by decide +kernel, by decide +kernel, by decide⟩

theorem witness_RecordWriteErrorFaults :
    quiet.hostWrites = [] ∧ (exporting ringCopy .running [record201]).engine.state = .running
      ∧ (exporting ringCopy .stopping [record201]).engine.state = .stopping
      ∧ (exporting ringCopy .running [record201]).engine.copy = some ringCopy
      ∧ (exporting ringCopy .running [record201]).engine.index = some 0
      ∧ (exporting ringCopy .running [record201]).engine.transfer = none
      ∧ { quiet with hold := some .faulted }.hold = some .faulted ∧ quiet.hold ≠ some .faulted
      ∧ (∀ x, (underWay (some x) ringCopy .stopping []).engine.transfer = some x
          ∧ (underWay (some x) ringCopy .stopping []).engine.state = .stopping
          ∧ (underWay (some x) ringCopy .stopping []).engine.copy = some ringCopy
          ∧ (underWay (some x) ringCopy .stopping []).engine.index = some 0) :=
  ⟨rfl, rfl, rfl, rfl, rfl, rfl, rfl, nofun, fun _ => ⟨rfl, rfl, rfl, rfl⟩⟩

theorem witness_CardMemoryStaysCanonical :
    cardWf (tabled .stopped (ringCopy.bytes .armed .none)).card = true
      ∧ (tabled .stopped (ringCopy.bytes .armed .none)).card ≠ []
      ∧ ∃ t, step (tabled .stopped (ringCopy.bytes .armed .none)) = .next t :=
  ⟨by decide +kernel, by decide +kernel, idle_step _ rfl⟩

theorem witness_DescriptorsReadBack :
    (∀ d ∈ [({ ringCopy with position := 255, count := 65536, base := 2 ^ 64 - 64, current := 2 ^ 64 - 64, last := 2 ^ 64 - 1 } : Descriptor),
        ⟨.single, .fixed, false, false, 63, 1, 0, 1, 0, 0, 0⟩],
      1 ≤ d.blockLength ∧ d.blockLength ≤ 256 ∧ d.position < d.blockLength ∧ d.linkIndex ≤ 63 ∧ 1 ≤ d.count ∧ d.count ≤ 65536
        ∧ d.base < 2 ^ 64 ∧ d.current < 2 ^ 64 ∧ d.last < 2 ^ 64 ∧ d.base % 64 = 0 ∧ d.current % 64 = 0)
      ∧ (let bs := ringCopy.bytes .armed .none
         let off := fun p : Bytes => if field 3 1 p = 0 then 256 else field 3 1 p
         (∀ p ∈ [patch 1 [3] bs, patch 1 [12] bs, patch 3 [5, 5] bs, patch 1 [17, 64] bs],
            field 1 1 p % 4 = 3 ∨ field 1 1 p / 4 % 4 = 3 ∨ off p ≤ field 4 1 p ∨ (field 1 1 p / 16 % 2 = 1 ∧ 63 < field 2 1 p))
          ∧ ∀ p ∈ [bs, patch 8 [1] bs, patch 3 [0, 255] bs, patch 1 [1, 64] bs],
            ¬ (field 1 1 p % 4 = 3 ∨ field 1 1 p / 4 % 4 = 3 ∨ off p ≤ field 4 1 p ∨ (field 1 1 p / 16 % 2 = 1 ∧ 63 < field 2 1 p))
              ∧ (field 8 8 p % 64 = 0 ∧ field 16 8 p % 64 = 0 ∨ p = patch 8 [1] bs)) := by decide +kernel

end Sys2Proof.Tests
end

