-- ==== Sys2Proof/Proofs/CaptureEdge.lean ====
section
/-! The capture lines: the three outcomes of a capture edge (R98). -/

namespace Sys2Proof.Machine

/-- CAPTURE_OVERFLOW is notice bit 9 (R183). -/
theorem raise_captureOverflow (s : State) :
    raise .captureOverflow s = { s with port := { s.port with flags := s.port.flags ||| 512#14 } } := rfl

theorem exec_captureEdge (i : Fin 4) (s : State) : exec (.captureEdge i) s = execCaptureEdge i s := rfl

theorem execCaptureEdge_of_clock_unset {i : Fin 4} {s : State} (unset : clockSet s = false) :
    execCaptureEdge i s = .next s :=
  if_pos unset

theorem execCaptureEdge_of_room {i : Fin 4} {s : State} (isSet : clockSet s = true) (room : s.stamp.captures[i].length < 8) :
    execCaptureEdge i s = .next
      { s with stamp.captures := s.stamp.captures.set i (s.stamp.captures[i] ++ [s.clock.present]) } := by
  have notUnset : ¬ clockSet s = false := by simp [isSet]
  rw [execCaptureEdge, if_neg notUnset, if_pos room]

theorem execCaptureEdge_of_full {i : Fin 4} {s : State} (isSet : clockSet s = true) (full : 8 ≤ s.stamp.captures[i].length) :
    execCaptureEdge i s = .next (raise .captureOverflow { s with stamp.overflow := s.stamp.overflow.set i true }) := by
  have notUnset : ¬ clockSet s = false := by simp [isSet]
  rw [execCaptureEdge, if_neg notUnset, if_neg full.not_gt]

/-- Settles O38: one clause for each branch of R98. -/
theorem captureEdgeIsQueued : Obligations.CaptureEdgeIsQueued := by
  intro i s
  rw [exec_captureEdge]
  refine ⟨execCaptureEdge_of_clock_unset, execCaptureEdge_of_room, fun isSet full => ?_⟩
  rw [execCaptureEdge_of_full isSet full, raise_captureOverflow]

end Sys2Proof.Machine
end

