-- ==== Sys2Proof/Proofs/IdentifyAndNotices.lean ====
section
/-! The Service Port commands that are accepted in every phase and touch the Service Port Controller alone: IDENTIFY (R177),
READ_NOTICES and CLEAR_NOTICES (R181). -/

namespace Sys2Proof.Machine

/-! ### A received command of the right length -/

/-- A command that is the first of its transaction and of the right length has its own effect (R169, R170). -/
theorem onCommand_of_fits {len : Nat} {body : Bytes} {run : State → State} {s : State}
    (absent : s.port.transaction = .absent) (fits : body.length = len) : onCommand len body run s = run s := by
  obtain ⟨past, -⟩ | ⟨-, misfits, -⟩ | ⟨-, -, runs⟩ := onCommand_cases len body run s
  · exact absurd absent past
  · exact absurd fits misfits
  · exact runs

/-! ### IDENTIFY -/

theorem phaseBytes_eq (s : State) : phaseBytes s = [if s.phase = .run then 1 else 0] := by
  cases phase : s.phase <;> simp [phaseBytes, phase, Phase.code, le]

theorem le_one_selfTest_word (x : SelfTest) :
    le 1 x.word = [BitVec.ofNat 8 ((if x.evidenceFail then 1 else 0) + (if x.randomFail then 2 else 0))] := by
  obtain ⟨evidenceFail, randomFail⟩ := x
  cases evidenceFail <;> cases randomFail <;> rfl

theorem exec_identify_of_absent {s : State} (absent : s.port.transaction = .absent) :
    exec (.identify []) s = .next (s.replied .ok
      (le 2 0x0C41 ++ le 2 0x0460 ++ le 1 1 ++ le 1 s.port.selfTest.word ++ phaseBytes s)) :=
  congrArg Host.Outcome.next (onCommand_of_fits absent rfl)

/-- Settles O10: vendor code 0x0C41, part code 0x0460 and revision 1 are written low byte first, the other two are one byte each. -/
theorem identifyReplies : Obligations.IdentifyReplies := by
  intro s absent
  rw [exec_identify_of_absent absent, le_one_selfTest_word, phaseBytes_eq]
  rfl

/-! ### READ_NOTICES and CLEAR_NOTICES -/

theorem Notice.index_lt (n : Notice) : n.index < 14 := by
  cases n <;> decide

/-- CLEAR_NOTICES carries its set low byte first, so the second byte is the high half. -/
theorem ofNat_field_two_bytes (x y : Byte) : BitVec.ofNat 16 (field 0 2 [x, y]) = y ++ x := by
  have value : field 0 2 [x, y] = x.toNat + 256 * y.toNat := by simp [field, leNat]
  have joined : (y ++ x).toNat = 256 * y.toNat + x.toNat := by
    rw [BitVec.toNat_append, ← Nat.shiftLeft_add_eq_or_of_lt x.isLt, Nat.shiftLeft_eq, Nat.mul_comm]
  apply BitVec.eq_of_toNat_eq
  rw [BitVec.toNat_ofNat, value, joined]
  omega

/-- After a clearing the flags that stand are those that stood and are not named (R181). -/
theorem flagSet_clearFlags (n : Notice) (named : BitVec 16) (s : State) :
    flagSet n (clearFlags named s) = (flagSet n s && !n.namedIn named) := by
  simp [flagSet, Notice.namedIn, n.index_lt]

theorem exec_readNotices_of_absent {s : State} (absent : s.port.transaction = .absent) :
    exec (.readNotices []) s = .next (s.replied .ok (noticeBytes s.port.flags ++ noticeBytes s.port.enables)) :=
  congrArg Host.Outcome.next (onCommand_of_fits absent rfl)

theorem exec_clearNotices_of_absent {s : State} (absent : s.port.transaction = .absent) (x y : Byte) :
    exec (.clearNotices [x, y]) s =
      .next ((clearFlags (y ++ x) s).replied .ok (noticeBytes (clearFlags (y ++ x) s).port.flags)) := by
  have runs : exec (.clearNotices [x, y]) s = .next (clearNotices [x, y] s) :=
    congrArg Host.Outcome.next (onCommand_of_fits absent rfl)
  rw [runs, clearNotices, ofNat_field_two_bytes, respond_eq_replied]

/-- Settles O14: the flags left are those of `clearFlags` on the named set. -/
theorem noticeCommands : Obligations.NoticeCommands := by
  intro s absent
  refine ⟨exec_readNotices_of_absent absent, fun x y => ⟨(clearFlags (y ++ x) s).port.flags, ?_, fun n => ?_⟩⟩
  · exact exec_clearNotices_of_absent absent x y
  · exact flagSet_clearFlags n (y ++ x) s

end Sys2Proof.Machine
end

