-- ==== Sys2Proof/Proofs/Effects.lean ====
section
/-! What a command can do: one inversion lemma for `exec`, from which the statements about every command and every step follow. -/

namespace Sys2Proof.Machine

/-! ### The Service Port Controller alone -/

/-- What a command that touches the Service Port Controller alone makes of it: the enable set and the self-test word stay, the loaded
record stays or is one that passed every test in CONFIG (R173, R174), and only CLEAR_NOTICES can clear a flag (R181). -/
structure PortMove (c : Instr) (phase : Phase) (p q : Port) : Prop where
  enables : q.enables = p.enables
  selfTest : q.selfTest = p.selfTest
  loaded : q.loaded = p.loaded ∨ ∃ r, phase = .config ∧ q.loaded = some r ∧ firstBadField r = none
  flags : q.flags = p.flags ∨ ∃ body, c = .clearNotices body

theorem PortMove.refl (c : Instr) (phase : Phase) (p : Port) : PortMove c phase p p :=
  ⟨rfl, rfl, .inl rfl, .inl rfl⟩

theorem PortMove.transaction (c : Instr) (phase : Phase) (p : Port) (t : Transaction) :
    PortMove c phase p { p with transaction := t } :=
  ⟨rfl, rfl, .inl rfl, .inl rfl⟩

/-! ### The inversion lemma -/

/-- The station after POWER_ON_RESET (R171; log 29). -/
def powerOnState (evidenceFail randomFail cardTook : Bool) (s : State) : State :=
  { State.reset with
    pending := s.pending
    osc := s.osc
    fresh := s.fresh
    card := (strayWrite cardTook s).card
    link := linkPowerOn s.link
    port := Port.powerOn ⟨evidenceFail, randomFail⟩ }

/-- A warm reset is taken as the transaction becomes `tr` and card memory may take the write that is cut short (R167, R182). -/
def warmResetState (cause : ResetCause) (label took : Bool) (tr : Transaction) (s : State) : State :=
  takeWarmReset cause label { strayWrite took s with port.transaction := tr }

/-- Everything a command can do to the station: one constructor for each operation a command comes to, with the tests that led to it. -/
inductive Effect (s : State) : Instr → State → Prop where
  /-- the command is ignored or answered, or touches the Service Port Controller alone -/
  | port {c : Instr} (p : Port) : PortMove c s.phase s.port p → Effect s c { s with port := p }
  | powerOn (e r k : Bool) : Effect s (.powerOnReset e r k) (powerOnState e r k s)
  | warmReset {c : Instr} (cause : ResetCause) (label took : Bool) (tr : Transaction) :
      ((∃ d k, c = .resetLineEdge d k) ∨ ∃ k, c = .chipSelectRelease k) → Effect s c (warmResetState cause label took tr s)
  | start (body r : Bytes) : s.phase = .config → s.port.loaded = some r → s.port.selfTest.evidenceFail = false →
      Effect s (.start body) (respond .ok [] (handRecord (startBody r s.port.selfTest) (startBlocks r s)))
  | setTime (body answer : Bytes) (a : Int) : s.phase = .run → s.steer.state = .cold → stepForbidden a s = false →
      Effect s (.setTime body) (respond .ok answer (takeStep a .setTime s))
  | arm (body : Bytes) (i : Fin 32) (a : ArmFields) : clockSet s = true → a.inRange = true → slotOf a.slot = some i →
      armStatus i a s = .ok →
      Effect s (.armAuction body) (respond .ok [] (setPred i a.linkSlot (setEntry i (armedEntry a s.cfg.quorum) s)))
  | cancel (body : Bytes) (i : Fin 32) : s.entries[i].state.live = true →
      Effect s (.cancelAuction body) (respond .ok [] (voidEntry i .cancelled s))
  | release (body : Bytes) (i : Fin 32) : s.entries[i].state = .closed ∨ s.entries[i].state = .void →
      Effect s (.releaseAuction body) (respond .ok [] (releaseEntry i s))
  | fence (body : Bytes) (token : BitVec 32) : s.phase = .run → s.evid.fence = none → s.evid.queue.length < 512 →
      Effect s (.fence body) (takeFence token s)
  | checkpoint (body answer : Bytes) : s.phase = .run → Effect s (.checkpoint body) (respond .ok answer (takeCheckpoint .command s))
  /-- the host has written into card memory, and nothing else happens but an answer -/
  | hostWrote {c : Instr} (k : CardInput) (p : Port) : PortMove c s.phase s.port p → Effect s c { hostFirst k s with port := p }
  | exportRead {c : Instr} (k : CardInput) (i : Nat) :
      ((∃ body, c = .exportStart body k) ∨ ∃ body, c = .exportResume body k) → s.phase = .run →
      Effect s c (engineReply (readInCommand i k (hostFirst k s)))
  | exportStop (body : Bytes) (k : CardInput) (u : State) : s.phase = .run →
      (u = stopEngine k (hostFirst k s) ∨ u = stopWhole k (hostFirst k s)) → Effect s (.exportStop body k) (respond .ok [] u)
  | acknowledge (k : CardInput) (d : Descriptor) : s.engine.copy = some d → s.engine.state.writing = true →
      Effect s (.recordWriteAck k) (acknowledgeNext d k (hostFirst k s))
  | transferError (k : CardInput) (took : Bool) (st : CompletionStatus) :
      Effect s (.recordWriteError k took) (enterFault s.engine.index st (hostFirst k s))
  | writeError (k : CardInput) (took : Bool) (d : Descriptor) : s.engine.copy = some d →
      Effect s (.recordWriteError k took)
        (faultWriteBack (d.bytes .faulted .memoryError) .memoryError k (strayWrite took (hostFirst k s)))
  | beaconInstant : Effect s .beaconInstant
      { s with link := settleTx s.osc { s.link with series := s.link.series.map Series.taken, pendingBeacon := true } }
  | segmentIdle : Effect s .segmentIdle { s with link := s.link.turnIdle s.osc }
  | depart : accessDue s = true → Effect s .accessWaitComplete (departFrame s)
  | frameSent (f : Frame) : s.link.tx = .sending f →
      Effect s .frameSent { s with link := settleTx s.osc { s.link with tx := .idle, history := historyAfter f s.link.history } }
  | frameArrival : Effect s .frameArrival { s with link := s.link.arrive s.clock.present (decide (s.phase = .config)) }
  | frameDiscarded (bytes : Bytes) (damaged : Bool) (rest : List Incoming) :
      Effect s (.frameReceived bytes damaged) { s with link.incoming := rest }
  | frameChecked (bytes : Bytes) (damaged cut : Bool) (arrival : Nat) (rest : List Incoming) : s.phase = .run →
      Effect s (.frameReceived bytes damaged) (checkFrame bytes cut arrival { s with link.incoming := rest })
  | label (bytes : Bytes) (l : Option RefLabel) (cut : Bool) :
      Effect s (.labelReceived bytes) { s with ref := { s.ref with label := l, cutLabel := cut } }
  | goodEdge (second : Nat) : refListening s = true → Effect s .edge (goodEdge second s)
  | badEdge (v : Verdict) : refListening s = true → Effect s .edge (badEdge v s)
  | edgeTimeout : edgeTimeoutDue s = true → Effect s .edgeTimeout
      (leaveState s.ref.state .edgeTimeout { s with ref := { s.ref.seek with verdict := .interval } })
  | steering : s.phase = .run →
      Effect s .steeringInstant (steeringInstant { s with steer.series := s.steer.series.map Series.taken })
  | request (kind line : Byte) (group : Vector Byte 2) (tag : Vector Byte 4) : s.stamp.requests.length < 64 →
      Effect s (.requestArrival kind line group tag)
        { s with stamp.requests := s.stamp.requests ++ [requestOf kind line group tag] }
  | stamp (r : Request) (rest : List Request) : s.stamp.requests = r :: rest → s.stamp.responses.length < 64 →
      Effect s .stampEvent (answerRequest r { s with stamp.requests := rest })
  | responseTaken : Effect s .responseTaken { s with stamp.responses := s.stamp.responses.tail }
  | capture (line : Fin 4) : s.stamp.captures[line].length < 8 → Effect s (.captureEdge line)
      { s with stamp.captures := s.stamp.captures.set line (s.stamp.captures[line] ++ [s.clock.present]) }
  | captureLost (line : Fin 4) : Effect s (.captureEdge line)
      (raise .captureOverflow { s with stamp.overflow := s.stamp.overflow.set line true })
  | draw (i : Fin 32) : s.entries[i].state = .armed → Effect s (.drawInstant i) (drawEntry i s)
  | tally (i : Fin 32) : s.entries[i].state = .drawing → Effect s (.tallyInstant i) (tallyEntry i s)
  | fix (i : Fin 32) : s.entries[i].state = .tallying → Effect s (.fixInstant i) (fixEntry i s)
  | close (i : Fin 32) : s.entries[i].state = .fixed → Effect s (.closeInstant i) (closeEntry i s)

theorem Effect.ignored (s : State) (c : Instr) : Effect s c s := .port s.port (.refl c s.phase s.port)

theorem Effect.answer (s : State) (c : Instr) (st : Status) (b : Bytes) : Effect s c (respond st b s) :=
  .port _ (.transaction c s.phase s.port _)

theorem Effect.hostAnswer (s : State) (c : Instr) (k : CardInput) (st : Status) (b : Bytes) :
    Effect s c (respond st b (hostFirst k s)) :=
  .hostWrote k _ (.transaction c s.phase s.port _)

/-- The common tests of a command leave its own effect to be found (R169, R170). -/
theorem Effect.onCommand {s : State} {c : Instr} {len : Nat} {body : Bytes} {run : State → State}
    (own : body.length = len → Effect s c (run s)) : Effect s c (onCommand len body run s) := by
  obtain ⟨-, h⟩ | ⟨-, -, h⟩ | ⟨-, fits, h⟩ := onCommand_cases len body run s
  · rw [h]
    exact .ignored s c
  · rw [h]
    exact .answer s c _ _
  · rw [h]
    exact own fits

/-- The common tests of a command to the Export Engine, after the host's own writes (R169, R170; log 10). -/
theorem Effect.onExport {s : State} {c : Instr} {len : Nat} {body : Bytes} {k : CardInput} {run : State → State}
    (own : Effect s c (run (hostFirst k s))) : Effect s c (Machine.onCommand len body run (hostFirst k s)) := by
  obtain ⟨-, h⟩ | ⟨-, -, h⟩ | ⟨-, -, h⟩ := onCommand_cases len body run (hostFirst k s)
  · rw [h]
    exact .hostWrote k s.port (.refl c s.phase s.port)
  · rw [h]
    exact .hostAnswer s c k _ _
  · rw [h]
    exact own

/-- The tests of a command that names a slot (R121, R123, R124). -/
theorem Effect.onSlot {s : State} {c : Instr} {body : Bytes} {run : Fin 32 → State → State}
    (own : ∀ i, Effect s c (run i s)) : Effect s c (onSlot body run s) := by
  unfold Machine.onSlot
  split
  · exact .answer ..
  · exact own _

/-! ### The commands of the Service Port -/

theorem effect_loadConfig (body : Bytes) (s : State) : Effect s (.loadConfig body) (loadConfig body s) := by
  unfold loadConfig
  split
  · exact .answer ..
  · split
    · exact .answer ..
    · next inConfig =>
      split
      · exact .answer ..
      · next passes => exact .port _ ⟨rfl, rfl, .inr ⟨body, inConfig, rfl, passes⟩, .inl rfl⟩

theorem effect_start (body : Bytes) (s : State) : Effect s (.start body) (start s) := by
  unfold start
  split
  · exact .answer ..
  · exact .answer ..
  · next r inConfig loaded =>
    split
    · exact .answer ..
    · next passed => exact .start body r inConfig loaded (by simpa using passed)

theorem effect_setTime (body : Bytes) (s : State) : Effect s (.setTime body) (setTime body s) := by
  unfold setTime
  simp only
  split
  · exact .answer ..
  · next early =>
    split
    · exact .answer ..
    · split
      · exact .answer ..
      · next free =>
        obtain ⟨inRun, cold⟩ := not_or.mp early
        refine .setTime body _ _ ?_ (not_not.mp cold) (by simpa using free)
        cases phase : s.phase with
        | config => exact absurd phase inRun
        | run => rfl

theorem effect_readPeer (body : Bytes) (s : State) : Effect s (.readPeer body) (readPeer body s) := by
  unfold readPeer
  split
  · exact .answer ..
  · split <;> exact .answer ..

theorem effect_armAuction (body : Bytes) (s : State) : Effect s (.armAuction body) (armAuction body s) := by
  unfold armAuction
  simp only
  split
  · exact .answer ..
  · next isSet =>
    split
    · exact .answer ..
    · next ranged =>
      split
      · exact .answer ..
      · next i slot =>
        split
        · next status => exact .arm body i (armFields body) (by simpa using isSet) (by simpa using ranged) slot status
        · exact .answer ..

theorem effect_cancelSlot (body : Bytes) (i : Fin 32) (s : State) : Effect s (.cancelAuction body) (cancelSlot i s) := by
  unfold cancelSlot
  split
  · next live => exact .cancel body i live
  · exact .answer ..

theorem effect_releaseSlot (body : Bytes) (i : Fin 32) (s : State) : Effect s (.releaseAuction body) (releaseSlot i s) := by
  unfold releaseSlot
  split
  · next ended => exact .release body i ended
  · exact .answer ..

theorem run_of_not_config {s : State} (h : ¬ s.phase = .config) : s.phase = .run := by
  cases phase : s.phase with
  | config => exact absurd phase h
  | run => rfl

theorem effect_fence (body : Bytes) (s : State) : Effect s (.fence body) (fence body s) := by
  unfold fence
  split
  · exact .answer ..
  · next inRun =>
    split
    · exact .answer ..
    · next noFence =>
      split
      · exact .answer ..
      · next room => exact .fence body _ (run_of_not_config inRun) (by simpa using noFence) (by omega)

theorem effect_checkpoint (body : Bytes) (s : State) : Effect s (.checkpoint body) (checkpoint s) := by
  unfold checkpoint
  split
  · exact .answer ..
  · next inRun => exact .checkpoint body _ (run_of_not_config inRun)

theorem effect_clearNotices (body : Bytes) (s : State) : Effect s (.clearNotices body) (clearNotices body s) :=
  .port _ ⟨rfl, rfl, .inl rfl, .inr ⟨body, rfl⟩⟩

theorem effect_exportStart (body : Bytes) (k : CardInput) (s : State) :
    Effect s (.exportStart body k) (exportStart body k (hostFirst k s)) := by
  unfold exportStart
  split
  · exact .hostAnswer ..
  · next inRun =>
    split
    · exact .hostAnswer ..
    · split
      · exact .hostAnswer ..
      · exact .exportRead k _ (.inl ⟨body, rfl⟩) (run_of_not_config inRun)

theorem effect_exportResume (body : Bytes) (k : CardInput) (s : State) :
    Effect s (.exportResume body k) (exportResume k (hostFirst k s)) := by
  unfold exportResume
  split
  · next inRun _ _ => exact .exportRead k _ (.inr ⟨body, rfl⟩) inRun
  · exact .hostAnswer ..

theorem effect_exportStop (body : Bytes) (k : CardInput) (s : State) :
    Effect s (.exportStop body k) (exportStop k (hostFirst k s)) := by
  unfold exportStop
  split
  · exact .hostAnswer ..
  · next inRun =>
    split
    · exact .hostAnswer ..
    · exact .hostAnswer ..
    · exact .hostAnswer ..
    · exact .exportStop body k _ (run_of_not_config inRun) (.inr rfl)
    · exact .exportStop body k _ (run_of_not_config inRun) (.inl rfl)
    · exact .exportStop body k _ (run_of_not_config inRun) (.inl rfl)

/-! ### The events -/

theorem effect_chipSelectRelease (cut : ResetCut) (s : State) :
    ∃ t, execChipSelectRelease cut s = .next t ∧ Effect s (.chipSelectRelease cut) t := by
  unfold execChipSelectRelease
  split
  · exact ⟨_, rfl, .warmReset .command cut.labelUnderWay cut.cardTook .absent (.inr ⟨cut, rfl⟩)⟩
  · exact ⟨_, rfl, .port _ (.transaction _ _ _ _)⟩

theorem effect_frameReceived (bytes : Bytes) (damaged : Bool) (s : State) :
    ∃ t, execFrameReceived bytes damaged s = .next t ∧ Effect s (.frameReceived bytes damaged) t := by
  unfold execFrameReceived
  split
  · exact ⟨_, rfl, .ignored ..⟩
  · simp only
    split
    · exact ⟨_, rfl, .frameDiscarded ..⟩
    · next kept =>
      refine ⟨_, rfl, .frameChecked bytes damaged _ _ _ (run_of_not_config fun inConfig => kept ?_)⟩
      simp [inConfig]

theorem effect_labelReceived (bytes : Bytes) (s : State) :
    ∃ t, execLabelReceived bytes s = .next t ∧ Effect s (.labelReceived bytes) t := by
  unfold execLabelReceived
  split
  · exact ⟨_, rfl, .ignored ..⟩
  · split
    · exact ⟨_, rfl, .label bytes s.ref.label false⟩
    · exact ⟨_, rfl, .label bytes (parseLabel bytes) s.ref.cutLabel⟩

theorem effect_edge (s : State) : ∃ t, execEdge s = .next t ∧ Effect s .edge t := by
  unfold execEdge
  split
  · next listening =>
    split
    · exact ⟨_, rfl, .goodEdge _ listening⟩
    · exact ⟨_, rfl, .badEdge _ listening⟩
  · exact ⟨_, rfl, .ignored ..⟩

theorem effect_captureEdge (line : Fin 4) (s : State) :
    ∃ t, execCaptureEdge line s = .next t ∧ Effect s (.captureEdge line) t := by
  unfold execCaptureEdge
  split
  · exact ⟨_, rfl, .ignored ..⟩
  · split
    · next room => exact ⟨_, rfl, .capture line room⟩
    · exact ⟨_, rfl, .captureLost line⟩

theorem effect_stampEvent (s : State) : ∃ t, execStampEvent s = .next t ∧ Effect s .stampEvent t := by
  unfold execStampEvent
  split
  · exact ⟨_, rfl, .ignored ..⟩
  · next r rest queue =>
    split
    · next room => exact ⟨_, rfl, .stamp r rest queue room⟩
    · exact ⟨_, rfl, .ignored ..⟩

theorem effect_recordWriteAck (k : CardInput) (s : State) :
    ∃ t, execRecordWriteAck k s = .next t ∧ Effect s (.recordWriteAck k) t := by
  unfold execRecordWriteAck
  simp only
  split
  · next d copy =>
    split
    · next writing => exact ⟨_, rfl, .acknowledge k d copy writing⟩
    · exact ⟨_, rfl, .hostWrote k s.port (.refl ..)⟩
  · exact ⟨_, rfl, .hostWrote k s.port (.refl ..)⟩

theorem effect_recordWriteError (k : CardInput) (took : Bool) (s : State) :
    ∃ t, execRecordWriteError k took s = .next t ∧ Effect s (.recordWriteError k took) t := by
  unfold execRecordWriteError
  simp only
  split
  · next d copy =>
    split
    · split
      · exact ⟨_, rfl, .transferError k took _⟩
      · exact ⟨_, rfl, .writeError k took d copy⟩
    · exact ⟨_, rfl, .hostWrote k s.port (.refl ..)⟩
  · exact ⟨_, rfl, .hostWrote k s.port (.refl ..)⟩

theorem effect_frameSent (s : State) : ∃ t, execFrameSent s = .next t ∧ Effect s .frameSent t := by
  unfold execFrameSent
  split
  · next f sending => exact ⟨_, rfl, .frameSent f sending⟩
  · exact ⟨_, rfl, .ignored ..⟩
  · exact ⟨_, rfl, .ignored ..⟩

/-- An event whose condition does not hold changes nothing (log 4). -/
theorem effect_ite {s t : State} {c : Instr} {p : Prop} [Decidable p] (own : p → Effect s c t) :
    ∃ u, (if p then Host.Outcome.next t else .next s : Host.Outcome State Fault Refusal) = .next u ∧ Effect s c u := by
  split
  · next due => exact ⟨_, rfl, own due⟩
  · exact ⟨_, rfl, .ignored ..⟩

/-- Every command has one of the effects, and none stops the station (log 35). -/
theorem exec_effect (c : Instr) (s : State) : ∃ t, exec c s = .next t ∧ Effect s c t := by
  cases c with
  | powerOnReset e r k => exact ⟨_, rfl, .powerOn e r k⟩
  | resetLineEdge selected cut => exact ⟨_, rfl, .warmReset .line cut.labelUnderWay cut.cardTook _ (.inl ⟨selected, cut, rfl⟩)⟩
  | chipSelectRelease cut => exact effect_chipSelectRelease cut s
  | unknownCommand code body =>
    simp only [exec, execUnknownCommand]
    split
    · exact ⟨_, rfl, .answer ..⟩
    · exact ⟨_, rfl, .ignored ..⟩
    · exact ⟨_, rfl, .ignored ..⟩
  | identify body => exact ⟨_, rfl, .onCommand fun _ => .answer ..⟩
  | loadConfig body =>
    simp only [exec, execLoadConfig]
    split
    · exact ⟨_, rfl, effect_loadConfig body s⟩
    · exact ⟨_, rfl, .ignored ..⟩
    · exact ⟨_, rfl, .ignored ..⟩
  | start body => exact ⟨_, rfl, .onCommand fun _ => effect_start body s⟩
  | setTime body => exact ⟨_, rfl, .onCommand fun _ => effect_setTime body s⟩
  | readStatus body => exact ⟨_, rfl, .onCommand fun _ => .answer ..⟩
  | readPeer body => exact ⟨_, rfl, .onCommand fun _ => effect_readPeer body s⟩
  | armAuction body => exact ⟨_, rfl, .onCommand fun _ => effect_armAuction body s⟩
  | cancelAuction body => exact ⟨_, rfl, .onCommand fun _ => .onSlot fun i => effect_cancelSlot body i s⟩
  | releaseAuction body => exact ⟨_, rfl, .onCommand fun _ => .onSlot fun i => effect_releaseSlot body i s⟩
  | readAuction body => exact ⟨_, rfl, .onCommand fun _ => .onSlot fun i => .answer ..⟩
  | fence body => exact ⟨_, rfl, .onCommand fun _ => effect_fence body s⟩
  | checkpoint body => exact ⟨_, rfl, .onCommand fun _ => effect_checkpoint body s⟩
  | exportStart body k => exact ⟨_, rfl, .onExport (effect_exportStart body k s)⟩
  | exportResume body k => exact ⟨_, rfl, .onExport (effect_exportResume body k s)⟩
  | exportStop body k => exact ⟨_, rfl, .onExport (effect_exportStop body k s)⟩
  | readNotices body => exact ⟨_, rfl, .onCommand fun _ => .answer ..⟩
  | clearNotices body => exact ⟨_, rfl, .onCommand fun _ => effect_clearNotices body s⟩
  | warmReset body => exact ⟨_, rfl, .onCommand fun _ => .port _ (.transaction _ _ _ _)⟩
  | beaconInstant => exact effect_ite fun _ => .beaconInstant
  | segmentIdle => exact ⟨_, rfl, .segmentIdle⟩
  | accessWaitComplete => exact effect_ite fun due => .depart due.2
  | frameSent => exact effect_frameSent s
  | frameArrival => exact ⟨_, rfl, .frameArrival⟩
  | frameReceived bytes damaged => exact effect_frameReceived bytes damaged s
  | labelReceived bytes => exact effect_labelReceived bytes s
  | edge => exact effect_edge s
  | edgeTimeout => exact effect_ite .edgeTimeout
  | steeringInstant => exact effect_ite fun due => .steering due.1
  | requestArrival kind line group tag => exact effect_ite (.request kind line group tag)
  | stampEvent => exact effect_stampEvent s
  | responseTaken => exact ⟨_, rfl, .responseTaken⟩
  | captureEdge line => exact effect_captureEdge line s
  | drawInstant slot => exact effect_ite fun due => .draw slot due.1
  | tallyInstant slot => exact effect_ite fun due => .tally slot due.1
  | fixInstant slot => exact effect_ite fun due => .fix slot due.1
  | closeInstant slot => exact effect_ite fun due => .close slot due.1
  | recordWriteAck k => exact effect_recordWriteAck k s
  | recordWriteError k took => exact effect_recordWriteError k took s

/-- What a command did is one of its effects. -/
theorem effect_of_exec {c : Instr} {s t : State} (h : exec c s = .next t) : Effect s c t := by
  obtain ⟨u, hu, effect⟩ := exec_effect c s
  rw [hu] at h
  exact Host.Outcome.next.inj h ▸ effect

/-! ### One step -/

/-- Settles O1: the queue's front is what `step` looks at first. -/
theorem stepRunsFrontCommand : Obligations.StepRunsFrontCommand := by
  intro c rest s front
  rw [step, front]

theorem step_of_empty {s : State} (empty : s.pending = []) : step s = .next (idle s) := by
  rw [step, empty]

/-- A step is a command's effect on the station without it, or the station's own event joins the queue, or a tick. -/
theorem step_cases {s t : State} (h : step s = .next t) :
    (∃ c rest, Effect (s.withPending rest) c t) ∨ (∃ c, t = s.withPending [c]) ∨ t = tick s := by
  cases queue : s.pending with
  | nil =>
    rw [step_of_empty queue] at h
    obtain rfl := Host.Outcome.next.inj h
    unfold idle
    split
    · next c _ => exact .inr (.inl ⟨c, rfl⟩)
    · exact .inr (.inr rfl)
  | cons c rest =>
    rw [stepRunsFrontCommand c rest s queue] at h
    exact .inl ⟨c, rest, effect_of_exec h⟩

/-- A property that every command keeps, and a tick, is kept by every step, where it does not speak of the queue. -/
theorem step_keeps {P : State → Prop} (queue : ∀ (cs : List Instr) (s : State), P s → P (s.withPending cs))
    (command : ∀ {c : Instr} {s t : State}, Effect s c t → P s → P t) (ticks : ∀ s : State, P s → P (tick s))
    {s t : State} (holds : P s) (h : step s = .next t) : P t := by
  obtain ⟨c, rest, effect⟩ | ⟨c, rfl⟩ | rfl := step_cases h
  · exact command effect (queue rest s holds)
  · exact queue [c] s holds
  · exact ticks s holds

end Sys2Proof.Machine
end

