-- ==== Sys2Proof/Proofs/CardMemory.lean ====
section
/-! Card memory keeps its canonical form: every operation of the Export Engine writes through `cardWrite` and `cardHost` alone. -/

namespace Sys2Proof.Machine

theorem writeCard_wf {a : Nat} {bs : Bytes} {error : Bool} {s : State} (h : cardWf s.card = true) :
    cardWf (writeCard a bs error s).card = true := by
  unfold writeCard
  split
  · exact h
  · exact cardWrite_wf h

theorem hostFirst_wf {k : CardInput} {s : State} (h : cardWf s.card = true) : cardWf (hostFirst k s).card = true :=
  cardHost_wf h

theorem hostLate_wf {k : CardInput} {s : State} (h : cardWf s.card = true) : cardWf (hostLate k s).card = true :=
  cardHost_wf h

theorem faultWriteBack_wf {bs : Bytes} {st : CompletionStatus} {k : CardInput} {s : State} (h : cardWf s.card = true) :
    cardWf (faultWriteBack bs st k s).card = true := by
  unfold faultWriteBack
  split
  · exact h
  · exact writeCard_wf h

theorem readDescriptor_wf {i : Nat} {k : CardInput} {s : State} (h : cardWf s.card = true) :
    cardWf (readDescriptor i k s).card = true := by
  simp only [readDescriptor]
  split
  · exact h
  · split
    · exact h
    · split
      · exact faultWriteBack_wf h
      · exact h

theorem readInCommand_wf {i : Nat} {k : CardInput} {s : State} (h : cardWf s.card = true) :
    cardWf (readInCommand i k s).card = true :=
  readDescriptor_wf (hostLate_wf h)

theorem writeDone_card (d : Descriptor) (s : State) :
    (writeDone d s).card
      = cardWrite s.card (descriptorAddress s.cfg (s.engine.index.getD 0)) (d.bytes .spent .done) := by
  simp only [writeDone]
  split <;> simp [writeCard]

theorem stopWriteBack_card (d : Descriptor) (k : CardInput) (s : State) :
    (stopWriteBack d k s).card = if k.writeBackError then s.card
      else cardWrite s.card (descriptorAddress s.cfg (s.engine.index.getD 0)) (d.bytes .armed .stopped) := by
  unfold stopWriteBack
  split <;> simp [writeCard]

theorem stopWriteBack_wf {d : Descriptor} {k : CardInput} {s : State} (h : cardWf s.card = true) :
    cardWf (stopWriteBack d k s).card = true := by
  rw [stopWriteBack_card]
  split
  · exact h
  · exact cardWrite_wf h

theorem writeDone_wf {d : Descriptor} {s : State} (h : cardWf s.card = true) : cardWf (writeDone d s).card = true := by
  rw [writeDone_card]
  exact cardWrite_wf h

theorem followLink_wf {d : Descriptor} {k : CardInput} {s : State} (h : cardWf s.card = true) :
    cardWf (followLink d k s).card = true := by
  unfold followLink
  split
  · exact h
  · split
    · split
      · exact h
      · exact readDescriptor_wf (hostLate_wf h)
    · exact h

theorem completeDescriptor_wf {d : Descriptor} {k : CardInput} {s : State} (h : cardWf s.card = true) :
    cardWf (completeDescriptor d k s).card = true := by
  unfold completeDescriptor
  split
  · exact h
  · split
    · exact h
    · exact followLink_wf (writeDone_wf h)

theorem finishStop_wf {d : Descriptor} {k : CardInput} {s : State} (h : cardWf s.card = true) :
    cardWf (finishStop d k s).card = true := by
  unfold finishStop
  split
  · exact h
  · exact stopWriteBack_wf h

theorem afterWrite_wf {d : Descriptor} {k : CardInput} {s : State} (h : cardWf s.card = true) :
    cardWf (afterWrite d k s).card = true := by
  unfold afterWrite
  split
  · exact completeDescriptor_wf h
  · split
    · exact finishStop_wf h
    · exact h

theorem resumeTransfer_wf {x : EngineTransfer} {d : Descriptor} {k : CardInput} {s : State} (h : cardWf s.card = true) :
    cardWf (resumeTransfer x d k s).card = true := by
  cases x with
  | done => exact completeDescriptor_wf h
  | stop => exact finishStop_wf h
  | read =>
    simp only [resumeTransfer]
    split
    · exact h
    · exact readDescriptor_wf (hostLate_wf h)
  | faulted bs st => exact faultWriteBack_wf h

theorem acknowledgeNext_wf {d : Descriptor} {k : CardInput} {s : State} (h : cardWf s.card = true) :
    cardWf (acknowledgeNext d k s).card = true := by
  unfold acknowledgeNext
  split
  · exact resumeTransfer_wf h
  · exact afterWrite_wf (by simpa using writeCard_wf h)
  · exact h

theorem strayWrite_wf {took : Bool} {s : State} (h : cardWf s.card = true) : cardWf (strayWrite took s).card = true := by
  unfold strayWrite
  split
  · split
    · split
      · exact writeCard_wf h
      · exact writeCard_wf h
      · exact h
      · exact writeCard_wf h
      · exact writeCard_wf h
      · exact h
    · exact h
  · exact h

theorem stopEngine_wf {k : CardInput} {s : State} (h : cardWf s.card = true) : cardWf (stopEngine k s).card = true := by
  unfold stopEngine
  split
  · exact h
  · exact stopWriteBack_wf h
  · exact h
  · exact h
  · exact h
  · exact h
  · exact h

theorem stopWhole_wf {k : CardInput} {s : State} (h : cardWf s.card = true) : cardWf (stopWhole k s).card = true := by
  unfold stopWhole
  split
  · exact stopEngine_wf (resumeTransfer_wf h)
  · exact stopEngine_wf h

/-- Only the commands that use card memory and the resets touch it; the others keep it as it is. -/
theorem Effect.card_wf {c : Instr} {s t : State} (effect : Effect s c t) (h : cardWf s.card = true) : cardWf t.card = true := by
  cases effect with
  | powerOn e r k => exact strayWrite_wf h
  | warmReset cause label took tr _ => simpa [warmResetState] using strayWrite_wf h
  | hostWrote k p _ => exact hostFirst_wf h
  | exportRead k i _ _ => exact readInCommand_wf (hostFirst_wf h)
  | exportStop body k u _ stopped =>
    obtain rfl | rfl := stopped
    · exact stopEngine_wf (hostFirst_wf h)
    · exact stopWhole_wf (hostFirst_wf h)
  | acknowledge k d _ _ => exact acknowledgeNext_wf (hostFirst_wf h)
  | transferError k took st => exact hostFirst_wf h
  | writeError k took d _ => exact faultWriteBack_wf (strayWrite_wf (hostFirst_wf h))
  | start body r _ _ _ => simpa [startBlocks] using h
  | fence body token _ _ _ => simpa [takeFence] using h
  | _ => simpa using h

/-- Settles O59. -/
theorem cardMemoryStaysCanonical : Obligations.CardMemoryStaysCanonical := fun _ _ holds =>
  step_keeps (P := fun s => cardWf s.card = true) (fun _ _ h => h) Effect.card_wf (fun _ h => h) holds

end Sys2Proof.Machine
end

