-- ==== Sys2Proof/Proofs/EvidenceQueue.lean ====
section
/-! The Evidence Queue under every command: what each one can do to it, from which its order is kept and its records leave only when
acknowledged. -/

namespace Sys2Proof.Machine

/-! ### What a command does to the Evidence Unit -/

/-- The pending fence apart, growth does not look at it. -/
theorem Evidence.Grows.withFence {a b : Evidence} (h : a.Grows b) (f : Option Nat) :
    Evidence.Grows { a with fence := f } { b with fence := f } := by
  induction h with
  | refl e => exact .refl _
  | append e r room number check => exact .append { e with fence := f } r room number check
  | note e l r b => exact .note { e with fence := f } l r b
  | trans _ _ first second => exact .trans first second

/-- The ways in which a command moves the Evidence Unit. -/
inductive EvidenceMove (c : Instr) (e : Evidence) : Evidence → Prop where
  | grows {e' : Evidence} : e.Grows e' → EvidenceMove c e e'
  | powerOn : (∃ x y z, c = .powerOnReset x y z) → EvidenceMove c e Evidence.powerOn
  /-- a warm reset cancels the pending fence before its records are made (R152) -/
  | reset {e' : Evidence} : Evidence.Grows { e with fence := none } e' → EvidenceMove c e e'
  /-- the FENCE record joins the tail and becomes the pending fence (R149) -/
  | fence {m : Evidence} (r : Record) : e.Grows m → m.queue.length < 512 → r.body.kind.ordinary = false →
      r.number = m.nextNumber → r.check = linkCheck m.chain r.head →
      EvidenceMove c e { m.append r with fence := some r.number }
  /-- the head leaves, and a pending fence with it; a LOSS record may take the freed place (R142, R145, R150) -/
  | removed {e' : Evidence} (r : Record) (rest : List Record) : (∃ k, c = .recordWriteAck k) → e.queue = r :: rest →
      Evidence.Grows { e with queue := rest, fence := if e.fence = some r.number then none else e.fence } e' →
      EvidenceMove c e e'

/-! ### The operations -/

theorem recordLoss_grows {e : Evidence} {s : State} (h : e.Grows s.evid) : e.Grows (recordLoss s).evid := by
  unfold recordLoss
  split
  · exact handRecord_grows (h.trans (.note s.evid _ _ s.evid.boundary))
  · exact h

theorem fenceWritten_evid (n : Nat) (s : State) :
    (fenceWritten n s).evid = { s.evid with fence := if s.evid.fence = some n then none else s.evid.fence } := by
  unfold fenceWritten
  split
  · simp
  · rfl

/-- The removal of the head, seen with the pending fence already settled. -/
theorem removeHead_grows (r : Record) (rest : List Record) (s : State) :
    Evidence.Grows { s.evid with queue := rest, fence := if s.evid.fence = some r.number then none else s.evid.fence }
      (removeHead r.number rest s).evid := by
  have loss : Evidence.Grows { s.evid with queue := rest } (recordLoss { s with evid.queue := rest }).evid :=
    recordLoss_grows (.refl _)
  have settled := loss.withFence (if s.evid.fence = some r.number then none else s.evid.fence)
  unfold removeHead
  rw [fenceWritten_evid]
  simpa using settled

theorem closeBatch_evid (c : BatchCause) (s : State) : (closeBatch c s).evid = s.evid ∨
    ∃ b, s.stamp.batch = some b ∧
      (closeBatch c s).evid = (handRecord (.batch b (crcFinal b.check) c) { s with stamp.batch := none }).evid := by
  unfold closeBatch
  split
  · exact .inl rfl
  · next b batch => exact .inr ⟨b, batch, rfl⟩

theorem loseRecord_queue (b : Body) (s : State) : (loseRecord b s).evid.queue = s.evid.queue := by
  simp [loseRecord]

/-- A BATCH record is ordinary, so the room above 496 stays for the priority kinds (R142). -/
theorem closeBatch_keeps_room (c : BatchCause) {s : State} (room : s.evid.queue.length < 512) :
    (closeBatch c s).evid.queue.length < 512 := by
  obtain kept | ⟨b, -, handed⟩ := closeBatch_evid c s
  · rwa [kept]
  · rw [handed, handRecord_evid]
    split
    · next small =>
      have ordinaryRoom : s.evid.queue.length < 496 := small
      simp only [Evidence.append, List.length_append, List.length_singleton]
      omega
    · rw [loseRecord_queue]
      exact room

/-- A priority record is admitted while fewer than 512 are held (R142). -/
theorem handRecord_priority {b : Body} {s : State} (priority : b.kind.ordinary = false) (room : s.evid.queue.length < 512) :
    (handRecord b s).evid = s.evid.append (makeRecord b s) := by
  have admits : s.evid.queue.length < b.capacity := by simpa [Body.capacity, priority] using room
  rw [handRecord_evid, if_pos admits]

theorem takeFence_evid (token : BitVec 32) {s : State} (room : s.evid.queue.length < 512) :
    (takeFence token s).evid =
      { (closeBatch .fence s).evid.append
          (makeRecord (.fence token s.stamp.nextSeq (fenceBatch s)) (closeBatch .fence s)) with
        fence := some (closeBatch .fence s).evid.nextNumber } := by
  simp [takeFence, handRecord_priority (b := .fence token s.stamp.nextSeq (fenceBatch s)) rfl (closeBatch_keeps_room .fence room)]

theorem takeWarmReset_grows (cause : ResetCause) (label : Bool) (s : State) :
    Evidence.Grows { s.evid with fence := none } (takeWarmReset cause label s).evid := by
  unfold takeWarmReset
  split
  · exact .refl _
  · exact warmRecords_grows (.refl _)

/-- What each effect does to the Evidence Unit. -/
theorem Effect.evidence {c : Instr} {s t : State} (effect : Effect s c t) : EvidenceMove c s.evid t.evid := by
  cases effect with
  | powerOn e r k => exact .powerOn ⟨e, r, k, rfl⟩
  | warmReset cause label took tr _ =>
    refine .reset ?_
    have grows := takeWarmReset_grows cause label { strayWrite took s with port.transaction := tr }
    simpa [warmResetState] using grows
  | start body r _ _ _ =>
    exact .grows (handRecord_grows (.note s.evid s.evid.losses s.evid.lostRange (startBoundary (settingsOf r))))
  | setTime body answer a _ _ _ => exact .grows (takeStep_grows (.refl _))
  | arm body i a _ _ _ _ => exact .grows (by simpa using .refl s.evid)
  | cancel body i _ => exact .grows (voidEntry_grows (.refl _))
  | release body i _ => exact .grows (by simpa using .refl s.evid)
  | fence body token _ _ room =>
    rw [takeFence_evid token room]
    exact .fence _ (closeBatch_grows (.refl _)) (closeBatch_keeps_room .fence room) rfl rfl rfl
  | checkpoint body answer _ => exact .grows (takeCheckpoint_grows (.refl _))
  | acknowledge k d _ _ =>
    unfold acknowledgeNext
    split
    · exact .grows (by simpa using .refl s.evid)
    · next r rest _ queue =>
      refine .removed r rest ⟨k, rfl⟩ queue ?_
      simpa [Machine.acknowledge] using removeHead_grows r rest (writeCard d.current r.bytes false (hostFirst k s))
    · exact .grows (.refl _)
  | exportRead k i _ _ => exact .grows (by simpa [engineReply] using .refl s.evid)
  | exportStop body k u _ stopped => obtain rfl | rfl := stopped <;> exact .grows (by simpa using .refl s.evid)
  | frameChecked bytes damaged cut arrival rest _ => exact .grows (checkFrame_grows (.refl _))
  | goodEdge second _ => exact .grows (goodEdge_grows (.refl _))
  | badEdge v _ => exact .grows (badEdge_grows (.refl _))
  | edgeTimeout _ => exact .grows (leaveState_grows (.refl _))
  | steering _ => exact .grows (steeringInstant_grows (.refl _))
  | stamp r rest _ _ => exact .grows (answerRequest_grows (.refl _))
  | fix i _ => exact .grows (fixEntry_grows (.refl _))
  | close i _ => exact .grows (closeEntry_grows (.refl _))
  | _ => exact .grows (by simpa using .refl s.evid)

/-! ### The order of the queue -/

theorem evidenceOk_powerOn : EvidenceOk Evidence.powerOn where
  total := Nat.zero_le 512
  ordinary := Nat.zero_le 496
  rising := .nil
  linked := .nil
  tail := by simp [Evidence.powerOn]
  start := le_refl 1
  origin := fun _ => rfl
  first := by simp [Evidence.powerOn]
  fence := by simp [Evidence.powerOn]

theorem EvidenceOk.withoutFence {e : Evidence} (h : EvidenceOk e) : EvidenceOk { e with fence := none } :=
  { h with fence := fun _ pending => nomatch pending }

theorem EvidenceOk.removeHead {e : Evidence} {r : Record} {rest : List Record} (h : EvidenceOk e) (queue : e.queue = r :: rest) :
    EvidenceOk { e with queue := rest, fence := if e.fence = some r.number then none else e.fence } where
  total := by
    have total := h.total
    rw [queue, List.length_cons] at total
    exact Nat.le_of_succ_le total
  ordinary := by
    have ordinary := h.ordinary
    rw [queue, ordinaryHeld, List.countP_cons] at ordinary
    exact (Nat.le_add_right _ _).trans ordinary
  rising := (queue ▸ h.rising).of_cons
  linked := (queue ▸ h.linked).of_cons
  tail := by
    intro x last
    refine h.tail x ?_
    rw [queue, List.getLast?_cons, Option.mem_def.mp last]
    rfl
  start := h.start
  origin := h.origin
  first := fun x member => h.first x (queue ▸ List.mem_cons_of_mem r member)
  fence := by
    intro n pending
    by_cases head : e.fence = some r.number
    · simp [head] at pending
    · rw [if_neg head] at pending
      obtain ⟨x, member, number⟩ := h.fence n pending
      rw [queue, List.mem_cons] at member
      obtain rfl | member := member
      · exact absurd (number ▸ pending) head
      · exact ⟨x, member, number⟩

theorem EvidenceMove.ok {c : Instr} {e e' : Evidence} (move : EvidenceMove c e e') (h : EvidenceOk e) : EvidenceOk e' := by
  cases move with
  | grows growth => exact growth.ok h
  | powerOn _ => exact evidenceOk_powerOn
  | reset growth => exact growth.ok h.withoutFence
  | @fence m r growth room priority number check =>
    have capacity : m.queue.length < r.body.capacity := by simpa [Body.capacity, priority] using room
    have appended : EvidenceOk (m.append r) := (Evidence.Grows.append m r capacity number check).ok (growth.ok h)
    refine { appended with fence := fun n pending => ?_ }
    exact ⟨r, by simp [Evidence.append], Option.some.inj pending⟩
  | removed r rest _ queue growth => exact growth.ok (h.removeHead queue)

/-- Settles O52. -/
theorem evidenceStaysChained : Obligations.EvidenceStaysChained := fun _ _ holds =>
  step_keeps (P := fun s => EvidenceOk s.evid) (fun _ _ h => h) (fun effect h => effect.evidence.ok h) (fun _ h => h) holds

/-! ### What leaves the queue -/

theorem EvidenceMove.queue {c : Instr} {e e' : Evidence} (move : EvidenceMove c e e') (stays : ∀ x y z, c ≠ .powerOnReset x y z) :
    (e.queue <+: e'.queue ∨ (∃ k, c = .recordWriteAck k) ∧ e.queue.tail <+: e'.queue) ∧ e.nextNumber ≤ e'.nextNumber := by
  cases move with
  | grows growth => exact ⟨.inl growth.keepsQueue, growth.numbers⟩
  | powerOn reset =>
    obtain ⟨x, y, z, rfl⟩ := reset
    exact absurd rfl (stays x y z)
  | reset growth => exact ⟨.inl growth.keepsQueue, growth.numbers⟩
  | fence r growth _ _ _ _ =>
    exact ⟨.inl (growth.keepsQueue.trans (List.prefix_append _ _)), growth.numbers.trans (Nat.le_succ _)⟩
  | removed r rest written queue growth =>
    refine ⟨.inr ⟨written, ?_⟩, growth.numbers⟩
    rw [queue]
    exact growth.keepsQueue

/-- Settles O53. -/
theorem evidenceLeavesOnlyWhenAcknowledged : Obligations.EvidenceLeavesOnlyWhenAcknowledged := by
  intro c s t stays executed
  obtain ⟨queue, numbers⟩ := (effect_of_exec executed).evidence.queue stays
  obtain kept | ⟨⟨k, rfl⟩, kept⟩ := queue
  · exact ⟨fun _ => kept, .inl kept, numbers⟩
  · exact ⟨fun unwritten => absurd rfl (unwritten k), .inr kept, numbers⟩

end Sys2Proof.Machine
end

