-- ==== Sys2Proof/Proofs/AuctionOrder.lean ====
section
/-! The Auction Table under every command: entry by entry what each operation puts where, and that the order of the table is kept. -/

namespace Sys2Proof.Machine

/-! ### Moves of one entry -/

/-- An entry that is not FREE and keeps its state, its group and its links has moved in order. -/
theorem Entry.Moves.of_kept {e e' : Entry} (state : e'.state = e.state) (group : e'.group = e.group) (link : e'.link = e.link)
    (pred : e'.pred = e.pred) (taken : e.state ≠ .free) : e.Moves e' where
  group := group
  link := link
  pred := pred
  live := fun h => state ▸ h
  free := fun h => absurd (state ▸ h) taken

/-- A live entry may take any state but FREE. -/
theorem Entry.Moves.of_live {e e' : Entry} (live : e.state.live = true) (group : e'.group = e.group) (link : e'.link = e.link)
    (pred : e'.pred = e.pred) (taken : e'.state ≠ .free) : e.Moves e' where
  group := group
  link := link
  pred := pred
  live := fun _ => live
  free := fun h => absurd h taken

theorem Entry.not_free_of_live {e : Entry} (live : e.state.live = true) : e.state ≠ .free := by
  intro free
  rw [free] at live
  exact absurd live (by decide)

theorem Entry.countLate_moves {e : Entry} (taken : e.state ≠ .free) : e.Moves e.countLate :=
  .of_kept rfl rfl rfl rfl taken

theorem Entry.takeShare_moves {p : Nat} {x : BitVec 32} {e : Entry} (taken : e.state ≠ .free) : e.Moves (e.takeShare p x) := by
  unfold Entry.takeShare
  split
  · exact .refl e
  · split
    · exact .of_kept rfl rfl rfl rfl taken
    · split
      · exact .refl e
      · exact .of_kept rfl rfl rfl rfl taken

theorem Entry.takeTally_moves {p : Nat} {m : BitVec 16} {o : Nat} {e : Entry} (taken : e.state ≠ .free) :
    e.Moves (e.takeTally p m o) := by
  unfold Entry.takeTally
  split
  · exact .of_kept rfl rfl rfl rfl taken
  · exact .refl e
  · split
    · exact .refl e
    · exact .of_kept rfl rfl rfl rfl taken

theorem Entry.drawReport_moves (p : Nat) (x : BitVec 32) (e : Entry) : e.Moves (e.drawReport p x) := by
  unfold Entry.drawReport
  have taken {st : EntryState} (state : e.state = st) (busy : st ≠ .free) : e.state ≠ .free := state ▸ busy
  split
  · next state =>
    split
    · exact takeShare_moves (taken state (by decide))
    · exact countLate_moves (taken state (by decide))
  · next state =>
    split
    · exact takeShare_moves (taken state (by decide))
    · exact countLate_moves (taken state (by decide))
  · next state => exact countLate_moves (taken state (by decide))
  · next state => exact countLate_moves (taken state (by decide))
  · next state => exact countLate_moves (taken state (by decide))
  · exact .refl e
  · exact .refl e
  · exact .refl e

theorem Entry.tallyReport_moves (p : Nat) (m : BitVec 16) (o : Nat) (e : Entry) : e.Moves (e.tallyReport p m o) := by
  unfold Entry.tallyReport
  have taken {st : EntryState} (state : e.state = st) (busy : st ≠ .free) : e.state ≠ .free := state ▸ busy
  split
  · next state =>
    split
    · exact takeTally_moves (taken state (by decide))
    · exact countLate_moves (taken state (by decide))
  · next state =>
    split
    · exact takeTally_moves (taken state (by decide))
    · exact countLate_moves (taken state (by decide))
  · next state => exact countLate_moves (taken state (by decide))
  · next state => exact countLate_moves (taken state (by decide))
  · next state => exact countLate_moves (taken state (by decide))
  · exact .refl e
  · exact .refl e
  · exact .refl e

theorem Entry.afterStamp_moves (floor : Nat) (floorSeq : Option Nat) (n t : Nat) (e : Entry) :
    e.Moves (e.afterStamp floor floorSeq n t) := by
  unfold Entry.afterStamp
  split
  · next due =>
    have isFixed : e.state = .fixed := (of_decide_eq_true due).1
    exact .of_kept rfl rfl rfl rfl (by rw [isFixed]; decide)
  · exact .refl e

/-! ### Moves of the table -/

theorem drawReport_moves (d : Draw) (s : State) : TableMoves s.entries (drawReport d s).entries := by
  unfold drawReport
  split
  · exact .refl _
  · exact .put (Entry.drawReport_moves d.sender d.share _)

theorem tallyReport_moves (t : TallyFrame) (s : State) : TableMoves s.entries (tallyReport t s).entries := by
  unfold tallyReport
  split
  · exact .refl _
  · exact .put (Entry.tallyReport_moves t.sender t.members t.offset _)

theorem checkFrame_moves (bytes : Bytes) (damaged : Bool) (arrival : Nat) (s : State) :
    TableMoves s.entries (checkFrame bytes damaged arrival s).entries := by
  have same {u : State} (h : u.entries = s.entries) : TableMoves s.entries u.entries := h ▸ .refl _
  unfold checkFrame
  split
  · exact same (by simp)
  · split
    · exact same (by simp)
    · split
      · exact same (by simp)
      · next f _ =>
        split
        · exact same (by simp)
        · cases f with
          | beacon b => exact same (by simp [deliver])
          | draw d => exact drawReport_moves d s
          | tally t => exact tallyReport_moves t s

theorem issueStamp_entries (r : Request) (x : RawSource) (n : Nat) (s : State) :
    (issueStamp r x n s).entries
      = s.entries.map (Entry.afterStamp s.stamp.floor s.stamp.floorSeq n (stampFor r x n s).time) := by
  simp only [issueStamp, joinStamp_keeps]
  split <;> simp

theorem answerRequest_moves (r : Request) (s : State) : TableMoves s.entries (answerRequest r s).entries := by
  obtain ⟨w, refused⟩ | ⟨x, n, issued⟩ := answerRequest_shape r s
  · rw [refused]
    exact .refl _
  · rw [issued, issueStamp_entries]
    intro i
    simpa using Entry.afterStamp_moves s.stamp.floor s.stamp.floorSeq n (stampFor r x n s).time s.entries[i]

theorem requestFrame_entries (i : Fin 32) (k : Bool) (f : Frame) (s : State) : (requestFrame i k f s).entries = s.entries := rfl

theorem drawShare_moves {i : Fin 32} {s : State} (live : s.entries[i].state.live = true) :
    TableMoves s.entries (drawShare i s).entries := by
  simp only [drawShare]
  split
  · rw [(requestFrame_entries _ _ _ _)]
    refine .put ?_
    exact .of_kept rfl rfl rfl rfl (Entry.not_free_of_live live)
  · exact .refl _

/-- A live entry put back with another state, and what the draw does to it then. -/
theorem drawShare_put_moves {i : Fin 32} {e : Entry} {s : State} (move : s.entries[i].Moves e) (live : e.state.live = true) :
    TableMoves s.entries (drawShare i (setEntry i e s)).entries := by
  have put : TableMoves s.entries (setEntry i e s).entries := .put move
  exact put.trans (drawShare_moves (by simpa using live))

theorem drawEntry_moves {i : Fin 32} {s : State} (armed : s.entries[i].state = .armed) :
    TableMoves s.entries (drawEntry i s).entries := by
  refine drawShare_put_moves ?_ rfl
  exact .of_live (by rw [armed]; rfl) rfl rfl rfl nofun

theorem tallyEntry_entries (i : Fin 32) (s : State) :
    ∃ e, (tallyEntry i s).entries = s.entries.set i e ∧ e.state = .tallying ∧ e.group = s.entries[i].group
      ∧ e.link = s.entries[i].link ∧ e.pred = s.entries[i].pred := by
  simp only [tallyEntry]
  split
  · exact ⟨_, rfl, rfl, rfl, rfl, rfl⟩
  · exact ⟨_, rfl, rfl, rfl, rfl, rfl⟩

theorem tallyEntry_moves {i : Fin 32} {s : State} (drawing : s.entries[i].state = .drawing) :
    TableMoves s.entries (tallyEntry i s).entries := by
  obtain ⟨e, entries, state, group, link, pred⟩ := tallyEntry_entries i s
  rw [entries]
  exact .put (.of_live (by rw [drawing]; rfl) group link pred (by rw [state]; nofun))

theorem fixEntry_ok {i : Fin 32} {s : State} (tallying : s.entries[i].state = .tallying) (h : AuctionsOk s.entries) :
    AuctionsOk (fixEntry i s).entries := by
  have live : s.entries[i].state.live = true := by rw [tallying]; rfl
  simp only [fixEntry]
  split
  · have moved : AuctionsOk (s.entries.set i { s.entries[i].settled s.cfg.stationId with state := .fixed }) :=
      (TableMoves.put (e := { s.entries[i].settled s.cfg.stationId with state := .fixed })
        ⟨rfl, rfl, rfl, fun _ => live, nofun⟩).ok h
    split
    · simpa using moved
    · simpa using moved
  · refine voidEntry_ok ?_
    have moved : AuctionsOk (s.entries.set i (s.entries[i].settled s.cfg.stationId)) :=
      (TableMoves.put (e := s.entries[i].settled s.cfg.stationId)
        ⟨rfl, rfl, rfl, id, fun free => absurd free (Entry.not_free_of_live live)⟩).ok h
    simpa using moved

/-! ### The close -/

/-- The close notice sets a cut that is absent, and no other field (R108). -/
theorem closeNotice_entries (i : Fin 32) (s : State) :
    (closeNotice i s).entries = match s.entries[i].cut with
      | some _ => s.entries
      | none => s.entries.set i { s.entries[i] with cut := cutValue s.stamp.floor s.stamp.floorSeq s.stamp.nextSeq s.entries[i] } := by
  unfold closeNotice
  cases cut : s.entries[i].cut <;> simp [cut, -Fin.getElem_fin]

theorem closeNotice_moves {i : Fin 32} {s : State} (taken : s.entries[i].state ≠ .free) :
    TableMoves s.entries (closeNotice i s).entries := by
  rw [closeNotice_entries]
  split
  · exact .refl _
  · exact .put (.of_kept rfl rfl rfl rfl taken)

theorem closeOne_moves (i : Fin 32) (s : State) : TableMoves s.entries (closeOne i s).entries := by
  have closed : s.entries[i].Moves { s.entries[i] with state := .closed } :=
    ⟨rfl, rfl, rfl, nofun, nofun⟩
  have put : TableMoves s.entries (setEntry i { s.entries[i] with state := .closed } s).entries := .put closed
  have noticed := put.trans (closeNotice_moves (i := i) (by simp))
  simpa [closeOne] using noticed

theorem closeChain_ok {n : Nat} {i : Fin 32} {s : State} (h : AuctionsOk s.entries) : AuctionsOk (closeChain n i s).entries := by
  induction n generalizing i s with
  | zero => exact h
  | succ n ih =>
    have closed := (closeOne_moves i s).ok h
    simp only [closeChain]
    split
    · exact closed
    · next j _ =>
      split
      · exact closed
      · next held =>
        have live : (closeOne i s).entries[j].state.live = true := by rw [not_not.mp held]; rfl
        have put (e : Entry) (move : (closeOne i s).entries[j].Moves e) : AuctionsOk (setEntry j e (closeOne i s)).entries :=
          (TableMoves.put move).ok closed
        split
        · exact voidEntry_ok closed
        · split
          · exact voidEntry_ok (put _ (.of_kept rfl rfl rfl rfl (Entry.not_free_of_live live)))
          · split
            · exact put _ (.of_live live rfl rfl rfl nofun)
            · split
              · refine (drawShare_put_moves ?_ rfl).ok closed
                exact .of_live live rfl rfl rfl nofun
              · have fixed := put ((closeOne i s).entries[j].fixedLate (s.entries[i].tc.getD 0 + s.entries[i].linkDelay))
                  (.of_live live rfl rfl rfl nofun)
                split
                · exact ih (by simpa using fixed)
                · simpa using fixed

/-! ### Arming and releasing -/

theorem clearPred_entries (p : Option (Fin 32)) (s : State) (j : Fin 32) :
    (clearPred p s).entries[j] = if p = some j then { s.entries[j] with pred := none } else s.entries[j] := by
  cases p with
  | none => simp [clearPred]
  | some k =>
    simp only [clearPred, setEntry_entries, entries_set, Option.some.injEq]
    split
    · next same => rw [same]
    · rfl

theorem setPred_entries (i : Fin 32) (p : Option (Fin 32)) (s : State) (j : Fin 32) :
    (setPred i p s).entries[j] = if p = some j then { s.entries[j] with pred := some i } else s.entries[j] := by
  cases p with
  | none => simp [setPred]
  | some k =>
    simp only [setPred, setEntry_entries, entries_set, Option.some.injEq]
    split
    · next same => rw [same]
    · rfl

/-- The entry of slot `j` once entry `f` is released: its own ends of the links to `f` are clear (R123). -/
def Entry.partedFrom (e f : Entry) (j : Fin 32) : Entry :=
  { e with link := if f.pred = some j then none else e.link, pred := if f.link = some j then none else e.pred }

theorem releaseEntry_self (i : Fin 32) (s : State) : (releaseEntry i s).entries[i] = Entry.freed := by
  simp [releaseEntry]

/-- RELEASE_AUCTION clears the links at the entry's ends (R123). -/
theorem releaseEntry_other {i j : Fin 32} (s : State) (other : i ≠ j) :
    (releaseEntry i s).entries[j] = s.entries[j].partedFrom s.entries[i] j := by
  simp only [releaseEntry, setEntry_entries, entries_set_ne _ _ other, clearLink_entries, clearPred_entries, withdrawSlot_keeps]
  unfold Entry.partedFrom
  split <;> split <;> rfl

theorem releaseEntry_ok {i : Fin 32} {s : State} (h : AuctionsOk s.entries) : AuctionsOk (releaseEntry i s).entries where
  oneLive := by
    intro j k
    by_cases hj : i = j
    · subst hj
      rw [releaseEntry_self]
      exact fun live => nomatch live
    · by_cases hk : i = k
      · subst hk
        rw [releaseEntry_self]
        exact fun _ live => nomatch live
      · rw [releaseEntry_other s hj, releaseEntry_other s hk]
        exact h.oneLive j k
  forward := by
    intro j k
    by_cases hj : i = j
    · subst hj
      rw [releaseEntry_self]
      exact fun linked => nomatch linked
    · rw [releaseEntry_other s hj]
      intro linked
      obtain ⟨notPred, link⟩ : s.entries[i].pred ≠ some j ∧ s.entries[j].link = some k := by
        simpa [Entry.partedFrom, -Fin.getElem_fin] using linked
      have pred := h.forward j k link
      have hk : i ≠ k := fun same => notPred (same ▸ pred)
      have notLink : s.entries[i].link ≠ some k := fun toK =>
        hj (Option.some.inj ((h.forward i k toK).symm.trans pred))
      rw [releaseEntry_other s hk]
      simp [Entry.partedFrom, notLink, pred, -Fin.getElem_fin]
  backward := by
    intro j k
    by_cases hk : i = k
    · subst hk
      rw [releaseEntry_self]
      exact fun named => nomatch named
    · rw [releaseEntry_other s hk]
      intro named
      obtain ⟨notLink, pred⟩ : s.entries[i].link ≠ some k ∧ s.entries[k].pred = some j := by
        simpa [Entry.partedFrom, -Fin.getElem_fin] using named
      have link := h.backward j k pred
      have hj : i ≠ j := fun same => notLink (same ▸ link)
      have notPred : s.entries[i].pred ≠ some j := fun toJ =>
        hk (Option.some.inj ((h.backward j i toJ).symm.trans link))
      rw [releaseEntry_other s hj]
      simp [Entry.partedFrom, notPred, link, -Fin.getElem_fin]
  cleared := by
    intro j
    by_cases hj : i = j
    · subst hj
      exact fun _ => releaseEntry_self i s
    · rw [releaseEntry_other s hj]
      intro free
      rw [h.cleared j free]
      simp [Entry.partedFrom, Entry.freed]

/-- What the tests of ARM_AUCTION find of the table (R119 tests 3 to 5). -/
theorem armStatus_ok {i : Fin 32} {a : ArmFields} {s : State} (ok : armStatus i a s = .ok) :
    s.entries[i].state = .free ∧ groupLive (BitVec.ofNat 16 a.group) s = false ∧ linkFree i a.linkSlot s = true := by
  unfold armStatus at ok
  split at ok
  · exact absurd ok (by decide)
  · next free =>
    split at ok
    · exact absurd ok (by decide)
    · next group =>
      split at ok
      · exact absurd ok (by decide)
      · next link => exact ⟨not_not.mp free, by simpa using group, by simpa using link⟩

theorem linkFree_some {i j : Fin 32} {s : State} (free : linkFree i (some j) s = true) :
    s.entries[j].state = .held ∧ s.entries[j].pred = none ∧ i ≠ j := by
  simp only [linkFree, Bool.and_eq_true, decide_eq_true_eq, Bool.not_eq_true'] at free
  obtain ⟨⟨held, pred⟩, unreached⟩ := free
  refine ⟨held, pred, ?_⟩
  rintro rfl
  simp [chainReaches] at unreached

theorem groupLive_false {g : BitVec 16} {s : State} (h : groupLive g s = false) (j : Fin 32)
    (live : s.entries[j].state.live = true) : s.entries[j].group ≠ g := by
  intro group
  have found : groupLive g s = true := by
    rw [groupLive, List.any_eq_true]
    exact ⟨s.entries[j], by simp, by simp [group, live, -Fin.getElem_fin]⟩
  rw [h] at found
  exact absurd found (by decide)

/-- A FREE slot filled with an entry whose group is not live and whose link target, if any, is HELD without predecessor (R119, R120). -/
theorem arm_ok {i : Fin 32} {e : Entry} {target : Option (Fin 32)} {s : State} (h : AuctionsOk s.entries)
    (free : s.entries[i].state = .free) (group : groupLive e.group s = false) (link : linkFree i target s = true)
    (hlink : e.link = target) (hpred : e.pred = none) (htaken : e.state ≠ .free) :
    AuctionsOk (setPred i target (setEntry i e s)).entries := by
  have blank : s.entries[i] = Entry.freed := h.cleared i free
  have targetHeld : ∀ j, target = some j → s.entries[j].state = .held ∧ s.entries[j].pred = none ∧ i ≠ j := by
    rintro j rfl
    exact linkFree_some link
  have entry (j : Fin 32) : (setPred i target (setEntry i e s)).entries[j]
      = if i = j then e else if target = some j then { s.entries[j] with pred := some i } else s.entries[j] := by
    rw [setPred_entries, setEntry_entries, entries_set]
    by_cases hj : i = j
    · have notTarget : target ≠ some j := fun isTarget => (targetHeld j isTarget).2.2 hj
      simp [hj, notTarget]
    · simp [hj]
  have state (j : Fin 32) (hj : i ≠ j) : (setPred i target (setEntry i e s)).entries[j].state = s.entries[j].state
      ∧ (setPred i target (setEntry i e s)).entries[j].group = s.entries[j].group
      ∧ (setPred i target (setEntry i e s)).entries[j].link = s.entries[j].link := by
    rw [entry, if_neg hj]
    split <;> exact ⟨rfl, rfl, rfl⟩
  have self : (setPred i target (setEntry i e s)).entries[i] = e := by rw [entry, if_pos rfl]
  refine ⟨?_, ?_, ?_, ?_⟩
  · intro j k
    by_cases hj : i = j
    · by_cases hk : i = k
      · exact fun _ _ _ => hj.symm.trans hk
      · subst hj
        rw [self, (state k hk).1, (state k hk).2.1]
        exact fun _ live same => absurd same.symm (groupLive_false group k live)
    · by_cases hk : i = k
      · subst hk
        rw [self, (state j hj).1, (state j hj).2.1]
        exact fun live _ same => absurd same (groupLive_false group j live)
      · rw [(state j hj).1, (state j hj).2.1, (state k hk).1, (state k hk).2.1]
        exact h.oneLive j k
  · intro j k
    by_cases hj : i = j
    · subst hj
      rw [self, hlink, entry]
      intro toK
      rw [if_neg (targetHeld k toK).2.2, if_pos toK]
    · rw [(state j hj).2.2, entry]
      intro toK
      have pred := h.forward j k toK
      have notSelf : i ≠ k := by
        rintro rfl
        rw [blank] at pred
        exact absurd pred (by simp [Entry.freed])
      have notTarget : target ≠ some k := fun isTarget => by
        rw [(targetHeld k isTarget).2.1] at pred
        exact absurd pred (by simp)
      rwa [if_neg notSelf, if_neg notTarget]
  · intro j k
    rw [entry k]
    by_cases hk : i = k
    · rw [if_pos hk, hpred]
      exact fun none => absurd none (by simp)
    · rw [if_neg hk]
      split
      · next isTarget =>
        intro pred
        obtain rfl := Option.some.inj pred
        rw [self, hlink, isTarget]
      · intro pred
        have link := h.backward j k pred
        have notSelf : i ≠ j := by
          rintro rfl
          rw [blank] at link
          exact absurd link (by simp [Entry.freed])
        rwa [(state j notSelf).2.2]
  · intro j
    by_cases hj : i = j
    · subst hj
      rw [self]
      exact fun isFree => absurd isFree htaken
    · rw [(state j hj).1]
      intro isFree
      have notTarget : target ≠ some j := fun isTarget => by
        rw [(targetHeld j isTarget).1] at isFree
        exact absurd isFree (by decide)
      rw [entry, if_neg hj, if_neg notTarget]
      exact h.cleared j isFree

/-! ### Every command -/

theorem auctionsOk_freed : AuctionsOk (Vector.replicate 32 Entry.freed) where
  oneLive := by simp [Entry.freed, EntryState.live]
  forward := by simp [Entry.freed]
  backward := by simp [Entry.freed]
  cleared := by simp

theorem warmRecords_entries_ok {b : ResetBody} {old : RefState} {s : State} (h : AuctionsOk s.entries) :
    AuctionsOk (warmRecords b old s).entries := by
  have voided {u : State} (kept : u.entries = s.entries) : AuctionsOk (voidExchanging u).entries := voidExchanging_ok (kept ▸ h)
  have demoted (u : State) : (demote u).entries = u.entries := by simp
  simp only [warmRecords]
  split
  · rw [demoted]
    split <;> exact voided (by simp)
  · split <;> exact voided (by simp)

theorem takeWarmReset_entries_ok {cause : ResetCause} {label : Bool} {s : State} (h : AuctionsOk s.entries) :
    AuctionsOk (takeWarmReset cause label s).entries := by
  unfold takeWarmReset
  split
  · exact h
  · exact warmRecords_entries_ok h

theorem Effect.auctions_ok {c : Instr} {s t : State} (effect : Effect s c t) (h : AuctionsOk s.entries) : AuctionsOk t.entries := by
  cases effect with
  | powerOn e r k => exact auctionsOk_freed
  | warmReset cause label took tr _ => exact takeWarmReset_entries_ok (by simpa using h)
  | start body r _ _ _ => simpa [startBlocks] using h
  | arm body i a _ _ _ status =>
    obtain ⟨free, group, link⟩ := armStatus_ok status
    exact arm_ok h free group link rfl rfl (by simp only [armedEntry]; split <;> decide)
  | cancel body i _ => exact voidEntry_ok h
  | release body i _ => exact releaseEntry_ok h
  | fence body token _ _ _ => simpa [takeFence] using h
  | exportRead k i _ _ => simpa [engineReply] using h
  | exportStop body k u _ stopped => obtain rfl | rfl := stopped <;> simpa using h
  | frameChecked bytes damaged cut arrival rest _ => exact (checkFrame_moves bytes cut arrival _).ok h
  | stamp r rest _ _ => exact (answerRequest_moves r _).ok h
  | draw i armed => exact (drawEntry_moves armed).ok h
  | tally i drawing => exact (tallyEntry_moves drawing).ok h
  | fix i tallying => exact fixEntry_ok tallying h
  | close i _ => exact closeChain_ok h
  | _ => simpa using h

/-- Settles O50. -/
theorem auctionTableStaysInOrder : Obligations.AuctionTableStaysInOrder := fun _ _ holds =>
  step_keeps (P := fun s => AuctionsOk s.entries) (fun _ _ h => h) Effect.auctions_ok (fun _ h => h) holds

end Sys2Proof.Machine
end

