-- ==== Sys2Proof/Proofs/StepEffects.lean ====
section
/-! A step of the clock and the apply stage of a steering instant, field by field: what later proofs need of them. -/

namespace Sys2Proof.Machine

/-! ### A step of the clock (R8, R13) -/

theorem stepClock_clock (a : Int) (s : State) :
    (stepClock a s).clock = { s.clock with present := steppedTime s.clock.present a } := rfl

theorem stepClock_link (a : Int) (s : State) :
    (stepClock a s).link = { s.link with series := (stepClock a s).link.series } := rfl

/-! ### A step that is taken (R72) -/

theorem takeStep_clock (a : Int) (cause : StepCause) (s : State) :
    (takeStep a cause s).clock = { s.clock with present := steppedTime s.clock.present a, rate := s.steer.rf } := by
  simp only [takeStep, raise_clock, handRecord_keeps]
  rfl

theorem takeStep_steer (a : Int) (cause : StepCause) (s : State) :
    (takeStep a cause s).steer = { s.steer.stepped with series := (stepClock a s).steer.series } := by
  simp only [takeStep, raise_steer, handRecord_keeps]
  rfl

theorem takeStep_link (a : Int) (cause : StepCause) (s : State) : (takeStep a cause s).link = (stepClock a s).link := by
  simp only [takeStep, raise_link, handRecord_keeps]

theorem takeStep_peers (a : Int) (cause : StepCause) (s : State) : (takeStep a cause s).peers = peersAfterStep s.peers := by
  simp only [takeStep, raise_peers, handRecord_keeps]
  rfl

theorem takeStep_ref (a : Int) (cause : StepCause) (s : State) :
    (takeStep a cause s).ref = refAfterStep (appliedAmount s.clock.present a) s.ref := by
  simp only [takeStep, raise_ref, handRecord_keeps]
  rfl

/-! ### What the apply stage comes to (R65 to R77) -/

/-- The station with its runs moved, as a combination outside COLD is applied to it (R66, R67). -/
def movedRuns (correction : Int) (s : State) : State :=
  { s with steer := moveRuns s.cfg correction (leaveHoldover s.steer) }

/-- What the apply stage of a combination comes to. -/
inductive Applied (correction : Int) (s : State) : State → Prop where
  /-- in COLD, where the step would meet a span (log 30) -/
  | stayed : s.steer.state = .cold → stepForbidden correction s = true → Applied correction s s
  | steppedCold : s.steer.state = .cold → stepForbidden correction s = false →
      Applied correction s (takeStep correction .combination (setKind .step s))
  | deferred : s.steer.state ≠ .cold → callsForStep s.cfg correction = true → stepForbidden correction s = true →
      Applied correction s (deferStep correction (movedRuns correction s))
  | stepped : s.steer.state ≠ .cold → callsForStep s.cfg correction = true → stepForbidden correction s = false →
      Applied correction s (takeStep correction .combination (setKind .step (movedRuns correction s)))
  | slewed : s.steer.state ≠ .cold → callsForStep s.cfg correction = false →
      Applied correction s
        (setKind .slew { slew correction (movedRuns correction s) with
          steer := { (slew correction (movedRuns correction s)).steer with stepDeferred := false } })

theorem applyCombination_applied (correction : Int) (s : State) : Applied correction s (applyCombination correction s) := by
  unfold applyCombination
  split
  · next cold =>
    unfold applyCold
    split
    · next forbids => exact .stayed cold forbids
    · next allows => exact .steppedCold cold (by simpa using allows)
  · next notCold =>
    unfold applyMoved
    simp only
    split
    · next calls =>
      split
      · next forbids => exact .deferred notCold calls forbids
      · next allows => exact .stepped notCold calls (Bool.eq_false_iff.mpr allows)
    · next calls => exact .slewed notCold (Bool.eq_false_iff.mpr calls)

/-- Without a combination the stage enters HOLDOVER or does nothing (R65, R77). -/
theorem applyNone_cases (s : State) :
    ((s.steer.state = .cold ∨ s.steer.state = .holdover) ∧ applyNone s = s)
      ∨ ((s.steer.state = .acquire ∨ s.steer.state = .track) ∧ applyNone s = enterHoldover s) := by
  unfold applyNone
  cases state : s.steer.state with
  | cold => exact .inl ⟨.inl rfl, rfl⟩
  | acquire => exact .inr ⟨.inl rfl, rfl⟩
  | track => exact .inr ⟨.inr rfl, rfl⟩
  | holdover => exact .inl ⟨.inr rfl, rfl⟩

/-- A combination outside COLD is applied in ACQUIRE or TRACK (R66, R67). -/
theorem moveRuns_state (c : Settings) (correction : Int) {x : Steering} (notCold : x.state ≠ .cold) :
    (moveRuns c correction (leaveHoldover x)).state = .acquire ∨ (moveRuns c correction (leaveHoldover x)).state = .track := by
  have left : (leaveHoldover x).state = .acquire ∨ (leaveHoldover x).state = .track := by
    unfold leaveHoldover
    split
    · exact .inl rfl
    · next notHoldover =>
      cases state : x.state with
      | cold => exact absurd state notCold
      | acquire => exact .inl rfl
      | track => exact .inr rfl
      | holdover => exact absurd state notHoldover
  unfold moveRuns
  obtain acquire | track := left
  · simp only [acquire]
    split
    · exact .inl rfl
    · split
      · exact .inr rfl
      · exact .inl rfl
  · simp only [track]
    split
    · split
      · exact .inl rfl
      · exact .inr rfl
    · exact .inr rfl

/-- The runs moved, all but state and runs is as it was. -/
theorem moveRuns_eq (c : Settings) (correction : Int) (x : Steering) :
    moveRuns c correction (leaveHoldover x)
      = { x with state := (moveRuns c correction (leaveHoldover x)).state
                 lockRun := (moveRuns c correction (leaveHoldover x)).lockRun
                 unlockRun := (moveRuns c correction (leaveHoldover x)).unlockRun } := by
  have left : leaveHoldover x = { x with state := (leaveHoldover x).state, lockRun := (leaveHoldover x).lockRun
                                         unlockRun := (leaveHoldover x).unlockRun } := by
    unfold leaveHoldover
    split <;> rfl
  generalize leaveHoldover x = y at left
  unfold moveRuns
  rw [left]
  split
  · split
    · rfl
    · split <;> rfl
  · split
    · split <;> rfl
    · rfl
  · rfl
  · rfl

theorem movedRuns_steer (correction : Int) (s : State) :
    (movedRuns correction s).steer = moveRuns s.cfg correction (leaveHoldover s.steer) := rfl

/-- A deferral slews, marks itself and may make a record (R73). -/
theorem deferStep_steer (correction : Int) (s : State) :
    (deferStep correction s).steer = { (slew correction s).steer with
      stepDeferred := true, latest := s.steer.latest.map (fun l => { l with kind := .deferred }) } := by
  simp only [deferStep, setKind]
  split
  · rfl
  · simp only [recordDeferral_keeps]
    rfl

theorem deferStep_clock (correction : Int) (s : State) : (deferStep correction s).clock = (slew correction s).clock := by
  simp only [deferStep, setKind_clock]
  split
  · rfl
  · simp only [recordDeferral_keeps]

theorem deferStep_ref (correction : Int) (s : State) : (deferStep correction s).ref = s.ref := by
  simp

theorem deferStep_link (correction : Int) (s : State) : (deferStep correction s).link = s.link := by
  simp

/-! ### What the apply stage leaves of each block -/

theorem Applied.link {correction : Int} {s t : State} (applied : Applied correction s t) :
    t.link = { s.link with series := t.link.series } := by
  cases applied with
  | stayed _ _ => rfl
  | steppedCold _ _ =>
    rw [takeStep_link]
    rfl
  | deferred _ _ _ =>
    rw [deferStep_link]
    rfl
  | stepped _ _ _ =>
    rw [takeStep_link]
    rfl
  | slewed _ _ => rfl

theorem applyOutcome_link (c : Option Int) (s : State) :
    (applyOutcome c s).link = { s.link with series := (applyOutcome c s).link.series } := by
  cases c with
  | none => simp [applyOutcome]
  | some x => exact (applyCombination_applied x s).link

theorem steeringInstant_link (s : State) :
    (steeringInstant s).link = { s.link with series := (steeringInstant s).link.series } := by
  simp only [steeringInstant, periodicCheckpoint_keeps, recordSync_keeps]
  rw [applyOutcome_link]
  simp

theorem goodEdge_link (second : Nat) (s : State) :
    (goodEdge second s).link = { s.link with series := (goodEdge second s).link.series } := by
  simp only [goodEdge]
  split
  · simp
  · simp only [qualificationReport]
    split
    · unfold stepInCold
      split
      · simp
      · rw [takeStep_link, stepClock_link]
        simp
    · simp
  · rfl

end Sys2Proof.Machine
end

