-- ==== Sys2Proof/Proofs/QueueBounds.lean ====
section
/-! The queues of the Stamp Unit and of the Peer Link Interface, the transmitter, and the floor, under every command. -/

namespace Sys2Proof.Machine

/-! ### The Peer Link Interface -/

/-- What `QueuesOk` says of the Peer Link Interface (R15, R22, R23). -/
structure LinkOk (l : Link) : Prop where
  history : l.history.length ≤ 4
  receipts : l.receipts.IsChain (fun a b => a.peer < b.peer)
  idle : l.tx = .idle → l.hasWaiting = false
  deferring : ∀ n, l.tx = .deferring n → l.hasWaiting = true

/-- What `QueuesOk` says of the Stamp Unit (R95, R96, R98). -/
structure StampQueuesOk (u : StampUnit) : Prop where
  requests : u.requests.length ≤ 64
  responses : u.responses.length ≤ 64
  captures : ∀ i : Fin 4, u.captures[i].length ≤ 8

theorem queuesOk_iff (s : State) : QueuesOk s ↔ StampQueuesOk s.stamp ∧ LinkOk s.link :=
  ⟨fun h => ⟨⟨h.requests, h.responses, h.captures⟩, ⟨h.history, h.receipts, h.idle, h.deferring⟩⟩,
    fun ⟨u, l⟩ => ⟨u.requests, u.responses, u.captures, l.history, l.receipts, l.idle, l.deferring⟩⟩

theorem settleTx_hasWaiting (osc : Nat) (l : Link) : (settleTx osc l).hasWaiting = l.hasWaiting := by
  unfold settleTx
  split
  · rfl
  · split <;> rfl
  · split <;> rfl

theorem settleTx_history (osc : Nat) (l : Link) : (settleTx osc l).history = l.history := by
  unfold settleTx
  split
  · rfl
  · split <;> rfl
  · split <;> rfl

theorem settleTx_receipts (osc : Nat) (l : Link) : (settleTx osc l).receipts = l.receipts := by
  unfold settleTx
  split
  · rfl
  · split <;> rfl
  · split <;> rfl

/-- The transmitter once it has settled: IDLE without a frame, DEFERRING with one, or still SENDING (R15). -/
theorem settleTx_tx (osc : Nat) (l : Link) :
    ((settleTx osc l).tx = .idle ∧ l.hasWaiting = false) ∨ ((∃ n, (settleTx osc l).tx = .deferring n) ∧ l.hasWaiting = true)
      ∨ ∃ f, (settleTx osc l).tx = .sending f := by
  unfold settleTx
  split
  · next f sending => exact .inr (.inr ⟨f, sending⟩)
  · next idle =>
    split
    · next waits => exact .inr (.inl ⟨⟨osc, rfl⟩, waits⟩)
    · next none => exact .inl ⟨idle, by simpa using none⟩
  · next n deferring =>
    split
    · next waits => exact .inr (.inl ⟨⟨n, deferring⟩, waits⟩)
    · next none => exact .inl ⟨rfl, by simpa using none⟩

theorem settleTx_ok (osc : Nat) {l : Link} (history : l.history.length ≤ 4)
    (receipts : l.receipts.IsChain (fun a b => a.peer < b.peer)) : LinkOk (settleTx osc l) where
  history := by rwa [settleTx_history]
  receipts := by rwa [settleTx_receipts]
  idle := by
    rw [settleTx_hasWaiting]
    obtain ⟨-, none⟩ | ⟨⟨n, deferring⟩, -⟩ | ⟨f, sending⟩ := settleTx_tx osc l
    · exact fun _ => none
    · simp [deferring]
    · simp [sending]
  deferring := by
    rw [settleTx_hasWaiting]
    obtain ⟨idle, -⟩ | ⟨-, waits⟩ | ⟨f, sending⟩ := settleTx_tx osc l
    · simp [idle]
    · exact fun _ _ => waits
    · simp [sending]

/-- A change of the counts, the frames on the segment or the series leaves what waits and what is sent as it was. -/
theorem LinkOk.of_kept {a b : Link} (h : LinkOk a) (history : b.history = a.history) (receipts : b.receipts = a.receipts)
    (tx : b.tx = a.tx) (waiting : b.hasWaiting = a.hasWaiting) : LinkOk b :=
  ⟨history ▸ h.history, receipts ▸ h.receipts, tx ▸ waiting ▸ h.idle, tx ▸ waiting ▸ h.deferring⟩

theorem linkOk_silent {l : Link} (history : l.history.length ≤ 4) (receipts : l.receipts.IsChain (fun a b => a.peer < b.peer))
    (idle : l.tx = .idle) (none : l.hasWaiting = false) : LinkOk l :=
  ⟨history, receipts, fun _ => none, fun _ deferring => nomatch idle.symm.trans deferring⟩

theorem linkOk_sending {l : Link} {f : Frame} (history : l.history.length ≤ 4)
    (receipts : l.receipts.IsChain (fun a b => a.peer < b.peer)) (sending : l.tx = .sending f) : LinkOk l :=
  ⟨history, receipts, fun idle => (nomatch sending.symm.trans idle), fun _ deferring => nomatch sending.symm.trans deferring⟩

/-! ### Waiting frames -/

theorem requestFrame_linkOk (i : Fin 32) (k : Bool) (f : Frame) {s : State} (h : LinkOk s.link) :
    LinkOk (requestFrame i k f s).link :=
  settleTx_ok s.osc h.history h.receipts

theorem withdrawKind_linkOk (i : Fin 32) (k : Bool) {s : State} (h : LinkOk s.link) : LinkOk (withdrawKind i k s).link :=
  settleTx_ok s.osc h.history h.receipts

theorem withdrawSlot_linkOk (i : Fin 32) {s : State} (h : LinkOk s.link) : LinkOk (withdrawSlot i s).link :=
  settleTx_ok s.osc h.history h.receipts

theorem voidOne_link (i : Fin 32) (r : VoidReason) (s : State) : (voidOne i r s).link = (withdrawSlot i s).link := by
  simp [voidOne, withdrawSlot]

theorem voidChain_linkOk {n : Nat} {i : Fin 32} {r : VoidReason} {s : State} (h : LinkOk s.link) :
    LinkOk (voidChain n i r s).link := by
  induction n generalizing i r s with
  | zero => exact h
  | succ n ih =>
    have voided : LinkOk (voidOne i r s).link := voidOne_link i r s ▸ withdrawSlot_linkOk i h
    simp only [voidChain]
    split
    · exact voided
    · exact ih voided

theorem voidEntry_linkOk {i : Fin 32} {r : VoidReason} {s : State} (h : LinkOk s.link) : LinkOk (voidEntry i r s).link :=
  voidChain_linkOk h

theorem voidExchanging_linkOk {s : State} (h : LinkOk s.link) : LinkOk (voidExchanging s).link := by
  unfold voidExchanging
  induction List.finRange 32 generalizing s with
  | nil => exact h
  | cons i slots ih =>
    rw [List.foldl_cons]
    refine ih ?_
    split
    · exact voidEntry_linkOk h
    · exact h

theorem drawShare_linkOk {i : Fin 32} {s : State} (h : LinkOk s.link) : LinkOk (drawShare i s).link := by
  simp only [drawShare]
  split
  · exact requestFrame_linkOk _ _ _ h
  · exact h

theorem tallyEntry_linkOk {i : Fin 32} {s : State} (h : LinkOk s.link) : LinkOk (tallyEntry i s).link := by
  simp only [tallyEntry]
  split
  · exact withdrawKind_linkOk i false h
  · exact requestFrame_linkOk _ _ _ (withdrawKind_linkOk i false h)

theorem fixEntry_linkOk {i : Fin 32} {s : State} (h : LinkOk s.link) : LinkOk (fixEntry i s).link := by
  have withdrawn : LinkOk (withdrawKind i true s).link := withdrawKind_linkOk i true h
  simp only [fixEntry]
  split
  · split
    · simpa using withdrawn
    · simpa using withdrawn
  · exact voidEntry_linkOk withdrawn

theorem closeChain_linkOk {n : Nat} {i : Fin 32} {s : State} (h : LinkOk s.link) : LinkOk (closeChain n i s).link := by
  induction n generalizing i s with
  | zero => exact h
  | succ n ih =>
    have closed : LinkOk (closeOne i s).link := by simpa using h
    simp only [closeChain]
    split
    · exact closed
    · next j _ =>
      split
      · exact closed
      · split
        · exact voidEntry_linkOk closed
        · split
          · exact voidEntry_linkOk closed
          · split
            · exact closed
            · split
              · exact drawShare_linkOk closed
              · split
                · exact ih (by simpa using closed)
                · simpa using closed

theorem releaseEntry_linkOk {i : Fin 32} {s : State} (h : LinkOk s.link) : LinkOk (releaseEntry i s).link := by
  simpa [releaseEntry] using withdrawSlot_linkOk i h

/-! ### Frames sent and received -/

theorem addHistory_length (b : Beacon) {h : List Sent} (room : h.length ≤ 4) : (addHistory b h).length ≤ 4 := by
  simp only [addHistory, List.length_drop, List.length_append, List.length_singleton]
  omega

theorem historyAfter_length (f : Frame) {h : List Sent} (room : h.length ≤ 4) : (historyAfter f h).length ≤ 4 := by
  cases f with
  | beacon b => exact addHistory_length b room
  | draw d => exact room
  | tally t => exact room

theorem departFrame_linkOk {s : State} (h : LinkOk s.link) : LinkOk (departFrame s).link := by
  unfold departFrame
  split
  · exact linkOk_sending h.history .nil rfl
  · split
    · exact h
    · exact linkOk_sending h.history h.receipts rfl

theorem turnIdle_linkOk (osc : Nat) {l : Link} (h : LinkOk l) : LinkOk (l.turnIdle osc) := by
  unfold Link.turnIdle
  split
  · next n deferring =>
    exact ⟨h.history, h.receipts, fun idle => (nomatch idle), fun _ _ => h.deferring n deferring⟩
  · exact h.of_kept rfl rfl rfl rfl
  · exact h.of_kept rfl rfl rfl rfl

/-- The heads of a receipt list and of the list with a receipt put in its place (R23). -/
theorem putReceipt_head (r : Receipt) (xs : List Receipt) :
    ∃ y ys, putReceipt r xs = y :: ys ∧ (y = r ∨ xs.head? = some y) := by
  cases xs with
  | nil => exact ⟨r, [], rfl, .inl rfl⟩
  | cons x xs =>
    unfold putReceipt
    split
    · exact ⟨r, _, rfl, .inl rfl⟩
    · split
      · exact ⟨r, _, rfl, .inl rfl⟩
      · exact ⟨x, _, rfl, .inr rfl⟩

theorem putReceipt_rising (r : Receipt) {xs : List Receipt} (h : xs.IsChain (fun a b => a.peer < b.peer)) :
    (putReceipt r xs).IsChain (fun a b => a.peer < b.peer) := by
  induction xs with
  | nil => exact .singleton r
  | cons x xs ih =>
    unfold putReceipt
    split
    · next below => exact .cons_cons below h
    · split
      · next same =>
        cases xs with
        | nil => exact .singleton r
        | cons y ys =>
          rw [List.isChain_cons_cons] at h ⊢
          exact ⟨same ▸ h.1, h.2⟩
      · next notBelow notSame =>
        have tail := ih h.of_cons
        obtain ⟨y, ys, put, from_⟩ := putReceipt_head r xs
        rw [put] at tail ⊢
        rw [List.isChain_cons_cons]
        refine ⟨?_, tail⟩
        obtain rfl | head := from_
        · omega
        · exact (List.isChain_cons.mp h).1 y head

theorem acceptBeacon_linkOk (b : Beacon) (arrival : Nat) {s : State} (h : LinkOk s.link) :
    LinkOk (acceptBeacon b arrival s).link := by
  have put : LinkOk { s.link with receipts := putReceipt ⟨b.sender, b.seq, arrival⟩ s.link.receipts } :=
    ⟨h.history, putReceipt_rising _ h.receipts, h.idle, h.deferring⟩
  simpa [acceptBeacon] using put

theorem checkFrame_linkOk (bytes : Bytes) (damaged : Bool) (arrival : Nat) {s : State} (h : LinkOk s.link) :
    LinkOk (checkFrame bytes damaged arrival s).link := by
  have counted : LinkOk (countError s).link := h.of_kept rfl rfl rfl rfl
  unfold checkFrame
  split
  · exact counted
  · split
    · exact h.of_kept rfl rfl rfl rfl
    · split
      · exact counted
      · next f _ =>
        split
        · simpa using h
        · cases f with
          | beacon b => exact acceptBeacon_linkOk b arrival h
          | draw d => simpa [deliver] using h
          | tally t => simpa [deliver] using h

/-! ### Resets -/

theorem takeWarmReset_linkOk {cause : ResetCause} {label : Bool} {s : State} (h : LinkOk s.link) :
    LinkOk (takeWarmReset cause label s).link := by
  have blocks : LinkOk (warmBlocks label s).link := linkOk_silent h.history h.receipts rfl rfl
  have voided {u : State} (kept : u.link = (warmBlocks label s).link) : LinkOk (voidExchanging u).link :=
    voidExchanging_linkOk (kept ▸ blocks)
  unfold takeWarmReset
  split
  · exact blocks
  · simp only [warmRecords]
    split
    · simp only [demote_keeps]
      split <;> exact voided (by simp)
    · split <;> exact voided (by simp)

/-- The Peer Link Interface under every command. -/
theorem Effect.link_ok {c : Instr} {s t : State} (effect : Effect s c t) (h : LinkOk s.link) : LinkOk t.link := by
  cases effect with
  | powerOn e r k => exact linkOk_silent (Nat.zero_le 4) .nil rfl rfl
  | warmReset cause label took tr _ => exact takeWarmReset_linkOk (by simpa using h)
  | start body r _ _ _ =>
    simp only [respond_link, handRecord_keeps]
    exact h.of_kept rfl rfl rfl rfl
  | setTime body answer a _ _ _ =>
    rw [respond_link, takeStep_link]
    exact h.of_kept rfl rfl rfl rfl
  | cancel body i _ => exact voidEntry_linkOk h
  | release body i _ => exact releaseEntry_linkOk h
  | fence body token _ _ _ => simpa [takeFence] using h
  | exportRead k i _ _ => simpa [engineReply] using h
  | exportStop body k u _ stopped => obtain rfl | rfl := stopped <;> simpa using h
  | beaconInstant => exact settleTx_ok s.osc h.history h.receipts
  | segmentIdle => exact turnIdle_linkOk s.osc h
  | depart _ => exact departFrame_linkOk h
  | frameSent f _ =>
    exact settleTx_ok (l := { s.link with tx := .idle, history := historyAfter f s.link.history }) s.osc
      (historyAfter_length f h.history) h.receipts
  | frameArrival => exact h.of_kept rfl rfl rfl rfl
  | frameDiscarded bytes damaged rest => exact h.of_kept rfl rfl rfl rfl
  | frameChecked bytes damaged cut arrival rest _ => exact checkFrame_linkOk bytes cut arrival (h.of_kept rfl rfl rfl rfl)
  | goodEdge second _ =>
    rw [goodEdge_link]
    exact h.of_kept rfl rfl rfl rfl
  | steering _ =>
    rw [steeringInstant_link]
    exact h.of_kept rfl rfl rfl rfl
  | draw i _ => exact drawShare_linkOk h
  | tally i _ => exact tallyEntry_linkOk h
  | fix i _ => exact fixEntry_linkOk h
  | close i _ => exact closeChain_linkOk h
  | _ => simpa using h

/-! ### The Stamp Unit -/

/-- What a command makes of the next sequence, the floor and the responses (R102, R103). -/
structure StampAdvance (u v : StampUnit) : Prop where
  floor : u.floor ≤ v.floor
  rising : ∀ n m, u.nextSeq = some n → v.nextSeq = some m → n ≤ m
  exhausted : u.nextSeq = none → v.nextSeq = none
  issued : ∀ st, .issued st ∈ v.responses → .issued st ∉ u.responses → u.floor ≤ st.time ∧ st.time = v.floor

/-- The floor may rise while sequence and responses stay (R108). -/
theorem StampAdvance.of_kept {u v : StampUnit} (floor : u.floor ≤ v.floor) (seq : v.nextSeq = u.nextSeq)
    (responses : ∀ x ∈ v.responses, x ∈ u.responses) : StampAdvance u v where
  floor := floor
  rising := fun _ _ hn hm => (Option.some.inj (hn.symm.trans (seq.symm.trans hm))).le
  exhausted := fun none => seq.trans none
  issued := fun _ new old => absurd (responses _ new) old

theorem closeBatch_stamp (cause : BatchCause) (s : State) : (closeBatch cause s).stamp = { s.stamp with batch := none } := by
  unfold closeBatch
  split
  · next none => rw [← none]
  · simp

theorem takeFence_stamp (token : BitVec 32) (s : State) : (takeFence token s).stamp = { s.stamp with batch := none } := by
  simp [takeFence, closeBatch_stamp]

theorem joinStamp_stamp (st : Stamp) (s : State) :
    (joinStamp st s).stamp = { s.stamp with batch := (joinStamp st s).stamp.batch } := by
  simp only [joinStamp]
  split
  · rw [closeBatch_stamp]
  · rfl

/-- The Stamp Unit after an issued stamp (R100). -/
theorem issueStamp_stamp (r : Request) (x : RawSource) (n : Nat) (s : State) :
    (issueStamp r x n s).stamp = { takeCapture x s.stamp with
      nextSeq := seqAfter n
      floor := (stampFor r x n s).time
      floorSeq := if s.stamp.floor < (stampFor r x n s).time then some n else s.stamp.floorSeq
      gradeMark := false
      batch := (issueStamp r x n s).stamp.batch
      responses := s.stamp.responses ++ [.issued (stampFor r x n s)] } := by
  have responses : (takeCapture x s.stamp).responses = s.stamp.responses := by cases x <;> rfl
  simp only [issueStamp]
  rw [joinStamp_stamp]
  split
  · rw [closeBatch_stamp]
    simp [responses]
  · simp [responses]

theorem seqAfter_none (n : Nat) : seqAfter n = none ∨ seqAfter n = some (n + 1) := by
  unfold seqAfter
  split
  · exact .inl rfl
  · exact .inr rfl

theorem issueStamp_advance (r : Request) (x : RawSource) {n : Nat} {s : State} (next : s.stamp.nextSeq = some n) :
    StampAdvance s.stamp (issueStamp r x n s).stamp := by
  have above : s.stamp.floor ≤ (stampFor r x n s).time := le_max_right _ _
  rw [issueStamp_stamp]
  refine ⟨above, fun k m hk hm => ?_, fun none => ?_, fun st new old => ?_⟩
  · obtain rfl := Option.some.inj (next.symm.trans hk)
    obtain last | more := seqAfter_none n
    · exact nomatch last.symm.trans hm
    · exact (Option.some.inj (more.symm.trans hm)) ▸ Nat.le_succ n
  · exact nomatch next.symm.trans none
  · obtain mem | mem := List.mem_append.mp new
    · exact absurd mem old
    · obtain rfl := StampResponse.issued.inj (List.mem_singleton.mp mem)
      exact ⟨above, rfl⟩

/-- A stamp event refuses, or issues with the next sequence (R97, R103). -/
theorem answerRequest_cases (r : Request) (s : State) :
    (∃ w, answerRequest r s = refuseStamp w r s)
      ∨ ∃ x n, s.stamp.nextSeq = some n ∧ answerRequest r s = issueStamp r x n s := by
  unfold answerRequest
  split
  · exact .inl ⟨_, rfl⟩
  · split
    · exact .inl ⟨_, rfl⟩
    · next n next =>
      split
      · exact .inl ⟨_, rfl⟩
      · exact .inr ⟨_, n, next, rfl⟩

theorem answerRequest_advance (r : Request) (s : State) : StampAdvance s.stamp (answerRequest r s).stamp := by
  obtain ⟨w, refused⟩ | ⟨x, n, next, issued⟩ := answerRequest_cases r s
  · rw [refused]
    exact ⟨le_refl _, fun n m hn hm => (Option.some.inj (hn.symm.trans hm)).le, id, fun st new old => by
      simp [refuseStamp, old] at new⟩
  · rw [issued]
    exact issueStamp_advance r x next

theorem answerRequest_queues (r : Request) {s : State} (h : StampQueuesOk s.stamp) (room : s.stamp.responses.length < 64) :
    StampQueuesOk (answerRequest r s).stamp := by
  obtain ⟨w, refused⟩ | ⟨x, n, -, issued⟩ := answerRequest_cases r s
  · rw [refused]
    refine ⟨h.requests, ?_, h.captures⟩
    simp only [refuseStamp, List.length_append, List.length_singleton]
    omega
  · rw [issued, issueStamp_stamp]
    have requests : (takeCapture x s.stamp).requests = s.stamp.requests := by cases x <;> rfl
    refine ⟨requests ▸ h.requests, ?_, fun i => ?_⟩
    · simp only [List.length_append, List.length_singleton]
      omega
    · cases x with
      | now => exact h.captures i
      | capture l raw =>
        simp only [takeCapture, Fin.getElem_fin, Vector.getElem_set]
        have held := h.captures l
        split
        · simp only [List.length_tail, Fin.getElem_fin] at *
          omega
        · exact h.captures i

/-- What the close of an entry leaves of the Stamp Unit: the floor may rise and the batch is gone, or nothing changes (R108). -/
structure ClosesStamp (u v : StampUnit) : Prop where
  floor : u.floor ≤ v.floor
  kept : v = { u with floor := v.floor, floorSeq := v.floorSeq, batch := v.batch }

theorem ClosesStamp.refl (u : StampUnit) : ClosesStamp u u := ⟨le_refl _, rfl⟩

theorem ClosesStamp.trans {u v w : StampUnit} (h : ClosesStamp u v) (g : ClosesStamp v w) : ClosesStamp u w :=
  ⟨h.floor.trans g.floor, by rw [g.kept, h.kept]⟩

theorem raiseFloor_closes (tc : Nat) (u : StampUnit) : ClosesStamp u (raiseFloor tc u) := by
  unfold raiseFloor
  split
  · next below => exact ⟨below.le, rfl⟩
  · exact .refl u

theorem closeNotice_closes (i : Fin 32) (s : State) : ClosesStamp s.stamp (closeNotice i s).stamp := by
  simp only [closeNotice]
  split
  · exact raiseFloor_closes _ _
  · refine ClosesStamp.trans (v := { s.stamp with batch := none }) ⟨le_refl _, rfl⟩ ?_
    have closes := raiseFloor_closes s.entries[i].tcNs { s.stamp with batch := none }
    simpa only [closeBatch_stamp] using closes

theorem closeOne_closes (i : Fin 32) (s : State) : ClosesStamp s.stamp (closeOne i s).stamp := by
  have noticed := closeNotice_closes i (setEntry i { s.entries[i] with state := .closed } s)
  simpa [closeOne] using noticed

theorem closeChain_closes (n : Nat) (i : Fin 32) (s : State) : ClosesStamp s.stamp (closeChain n i s).stamp := by
  induction n generalizing i s with
  | zero => exact .refl _
  | succ n ih =>
    have closed := closeOne_closes i s
    simp only [closeChain]
    split
    · exact closed
    · next j _ =>
      split
      · exact closed
      · split
        · simpa using closed
        · split
          · simpa using closed
          · split
            · exact closed
            · split
              · simpa using closed
              · split
                · have rest := ih j (recordFix j (setEntry j
                    ((closeOne i s).entries[j].fixedLate (s.entries[i].tc.getD 0 + s.entries[i].linkDelay)) (closeOne i s)))
                  simp only [recordFix_keeps, setEntry_stamp] at rest
                  exact closed.trans rest
                · simpa using closed

theorem ClosesStamp.advance {u v : StampUnit} (h : ClosesStamp u v) : StampAdvance u v :=
  .of_kept h.floor (by rw [h.kept]) (by rw [h.kept]; exact fun _ mem => mem)

theorem ClosesStamp.queues {u v : StampUnit} (h : ClosesStamp u v) (ok : StampQueuesOk u) : StampQueuesOk v := by
  rw [h.kept]
  exact ⟨ok.requests, ok.responses, ok.captures⟩

theorem StampUnit.eq_of_kept {u v : StampUnit} (requests : v.requests = u.requests) (responses : v.responses = u.responses)
    (captures : v.captures = u.captures) (overflow : v.overflow = u.overflow) (nextSeq : v.nextSeq = u.nextSeq)
    (floor : v.floor = u.floor) (floorSeq : v.floorSeq = u.floorSeq) (batch : v.batch = u.batch) :
    v = { u with gradeMark := v.gradeMark } := by
  rw [← requests, ← responses, ← captures, ← overflow, ← nextSeq, ← floor, ← floorSeq, ← batch]

/-- The Stamp Unit at a warm reset (R114), but for the mark of a change of grade (R88). -/
theorem takeWarmReset_stamp (cause : ResetCause) (label : Bool) (s : State) :
    (takeWarmReset cause label s).stamp
      = { stampWarmReset s.stamp with gradeMark := (takeWarmReset cause label s).stamp.gradeMark } := by
  have blocks : (warmBlocks label s).stamp = stampWarmReset s.stamp := rfl
  unfold takeWarmReset
  split
  · rfl
  · rw [← blocks]
    apply StampUnit.eq_of_kept <;> simp

/-- The queues of the Stamp Unit under every command. -/
theorem Effect.stamp_queues {c : Instr} {s t : State} (effect : Effect s c t) (h : StampQueuesOk s.stamp) :
    StampQueuesOk t.stamp := by
  have kept {u : StampUnit} (requests : u.requests = s.stamp.requests) (responses : u.responses = s.stamp.responses)
      (captures : u.captures = s.stamp.captures) : StampQueuesOk u :=
    ⟨requests ▸ h.requests, responses ▸ h.responses, captures ▸ h.captures⟩
  cases effect with
  | powerOn e r k => exact ⟨Nat.zero_le 64, Nat.zero_le 64, by simp [powerOnState, State.reset, StampUnit.powerOn]⟩
  | warmReset cause label took tr _ =>
    rw [warmResetState, takeWarmReset_stamp]
    exact ⟨Nat.zero_le 64, Nat.zero_le 64, by simp [stampWarmReset]⟩
  | start body r _ _ _ => exact kept (by simp [startBlocks]) (by simp [startBlocks]) (by simp [startBlocks])
  | fence body token _ _ _ =>
    rw [takeFence_stamp]
    exact kept rfl rfl rfl
  | exportRead k i _ _ => simpa [engineReply] using h
  | exportStop body k u _ stopped => obtain rfl | rfl := stopped <;> simpa using h
  | badEdge v _ => exact kept (by simp) (by simp) (by simp)
  | edgeTimeout _ => exact kept (by simp) (by simp) (by simp)
  | steering _ => exact kept (by simp) (by simp) (by simp)
  | request kind line group tag room =>
    refine ⟨?_, h.responses, h.captures⟩
    simp only [List.length_append, List.length_singleton]
    omega
  | stamp r rest queue room =>
    have requests : rest.length ≤ 64 := by
      have total := h.requests
      rw [queue, List.length_cons] at total
      omega
    exact answerRequest_queues r ⟨requests, h.responses, h.captures⟩ room
  | responseTaken =>
    refine ⟨h.requests, ?_, h.captures⟩
    simp only [List.length_tail]
    exact (Nat.sub_le _ _).trans h.responses
  | capture line room =>
    refine ⟨h.requests, h.responses, fun i => ?_⟩
    have held := h.captures i
    simp only [Fin.getElem_fin, Vector.getElem_set] at *
    split
    · simp only [List.length_append, List.length_singleton]
      omega
    · exact held
  | captureLost line => exact kept rfl rfl rfl
  | close i _ => exact (closeChain_closes 32 i s).queues h
  | _ => simpa using h

/-- Next sequence, floor and responses under every command but power-on reset. -/
theorem Effect.stamp_advance {c : Instr} {s t : State} (effect : Effect s c t) (stays : ∀ e r k, c ≠ .powerOnReset e r k) :
    StampAdvance s.stamp t.stamp := by
  have kept {u : StampUnit} (floor : u.floor = s.stamp.floor) (seq : u.nextSeq = s.stamp.nextSeq)
      (responses : u.responses = s.stamp.responses) : StampAdvance s.stamp u :=
    .of_kept floor.ge seq (fun _ => responses ▸ id)
  cases effect with
  | powerOn e r k => exact absurd rfl (stays e r k)
  | warmReset cause label took tr _ =>
    rw [warmResetState, takeWarmReset_stamp]
    exact .of_kept (by simp [stampWarmReset]) (by simp [stampWarmReset]) nofun
  | start body r _ _ _ => exact kept (by simp [startBlocks]) (by simp [startBlocks]) (by simp [startBlocks])
  | fence body token _ _ _ =>
    rw [takeFence_stamp]
    exact kept rfl rfl rfl
  | exportRead k i _ _ => exact kept (by simp [engineReply]) (by simp [engineReply]) (by simp [engineReply])
  | exportStop body k u _ stopped => obtain rfl | rfl := stopped <;> exact kept (by simp) (by simp) (by simp)
  | stamp r rest queue room =>
    obtain ⟨floor, rising, exhausted, issued⟩ := answerRequest_advance r { s with stamp.requests := rest }
    exact ⟨floor, rising, exhausted, issued⟩
  | responseTaken => exact .of_kept (le_refl _) rfl fun _ => List.mem_of_mem_tail
  | close i _ => exact (closeChain_closes 32 i s).advance
  | _ => exact kept (by simp) (by simp) (by simp)

/-- Settles O42. -/
theorem floorNeverDecreases : Obligations.FloorNeverDecreases := by
  intro c s t stays executed
  obtain ⟨floor, rising, exhausted, issued⟩ := (effect_of_exec executed).stamp_advance stays
  exact ⟨floor, rising, exhausted, issued⟩

/-- Settles O43: the Stamp Unit's half and the Peer Link Interface's. -/
theorem queuesStayBounded : Obligations.QueuesStayBounded := by
  intro s t holds stepped
  rw [queuesOk_iff] at holds ⊢
  refine step_keeps (P := fun s => StampQueuesOk s.stamp ∧ LinkOk s.link) (fun _ _ h => h) ?_ ?_ holds stepped
  · exact fun effect h => ⟨effect.stamp_queues h.1, effect.link_ok h.2⟩
  · exact fun _ h => ⟨h.1, h.2.of_kept rfl rfl rfl rfl⟩

end Sys2Proof.Machine
end

