-- ==== Sys2Proof/Proofs/WholeMachine.lean ====
section
/-! What every command leaves alone: the queue, the phase and a set clock, the Station Clock outside a step, and the notice flags. -/

namespace Sys2Proof.Machine

/-! ### The queue of waiting commands -/

theorem Effect.pending {c : Instr} {s t : State} (effect : Effect s c t) : t.pending = s.pending := by
  cases effect with
  | powerOn e r k => rfl
  | warmReset cause label took tr _ => simp [warmResetState]
  | start body r _ _ _ => simp [startBlocks]
  | fence body token _ _ _ => simp [takeFence]
  | exportRead k i _ _ => simp [engineReply]
  | exportStop body k u _ stopped => obtain rfl | rfl := stopped <;> simp
  | _ => simp

/-- Settles O2. -/
theorem everyCommandCompletes : Obligations.EveryCommandCompletes := by
  intro c s
  obtain ⟨t, executed, effect⟩ := exec_effect c s
  exact ⟨t, executed, effect.pending⟩

/-! ### The phase and a set clock -/

theorem Effect.run_stays {c : Instr} {s t : State} (effect : Effect s c t) (stays : ∀ e r k, c ≠ .powerOnReset e r k)
    (run : s.phase = .run) : t.phase = .run := by
  cases effect with
  | powerOn e r k => exact absurd rfl (stays e r k)
  | warmReset cause label took tr _ => simpa [warmResetState] using run
  | start body r config _ _ => exact nomatch config.symm.trans run
  | fence body token _ _ _ => simpa [takeFence] using run
  | exportRead k i _ _ => simpa [engineReply] using run
  | exportStop body k u _ stopped => obtain rfl | rfl := stopped <;> simpa using run
  | _ => simpa using run

theorem Applied.not_cold {correction : Int} {s t : State} (applied : Applied correction s t) (notCold : s.steer.state ≠ .cold) :
    t.steer.state ≠ .cold := by
  have moved : (movedRuns correction s).steer.state ≠ .cold := by
    rw [movedRuns_steer]
    obtain acquire | track := moveRuns_state s.cfg correction notCold
    · rw [acquire]; decide
    · rw [track]; decide
  cases applied with
  | stayed cold _ => exact absurd cold notCold
  | steppedCold cold _ => exact absurd cold notCold
  | deferred _ _ _ =>
    rw [deferStep_steer]
    exact moved
  | stepped _ _ _ =>
    rw [takeStep_steer]
    exact nofun
  | slewed _ _ => exact moved

theorem applyOutcome_not_cold (c : Option Int) {s : State} (notCold : s.steer.state ≠ .cold) :
    (applyOutcome c s).steer.state ≠ .cold := by
  cases c with
  | none =>
    obtain ⟨-, kept⟩ | ⟨-, entered⟩ := applyNone_cases s
    · simpa [applyOutcome, kept] using notCold
    · simp only [applyOutcome, entered]
      exact nofun
  | some x => exact (applyCombination_applied x s).not_cold notCold

/-- The state in which a steering instant comes to its apply stage: the runs of the measuring units are done, U and the grade formed. -/
def beforeApply (s : State) : State :=
  judgeAll (sourceList { s with steer := captureHoldover s.steer, fresh := s.fresh + 1 }) s.ref
    (instantCombination s).correction
    (formGrade (instantCombination s)
      { s with steer := { captureHoldover s.steer with latest := some ((instantCombination s).latest .none) }, fresh := s.fresh + 1 })

/-- A steering instant is its apply stage on `beforeApply`, the SYNC record and the checkpoint test (R58). -/
theorem steeringInstant_eq (s : State) :
    steeringInstant s
      = periodicCheckpoint (recordSync (applyOutcome (instantCombination s).correction (beforeApply s))) := rfl

theorem captureHoldover_eq (x : Steering) : captureHoldover x = { x with holdover := (captureHoldover x).holdover } := by
  unfold captureHoldover
  split <;> rfl

theorem captureHoldover_state (x : Steering) : (captureHoldover x).state = x.state := by rw [captureHoldover_eq]

theorem beforeApply_state (s : State) : (beforeApply s).steer.state = s.steer.state := by
  simp [beforeApply, captureHoldover_state]

theorem steeringInstant_not_cold {s : State} (notCold : s.steer.state ≠ .cold) : (steeringInstant s).steer.state ≠ .cold := by
  rw [steeringInstant_eq]
  simp only [periodicCheckpoint_keeps, recordSync_keeps]
  exact applyOutcome_not_cold _ (beforeApply_state s ▸ notCold)

/-- A good edge steps in COLD alone (R79), and then by `stepInCold`; otherwise clock and Steering Unit stay. -/
theorem goodEdge_cases (second : Nat) (s : State) :
    ((goodEdge second s).steer = s.steer ∧ (goodEdge second s).clock = s.clock)
      ∨ (s.steer.state = .cold ∧ ∃ u, u.entries = s.entries ∧ u.clock = s.clock ∧ u.steer = s.steer
          ∧ goodEdge second s = stepInCold (thetaRef second s.cfg.cableDelay s.clock.present) .reference u) := by
  simp only [goodEdge]
  split
  · exact .inl (by simp)
  · simp only [qualificationReport, recordReference_keeps]
    split
    · next cold => exact .inr ⟨cold, _, by simp, by simp, by simp, rfl⟩
    · exact .inl (by simp)
  · exact .inl ⟨rfl, rfl⟩

theorem Effect.steer_not_cold {c : Instr} {s t : State} (effect : Effect s c t) (stays : ∀ e r k, c ≠ .powerOnReset e r k)
    (notCold : s.steer.state ≠ .cold) : t.steer.state ≠ .cold := by
  cases effect with
  | powerOn e r k => exact absurd rfl (stays e r k)
  | warmReset cause label took tr _ => simpa [warmResetState] using notCold
  | start body r _ _ _ => simpa [startBlocks] using notCold
  | setTime body answer a _ cold _ => exact absurd cold notCold
  | fence body token _ _ _ => simpa [takeFence] using notCold
  | exportRead k i _ _ => simpa [engineReply] using notCold
  | exportStop body k u _ stopped => obtain rfl | rfl := stopped <;> simpa using notCold
  | goodEdge second _ =>
    obtain ⟨kept, -⟩ | ⟨cold, -⟩ := goodEdge_cases second s
    · rwa [kept]
    · exact absurd cold notCold
  | steering _ => exact steeringInstant_not_cold notCold
  | _ => simpa using notCold

theorem clockSet_iff (s : State) : clockSet s = true ↔ s.phase = .run ∧ s.steer.state ≠ .cold := by
  rw [clockSet, decide_eq_true_iff]

/-- Settles O4. -/
theorem runAndSetClockStay : Obligations.RunAndSetClockStay := by
  intro c s t stays executed
  have effect := effect_of_exec executed
  refine ⟨effect.run_stays stays, ?_⟩
  rw [clockSet_iff, clockSet_iff]
  exact fun ⟨run, notCold⟩ => ⟨effect.run_stays stays run, effect.steer_not_cold stays notCold⟩

/-! ### The protected span -/

theorem stepForbidden_congr {s t : State} (entries : t.entries = s.entries) (clock : t.clock.present = s.clock.present) (a : Int) :
    stepForbidden a t = stepForbidden a s := by
  rw [stepForbidden, stepForbidden, entries, clock]

/-- The time a step leaves, as the statements write it (R8). -/
theorem steppedTime_int (present : Nat) (a : Int) :
    (steppedTime present a : Int) = max 0 (min ((present : Int) + a) maxTime) := by
  unfold steppedTime
  omega

/-- An entry forbids a step exactly where its state or its stretch does (R71, R133). -/
theorem Entry.forbids_iff (present after : Nat) (e : Entry) :
    e.forbids present after = true ↔ e.state = .drawing ∨ e.state = .tallying ∨ e.state = .fixed
      ∨ (e.state = .armed ∧ (e.drawAt ≤ present
          ∨ (e.drawAt ≤ max present after ∧ min present after ≤ (e.tn.getD 0 + (e.window - 1)) * fineMs))) := by
  unfold Entry.forbids Entry.stretch
  cases state : e.state <;> simp

/-- The same as the statements spell it, with the times in whole numbers of either sign. -/
theorem Entry.forbids_steppedTime_iff (present : Nat) (a : Int) (e : Entry) :
    e.forbids present (steppedTime present a) = true ↔ e.state = .drawing ∨ e.state = .tallying ∨ e.state = .fixed
      ∨ (e.state = .armed ∧
        let after : Int := max 0 (min ((present : Int) + a) maxTime)
        let first : Nat := (e.tn.getD 0 - e.leadL) * 256000000
        let last : Nat := (e.tn.getD 0 + (e.window - 1)) * 256000000
        (first ≤ present ∨ ((first : Int) ≤ max (present : Int) after ∧ min (present : Int) after ≤ last))) := by
  rw [Entry.forbids_iff]
  refine or_congr_right (or_congr_right (or_congr_right (and_congr_right fun _ => ?_)))
  simp only [Entry.drawAt, fineMs, ← steppedTime_int]
  omega

/-- The span test of the model is the one the statements spell (R71, R133). -/
theorem stepForbidden_iff (a : Int) (s : State) : stepForbidden a s = true ↔ stepMeetsSpan a s := by
  simp only [stepForbidden, List.any_eq_true, Entry.forbids_steppedTime_iff]
  constructor
  · rintro ⟨e, mem, forbids⟩
    obtain ⟨i, hi, rfl⟩ := Vector.mem_iff_getElem.mp (Vector.mem_toList_iff.mp mem)
    exact ⟨⟨i, hi⟩, forbids⟩
  · rintro ⟨i, meets⟩
    exact ⟨s.entries[i], by simp, meets⟩

theorem not_stepForbidden_iff (a : Int) (s : State) : stepForbidden a s = false ↔ ¬ stepMeetsSpan a s := by
  rw [← stepForbidden_iff, Bool.not_eq_true]

/-! ### The Station Clock -/

/-- A command keeps running and residue, and moves the present time only by a step that the protected spans allow (R71). -/
structure ClockMove (s t : State) : Prop where
  running : t.clock.running = s.clock.running
  residue : t.clock.residue = s.clock.residue
  present : t.clock.present = s.clock.present
    ∨ ∃ a, stepForbidden a s = false ∧ t.clock.present = steppedTime s.clock.present a

theorem ClockMove.of_kept {s t : State} (clock : t.clock = s.clock) : ClockMove s t :=
  ⟨by rw [clock], by rw [clock], .inl (by rw [clock])⟩

theorem takeStep_clockMove {a : Int} {cause : StepCause} {s u : State} (clock : u.clock = s.clock) (allowed : stepForbidden a s = false) : ClockMove s (takeStep a cause u) := by
  have moved := takeStep_clock a cause u
  rw [clock] at moved
  exact ⟨by rw [moved], by rw [moved], .inr ⟨a, allowed, by rw [moved]⟩⟩

theorem stepInCold_clockMove {a : Int} {cause : StepCause} {s u : State} (entries : u.entries = s.entries)
    (clock : u.clock = s.clock) : ClockMove s (stepInCold a cause u) := by
  unfold stepInCold
  split
  · exact .of_kept clock
  · next allowed =>
    rw [stepForbidden_congr entries (by rw [clock]), Bool.not_eq_true] at allowed
    exact takeStep_clockMove clock allowed

theorem Applied.clockMove {correction : Int} {s t : State} (applied : Applied correction s t) : ClockMove s t := by
  cases applied with
  | stayed _ _ => exact .of_kept rfl
  | steppedCold _ allowed => exact takeStep_clockMove rfl allowed
  | deferred _ _ _ =>
    have slewed := deferStep_clock correction (movedRuns correction s)
    exact ⟨by rw [slewed]; rfl, by rw [slewed]; rfl, .inl (by rw [slewed]; rfl)⟩
  | stepped _ _ allowed => exact takeStep_clockMove rfl allowed
  | slewed _ _ => exact ⟨rfl, rfl, .inl rfl⟩

theorem applyOutcome_clockMove (c : Option Int) (s : State) : ClockMove s (applyOutcome c s) := by
  cases c with
  | none =>
    obtain ⟨-, kept⟩ | ⟨-, entered⟩ := applyNone_cases s
    · simp only [applyOutcome, kept]
      exact .of_kept rfl
    · simp only [applyOutcome, entered]
      exact ⟨rfl, rfl, .inl rfl⟩
  | some x => exact (applyCombination_applied x s).clockMove

theorem beforeApply_clock (s : State) : (beforeApply s).clock = s.clock := by simp [beforeApply]

theorem beforeApply_entries (s : State) : (beforeApply s).entries = s.entries := by simp [beforeApply]

theorem steeringInstant_clock (s : State) :
    (steeringInstant s).clock = (applyOutcome (instantCombination s).correction (beforeApply s)).clock := by
  rw [steeringInstant_eq]
  simp only [periodicCheckpoint_keeps, recordSync_keeps]

theorem steeringInstant_clockMove (s : State) : ClockMove s (steeringInstant s) := by
  obtain ⟨running, residue, present⟩ := applyOutcome_clockMove (instantCombination s).correction (beforeApply s)
  simp only [beforeApply_clock, stepForbidden_congr (beforeApply_entries s) (congrArg Clock.present (beforeApply_clock s))]
    at running residue present
  rw [← steeringInstant_clock] at running residue present
  exact ⟨running, residue, present⟩

theorem Effect.clock {c : Instr} {s t : State} (effect : Effect s c t) (stays : ∀ e r k, c ≠ .powerOnReset e r k)
    (started : ∀ b, c ≠ .start b) :
    ((∀ b, c ≠ .setTime b) → c ≠ .edge → c ≠ .steeringInstant → t.clock = s.clock) ∧ ClockMove s t := by
  have kept {u : State} (clock : u.clock = s.clock) :
      ((∀ b, c ≠ .setTime b) → c ≠ .edge → c ≠ .steeringInstant → u.clock = s.clock) ∧ ClockMove s u :=
    ⟨fun _ _ _ => clock, .of_kept clock⟩
  cases effect with
  | powerOn e r k => exact absurd rfl (stays e r k)
  | warmReset cause label took tr _ => exact kept (by simp [warmResetState])
  | start body r _ _ _ => exact absurd rfl (started body)
  | setTime body answer a _ _ allowed =>
    refine ⟨fun others => absurd rfl (others body), ?_⟩
    obtain ⟨running, residue, present⟩ := takeStep_clockMove (cause := .setTime) rfl allowed
    exact ⟨running, residue, present⟩
  | fence body token _ _ _ => exact kept (by simp [takeFence])
  | exportRead k i _ _ => exact kept (by simp [engineReply])
  | exportStop body k u _ stopped => obtain rfl | rfl := stopped <;> exact kept (by simp)
  | goodEdge second _ =>
    refine ⟨fun _ others _ => absurd rfl others, ?_⟩
    obtain ⟨-, clock⟩ | ⟨-, u, entries, clock, -, stepped⟩ := goodEdge_cases second s
    · exact .of_kept clock
    · rw [stepped]
      exact stepInCold_clockMove entries clock
  | steering _ =>
    refine ⟨fun _ _ others => absurd rfl others, ?_⟩
    obtain ⟨running, residue, present⟩ :=
      steeringInstant_clockMove { s with steer.series := s.steer.series.map Series.taken }
    exact ⟨running, residue, present⟩
  | _ => exact kept (by simp)

theorem steppedTime_applied (present : Nat) (a : Int) :
    steppedTime present ((steppedTime present a : Int) - present) = steppedTime present a := by
  unfold steppedTime
  omega

/-- Settles O5: a step that is taken passed the span test, and its applied amount meets the same spans as its requested one. -/
theorem onlySteeringMovesTheClock : Obligations.OnlySteeringMovesTheClock := by
  intro c s t stays started executed
  obtain ⟨others, running, residue, present⟩ := (effect_of_exec executed).clock stays started
  refine ⟨others, running, residue, fun busy => ?_, fun meets => ?_⟩
  · obtain kept | ⟨a, allowed, -⟩ := present
    · exact kept
    · refine absurd ?_ ((not_stepForbidden_iff a s).mp allowed)
      obtain ⟨i, state⟩ := busy
      exact ⟨i, state.imp_right (Or.imp_right (Or.imp_right (fun ⟨armed, reached⟩ => ⟨armed, .inl reached⟩)))⟩
  · obtain kept | ⟨a, allowed, stepped⟩ := present
    · exact kept
    · rw [← stepForbidden_iff] at meets
      have same : stepForbidden ((t.clock.present : Int) - s.clock.present) s = stepForbidden a s := by
        rw [stepForbidden, stepForbidden, stepped, steppedTime_applied]
      rw [same, allowed] at meets
      exact nomatch meets

/-! ### The notice flags -/

theorem respond_holds {n : Notice} {st : Status} {b : Bytes} {s : State} (h : flagSet n s = true) :
    flagSet n (respond st b s) = true := h

theorem readInCommand_holds {n : Notice} {i : Nat} {k : CardInput} {s : State} (h : flagSet n s = true) :
    flagSet n (readInCommand i k s) = true :=
  readDescriptor_holds (flagSet_of_port rfl h)

theorem Effect.flag_stays {c : Instr} {s t : State} (effect : Effect s c t) (n : Notice)
    (on : ∀ e r k, c ≠ .powerOnReset e r k) (line : ∀ d k, c ≠ .resetLineEdge d k) (select : ∀ k, c ≠ .chipSelectRelease k)
    (clear : ∀ b, c ≠ .clearNotices b) (h : flagSet n s = true) : flagSet n t = true := by
  have sameFlags {p : Port} (move : PortMove c s.phase s.port p) : p.flags = s.port.flags :=
    move.flags.resolve_right fun ⟨b, cleared⟩ => clear b cleared
  cases effect with
  | port p move =>
    have flags := sameFlags move
    simpa [flagSet, flags] using h
  | hostWrote k p move =>
    have flags := sameFlags move
    simpa [flagSet, flags] using h
  | powerOn e r k => exact absurd rfl (on e r k)
  | warmReset cause label took tr source =>
    obtain ⟨d, k, rfl⟩ | ⟨k, rfl⟩ := source
    · exact absurd rfl (line d k)
    · exact absurd rfl (select k)
  | start body r _ _ _ =>
    have blocks : flagSet n (startBlocks r s) = true := h
    exact handRecord_holds blocks
  | setTime body answer a _ _ _ => exact takeStep_holds h
  | cancel body i _ => exact voidEntry_holds h
  | fence body token _ _ _ =>
    exact wakeEngine_holds (flagSet_of_port rfl (handRecord_holds (closeBatch_holds h)))
  | checkpoint body answer _ => exact takeCheckpoint_holds h
  | exportRead k i _ _ => exact readInCommand_holds (flagSet_of_port rfl h)
  | exportStop body k u _ stopped =>
    obtain rfl | rfl := stopped
    · exact stopEngine_holds (flagSet_of_port rfl h)
    · exact stopWhole_holds (flagSet_of_port rfl h)
  | acknowledge k d _ _ => exact acknowledgeNext_holds (flagSet_of_port rfl h)
  | transferError k took st => exact enterFault_holds (flagSet_of_port rfl h)
  | writeError k took d _ => exact faultWriteBack_holds (flagSet_of_port (by simp) h)
  | frameChecked bytes damaged cut arrival rest _ => exact checkFrame_holds (flagSet_of_port rfl h)
  | goodEdge second _ => exact goodEdge_holds h
  | badEdge v _ => exact badEdge_holds h
  | edgeTimeout _ => exact leaveState_holds (flagSet_of_port rfl h)
  | steering _ => exact steeringInstant_holds (flagSet_of_port rfl h)
  | stamp r rest _ _ => exact answerRequest_holds (flagSet_of_port rfl h)
  | captureLost line => exact raise_holds (flagSet_of_port rfl h)
  | fix i _ => exact fixEntry_holds h
  | close i _ => exact closeEntry_holds h
  | arm body i a _ _ _ _ => exact respond_holds (flagSet_of_port (s := s) (by simp) h)
  | release body i _ => exact respond_holds (flagSet_of_port (s := s) (by simp) h)
  | _ => exact flagSet_of_port (s := s) (by simp) h

theorem Effect.enables_stay {c : Instr} {s t : State} (effect : Effect s c t) (on : ∀ e r k, c ≠ .powerOnReset e r k)
    (started : ∀ b, c ≠ .start b) : t.port.enables = s.port.enables := by
  cases effect with
  | port p move => exact move.enables
  | hostWrote k p move => exact move.enables
  | powerOn e r k => exact absurd rfl (on e r k)
  | warmReset cause label took tr _ => simp [warmResetState]
  | start body r _ _ _ => exact absurd rfl (started body)
  | fence body token _ _ _ => simp [takeFence]
  | exportRead k i _ _ => simp [engineReply]
  | exportStop body k u _ stopped => obtain rfl | rfl := stopped <;> simp
  | _ => simp

/-- Every bit of a notice set is a notice kind's (R183). -/
theorem Notice.exists_index {i : Nat} (h : i < 14) : ∃ n : Notice, n.index = i := by
  interval_cases i
  exacts [⟨.grade, rfl⟩, ⟨.step, rfl⟩, ⟨.peer, rfl⟩, ⟨.reference, rfl⟩, ⟨.idConflict, rfl⟩, ⟨.auctionFixed, rfl⟩,
    ⟨.auctionClosed, rfl⟩, ⟨.auctionVoid, rfl⟩, ⟨.disagree, rfl⟩, ⟨.captureOverflow, rfl⟩, ⟨.evidenceLoss, rfl⟩,
    ⟨.exportDone, rfl⟩, ⟨.exportHalt, rfl⟩, ⟨.fenceDone, rfl⟩]

theorem noticeLine_iff (s : State) :
    noticeLine s = true ↔ ∃ n : Notice, flagSet n s = true ∧ s.port.enables.getLsbD n.index = true := by
  have bit (i : Nat) : (s.port.flags &&& s.port.enables).getLsbD i = true
      ↔ s.port.flags.getLsbD i = true ∧ s.port.enables.getLsbD i = true := by
    rw [BitVec.getLsbD_and, Bool.and_eq_true]
  rw [noticeLine, decide_eq_true_iff]
  constructor
  · intro active
    obtain ⟨i, hi, both⟩ : ∃ i, i < 14 ∧ (s.port.flags &&& s.port.enables).getLsbD i = true := by
      by_contra none
      refine active (BitVec.eq_of_getLsbD_eq fun i hi => ?_)
      have unset : (s.port.flags &&& s.port.enables).getLsbD i = false :=
        Bool.eq_false_iff.mpr fun isSet => none ⟨i, hi, isSet⟩
      simpa using unset
    obtain ⟨n, rfl⟩ := Notice.exists_index hi
    exact ⟨n, (bit n.index).mp both⟩
  · rintro ⟨n, both⟩ inactive
    have isSet := (bit n.index).mpr both
    rw [inactive] at isSet
    simp at isSet

/-- Settles O6. -/
theorem flagsStaySet : Obligations.FlagsStaySet := by
  refine ⟨fun c s t n on line select clear executed h => ?_, noticeLine_iff, fun c s t on started executed => ?_⟩
  · exact (effect_of_exec executed).flag_stays n on line select clear h
  · exact (effect_of_exec executed).enables_stay on started

end Sys2Proof.Machine
end

