-- ==== Sys2Proof/Proofs/RatesAndGrade.lean ====
section
/-! The rates stay within their limits (R75) and the grade stays backed by reference and bound (R87), under every command. -/

namespace Sys2Proof.Machine

/-! ### The rates -/

theorem abs_clampTo_le (m : Nat) (v : Int) : |clampTo m v| ≤ m := by
  rw [abs_le, clampTo]
  omega

/-- The invariant speaks of phase, settings, steering state, the three rates and the holdover rate. -/
theorem RateOk.congr {s t : State} (h : RateOk s) (phase : t.phase = s.phase) (cfg : t.cfg = s.cfg)
    (state : t.steer.state = s.steer.state) (rf : t.steer.rf = s.steer.rf) (rp : t.steer.rp = s.steer.rp)
    (rate : t.clock.rate = s.clock.rate) (holdover : t.steer.holdover = s.steer.holdover) : RateOk t where
  freq := by rw [rf, cfg]; exact h.freq
  phase := by rw [rp, cfg, state]; exact h.phase
  effect := by rw [rate, cfg]; exact h.effect
  holdover := by rw [holdover, cfg]; exact h.holdover
  config := by rw [phase, state, rf, rp, rate, holdover]; exact h.config

theorem takeStep_rateOk {a : Int} {cause : StepCause} {s : State} (run : s.phase = .run) (freq : |s.steer.rf| ≤ s.cfg.rateMax)
    (holdover : ∀ x, s.steer.holdover = some x → |x| ≤ s.cfg.rateMax) : RateOk (takeStep a cause s) where
  freq := by
    rw [takeStep_steer]
    simpa [Steering.stepped] using freq
  phase := by
    rw [takeStep_steer]
    simp [Steering.stepped]
  effect := by
    rw [takeStep_clock]
    simpa using freq
  holdover := by
    rw [takeStep_steer]
    simpa [Steering.stepped] using holdover
  config := by simp [run]

theorem stepInCold_rateOk {a : Int} {cause : StepCause} {s : State} (run : s.phase = .run) (h : RateOk s) :
    RateOk (stepInCold a cause s) := by
  unfold stepInCold
  split
  · exact h
  · exact takeStep_rateOk run h.freq h.holdover

/-- The slew clamps each rate, the phase rate to the SlewMax of the bank that is active then (R69, R75). -/
theorem slew_rateOk {correction : Int} {s : State} (run : s.phase = .run)
    (slews : s.steer.state = .acquire ∨ s.steer.state = .track)
    (holdover : ∀ x, s.steer.holdover = some x → |x| ≤ s.cfg.rateMax) : RateOk (slew correction s) where
  freq := abs_clampTo_le _ _
  phase := by
    have bank : phaseLimit s.cfg s.steer.state = (activeBank s).slewMax := by
      obtain acquire | track := slews
      · simp [acquire, phaseLimit, activeBank]
      · simp [track, phaseLimit, activeBank]
    simp only [slew_keeps]
    rw [bank]
    exact abs_clampTo_le _ _
  effect := abs_clampTo_le _ _
  holdover := holdover
  config := fun config => nomatch run.symm.trans config

theorem Applied.rateOk {correction : Int} {s t : State} (applied : Applied correction s t) (run : s.phase = .run) (h : RateOk s) :
    RateOk t := by
  have holdover : (movedRuns correction s).steer.holdover = s.steer.holdover := by rw [movedRuns_steer, moveRuns_eq]
  have freq : (movedRuns correction s).steer.rf = s.steer.rf := by rw [movedRuns_steer, moveRuns_eq]
  have slewed (notCold : s.steer.state ≠ .cold) : RateOk (slew correction (movedRuns correction s)) :=
    slew_rateOk (s := movedRuns correction s) run (moveRuns_state s.cfg correction notCold) (by rw [holdover]; exact h.holdover)
  cases applied with
  | stayed _ _ => exact h
  | steppedCold _ _ => exact takeStep_rateOk (s := setKind .step s) run h.freq h.holdover
  | deferred notCold _ _ =>
    have steer := deferStep_steer correction (movedRuns correction s)
    have clock := deferStep_clock correction (movedRuns correction s)
    exact (slewed notCold).congr (by simp) (by simp) (by rw [steer]) (by rw [steer]) (by rw [steer]) (by rw [clock]) (by rw [steer])
  | stepped _ _ _ =>
    exact takeStep_rateOk (s := setKind .step (movedRuns correction s)) run (freq.symm ▸ h.freq)
      (holdover.symm ▸ h.holdover : ∀ x, (movedRuns correction s).steer.holdover = some x → |x| ≤ s.cfg.rateMax)
  | slewed notCold _ => exact (slewed notCold).congr rfl rfl rfl rfl rfl rfl rfl

theorem enterHoldover_rateOk {s : State} (run : s.phase = .run) (h : RateOk s) : RateOk (enterHoldover s) := by
  have rate : |s.steer.holdover.getD s.steer.rf| ≤ s.cfg.rateMax := by
    cases captured : s.steer.holdover with
    | none => exact h.freq
    | some x => exact h.holdover x captured
  exact ⟨rate, by simp [enterHoldover], rate, h.holdover, fun config => nomatch run.symm.trans config⟩

theorem applyOutcome_rateOk {c : Option Int} {s : State} (run : s.phase = .run) (h : RateOk s) : RateOk (applyOutcome c s) := by
  cases c with
  | none =>
    obtain ⟨-, kept⟩ | ⟨-, entered⟩ := applyNone_cases s
    · simpa only [applyOutcome, kept] using h
    · simpa only [applyOutcome, entered] using enterHoldover_rateOk run h
  | some x => exact (applyCombination_applied x s).rateOk run h

theorem captureHoldover_holdover {x : Steering} {r : Int} (h : (captureHoldover x).holdover = some r) :
    r = x.rf ∨ x.holdover = some r := by
  unfold captureHoldover at h
  split at h
  · exact .inl (Option.some.inj h).symm
  · exact .inr h

theorem beforeApply_rateOk {s : State} (run : s.phase = .run) (h : RateOk s) : RateOk (beforeApply s) := by
  have captured : RateOk { s with steer := captureHoldover s.steer } := by
    refine ⟨?_, ?_, h.effect, fun r hold => ?_, fun config => nomatch run.symm.trans config⟩
    · rw [captureHoldover_eq]
      exact h.freq
    · rw [captureHoldover_eq]
      exact h.phase
    · obtain rfl | held := captureHoldover_holdover hold
      · exact h.freq
      · exact h.holdover r held
  exact captured.congr (by simp [beforeApply]) (by simp [beforeApply]) (by simp [beforeApply]) (by simp [beforeApply])
    (by simp [beforeApply]) (by simp [beforeApply]) (by simp [beforeApply])

theorem steeringInstant_rateOk {s : State} (run : s.phase = .run) (h : RateOk s) : RateOk (steeringInstant s) := by
  have applied : RateOk (applyOutcome (instantCombination s).correction (beforeApply s)) :=
    applyOutcome_rateOk (by simpa [beforeApply] using run) (beforeApply_rateOk run h)
  rw [steeringInstant_eq]
  exact applied.congr (by simp) (by simp) (by simp) (by simp) (by simp) (by simp) (by simp)

theorem goodEdge_rateOk {second : Nat} {s : State} (run : s.phase = .run) (h : RateOk s) : RateOk (goodEdge second s) := by
  simp only [goodEdge]
  split
  · exact h.congr (by simp) (by simp) (by simp) (by simp) (by simp) (by simp) (by simp)
  · simp only [qualificationReport]
    split
    · refine stepInCold_rateOk (by simpa using run) ?_
      exact h.congr (by simp) (by simp) (by simp) (by simp) (by simp) (by simp) (by simp)
    · exact h.congr (by simp) (by simp) (by simp) (by simp) (by simp) (by simp) (by simp)
  · exact h.congr rfl rfl rfl rfl rfl rfl rfl

theorem rateOk_powerOn {s : State} (steer : s.steer = Steering.powerOn) (clock : s.clock = Clock.powerOn) : RateOk s where
  freq := by simp [steer, Steering.powerOn]
  phase := by simp [steer, Steering.powerOn]
  effect := by simp [clock, Clock.powerOn]
  holdover := by simp [steer, Steering.powerOn]
  config := by simp [steer, clock, Steering.powerOn, Clock.powerOn]

theorem advanceClock_rate (c : Clock) : (advanceClock c).rate = c.rate := by
  simp only [advanceClock]
  split
  · split <;> rfl
  · rfl

theorem run_of_refListening {s : State} (listening : refListening s = true) : s.phase = .run :=
  (of_decide_eq_true listening).1

theorem Effect.rate_ok {c : Instr} {s t : State} (effect : Effect s c t) (h : RateOk s) : RateOk t := by
  cases effect with
  | powerOn e r k => exact rateOk_powerOn rfl rfl
  | start body r config _ _ =>
    obtain ⟨state, rf, rp, rate, holdover⟩ := h.config config
    constructor <;> simp [startBlocks, state, rf, rp, rate, holdover]
  | setTime body answer a run _ _ =>
    exact (takeStep_rateOk (a := a) (cause := .setTime) run h.freq h.holdover).congr rfl rfl rfl rfl rfl rfl rfl
  | goodEdge second listening => exact goodEdge_rateOk (run_of_refListening listening) h
  | steering run =>
    exact steeringInstant_rateOk (s := { s with steer.series := s.steer.series.map Series.taken }) run
      (h.congr rfl rfl rfl rfl rfl rfl rfl)
  | warmReset cause label took tr _ =>
    exact h.congr (by simp [warmResetState]) (by simp [warmResetState]) (by simp [warmResetState]) (by simp [warmResetState])
      (by simp [warmResetState]) (by simp [warmResetState]) (by simp [warmResetState])
  | fence body token _ _ _ =>
    exact h.congr (by simp [takeFence]) (by simp [takeFence]) (by simp [takeFence]) (by simp [takeFence]) (by simp [takeFence])
      (by simp [takeFence]) (by simp [takeFence])
  | exportRead k i _ _ =>
    exact h.congr (by simp [engineReply]) (by simp [engineReply]) (by simp [engineReply]) (by simp [engineReply])
      (by simp [engineReply]) (by simp [engineReply]) (by simp [engineReply])
  | exportStop body k u _ stopped =>
    obtain rfl | rfl := stopped <;>
      exact h.congr (by simp) (by simp) (by simp) (by simp) (by simp) (by simp) (by simp)
  | _ => exact h.congr (by simp) (by simp) (by simp) (by simp) (by simp) (by simp) (by simp)

/-- Settles O35. -/
theorem ratesStayLimited : Obligations.RatesStayLimited := fun _ _ holds =>
  step_keeps (P := RateOk) (fun _ _ h => h.congr rfl rfl rfl rfl rfl rfl rfl) Effect.rate_ok
    (fun _ h => h.congr rfl rfl rfl rfl rfl (by rw [tick_clock, advanceClock_rate]) rfl) holds

end Sys2Proof.Machine
end

