-- ==== Sys2Proof/Proofs/Combination.lean ====
section
/-! The combination of a steering instant: sources, class, sorting, trimming, and the correction between two offsets (R60 to R63). -/

namespace Sys2Proof.Machine

/-! ### Sources -/

/-- The source that a peer's record gives, EXCLUDED ones left out (R36, R37, R60). -/
def admittedPeer (c : Settings) (p : Peer) : Option Source :=
  ((p.source c).filter (fun e => !e.excluded)).map PeerSource.source

theorem admittedSources_sourceList (s : State) :
    admittedSources s.cfg s.ref (sourceList s) = refSource s.cfg s.ref ++ s.peers.filterMap (admittedPeer s.cfg) := by
  rw [admittedSources, sourceList, List.filter_filterMap, List.map_filterMap]
  rfl

theorem admittedPeer_eq (c : Settings) (p : Peer) :
    admittedPeer c p = p.estimate.bind fun e =>
      if p.state = .paired ∧ p.valid = true ∧ p.age ≤ 1 ∧ 0 ≤ e.delay ∧ e.delay ≤ c.delayBound * 256
          ∧ (p.grade ≠ .free ∨ p.steer ≠ .cold) then
        some ⟨p.id + 1, e.theta, p.grade, min (p.bound + ((e.delay + 511) / 512).toNat) 4294967295⟩
      else none := by
  unfold admittedPeer Peer.source Peer.usable
  cases estimate : p.estimate with
  | none => simp
  | some e =>
    by_cases usable : p.state = .paired ∧ p.valid = true ∧ p.age ≤ 1 ∧ 0 ≤ e.delay ∧ e.delay ≤ c.delayBound * 256
        ∧ (p.grade ≠ .free ∨ p.steer ≠ .cold)
    · obtain ⟨state, valid, age, low, high, tracks⟩ := usable
      have delay : delayOk c e.delay = true := by simp [delayOk, low, high]
      simp [state, valid, age, low, high, tracks, delay, PeerSource.source, halfDelay]
    · rw [Option.bind_some, if_neg usable]
      by_cases excluded : p.state = .excluded
      · simp only [excluded]
        split <;> rfl
      · refine (congrArg (fun x => Option.map _ (Option.filter _ x)) (if_neg ?_)).trans rfl
        simpa [delayOk, excluded, and_assoc] using usable

/-! ### Class -/

theorem sourcesOf_free (xs : List Source) : sourcesOf .free xs = xs := by
  refine List.filter_eq_self.mpr fun x _ => ?_
  cases cls : x.cls <;> simp [Grade.atLeast, Grade.code]

theorem selectClass_none_iff (k : Nat) (xs : List Source) : selectClass k xs = none ↔ xs.length < k := by
  have sub (g : Grade) : (sourcesOf g xs).length ≤ xs.length := List.length_filter_le _ _
  have a := sub .anchored
  have b := sub .agreed
  have c := sub .holdover
  unfold selectClass
  rw [sourcesOf_free]
  split
  · simp only [reduceCtorEq, false_iff]
    omega
  · split
    · simp only [reduceCtorEq, false_iff]
      omega
    · split
      · simp only [reduceCtorEq, false_iff]
        omega
      · split
        · simp only [reduceCtorEq, false_iff]
          omega
        · simp only [true_iff]
          omega

/-- c* is the highest class that enough sources have or exceed (R61). -/
theorem selectClass_some {k : Nat} {xs : List Source} {g : Grade} (selected : selectClass k xs = some g) :
    k ≤ (sourcesOf g xs).length ∧ ∀ h : Grade, h.code < g.code → (sourcesOf h xs).length < k := by
  unfold selectClass at selected
  split at selected
  · next enough =>
    obtain rfl := Option.some.inj selected
    exact ⟨enough, fun h higher => absurd higher (by cases h <;> decide)⟩
  · next few =>
    split at selected
    · next enough =>
      obtain rfl := Option.some.inj selected
      refine ⟨enough, fun h higher => ?_⟩
      cases h with
      | anchored => exact not_le.mp few
      | agreed => exact absurd higher (by decide)
      | holdover => exact absurd higher (by decide)
      | free => exact absurd higher (by decide)
    · next fewer =>
      split at selected
      · next enough =>
        obtain rfl := Option.some.inj selected
        refine ⟨enough, fun h higher => ?_⟩
        cases h with
        | anchored => exact not_le.mp few
        | agreed => exact not_le.mp fewer
        | holdover => exact absurd higher (by decide)
        | free => exact absurd higher (by decide)
      · next fewest =>
        split at selected
        · next enough =>
          obtain rfl := Option.some.inj selected
          refine ⟨enough, fun h higher => ?_⟩
          cases h with
          | anchored => exact not_le.mp few
          | agreed => exact not_le.mp fewer
          | holdover => exact not_le.mp fewest
          | free => exact absurd higher (by decide)
        · exact nomatch selected

/-! ### Sorting -/

theorem theta_le_of_sourceBefore {instant : Nat} {a b : Source} (before : sourceBefore instant a b = true) :
    a.theta ≤ b.theta := by
  unfold sourceBefore at before
  split at before
  · next below => exact below.le
  · split at before
    · exact nomatch before
    · next notAbove => exact not_lt.mp notAbove

theorem theta_ge_of_not_sourceBefore {instant : Nat} {a b : Source} (before : ¬ sourceBefore instant a b = true) :
    b.theta ≤ a.theta := by
  unfold sourceBefore at before
  split at before
  · exact absurd rfl before
  · next notBelow => exact not_lt.mp notBelow

theorem insertSource_perm (instant : Nat) (x : Source) (ys : List Source) : (insertSource instant x ys).Perm (x :: ys) := by
  induction ys with
  | nil => exact .refl _
  | cons y ys ih =>
    unfold insertSource
    split
    · exact .refl _
    · exact (ih.cons y).trans (.swap x y ys)

theorem sortSources_perm (instant : Nat) (xs : List Source) : (sortSources instant xs).Perm xs := by
  induction xs with
  | nil => exact .refl _
  | cons x xs ih => exact (insertSource_perm instant x _).trans (ih.cons x)

/-- The offsets of a list of sources rise. -/
def Rising (xs : List Source) : Prop := xs.Pairwise (fun a b => a.theta ≤ b.theta)

theorem insertSource_rising {instant : Nat} {x : Source} {ys : List Source} (h : Rising ys) :
    Rising (insertSource instant x ys) := by
  induction ys with
  | nil => exact List.pairwise_singleton _ x
  | cons y ys ih =>
    obtain ⟨least, rest⟩ := List.pairwise_cons.mp h
    unfold insertSource
    split
    · next before =>
      have below := theta_le_of_sourceBefore before
      refine List.pairwise_cons.mpr ⟨fun z mem => ?_, h⟩
      obtain rfl | mem := List.mem_cons.mp mem
      · exact below
      · exact below.trans (least z mem)
    · next before =>
      refine List.pairwise_cons.mpr ⟨fun z mem => ?_, ih rest⟩
      obtain rfl | mem := List.mem_cons.mp ((insertSource_perm instant x ys).subset mem)
      · exact theta_ge_of_not_sourceBefore before
      · exact least z mem

theorem sortSources_rising (instant : Nat) (xs : List Source) : Rising (sortSources instant xs) := by
  induction xs with
  | nil => exact .nil
  | cons x xs ih => exact insertSource_rising ih

/-! ### Trimming -/

/-- The sorted candidates are the f lowest, the retained ones and the f highest (R62). -/
theorem trimmed_split {f : Nat} {xs : List Source} (enough : 2 * f + 1 ≤ xs.length) :
    ∃ low high, xs = low ++ trimmed f xs ++ high ∧ low.length = f ∧ high.length = f := by
  refine ⟨xs.take f, (xs.drop f).drop (xs.length - 2 * f), ?_, ?_, ?_⟩
  · rw [trimmed, List.append_assoc, List.take_append_drop, List.take_append_drop]
  · rw [List.length_take]
    omega
  · rw [List.length_drop, List.length_drop]
    omega

theorem trimmed_length {f : Nat} {xs : List Source} (enough : 2 * f + 1 ≤ xs.length) :
    (trimmed f xs).length = xs.length - 2 * f := by
  rw [trimmed, List.length_take, List.length_drop]
  omega

theorem mem_of_mem_trimmed {f : Nat} {xs : List Source} {y : Source} (mem : y ∈ trimmed f xs) : y ∈ xs :=
  List.mem_of_mem_drop (List.mem_of_mem_take mem)

/-! ### Correction, spread and source term -/

/-- The first and the last of rising offsets bound them all. -/
theorem exists_extremes {r : List Source} (rising : Rising r) (some_ : r ≠ []) :
    ∃ lo ∈ r, ∃ hi ∈ r, lowest r = lo.theta ∧ highest r = hi.theta ∧ ∀ y ∈ r, lo.theta ≤ y.theta ∧ y.theta ≤ hi.theta := by
  refine ⟨r.head some_, List.head_mem some_, r.getLast some_, List.getLast_mem some_, ?_, ?_, fun y mem => ⟨?_, ?_⟩⟩
  · rw [lowest, List.head?_eq_some_head some_]
    rfl
  · rw [highest, List.getLast?_eq_some_getLast some_]
    rfl
  · obtain ⟨x, xs, rfl⟩ := List.exists_cons_of_ne_nil some_
    obtain rfl | mem := List.mem_cons.mp mem
    · exact le_refl _
    · exact (List.pairwise_cons.mp rising).1 y mem
  · have parts := List.dropLast_append_getLast some_
    rw [← parts] at mem rising
    obtain mem | mem := List.mem_append.mp mem
    · exact (List.pairwise_append.mp rising).2.2 y mem _ (List.mem_singleton_self _)
    · rw [List.mem_singleton.mp mem]

theorem correctionOf_eq (r : List Source) : correctionOf r = Int.fdiv (lowest r + highest r) 2 := by
  rw [correctionOf, Int.fdiv_eq_ediv_of_nonneg _ (by decide)]

theorem foldl_min_spec (ys : List Nat) (a : Nat) :
    (ys.foldl min a = a ∨ ys.foldl min a ∈ ys) ∧ ys.foldl min a ≤ a ∧ ∀ y ∈ ys, ys.foldl min a ≤ y := by
  induction ys generalizing a with
  | nil => simp
  | cons y ys ih =>
    obtain ⟨attained, below, least⟩ := ih (min a y)
    rw [List.foldl_cons]
    refine ⟨?_, below.trans (min_le_left a y), fun z mem => ?_⟩
    · obtain head | tail := attained
      · rw [head]
        obtain left | right := min_choice a y
        · exact .inl left
        · exact .inr (by rw [right]; exact List.mem_cons_self)
      · exact .inr (List.mem_cons_of_mem y tail)
    · obtain rfl | mem := List.mem_cons.mp mem
      · exact below.trans (min_le_right a z)
      · exact least z mem

/-- The source term is the smallest retained bound (R84). -/
theorem sourceTerm_spec {r : List Source} (some_ : r ≠ []) :
    (∃ y ∈ r, sourceTerm r = y.bound) ∧ ∀ y ∈ r, sourceTerm r ≤ y.bound := by
  obtain ⟨x, xs, rfl⟩ := List.exists_cons_of_ne_nil some_
  obtain ⟨attained, below, least⟩ := foldl_min_spec (xs.map Source.bound) x.bound
  refine ⟨?_, fun y mem => ?_⟩
  · obtain head | tail := attained
    · exact ⟨x, List.mem_cons_self, head⟩
    · obtain ⟨y, mem, bound⟩ := List.mem_map.mp tail
      exact ⟨y, List.mem_cons_of_mem x mem, bound.symm⟩
  · obtain rfl | mem := List.mem_cons.mp mem
    · exact below
    · exact least _ (List.mem_map_of_mem mem)

/-! ### The combination -/

theorem combine_of_none {instant : Nat} {c : Settings} {xs : List Source} (none_ : selectClass (2 * c.faults + 1) xs = none) :
    combine instant c xs = { cstar := none, candidates := xs.length, retained := [] } := by
  have none' : selectClass (needed c) xs = none := none_
  simp only [combine, none']

theorem combine_of_some {instant : Nat} {c : Settings} {xs : List Source} {g : Grade}
    (selected : selectClass (2 * c.faults + 1) xs = some g) :
    combine instant c xs = { cstar := some g, candidates := (sourcesOf g xs).length,
                             retained := trimmed c.faults (sortSources instant (sourcesOf g xs)) } := by
  have selected' : selectClass (needed c) xs = some g := selected
  simp only [combine, selected']

theorem instantCombination_eq (s : State) :
    instantCombination s
      = combine s.fresh s.cfg (refSource s.cfg s.ref ++ s.peers.filterMap (admittedPeer s.cfg)) := by
  rw [instantCombination, admittedSources_sourceList]

/-- Every retained source is one of the sources. -/
theorem mem_of_mem_retained {instant : Nat} {c : Settings} {xs : List Source} {y : Source}
    (mem : y ∈ (combine instant c xs).retained) : y ∈ xs := by
  cases selected : selectClass (2 * c.faults + 1) xs with
  | none =>
    rw [combine_of_none selected] at mem
    exact nomatch mem
  | some g =>
    rw [combine_of_some selected] at mem
    exact (List.mem_filter.mp ((sortSources_perm instant _).subset (mem_of_mem_trimmed mem))).1

/-- Settles O30: sorted by offset, the candidates are the f lowest, the retained ones between two of them, and the f highest. -/
theorem correctionLiesBetweenOffsets : Obligations.CorrectionLiesBetweenOffsets := by
  refine ⟨fun s => ?_, fun instant c xs => ⟨selectClass_none_iff _ xs, combine_of_none, fun g selected => ?_⟩⟩
  · have reference : refSource s.cfg s.ref = (match s.ref.state, s.ref.theta with
        | .valid, some theta => [⟨0, theta, .anchored, s.cfg.refBound⟩]
        | _, _ => []) := by
      unfold refSource
      cases state : s.ref.state <;> cases offset : s.ref.theta <;> rfl
    have peers : s.peers.filterMap (admittedPeer s.cfg) = _ := List.filterMap_congr fun p _ => admittedPeer_eq s.cfg p
    rw [instantCombination_eq, admittedSources_sourceList, reference, peers]
    exact ⟨rfl, rfl⟩
  · obtain ⟨enough, higher⟩ := selectClass_some selected
    have sorted := sortSources_perm instant (sourcesOf g xs)
    have rising := sortSources_rising instant (sourcesOf g xs)
    have many : 2 * c.faults + 1 ≤ (sortSources instant (sourcesOf g xs)).length := sorted.length_eq ▸ enough
    obtain ⟨low, high, parts, lowLength, highLength⟩ := trimmed_split many
    have length := trimmed_length many
    rw [combine_of_some selected]
    dsimp only
    generalize trimmed c.faults (sortSources instant (sourcesOf g xs)) = r at parts length
    have retainedRising : Rising r := (List.pairwise_append.mp (List.pairwise_append.mp (parts ▸ rising)).1).2.1
    have perm : (low ++ r ++ high).Perm (sourcesOf g xs) := parts ▸ sorted
    have isCandidate : ∀ y ∈ r, y ∈ sourcesOf g xs := fun y mem => perm.subset (by simp [mem])
    have someRetained : r ≠ [] := List.ne_nil_of_length_pos (by omega)
    obtain ⟨lo, loMem, hi, hiMem, lowestEq, highestEq, between⟩ := exists_extremes retainedRising someRetained
    have ordered : lo.theta ≤ hi.theta := (between lo loMem).2
    have half : correctionOf r = (lo.theta + hi.theta) / 2 := by rw [correctionOf, lowestEq, highestEq]
    obtain ⟨attained, least⟩ := sourceTerm_spec someRetained
    refine ⟨rfl, rfl, enough, higher, sorted.length_eq ▸ length, isCandidate, ⟨low, high, perm, lowLength, highLength, ?_, ?_⟩,
      attained, least, lo.theta, List.mem_map_of_mem loMem, hi.theta, List.mem_map_of_mem hiMem, between, ?_, ?_, ?_,
      ⟨lo, isCandidate lo loMem, by omega⟩, hi, isCandidate hi hiMem, by omega⟩
    · exact fun a aMem y yMem => (List.pairwise_append.mp (List.pairwise_append.mp (parts ▸ rising)).1).2.2 a aMem y yMem
    · exact fun b bMem y yMem => (List.pairwise_append.mp (parts ▸ rising)).2.2 y (List.mem_append_right low yMem) b bMem
    · rw [correctionOf_eq, lowestEq, highestEq]
    · rw [spreadOf, lowestEq, highestEq]
    · intro single
      obtain ⟨y, rfl⟩ := List.length_eq_one_iff.mp single
      obtain rfl := List.mem_singleton.mp loMem
      obtain rfl := List.mem_singleton.mp hiMem
      exact ⟨by omega, by rw [spreadOf, lowestEq, highestEq, sub_self]⟩

end Sys2Proof.Machine
end

