-- ==== Sys2Proof/Proofs/GradeBacked.lean ====
section
/-! The grade stays backed by the reference and by the bound under every command (R85 to R88). -/

namespace Sys2Proof.Machine

/-! ### Changes of grade -/

theorem changeGrade_grade (g : Grade) (cause : GradeCause) (s : State) : (changeGrade g cause s).steer.grade = g := by
  unfold changeGrade
  split
  · next same => exact same.symm
  · simp

theorem demotedGrade_ne_anchored (c : Option Grade) : demotedGrade c ≠ .anchored := by
  unfold demotedGrade
  split <;> exact nofun

theorem demote_grade (s : State) :
    (demote s).steer.grade
      = if s.steer.grade = .anchored then demotedGrade (s.steer.latest.bind Latest.cstar) else s.steer.grade := by
  unfold demote
  split
  · rw [changeGrade_grade]
  · rfl

/-- A change out of VALID demotes an ANCHORED grade, any other change keeps the grade (R87). -/
theorem leaveState_grade (old : RefState) (cause : RefCause) (s : State) :
    (leaveState old cause s).steer.grade
      = if old = .valid ∧ s.steer.grade = .anchored then demotedGrade (s.steer.latest.bind Latest.cstar)
        else s.steer.grade := by
  unfold leaveState
  by_cases valid : old = .valid
  · simp [valid, demote_grade]
  · simp [valid]

/-! ### What the invariant speaks of -/

theorem GradeOk.congr {s t : State} (h : GradeOk s) (phase : t.phase = s.phase) (cfg : t.cfg = s.cfg)
    (loaded : t.port.loaded = s.port.loaded) (grade : t.steer.grade = s.steer.grade) (bound : t.steer.bound = s.steer.bound)
    (ref : t.ref.state = s.ref.state) : GradeOk t where
  anchored := by rw [grade, ref]; exact h.anchored
  bounded := by rw [grade, bound, cfg]; exact h.bounded
  config := by rw [phase, grade]; exact h.config
  limits := by rw [cfg]; exact h.limits
  loaded := by rw [loaded]; exact h.loaded

/-- Where the grade is not ANCHORED the reference is free to change. -/
theorem GradeOk.of_not_anchored {s t : State} (h : GradeOk s) (phase : t.phase = s.phase) (cfg : t.cfg = s.cfg)
    (loaded : t.port.loaded = s.port.loaded) (notAnchored : t.steer.grade ≠ .anchored)
    (lowered : s.steer.grade = .free → t.steer.grade = .free) (bound : t.steer.bound = s.steer.bound) : GradeOk t where
  anchored := fun anchored => absurd anchored notAnchored
  bounded := by
    rw [bound, cfg]
    exact fun grade => h.bounded (grade ∘ lowered)
  config := by
    rw [phase]
    exact fun config => lowered (h.config config)
  limits := by rw [cfg]; exact h.limits
  loaded := by rw [loaded]; exact h.loaded

/-- The reference leaves the state it had: ANCHORED does not outlive VALID (R87). -/
theorem leaveState_gradeOk {s : State} (h : GradeOk s) (cause : RefCause) (r : Reference) :
    GradeOk (leaveState s.ref.state cause { s with ref := r }) := by
  have grade := leaveState_grade s.ref.state cause { s with ref := r }
  refine h.of_not_anchored (by simp) (by simp) (by simp) ?_ (fun free => ?_) (by simp)
  · rw [grade]
    split
    · exact demotedGrade_ne_anchored _
    · next kept => exact fun anchored => kept ⟨h.anchored anchored, anchored⟩
  · rw [grade, if_neg]
    · exact free
    · exact fun ⟨_, anchored⟩ => nomatch free.symm.trans anchored

/-! ### The steering instant -/

/-- The reference can be among the retained sources only in VALID (R60). -/
theorem valid_of_refRetained {s : State} (retained : (instantCombination s).refRetained = true) : s.ref.state = .valid := by
  obtain ⟨y, mem, key⟩ := List.any_eq_true.mp retained
  rw [instantCombination_eq] at mem
  obtain reference | peer := List.mem_append.mp (mem_of_mem_retained mem)
  · unfold refSource at reference
    split at reference
    · next valid _ => exact valid
    · exact nomatch reference
  · obtain ⟨p, -, source⟩ := List.mem_filterMap.mp peer
    obtain ⟨e, -, rfl⟩ := Option.map_eq_some_iff.mp source
    simp [PeerSource.source] at key

theorem gradeOf_anchored {c : Settings} {g : Grade} {retained : Bool} {u : Nat} (h : gradeOf c g retained u = .anchored) :
    retained = true := by
  unfold gradeOf at h
  split at h
  · next backed => exact backed.1
  · split at h
    · exact nomatch h
    · split at h <;> exact nomatch h

theorem gradeOf_bounded {c : Settings} (limits : c.limitA ≤ c.limitG) {g : Grade} {retained : Bool} {u : Nat}
    (h : gradeOf c g retained u ≠ .free) : u ≤ c.limitG := by
  unfold gradeOf at h
  split at h
  · next backed => exact backed.2.trans limits
  · split at h
    · next backed => exact backed.2
    · split at h
      · next backed => exact backed.2
      · exact absurd rfl h

theorem heldGrade_ne_anchored (c : Settings) (old : Grade) (u : Nat) : heldGrade c old u ≠ .anchored := by
  unfold heldGrade
  split <;> exact nofun

theorem heldGrade_bounded {c : Settings} {old : Grade} {u : Nat} (h : heldGrade c old u ≠ .free) : u ≤ c.limitG := by
  unfold heldGrade at h
  split at h
  · next backed => exact backed.2
  · exact absurd rfl h

/-- Stage 4 forms a grade that the reference and the new bound allow (R83 to R86). -/
theorem formGrade_gradeOk {x : Combination} {s : State} (run : s.phase = .run) (h : GradeOk s)
    (backed : x.refRetained = true → s.ref.state = .valid) : GradeOk (formGrade x s) := by
  unfold formGrade
  split
  · exact h
  · split
    · refine ⟨?_, ?_, ?_, ?_, ?_⟩ <;> simp only [changeGrade_grade, changeGrade_keeps]
      · exact fun anchored => backed (gradeOf_anchored anchored)
      · exact gradeOf_bounded h.limits
      · exact fun config => nomatch run.symm.trans config
      · exact h.limits
      · exact h.loaded
    · refine ⟨?_, ?_, ?_, ?_, ?_⟩ <;> simp only [changeGrade_grade, changeGrade_keeps]
      · exact fun anchored => absurd anchored (heldGrade_ne_anchored _ _ _)
      · exact heldGrade_bounded
      · exact fun config => nomatch run.symm.trans config
      · exact h.limits
      · exact h.loaded

theorem judgeReference_gradeOk {correction : Int} {s : State} (h : GradeOk s) : GradeOk (judgeReference s.ref correction s) := by
  have runs (out : Bool) : (s.ref.judgedRuns out).state = s.ref.state := by
    unfold Reference.judgedRuns
    split <;> rfl
  have left (old : RefState) (state : s.ref.state = old) (cause : RefCause) (r : Reference) :
      GradeOk (leaveState old cause { s with ref := r }) := state ▸ leaveState_gradeOk h cause r
  unfold judgeReference
  split
  · next state _ =>
    dsimp only
    split
    · exact left _ state _ _
    · exact h.congr rfl rfl rfl rfl rfl (runs _)
  · next state _ =>
    dsimp only
    split
    · exact left _ state _ _
    · exact h.congr rfl rfl rfl rfl rfl (runs _)
  · exact h

theorem judgeAll_gradeOk {snapshot : List PeerSource} {c : Option Int} {s : State} (h : GradeOk s) :
    GradeOk (judgeAll snapshot s.ref c s) := by
  have peers : GradeOk (peersAtInstant snapshot c s) := h.congr (by simp) (by simp) (by simp) (by simp) (by simp) (by simp)
  cases c with
  | none => exact peers
  | some x =>
    have judged := judgeReference_gradeOk (correction := x) peers
    simpa only [judgeAll, peersAtInstant_keeps] using judged

theorem beforeApply_gradeOk {s : State} (run : s.phase = .run) (h : GradeOk s) : GradeOk (beforeApply s) := by
  have captured := captureHoldover_eq s.steer
  have formed : GradeOk (formGrade (instantCombination s)
      { s with steer := { captureHoldover s.steer with latest := some ((instantCombination s).latest .none) }, fresh := s.fresh + 1 }) :=
    formGrade_gradeOk (by exact run) (h.congr rfl rfl rfl (by rw [captured]) (by rw [captured]) rfl) valid_of_refRetained
  have judged := judgeAll_gradeOk (snapshot := sourceList { s with steer := captureHoldover s.steer, fresh := s.fresh + 1 })
    (c := (instantCombination s).correction) formed
  simp only [formGrade_keeps] at judged
  exact judged

theorem Applied.gradeOk {correction : Int} {s t : State} (applied : Applied correction s t) (h : GradeOk s) : GradeOk t := by
  have grade : (movedRuns correction s).steer.grade = s.steer.grade := by rw [movedRuns_steer, moveRuns_eq]
  have bound : (movedRuns correction s).steer.bound = s.steer.bound := by rw [movedRuns_steer, moveRuns_eq]
  cases applied with
  | stayed _ _ => exact h
  | steppedCold _ _ =>
    have steer := takeStep_steer correction .combination (setKind .step s)
    exact h.congr (by simp) (by simp) (by simp) (by rw [steer]; rfl) (by rw [steer]; rfl) (by rw [takeStep_ref]; rfl)
  | deferred _ _ _ =>
    have steer := deferStep_steer correction (movedRuns correction s)
    exact h.congr (by simp [movedRuns]) (by simp [movedRuns]) (by simp [movedRuns])
      (by rw [steer]; exact grade) (by rw [steer]; exact bound)
      (by rw [deferStep_ref]; rfl)
  | stepped _ _ _ =>
    have steer := takeStep_steer correction .combination (setKind .step (movedRuns correction s))
    exact h.congr (by simp [movedRuns]) (by simp [movedRuns]) (by simp [movedRuns])
      (by rw [steer]; exact grade) (by rw [steer]; exact bound)
      (by rw [takeStep_ref]; rfl)
  | slewed _ _ => exact h.congr rfl rfl rfl grade bound rfl

theorem applyOutcome_gradeOk {c : Option Int} {s : State} (h : GradeOk s) : GradeOk (applyOutcome c s) := by
  cases c with
  | none =>
    unfold applyOutcome
    exact h.congr (by simp) (by simp) (by simp) (by simp) (by simp) (by simp)
  | some x => exact (applyCombination_applied x s).gradeOk h

theorem steeringInstant_gradeOk {s : State} (run : s.phase = .run) (h : GradeOk s) : GradeOk (steeringInstant s) := by
  have applied : GradeOk (applyOutcome (instantCombination s).correction (beforeApply s)) :=
    applyOutcome_gradeOk (beforeApply_gradeOk run h)
  rw [steeringInstant_eq]
  exact applied.congr (by simp) (by simp) (by simp) (by simp) (by simp) (by simp)

/-! ### Edges and resets -/

theorem stepInCold_grade (a : Int) (cause : StepCause) (s : State) :
    (stepInCold a cause s).steer.grade = s.steer.grade ∧ (stepInCold a cause s).steer.bound = s.steer.bound := by
  unfold stepInCold
  split
  · exact ⟨rfl, rfl⟩
  · rw [takeStep_steer]
    exact ⟨rfl, rfl⟩

/-- A good edge keeps the grade, and VALID (R51). -/
theorem goodEdge_gradeOk {second : Nat} {s : State} (h : GradeOk s) : GradeOk (goodEdge second s) := by
  have ⟨grade, bound⟩ : (goodEdge second s).steer.grade = s.steer.grade ∧ (goodEdge second s).steer.bound = s.steer.bound := by
    obtain ⟨kept, -⟩ | ⟨-, u, -, -, steer, stepped⟩ := goodEdge_cases second s
    · exact ⟨by rw [kept], by rw [kept]⟩
    · rw [stepped, ← steer]
      exact stepInCold_grade _ _ u
  by_cases anchored : s.steer.grade = .anchored
  · have valid := h.anchored anchored
    refine h.congr (by simp) (by simp) (by simp) grade bound ?_
    simp [goodEdge, Reference.advanceRun, Reference.goodEdge, valid]
  · exact h.of_not_anchored (by simp) (by simp) (by simp) (grade ▸ anchored) grade.trans bound

theorem badEdge_gradeOk {v : Verdict} {s : State} (h : GradeOk s) : GradeOk (badEdge v s) := by
  unfold badEdge
  dsimp only
  split
  · exact leaveState_gradeOk h _ _
  · exact h.congr rfl rfl rfl rfl rfl rfl

theorem warmRecords_grade (b : ResetBody) (old : RefState) (s : State) :
    (warmRecords b old s).steer.grade
      = if old = .valid ∧ s.steer.grade = .anchored then demotedGrade (s.steer.latest.bind Latest.cstar)
        else s.steer.grade := by
  have kept : (voidExchanging (if old.tracking then recordReference old .reset (handRecord (.reset b) s)
      else handRecord (.reset b) s)).steer = s.steer := by
    simp only [voidExchanging_keeps]
    split <;> simp
  unfold warmRecords
  by_cases valid : old = .valid
  · simp only [valid, if_true, true_and, demote_grade] at kept ⊢
    rw [kept]
  · simp only [valid, if_false, false_and, kept]

theorem takeWarmReset_gradeOk {cause : ResetCause} {label : Bool} {s : State} (h : GradeOk s) :
    GradeOk (takeWarmReset cause label s) := by
  have grade : (takeWarmReset cause label s).steer.grade
      = if s.ref.state = .valid ∧ s.steer.grade = .anchored then demotedGrade (s.steer.latest.bind Latest.cstar)
        else s.steer.grade := by
    unfold takeWarmReset
    split
    · next config =>
      have free := h.config config
      simp [warmBlocks, free]
    · rw [warmRecords_grade]
      rfl
  refine h.of_not_anchored (by simp) (by simp) (by simp) ?_ (fun free => ?_) (by simp)
  · rw [grade]
    split
    · exact demotedGrade_ne_anchored _
    · next kept => exact fun anchored => kept ⟨h.anchored anchored, anchored⟩
  · rw [grade, if_neg]
    · exact free
    · exact fun ⟨_, anchored⟩ => nomatch free.symm.trans anchored

/-- Field 21 of a record that passes: Limit_A is at most Limit_G (R172). -/
theorem limits_of_passed {r : Bytes} (passed : firstBadField r = none) : (settingsOf r).limitA ≤ (settingsOf r).limitG := by
  have field21 := List.find?_eq_none.mp passed 21 (by decide)
  exact (by simpa [fieldOk] using field21 : field 55 4 r ≤ field 59 4 r)

theorem gradeOk_powerOn {s : State} (steer : s.steer = Steering.powerOn) (cfg : s.cfg = State.reset.cfg)
    (loaded : s.port.loaded = none) : GradeOk s where
  anchored := by simp [steer, Steering.powerOn]
  bounded := by simp [steer, Steering.powerOn]
  config := by simp [steer, Steering.powerOn]
  limits := by rw [cfg]; decide
  loaded := by simp [loaded]

theorem Effect.grade_ok {c : Instr} {s t : State} (effect : Effect s c t) (h : GradeOk s) : GradeOk t := by
  have ported (p : Port) (move : PortMove c s.phase s.port p) (r : Bytes) (loaded : p.loaded = some r) : firstBadField r = none := by
    obtain kept | ⟨r', -, isLoaded, passes⟩ := move.loaded
    · exact h.loaded r (kept.symm.trans loaded)
    · rw [isLoaded] at loaded
      exact Option.some.inj loaded ▸ passes
  cases effect with
  | port p move => exact ⟨h.anchored, h.bounded, h.config, h.limits, ported p move⟩
  | hostWrote k p move => exact ⟨h.anchored, h.bounded, h.config, h.limits, ported p move⟩
  | powerOn e r k => exact gradeOk_powerOn rfl rfl rfl
  | start body r config loaded _ =>
    have free := h.config config
    have limits := limits_of_passed (h.loaded r loaded)
    constructor <;> simp [startBlocks, free, limits]
    simpa using h.loaded
  | goodEdge second _ => exact goodEdge_gradeOk h
  | badEdge v _ => exact badEdge_gradeOk h
  | edgeTimeout _ => exact leaveState_gradeOk h _ _
  | steering run =>
    exact steeringInstant_gradeOk (s := { s with steer.series := s.steer.series.map Series.taken }) run
      (h.congr rfl rfl rfl rfl rfl rfl)
  | warmReset cause label took tr _ =>
    exact takeWarmReset_gradeOk (h.congr (by simp) (by simp) (by simp) (by simp) (by simp) (by simp))
  | setTime body answer a _ _ _ =>
    have steer := takeStep_steer a .setTime s
    exact h.congr (by simp) (by simp) (by simp) (by simp [steer, Steering.stepped]) (by simp [steer, Steering.stepped])
      (by simp [takeStep_ref, refAfterStep])
  | fence body token _ _ _ =>
    exact h.congr (by simp [takeFence]) (by simp [takeFence]) (by simp [takeFence]) (by simp [takeFence]) (by simp [takeFence])
      (by simp [takeFence])
  | exportRead k i _ _ =>
    exact h.congr (by simp [engineReply]) (by simp [engineReply]) (by simp [engineReply]) (by simp [engineReply])
      (by simp [engineReply]) (by simp [engineReply])
  | exportStop body k u _ stopped =>
    obtain rfl | rfl := stopped <;> exact h.congr (by simp) (by simp) (by simp) (by simp) (by simp) (by simp)
  | label bytes l cut => exact h.congr rfl rfl rfl rfl rfl rfl
  | _ => exact h.congr (by simp) (by simp) (by simp) (by simp) (by simp) (by simp)

/-- Settles O36. -/
theorem gradeStaysBacked : Obligations.GradeStaysBacked := fun _ _ holds =>
  step_keeps (P := GradeOk) (fun _ _ h => h.congr rfl rfl rfl rfl rfl rfl) Effect.grade_ok
    (fun _ h => h.congr rfl rfl rfl rfl rfl rfl) holds

end Sys2Proof.Machine
end

