-- ==== Sys2Proof/Proofs/ResetAndClock.lean ====
section
/-! The state after reset, and the Station Clock: its idle step, its advance over many ticks, and its steps with the series. -/

namespace Sys2Proof.Machine

/-! ### The state after reset -/

/-- Settles O7: each invariant holds of a block at its power-on value. -/
theorem resetMeetsInvariants : Obligations.ResetMeetsInvariants := by
  have queues : QueuesOk State.reset := by
    refine (queuesOk_iff _).mpr ⟨⟨Nat.zero_le 64, Nat.zero_le 64, fun i => ?_⟩, linkOk_silent (Nat.zero_le 4) .nil rfl rfl⟩
    simp [State.reset, StampUnit.powerOn]
  exact ⟨evidenceOk_powerOn, gradeOk_powerOn rfl rfl rfl, rateOk_powerOn rfl rfl, auctionsOk_freed, queues, rfl⟩

/-! ### The idle step -/

/-- Settles O3. -/
theorem emptyQueueIdles : Obligations.EmptyQueueIdles := by
  intro s empty
  rw [step_of_empty empty]
  refine ⟨fun c due => ?_, fun none_ => ?_⟩
  · rw [idle, due]
    rfl
  · rw [idle, none_]
    rfl

/-! ### Advance -/

theorem advanceClock_of_room {c : Clock} (running : c.running = true)
    (room : c.present + (c.residue + tickGain c.rate) / 2000000000000 < maxTime) :
    advanceClock c = { c with present := c.present + (c.residue + tickGain c.rate) / 2000000000000
                              residue := (c.residue + tickGain c.rate) % 2000000000000 } := by
  rw [advanceClock, if_pos ⟨running, by omega⟩]
  exact if_neg (not_le.mpr room)

/-- Ticks at one rate add up: the residue carries what the present time does not yet show (R5). -/
theorem advanceTicks_of_room (m : Nat) {c : Clock} (running : c.running = true) (residue : c.residue < 2000000000000)
    (room : c.present + (c.residue + m * tickGain c.rate) / 2000000000000 < maxTime) :
    advanceTicks m c = { c with present := c.present + (c.residue + m * tickGain c.rate) / 2000000000000
                                residue := (c.residue + m * tickGain c.rate) % 2000000000000 } := by
  induction m generalizing c with
  | zero =>
    simp only [advanceTicks, Nat.zero_mul, Nat.add_zero, Nat.div_eq_of_lt residue, Nat.mod_eq_of_lt residue]
  | succ m ih =>
    rw [Nat.succ_mul] at room ⊢
    have rest := ih (c := { c with present := c.present + (c.residue + tickGain c.rate) / 2000000000000
                                   residue := (c.residue + tickGain c.rate) % 2000000000000 })
      running (Nat.mod_lt _ (by decide)) (by dsimp only; omega)
    rw [advanceTicks, advanceClock_of_room running (by omega), rest]
    congr 1
    · dsimp only
      omega
    · dsimp only
      omega

theorem advanceTicks_of_end (m : Nat) {c : Clock} (atEnd : c.present = maxTime) : advanceTicks m c = c := by
  induction m with
  | zero => rfl
  | succ m ih => rw [advanceTicks, advanceClock, if_neg (by omega), ih]

/-- Settles O8. -/
theorem clockAdvancesExactly : Obligations.ClockAdvancesExactly := by
  intro n c running residue rate
  refine ⟨fun room => ?_, advanceTicks_of_end _⟩
  obtain ⟨low, high⟩ := abs_le.mp rate
  have gain : (tickGain c.rate : Int) = 1000000000000 + c.rate := by
    rw [tickGain]
    omega
  have product : ((512 * n * tickGain c.rate : Nat) : Int) = n * 512 * (1000000000000 + c.rate) := by
    rw [← gain]
    push_cast
    ring
  have least : 512 * n * 999500000000 ≤ 512 * n * tickGain c.rate := Nat.mul_le_mul_left _ (by omega)
  have most : 512 * n * tickGain c.rate ≤ 512 * n * 1000500000000 := Nat.mul_le_mul_left _ (by omega)
  have advanced := advanceTicks_of_room (512 * n) running residue (by omega)
  refine ⟨_, rfl, ?_⟩
  rw [advanced, ← product]
  generalize 512 * n * tickGain c.rate = added at least most
  refine ⟨Nat.mod_lt _ (by decide), rfl, running, ?_, ?_⟩
  · dsimp only
    omega
  · dsimp only
    omega

/-! ### Steps and series -/

/-- A member at or below the present time gives way to the first one strictly after it (R13). -/
theorem drop_passed (period present : Nat) (positive : 0 < period) (x : Series) (passed : x.next ≤ present) :
    present < (x.drop period present).next ∧ (x.drop period present).next ≤ present + period := by
  have next : (x.drop period present).next = x.next + ((present - x.next) / period + 1) * period := by
    rw [Series.drop, if_pos passed]
  have parts := Nat.div_add_mod' (present - x.next) period
  have rest := Nat.mod_lt (present - x.next) positive
  rw [next, Nat.succ_mul]
  omega

/-- Settles O9. -/
theorem stepsAndSeries : Obligations.StepsAndSeries := by
  refine ⟨fun a s => ?_, fun period present x positive => ?_⟩
  · have after : (steppedTime s.clock.present a : Int) = max 0 (min ((s.clock.present : Int) + a) maxTime) := steppedTime_int _ _
    refine ⟨?_, rfl, fun low high => ?_, fun forward => ?_, fun back => ?_, rfl⟩
    · rw [← after]
      rfl
    · rw [appliedAmount, after]
      omega
    · have moved : s.clock.present < steppedTime s.clock.present a := forward
      simp only [stepClock, moved, if_true]
      exact ⟨rfl, rfl⟩
    · have stayed : ¬ s.clock.present < steppedTime s.clock.present a := not_lt.mpr back
      simp [stepClock, stayed]
  · by_cases passed : x.next ≤ present
    · obtain ⟨after, first⟩ := drop_passed period present positive x passed
      refine ⟨(present - x.next) / period + 1, ?_, after, fun _ => first, fun ahead => absurd ahead (by omega), ?_⟩
      · rw [Series.drop, if_pos passed]
      · rw [Series.drop, if_pos passed]
    · have kept : x.drop period present = x := by rw [Series.drop, if_neg passed]
      rw [kept]
      exact ⟨0, by omega, by omega, fun some_ => absurd rfl some_, fun _ => rfl, rfl⟩

end Sys2Proof.Machine
end

