-- ==== Sys2Proof/Proofs/CommandTests.lean ====
section
/-! The tests every command of the Service Port meets before its own effect, LOAD_CONFIG with its 29 fields, and the reads. -/

namespace Sys2Proof.Machine

/-! ### Length and phase (R170) -/

theorem onCommand_of_misfit {len : Nat} {body : Bytes} {run : State → State} {s : State}
    (absent : s.port.transaction = .absent) (misfits : body.length ≠ len) :
    onCommand len body run s = respond .refusedRange [] s := by
  obtain ⟨past, -⟩ | ⟨-, -, refuses⟩ | ⟨-, fits, -⟩ := onCommand_cases len body run s
  · exact absurd absent past
  · exact refuses
  · exact absurd fits misfits

/-- A body of a wrong length is refused, and only what the host wrote itself can have changed card memory (R170, log 10). -/
theorem exec_of_misfit {c : Instr} {code : Byte} {body : Bytes} {n : Nat} {s : State} (absent : s.port.transaction = .absent)
    (parts : commandParts c = some (code, body)) (length : requiredLength code = some n) (misfits : body.length ≠ n)
    (known : ∀ b, c ≠ .unknownCommand code b) :
    exec c s = .next (respond .refusedRange (if code = 2 then [0] else []) s)
      ∨ ∃ k, exec c s = .next (respond .refusedRange (if code = 2 then [0] else []) (hostFirst k s))
          ∧ (c = .exportStart body k ∨ c = .exportResume body k ∨ c = .exportStop body k) := by
  have plain {code' : Byte} {len : Nat} {run : State → State} (executed : exec c s = .next (onCommand len body run s))
      (same : code' = code) (needs : requiredLength code' = some len) (other : code' ≠ 2) :
      exec c s = .next (respond .refusedRange (if code = 2 then [0] else []) s)
        ∨ ∃ k, exec c s = .next (respond .refusedRange (if code = 2 then [0] else []) (hostFirst k s))
            ∧ (c = .exportStart body k ∨ c = .exportResume body k ∨ c = .exportStop body k) := by
    subst same
    obtain rfl := Option.some.inj (needs.symm.trans length)
    rw [executed, if_neg other, onCommand_of_misfit absent misfits]
    exact .inl rfl
  have hosted {code' : Byte} {len : Nat} {run : State → State} {k : CardInput}
      (executed : exec c s = .next (onCommand len body run (hostFirst k s)))
      (same : code' = code) (needs : requiredLength code' = some len) (other : code' ≠ 2)
      (source : c = .exportStart body k ∨ c = .exportResume body k ∨ c = .exportStop body k) :
      exec c s = .next (respond .refusedRange (if code = 2 then [0] else []) s)
        ∨ ∃ k, exec c s = .next (respond .refusedRange (if code = 2 then [0] else []) (hostFirst k s))
            ∧ (c = .exportStart body k ∨ c = .exportResume body k ∨ c = .exportStop body k) := by
    subst same
    obtain rfl := Option.some.inj (needs.symm.trans length)
    rw [executed, if_neg other, onCommand_of_misfit (s := hostFirst k s) absent misfits]
    exact .inr ⟨k, rfl, source⟩
  cases c <;> simp only [commandParts, Option.some.injEq, Prod.mk.injEq, reduceCtorEq] at parts
  case unknownCommand code' body' => exact absurd (by rw [parts.1]) (known body')
  case loadConfig body' =>
    obtain ⟨rfl, rfl⟩ := parts
    obtain rfl := Option.some.inj length
    refine .inl ?_
    simp only [exec, execLoadConfig, absent]
    rw [loadConfig, if_pos misfits]
    rfl
  case identify => obtain ⟨same, rfl⟩ := parts; exact plain rfl same rfl (by decide)
  case start => obtain ⟨same, rfl⟩ := parts; exact plain rfl same rfl (by decide)
  case setTime => obtain ⟨same, rfl⟩ := parts; exact plain rfl same rfl (by decide)
  case readStatus => obtain ⟨same, rfl⟩ := parts; exact plain rfl same rfl (by decide)
  case readPeer => obtain ⟨same, rfl⟩ := parts; exact plain rfl same rfl (by decide)
  case armAuction => obtain ⟨same, rfl⟩ := parts; exact plain rfl same rfl (by decide)
  case cancelAuction => obtain ⟨same, rfl⟩ := parts; exact plain rfl same rfl (by decide)
  case releaseAuction => obtain ⟨same, rfl⟩ := parts; exact plain rfl same rfl (by decide)
  case readAuction => obtain ⟨same, rfl⟩ := parts; exact plain rfl same rfl (by decide)
  case fence => obtain ⟨same, rfl⟩ := parts; exact plain rfl same rfl (by decide)
  case checkpoint => obtain ⟨same, rfl⟩ := parts; exact plain rfl same rfl (by decide)
  case readNotices => obtain ⟨same, rfl⟩ := parts; exact plain rfl same rfl (by decide)
  case clearNotices => obtain ⟨same, rfl⟩ := parts; exact plain rfl same rfl (by decide)
  case warmReset => obtain ⟨same, rfl⟩ := parts; exact plain rfl same rfl (by decide)
  case exportStart => obtain ⟨same, rfl⟩ := parts; exact hosted rfl same rfl (by decide) (.inl rfl)
  case exportResume => obtain ⟨same, rfl⟩ := parts; exact hosted rfl same rfl (by decide) (.inr (.inl rfl))
  case exportStop => obtain ⟨same, rfl⟩ := parts; exact hosted rfl same rfl (by decide) (.inr (.inr rfl))

/-- Settles O11. -/
theorem refusedBeforeItsTests : Obligations.RefusedBeforeItsTests := by
  refine ⟨fun code body s absent => ?_, fun c code body n s absent parts length misfits known => ?_⟩
  · simp only [exec, execUnknownCommand, absent]
    rfl
  · obtain executed | ⟨k, executed, source⟩ := exec_of_misfit absent parts length misfits known
    · exact ⟨s.card, executed, .inl rfl⟩
    · exact ⟨_, executed, .inr ⟨k, rfl, source⟩⟩

theorem clockSet_of_config {s : State} (config : s.phase = .config) : clockSet s = false := by
  rw [← Bool.not_eq_true, clockSet_iff, config]
  exact fun set => nomatch set.1

/-- Settles O12: in CONFIG each of these commands is refused by the first of its own tests. -/
theorem refusedInThePhase : Obligations.RefusedInThePhase := by
  refine ⟨fun c code body n s config absent parts length fits named => ?_, fun body k s config absent silent => ?_,
    fun s absent barred => ?_⟩
  · obtain ⟨b, rfl⟩ | ⟨b, rfl⟩ | ⟨b, rfl⟩ | ⟨b, rfl⟩ | ⟨b, rfl⟩ := named <;>
      obtain ⟨rfl, rfl⟩ := Prod.mk.inj (Option.some.inj parts) <;> obtain rfl := Option.some.inj length <;>
      refine (congrArg Host.Outcome.next (onCommand_of_fits absent fits)).trans (congrArg Host.Outcome.next ?_)
    · exact if_pos (.inl config)
    · simp only [readPeer, config]
      rfl
    · exact if_pos (clockSet_of_config config)
    · exact if_pos config
    · exact if_pos config
  · have quiet : hostFirst k s = s := by simp [hostFirst, cardHost, silent]
    have runs {len : Nat} {bs : Bytes} (fits : bs.length = len) (run : State → State) :
        (Host.Outcome.next (onCommand len bs run (hostFirst k s)) : Host.Outcome State Fault Refusal) = .next (run s) := by
      rw [quiet, onCommand_of_fits absent fits]
    refine ⟨fun fits => (runs fits _).trans ?_, (runs rfl _).trans ?_, (runs rfl _).trans ?_⟩
    · exact congrArg Host.Outcome.next (if_pos config)
    · simp only [exportResume, config]
      rfl
    · exact congrArg Host.Outcome.next (if_pos config)
  · refine (congrArg Host.Outcome.next (onCommand_of_fits absent rfl)).trans (congrArg Host.Outcome.next ?_)
    unfold start
    split
    · rfl
    · rfl
    · next r config loaded =>
      obtain run | unloaded | failed := barred
      · exact nomatch config.symm.trans run
      · exact nomatch loaded.symm.trans unloaded
      · exact if_pos failed

/-! ### LOAD_CONFIG (R172 to R174) -/

theorem firstBadField_eq_none_iff (r : Bytes) : firstBadField r = none ↔ ∀ i, 1 ≤ i → i ≤ 29 → fieldOk r i = true := by
  simp only [firstBadField, List.find?_eq_none, List.mem_range'_1, Bool.not_eq_true, Bool.not_eq_false']
  exact ⟨fun h i low high => h i ⟨low, by omega⟩, fun h i ⟨low, high⟩ => h i low (by omega)⟩

/-- The first field of rising index that fails (R173). -/
theorem firstBadField_eq_some {r : Bytes} {i : Nat} (low : 1 ≤ i) (high : i ≤ 29) (fails : fieldOk r i = false)
    (before : ∀ j, 1 ≤ j → j < i → fieldOk r j = true) : firstBadField r = some i := by
  refine List.find?_eq_some_iff_append.mpr ⟨by simp [fails], List.range' 1 (i - 1), List.range' (i + 1) (29 - i), ?_, fun j mem => ?_⟩
  · have head : List.range' i (29 - i + 1) = i :: List.range' (i + 1) (29 - i) := List.range'_succ
    have start : 1 + (i - 1) = i := by omega
    have count : 29 = (i - 1) + (29 - i + 1) := by omega
    rw [← head]
    conv_lhs => rw [count, ← List.range'_append_1, start]
  · have range := List.mem_range'_1.mp mem
    simp [before j range.1 (by omega)]

theorem exec_loadConfig_of_absent {s : State} (absent : s.port.transaction = .absent) (body : Bytes) :
    exec (.loadConfig body) s = .next (loadConfig body s) := by
  simp only [exec, execLoadConfig, absent]

theorem ofNat_testBit (w n i : Nat) : (BitVec.ofNat w n).getLsbD i = (decide (i < w) && n.testBit i) :=
  BitVec.getLsbD_ofNat w n i

theorem setSize_ofNat (n : Nat) : setSize (BitVec.ofNat 16 n) = (List.range 16).countP (fun q => n.testBit q) := by
  refine List.countP_congr fun q mem => ?_
  rw [ofNat_testBit, decide_eq_true (List.mem_range.mp mem), Bool.true_and]

/-- Settles O15: the first 28 fields pass in the ranges spelled, field 29 always. -/
theorem loadConfigTested : Obligations.LoadConfigTested := by
  refine ⟨fun body s length absent => ⟨fun config passes => ?_, fun i config low high fails before => ?_, fun run => ?_⟩,
    fun body => ?_⟩
  · rw [exec_loadConfig_of_absent absent, loadConfig, if_neg (not_not.mpr length)]
    split
    · next run => exact nomatch config.symm.trans run
    · rw [(firstBadField_eq_none_iff body).mpr passes]
      rfl
  · rw [exec_loadConfig_of_absent absent, loadConfig, if_neg (not_not.mpr length)]
    split
    · next run => exact nomatch config.symm.trans run
    · rw [firstBadField_eq_some low high fails before]
      rfl
  · rw [exec_loadConfig_of_absent absent, loadConfig, if_neg (not_not.mpr length)]
    split
    · rfl
    · next config => exact nomatch run.symm.trans config
  · simp only [fieldOk, inSet, setSize_ofNat, ofNat_testBit, decide_eq_true_iff, Bool.and_eq_true, List.mem_cons, List.not_mem_nil,
      or_false, Nat.zero_le, true_and, and_true]
    refine ⟨?_, by omega⟩
    exact ⟨fun ⟨low, _, member⟩ => ⟨by omega, member⟩, fun ⟨low, member⟩ => ⟨by omega, by omega, member⟩⟩

/-! ### The reads (R45, R124, R178) -/

theorem field_one_byte (b : Byte) : field 0 1 [b] = b.toNat := by
  simp [field, leNat]

theorem slotOf_one_byte (i : Fin 32) : slotOf (field 0 1 [BitVec.ofNat 8 i.val]) = some i := by
  have value : (BitVec.ofNat 8 i.val).toNat = i.val := by
    rw [BitVec.toNat_ofNat]
    omega
  rw [field_one_byte, value, slotOf, dif_pos i.isLt]

theorem slotOf_one_byte_of_high {b : Byte} (high : 32 ≤ b.toNat) : slotOf (field 0 1 [b]) = none := by
  rw [field_one_byte, slotOf, dif_neg (by omega)]

theorem onSlot_of_slot (i : Fin 32) (run : Fin 32 → State → State) (s : State) :
    onSlot [BitVec.ofNat 8 i.val] run s = run i s := by
  simp only [onSlot, slotOf_one_byte]

theorem onSlot_of_high {b : Byte} (high : 32 ≤ b.toNat) (run : Fin 32 → State → State) (s : State) :
    onSlot [b] run s = s.replied .refusedRange [] := by
  simp only [onSlot, slotOf_one_byte_of_high high]
  rfl

/-- Settles O13. -/
theorem readsReplyWithoutEffect : Obligations.ReadsReplyWithoutEffect := by
  intro s absent
  have fits (len : Nat) (body : Bytes) (length : body.length = len) (run : State → State) :
      (Host.Outcome.next (onCommand len body run s) : Host.Outcome State Fault Refusal) = .next (run s) :=
    congrArg Host.Outcome.next (onCommand_of_fits absent length)
  refine ⟨(fits 0 [] rfl _).trans ?_, fun i => (fits 1 _ rfl _).trans ?_, fun b high => (fits 1 _ rfl _).trans ?_,
    fun b p run found => (fits 1 _ rfl _).trans ?_, fun b run unknown => (fits 1 _ rfl _).trans ?_⟩
  · simp only [statusReport, peerCounts, entryCounts, List.flatMap_map]
    rfl
  · rw [onSlot_of_slot]
    rfl
  · rw [onSlot_of_high high]
  · simp only [readPeer, run, field_one_byte, found]
    rfl
  · simp only [readPeer, run, field_one_byte, unknown]
    rfl

end Sys2Proof.Machine
end

