-- ==== Sys2Proof/Proofs/StartAndSetTime.lean ====
section
/-! The record a command hands over, and two commands that make one: START and SET_TIME (R176, R78). -/

namespace Sys2Proof.Machine

/-! ### A record that is handed over (R138 to R142) -/

/-- The record of the last hand-over stands at the tail, with the grade, the bound and the time of the state it leaves. -/
theorem recordAdded_of_handed {b : Body} {s u t : State} (queue : u.evid.queue = s.evid.queue)
    (number : u.evid.nextNumber = s.evid.nextNumber) (chain : u.evid.chain = s.evid.chain) (evid : t.evid = (handRecord b u).evid)
    (grade : t.steer.grade = u.steer.grade) (bound : t.steer.bound = u.steer.bound)
    (time : t.clock.present = u.clock.present) : recordAdded b s t := by
  intro room
  rw [← queue] at room
  rw [evid, handRecord_evid, if_pos room, ← queue, ← number, ← chain]
  exact ⟨makeRecord b u, rfl, rfl, rfl, grade.symm, bound.symm, time.symm, rfl, rfl, rfl⟩

/-- Only a WAITING engine is woken by a record (R159). -/
theorem wakeEngine_of_not_waiting {s : State} (state : s.engine.state ≠ .waiting) : wakeEngine s = s := by
  unfold wakeEngine
  split
  · next waiting _ => exact absurd waiting state
  · rfl

theorem handRecord_of_asleep {b : Body} {s : State} (room : s.evid.queue.length < b.capacity)
    (asleep : s.engine.state ≠ .waiting) : handRecord b s = { s with evid := s.evid.append (makeRecord b s) } := by
  rw [handRecord, if_pos (by rw [admitted, decide_eq_true_iff]; exact room)]
  exact wakeEngine_of_not_waiting asleep

/-! ### START (R176) -/

theorem start_of_loaded {r : Bytes} {s : State} (config : s.phase = .config) (loaded : s.port.loaded = some r)
    (passed : s.port.selfTest.evidenceFail = false) :
    start s = respond .ok [] (handRecord (startBody r s.port.selfTest) (startBlocks r s)) := by
  unfold start
  split
  · next run => exact nomatch config.symm.trans run
  · next unloaded => exact nomatch loaded.symm.trans unloaded
  · next r' _ loaded' =>
    obtain rfl := Option.some.inj (loaded.symm.trans loaded')
    rw [if_neg (by simp [passed])]

theorem buildPeers_eq (c : Settings) :
    buildPeers c = ((List.range 16).filter (fun i => c.membership.getLsbD i && !decide (i = c.stationId))).map Peer.fresh := by
  refine congrArg (List.map Peer.fresh) (List.filter_congr fun i mem => ?_)
  rw [inSet, decide_eq_true (List.mem_range.mp mem), Bool.true_and]

/-- Settles O16: the START record is a priority one, and a STOPPED engine is not woken by it. -/
theorem startEntersRun : Obligations.StartEntersRun := by
  intro r s config loaded passed absent stopped room
  have capacity : (startBlocks r s).evid.queue.length < (startBody r s.port.selfTest).capacity := room
  have asleep : (startBlocks r s).engine.state ≠ .waiting := by
    rw [show (startBlocks r s).engine = s.engine from rfl, stopped]
    decide
  refine ⟨_, congrArg Host.Outcome.next ((onCommand_of_fits absent rfl).trans (start_of_loaded config loaded passed)), ?_⟩
  have added : recordAdded (startBody r s.port.selfTest) s
      (respond .ok [] (handRecord (startBody r s.port.selfTest) (startBlocks r s))) :=
    recordAdded_of_handed (u := startBlocks r s) rfl rfl rfl rfl (by simp) (by simp) (by simp)
  rw [handRecord_of_asleep capacity asleep] at added ⊢
  exact ⟨rfl, rfl, rfl, rfl, ⟨_, rfl, rfl⟩, buildPeers_eq _, rfl, rfl, rfl, added, rfl, rfl, rfl, rfl, rfl, rfl, rfl, rfl, rfl⟩

/-! ### SET_TIME (R72, R78) -/

/-- The time a step sets where it lies in the clock's range (R8). -/
theorem steppedTime_of_target {present target : Nat} (range : target ≤ maxTime) :
    steppedTime present ((target : Int) - present) = target := by
  unfold steppedTime
  omega

/-- A step to a time in range is recorded with the amount asked for (R72, R81). -/
theorem takeStep_recordAdded {target : Nat} {cause : StepCause} {s t : State} (range : target ≤ maxTime)
    (evid : t.evid = (takeStep ((target : Int) - s.clock.present) cause s).evid) (grade : t.steer.grade = s.steer.grade)
    (bound : t.steer.bound = s.steer.bound) (time : t.clock.present = target) :
    recordAdded (.step { kind := .taken, cause := cause, before := s.steer.state, after := .acquire,
                         requested := (target : Int) - s.clock.present, applied := (target : Int) - s.clock.present,
                         timeBefore := s.clock.present, timeAfter := target }) s t := by
  have reaches := steppedTime_of_target (present := s.clock.present) range
  simp only [takeStep, appliedAmount, stepClock_clock, reaches, raise_evid] at evid
  refine recordAdded_of_handed ?_ ?_ ?_ evid grade bound time <;> rfl

/-- Settles O17. -/
theorem setTimeSetsTheClock : Obligations.SetTimeSetsTheClock := by
  intro body s length run absent given refusal
  have executed : exec (.setTime body) s = .next (setTime body s) := congrArg Host.Outcome.next (onCommand_of_fits absent length)
  refine ⟨fun notCold => ?_, fun cold high => ?_, fun cold low meets => ?_, fun cold low free => ?_⟩
  · exact executed.trans (congrArg Host.Outcome.next (if_pos (.inr notCold)))
  · refine executed.trans (congrArg Host.Outcome.next ?_)
    rw [setTime, if_neg (by simp [run, cold]), if_pos high]
    rfl
  · refine executed.trans (congrArg Host.Outcome.next ?_)
    rw [setTime, if_neg (by simp [run, cold]), if_neg (not_lt.mpr low)]
    exact if_pos ((stepForbidden_iff _ s).mpr meets)
  · have allowed : ¬ stepForbidden ((given : Int) - s.clock.present) s = true := mt (stepForbidden_iff _ s).mp free
    have range : given ≤ maxTime := by
      have seconds := field_lt 0 6 body
      simp only [given, maxTime, fineSec]
      omega
    have reaches := steppedTime_of_target (present := s.clock.present) range
    have clock := takeStep_clock ((given : Int) - s.clock.present) .setTime s
    have steer := takeStep_steer ((given : Int) - s.clock.present) .setTime s
    rw [reaches] at clock
    have sets : setTime body s = respond .ok (timeBytes s.clock.present ++ timeBytes given)
        (takeStep ((given : Int) - s.clock.present) .setTime s) := by
      rw [setTime, if_neg (by simp [run, cold]), if_neg (not_lt.mpr low)]
      refine (if_neg allowed).trans ?_
      exact congrArg (fun c : Clock => respond .ok (timeBytes s.clock.present ++ timeBytes c.present) _) clock
    refine ⟨_, executed.trans (congrArg Host.Outcome.next sets), clock, ?_, ?_, takeStep_peers _ _ _, ?_, rfl, ?_, ?_, by simp,
      by simp, by simp, by simp, by simp, by simp⟩
    · rw [clockSet_iff, respond_steer, steer]
      exact ⟨by simpa using run, nofun⟩
    · rw [respond_steer, steer]
      rfl
    · rw [respond_ref, takeStep_ref, appliedAmount, reaches]
      rfl
    · exact raise_sets .step _
    · rw [← cold]
      exact takeStep_recordAdded range rfl (by simp [steer, Steering.stepped]) (by simp [steer, Steering.stepped]) (by simp [clock])

end Sys2Proof.Machine
end

