-- ==== Sys2Proof/Proofs/StampEvents.lean ====
section
/-! The order port, the stamp event with its refusals and its stamps, and the rounding of stamp times (chapter 07). -/

namespace Sys2Proof.Machine

/-! ### The order port (R95, R96) -/

/-- A request's group and tag stand low byte first. -/
theorem requestOf_bytes (k l g0 g1 a b c d : Byte) :
    requestOf k l #v[g0, g1] #v[a, b, c, d] = ⟨k, l, g1 ++ g0, d ++ c ++ b ++ a⟩ := by
  have group : leNat [g0, g1] = (g1 ++ g0).toNat := by
    rw [BitVec.toNat_append, ← Nat.shiftLeft_add_eq_or_of_lt g0.isLt, Nat.shiftLeft_eq]
    simp [leNat]
    omega
  have tag : leNat [a, b, c, d] = (d ++ c ++ b ++ a).toNat := by
    rw [BitVec.toNat_append, ← Nat.shiftLeft_add_eq_or_of_lt a.isLt, Nat.shiftLeft_eq,
      BitVec.toNat_append, ← Nat.shiftLeft_add_eq_or_of_lt b.isLt, Nat.shiftLeft_eq,
      BitVec.toNat_append, ← Nat.shiftLeft_add_eq_or_of_lt c.isLt, Nat.shiftLeft_eq]
    simp [leNat]
    omega
  have groupBits : BitVec.ofNat 16 (leNat [g0, g1]) = g1 ++ g0 := by
    rw [group]
    exact BitVec.ofNat_toNat _ _
  have tagBits : BitVec.ofNat 32 (leNat [a, b, c, d]) = d ++ c ++ b ++ a := by
    rw [tag]
    exact BitVec.ofNat_toNat _ _
  exact congrArg₂ (Request.mk k l) groupBits tagBits

/-- Settles O37. -/
theorem orderPortTransfers : Obligations.OrderPortTransfers := by
  intro k l g0 g1 a b c d s request
  refine ⟨fun room => ?_, fun full => ?_, fun r rest queue => ?_, fun empty => ?_⟩
  · refine (if_pos room).trans ?_
    rw [requestOf_bytes]
  · exact if_neg (not_lt.mpr full)
  · simp only [exec, execResponseTaken, queue, List.tail_cons]
  · simp only [exec, execResponseTaken, empty, List.tail_nil]
    rw [← empty]

/-! ### The raw time (R97, R101) -/

theorem rawSource_now {r : Request} (kind : r.kind = 0) (s : State) : rawSource r s = some .now := if_pos kind

theorem rawSource_line {r : Request} (kind : r.kind = 1) {i : Fin 4} (line : r.line.toNat = i.val) {s : State} {t : Nat}
    {ts : List Nat} (queue : s.stamp.captures[i] = t :: ts) : rawSource r s = some (.capture i t) := by
  have isLine : r.line.toNat < 4 := line ▸ i.isLt
  have same : (⟨r.line.toNat, isLine⟩ : Fin 4) = i := Fin.ext line
  simp only [rawSource, kind, isLine, same, queue, dif_pos, if_true]
  rfl

theorem rawSource_line_empty {r : Request} (kind : r.kind = 1) {i : Fin 4} (line : r.line.toNat = i.val) {s : State}
    (queue : s.stamp.captures[i] = []) : rawSource r s = none := by
  have isLine : r.line.toNat < 4 := line ▸ i.isLt
  have same : (⟨r.line.toNat, isLine⟩ : Fin 4) = i := Fin.ext line
  simp only [rawSource, kind, isLine, same, queue, dif_pos, if_true]
  rfl

theorem rawSource_no_line {r : Request} (kind : r.kind = 1) (line : 4 ≤ r.line.toNat) (s : State) : rawSource r s = none := by
  simp only [rawSource, kind, if_true, dif_neg (not_lt.mpr line)]
  rfl

theorem rawSource_other {r : Request} (kind : 2 ≤ r.kind.toNat) (s : State) : rawSource r s = none := by
  have notNow : r.kind ≠ 0 := fun is => by simp [is] at kind
  have notCapture : r.kind ≠ 1 := fun is => by simp [is] at kind
  rw [rawSource, if_neg notNow, if_neg notCapture]

/-! ### The stamp event and its refusals (R96, R97) -/

theorem exec_stampEvent_of_room {r : Request} {rest : List Request} {s : State} (queue : s.stamp.requests = r :: rest)
    (room : s.stamp.responses.length < 64) :
    exec .stampEvent s = .next (answerRequest r { s with stamp.requests := rest }) := by
  simp only [exec, execStampEvent, queue, room, if_true]

theorem answerRequest_unset {s : State} (unset : clockSet s = false) (r : Request) :
    answerRequest r s = refuseStamp .notReady r s := if_pos unset

theorem answerRequest_exhausted {s : State} (isSet : clockSet s = true) (exhausted : s.stamp.nextSeq = none) (r : Request) :
    answerRequest r s = refuseStamp .exhausted r s := by
  rw [answerRequest, if_neg (by simp [isSet]), exhausted]

theorem answerRequest_no_capture {r : Request} {n : Nat} {s : State} (isSet : clockSet s = true) (next : s.stamp.nextSeq = some n)
    (source : rawSource r s = none) : answerRequest r s = refuseStamp .noCapture r s := by
  rw [answerRequest, if_neg (by simp [isSet]), next, source]

theorem answerRequest_issues {r : Request} {n : Nat} {x : RawSource} {s : State} (isSet : clockSet s = true)
    (next : s.stamp.nextSeq = some n) (source : rawSource r s = some x) : answerRequest r s = issueStamp r x n s := by
  rw [answerRequest, if_neg (by simp [isSet]), next, source]

/-- Settles O39. -/
theorem stampEventRefuses : Obligations.StampEventRefuses := by
  intro r rest s queue refusal
  refine ⟨fun room unset => ?_, fun room isSet exhausted => ?_, fun room isSet more missing => ?_, fun full => ?_⟩
  · exact (exec_stampEvent_of_room queue room).trans (congrArg Host.Outcome.next (answerRequest_unset (s := { s with stamp.requests := rest }) unset r))
  · exact (exec_stampEvent_of_room queue room).trans
      (congrArg Host.Outcome.next (answerRequest_exhausted (s := { s with stamp.requests := rest }) isSet exhausted r))
  · have nothing : rawSource r { s with stamp.requests := rest } = none := by
      obtain other | ⟨kind, line⟩ | ⟨kind, i, line, empty⟩ := missing
      · exact rawSource_other other _
      · exact rawSource_no_line kind line _
      · exact rawSource_line_empty kind line empty
    obtain ⟨n, next⟩ := Option.ne_none_iff_exists'.mp more
    exact (exec_stampEvent_of_room queue room).trans
      (congrArg Host.Outcome.next (answerRequest_no_capture (s := { s with stamp.requests := rest }) isSet next nothing))
  · simp only [exec, execStampEvent, queue, if_neg (not_lt.mpr full)]

/-! ### Rounding (R102) -/

theorem roundingOf_exact_iff (m : RoundMode) (g raw : Nat) : roundingOf m g raw = .exact ↔ roundStamp m g raw * 256 = raw := by
  unfold roundingOf
  split
  · next same => simp [same]
  · next other => split <;> simp [other]

theorem roundingOf_down_iff (m : RoundMode) (g raw : Nat) : roundingOf m g raw = .down ↔ roundStamp m g raw * 256 < raw := by
  unfold roundingOf
  split
  · next same => simp [same]
  · split
    · next below => simp [below]
    · next notBelow => simp [notBelow]

theorem roundingOf_up_iff (m : RoundMode) (g raw : Nat) : roundingOf m g raw = .up ↔ raw < roundStamp m g raw * 256 := by
  unfold roundingOf
  split
  · next same => simp [same]
  · split
    · next below => simp [below.le]
    · next other notBelow =>
      simp only [true_iff]
      omega

/-- Settles O41: for each of the four granularities the bounds are linear. -/
theorem stampTimesAreRounded : Obligations.StampTimesAreRounded := by
  intro g raw granularity range top
  refine ⟨⟨raw / (g * 256), ?_⟩, fun below => ⟨(raw + g * 128) / (g * 256), ?_⟩, fun above => ?_,
    fun m => ⟨roundingOf_exact_iff m g raw, roundingOf_down_iff m g raw, roundingOf_up_iff m g raw⟩⟩
  · simp only [roundStamp, roundedUp, maxStampTime]
    simp only [maxTime, fineSec] at range
    obtain rfl | rfl | rfl | rfl := granularity <;> omega
  · simp only [roundStamp, roundedUp, maxStampTime]
    simp only [top] at below
    obtain rfl | rfl | rfl | rfl := granularity <;> omega
  · simp only [roundStamp, roundedUp, maxStampTime]
    simp only [top, maxTime, fineSec] at above range ⊢
    obtain rfl | rfl | rfl | rfl := granularity <;> omega

end Sys2Proof.Machine
end

