-- ==== Sys2Proof/Proofs/StampIssue.lean ====
section
/-! A stamp that is issued: its fields, its phase, the cuts it sets, and the batch it joins or closes (R99 to R112). -/

namespace Sys2Proof.Machine

/-! ### Records of a small queue (R142) -/

/-- Below 496 records no class is refused, so a queue that is still below 496 afterwards took the record. -/
theorem handRecord_of_small {b : Body} {s : State} (small : (handRecord b s).evid.queue.length < 496) :
    (handRecord b s).evid = s.evid.append (makeRecord b s) := by
  have capacity : 496 ≤ b.capacity := by
    unfold Body.capacity
    split <;> omega
  rw [handRecord_evid] at small ⊢
  split at small
  · next room => rw [if_pos room]
  · rw [loseRecord_queue] at small
    omega

theorem handRecord_of_room {b : Body} {s : State} (room : s.evid.queue.length < 496) :
    (handRecord b s).evid = s.evid.append (makeRecord b s) := by
  have capacity : 496 ≤ b.capacity := by
    unfold Body.capacity
    split <;> omega
  rw [handRecord_evid, if_pos (by omega)]

/-! ### The stages of an issued stamp (R100) -/

/-- The stamp's own effects: its capture is taken, its marks are cleared, sequence, floor and cuts are set (R99 to R107). -/
def stampMarked (r : Request) (x : RawSource) (n : Nat) (s : State) : State :=
  { s with
    stamp := { takeCapture x s.stamp with
      nextSeq := seqAfter n
      floor := (stampFor r x n s).time
      floorSeq := if s.stamp.floor < (stampFor r x n s).time then some n else s.stamp.floorSeq
      gradeMark := false }
    entries := s.entries.map (Entry.afterStamp s.stamp.floor s.stamp.floorSeq n (stampFor r x n s).time) }

/-- The open batch closes before the stamp joins where the stamp sets a cut (R112). -/
def afterCuts (r : Request) (x : RawSource) (n : Nat) (s : State) : State :=
  if setsCut s.stamp.floor s.stamp.floorSeq n (stampFor r x n s).time s.entries.toList then closeBatch .cut (stampMarked r x n s)
  else stampMarked r x n s

theorem issueStamp_eq (r : Request) (x : RawSource) (n : Nat) (s : State) :
    issueStamp r x n s
      = { joinStamp (stampFor r x n s) (afterCuts r x n s) with
          stamp.responses := (joinStamp (stampFor r x n s) (afterCuts r x n s)).stamp.responses
            ++ [.issued (stampFor r x n s)] } := rfl

theorem stampMarked_batch (r : Request) (x : RawSource) (n : Nat) (s : State) :
    (stampMarked r x n s).stamp.batch = s.stamp.batch := by
  cases x <;> rfl

theorem afterCuts_batch (r : Request) (x : RawSource) (n : Nat) (s : State) :
    (afterCuts r x n s).stamp.batch
      = if setsCut s.stamp.floor s.stamp.floorSeq n (stampFor r x n s).time s.entries.toList then none else s.stamp.batch := by
  unfold afterCuts
  split
  · rw [closeBatch_stamp]
  · exact stampMarked_batch r x n s

/-! ### Batches (R111, R112) -/

/-- A batch that is not yet full stays open. -/
theorem joinStamp_open {st : Stamp} {s : State} (small : (joinBatch st s.stamp.batch).count < s.cfg.batchSize) :
    joinStamp st s = { s with stamp.batch := some (joinBatch st s.stamp.batch) } :=
  if_neg (not_le.mpr small)

/-- A full batch becomes a BATCH record of cause COUNT. -/
theorem joinStamp_full {st : Stamp} {s : State} (full : s.cfg.batchSize ≤ (joinBatch st s.stamp.batch).count) :
    joinStamp st s = handRecord (.batch (joinBatch st s.stamp.batch) (crcFinal (joinBatch st s.stamp.batch).check) .count)
      { s with stamp.batch := none } :=
  if_pos full

theorem joinStamp_grows_from (st : Stamp) (s : State) : Evidence.Grows s.evid (joinStamp st s).evid := joinStamp_grows (.refl _)

/-- What becomes of the batch `b` that a stamp has joined (R111, R112). -/
theorem joinStamp_batch {st : Stamp} {s : State} {b : Batch} (joined : joinBatch st s.stamp.batch = b) :
    (b.count < s.cfg.batchSize → (joinStamp st s).stamp.batch = some b)
    ∧ (s.cfg.batchSize ≤ b.count → (joinStamp st s).stamp.batch = none
        ∧ ((joinStamp st s).evid.queue.length < 496 →
            ∃ y, (joinStamp st s).evid.queue.getLast? = some y ∧ y.body = .batch b (b.check ^^^ 0xFFFFFFFF#32) .count)) := by
  subst joined
  refine ⟨fun small => by rw [joinStamp_open small], fun full => ?_⟩
  rw [joinStamp_full full]
  refine ⟨by simp, fun small => ?_⟩
  rw [handRecord_of_small small]
  exact ⟨_, List.getLast?_concat, rfl⟩

/-! ### Cuts (R107) -/

theorem setsCut_iff (floor : Nat) (floorSeq : Option Nat) (n t : Nat) (es : Vector Entry 32) :
    setsCut floor floorSeq n t es.toList = true ↔
      ∃ i : Fin 32, es[i].state = .fixed ∧ es[i].cut = none ∧ es[i].tc.getD 0 * 1000000 ≤ t
        ∧ (floor < es[i].tc.getD 0 * 1000000 ∨ floorSeq ≠ none) := by
  have one (e : Entry) : (e.cutDue t && (cutValue floor floorSeq (some n) e).isSome) = true ↔
      e.state = .fixed ∧ e.cut = none ∧ e.tc.getD 0 * 1000000 ≤ t ∧ (floor < e.tc.getD 0 * 1000000 ∨ floorSeq ≠ none) := by
    have value : (cutValue floor floorSeq (some n) e).isSome = true ↔ floor < e.tc.getD 0 * 1000000 ∨ floorSeq ≠ none := by
      unfold cutValue
      split
      · next above => simpa using .inl above
      · next notAbove =>
        rw [Option.isSome_iff_ne_none]
        exact ⟨.inr, fun either => either.resolve_left notAbove⟩
    rw [Bool.and_eq_true, value, Entry.cutDue, decide_eq_true_iff]
    simp only [Entry.tcNs, and_assoc]
  simp only [setsCut, List.any_eq_true, one]
  constructor
  · rintro ⟨e, mem, due⟩
    obtain ⟨i, hi, rfl⟩ := Vector.mem_iff_getElem.mp (Vector.mem_toList_iff.mp mem)
    exact ⟨⟨i, hi⟩, due⟩
  · rintro ⟨i, due⟩
    exact ⟨es[i], by simp, due⟩

theorem Entry.afterStamp_of_due {floor : Nat} {floorSeq : Option Nat} {n t : Nat} {e : Entry} (fixed : e.state = .fixed)
    (uncut : e.cut = none) (reached : e.tc.getD 0 * 1000000 ≤ t) :
    e.afterStamp floor floorSeq n t = { e with cut := if floor < e.tc.getD 0 * 1000000 then some n else floorSeq } := by
  rw [Entry.afterStamp, if_pos (by rw [Entry.cutDue, decide_eq_true_iff]; exact ⟨fixed, uncut, reached⟩)]
  rfl

theorem Entry.afterStamp_of_not_due {floor : Nat} {floorSeq : Option Nat} {n t : Nat} {e : Entry}
    (kept : e.state ≠ .fixed ∨ e.cut ≠ none ∨ t < e.tc.getD 0 * 1000000) : e.afterStamp floor floorSeq n t = e := by
  rw [Entry.afterStamp, if_neg]
  rw [Entry.cutDue, decide_eq_true_iff]
  rintro ⟨fixed, uncut, reached⟩
  obtain other | cut | ahead := kept
  · exact other fixed
  · exact cut uncut
  · exact absurd reached (not_le.mpr ahead)

/-! ### The phase (R104) -/

theorem any_entry_iff (es : Vector Entry 32) (p : Entry → Prop) [DecidablePred p] :
    es.toList.any (fun e => decide (p e)) = true ↔ ∃ i : Fin 32, p es[i] := by
  simp only [List.any_eq_true, decide_eq_true_iff]
  constructor
  · rintro ⟨e, mem, holds⟩
    obtain ⟨i, hi, rfl⟩ := Vector.mem_iff_getElem.mp (Vector.mem_toList_iff.mp mem)
    exact ⟨⟨i, hi⟩, holds⟩
  · rintro ⟨i, holds⟩
    exact ⟨es[i], by simp, holds⟩

/-- Only one entry of a group is live, so the group's FIXED entry is found wherever it stands. -/
theorem find_fixed {es : Vector Entry 32} (ok : AuctionsOk es) {g : BitVec 16} {i : Fin 32} (group : es[i].group = g)
    (fixed : es[i].state = .fixed) :
    es.toList.find? (fun e => decide (e.group = g ∧ e.state = .fixed)) = some es[i] := by
  cases found : es.toList.find? (fun e => decide (e.group = g ∧ e.state = .fixed)) with
  | none =>
    have missing := List.find?_eq_none.mp found es[i] (by simp)
    exact absurd (decide_eq_true ⟨group, fixed⟩) missing
  | some e =>
    have holds := List.find?_some found
    obtain ⟨sameGroup, isFixed⟩ := of_decide_eq_true holds
    obtain ⟨j, hj, rfl⟩ := Vector.mem_iff_getElem.mp (Vector.mem_toList_iff.mp (List.mem_of_find?_eq_some found))
    have same : (⟨j, hj⟩ : Fin 32) = i :=
      ok.oneLive ⟨j, hj⟩ i (by simp [isFixed, EntryState.live]) (by rw [fixed]; rfl) (by rw [group]; exact sameGroup)
    rw [← same]
    rfl

theorem find_fixed_none {es : Vector Entry 32} {g : BitVec 16} (absent : ¬ ∃ i : Fin 32, es[i].group = g ∧ es[i].state = .fixed) :
    es.toList.find? (fun e => decide (e.group = g ∧ e.state = .fixed)) = none := by
  rw [List.find?_eq_none]
  intro e mem found
  obtain ⟨i, hi, rfl⟩ := Vector.mem_iff_getElem.mp (Vector.mem_toList_iff.mp mem)
  exact absent ⟨⟨i, hi⟩, of_decide_eq_true found⟩

theorem phaseOf_fixed {es : Vector Entry 32} (ok : AuctionsOk es) {g : BitVec 16} (named : g ≠ 0) (t : Nat) {i : Fin 32}
    (group : es[i].group = g) (fixed : es[i].state = .fixed) :
    phaseOf g t es.toList = if t < es[i].tn.getD 0 * 1000000 then .opened
      else if t < es[i].tc.getD 0 * 1000000 then .window else .closed := by
  rw [phaseOf, if_neg named, find_fixed ok group fixed]
  rfl

theorem phaseOf_not_fixed {es : Vector Entry 32} {g : BitVec 16} (named : g ≠ 0) (t : Nat)
    (absent : ¬ ∃ i : Fin 32, es[i].group = g ∧ es[i].state = .fixed) :
    phaseOf g t es.toList
      = if ∃ i : Fin 32, es[i].group = g ∧ (es[i].state = .armed ∨ es[i].state = .drawing ∨ es[i].state = .tallying) then .opened
        else if ∃ i : Fin 32, es[i].group = g ∧ es[i].state = .closed then .closed else .none := by
  have open_ := any_entry_iff es (fun e => e.group = g ∧ (e.state = .armed ∨ e.state = .drawing ∨ e.state = .tallying))
  have closed := any_entry_iff es (fun e => e.group = g ∧ e.state = .closed)
  rw [phaseOf, if_neg named, find_fixed_none absent]
  dsimp only
  exact if_congr open_ rfl (if_congr closed rfl rfl)

/-! ### The stamp event (R99 to R112) -/

/-- The line whose oldest capture a stamp takes. -/
def RawSource.line : RawSource → Option (Fin 4)
  | .now => none
  | .capture i _ => some i

theorem overflowOf_eq (x : RawSource) (s : State) :
    overflowOf x s = (x.line.map (fun i => s.stamp.overflow[i])).getD false := by
  cases x <;> rfl

theorem takeCapture_captures (x : RawSource) (u : StampUnit) (i : Fin 4) :
    (takeCapture x u).captures[i] = if x.line = some i then u.captures[i].tail else u.captures[i] := by
  cases x with
  | now => rfl
  | capture l raw =>
    by_cases same : l = i
    · subst same
      simp [takeCapture, RawSource.line]
    · have different : l.val ≠ i.val := fun h => same (Fin.ext h)
      simp [takeCapture, RawSource.line, same, Vector.getElem_set_ne, different]

theorem takeCapture_overflow (x : RawSource) (u : StampUnit) (i : Fin 4) :
    (takeCapture x u).overflow[i] = if x.line = some i then false else u.overflow[i] := by
  cases x with
  | now => rfl
  | capture l raw =>
    by_cases same : l = i
    · subst same
      simp [takeCapture, RawSource.line]
    · have different : l.val ≠ i.val := fun h => same (Fin.ext h)
      simp [takeCapture, RawSource.line, same, Vector.getElem_set_ne, different]

/-- The source of the raw time that R101 gives a request. -/
theorem rawSource_spec {r : Request} {raw : Nat} {line : Option (Fin 4)} {s : State}
    (asked : (r.kind = 0 ∧ line = none ∧ raw = s.clock.present)
      ∨ (r.kind = 1 ∧ ∃ (i : Fin 4) (ts : List Nat), line = some i ∧ r.line.toNat = i.val ∧ s.stamp.captures[i] = raw :: ts)) :
    ∃ x, rawSource r s = some x ∧ x.line = line ∧ x.time s = raw := by
  obtain ⟨kind, rfl, rfl⟩ | ⟨kind, i, ts, rfl, isLine, queue⟩ := asked
  · exact ⟨.now, rawSource_now kind s, rfl, rfl⟩
  · exact ⟨.capture i raw, rawSource_line kind isLine queue, rfl, rfl⟩

/-- The phase of a stamp at time `t`, in the table as it was before the event (R104). -/
theorem phaseOf_spec {es : Vector Entry 32} (ok : AuctionsOk es) {g : BitVec 16} (named : g ≠ 0) (t : Nat) :
    let has := fun p : EntryState => ∃ i : Fin 32, es[i].group = g ∧ es[i].state = p
    (∀ i : Fin 32, es[i].group = g → es[i].state = .fixed →
      phaseOf g t es.toList = if t < es[i].tn.getD 0 * 1000000 then .opened
        else if t < es[i].tc.getD 0 * 1000000 then .window else .closed)
    ∧ (¬ has .fixed → (has .armed ∨ has .drawing ∨ has .tallying) → phaseOf g t es.toList = .opened)
    ∧ (¬ has .fixed → ¬ has .armed → ¬ has .drawing → ¬ has .tallying → has .closed → phaseOf g t es.toList = .closed)
    ∧ (¬ has .fixed → ¬ has .armed → ¬ has .drawing → ¬ has .tallying → ¬ has .closed → phaseOf g t es.toList = .none) := by
  intro has
  have none_open (armed : ¬ has .armed) (drawing : ¬ has .drawing) (tallying : ¬ has .tallying) :
      ¬ ∃ i : Fin 32, es[i].group = g ∧ (es[i].state = .armed ∨ es[i].state = .drawing ∨ es[i].state = .tallying) := by
    rintro ⟨i, group, isArmed | isDrawing | isTallying⟩
    · exact armed ⟨i, group, isArmed⟩
    · exact drawing ⟨i, group, isDrawing⟩
    · exact tallying ⟨i, group, isTallying⟩
  refine ⟨fun i group fixed => phaseOf_fixed ok named t group fixed, fun notFixed opens => ?_,
    fun notFixed armed drawing tallying closed => ?_, fun notFixed armed drawing tallying closed => ?_⟩
  · rw [phaseOf_not_fixed named t notFixed, if_pos]
    obtain ⟨i, group, state⟩ | ⟨i, group, state⟩ | ⟨i, group, state⟩ := opens
    · exact ⟨i, group, .inl state⟩
    · exact ⟨i, group, .inr (.inl state)⟩
    · exact ⟨i, group, .inr (.inr state)⟩
  · rw [phaseOf_not_fixed named t notFixed, if_neg (none_open armed drawing tallying), if_pos closed]
  · rw [phaseOf_not_fixed named t notFixed, if_neg (none_open armed drawing tallying), if_neg closed]

/-- The batch records and the open batch after a stamp, which closes the open batch first where it sets a cut (R111, R112). -/
theorem issueStamp_batches (r : Request) (x : RawSource) (n : Nat) (s : State) {st : Stamp} (stamp : stampFor r x n s = st)
    {cuts : Prop} (sets : setsCut s.stamp.floor s.stamp.floorSeq n st.time s.entries.toList = true ↔ cuts) :
    let t := issueStamp r x n s
    let h := if st.held then 1 else 0
    let bytes := (StampResponse.issued st).bytes
    let joins := fun b : Batch =>
      (b.count < s.cfg.batchSize → t.stamp.batch = some b)
      ∧ (s.cfg.batchSize ≤ b.count → t.stamp.batch = none
          ∧ (t.evid.queue.length < 496 →
              ∃ y, t.evid.queue.getLast? = some y ∧ y.body = .batch b (b.check ^^^ 0xFFFFFFFF#32) .count))
    ((cuts ∨ s.stamp.batch = none) → joins ⟨st.seq, 1, h, st.time, st.time, crcMore 0xFFFFFFFF#32 bytes⟩)
    ∧ ∀ b, s.stamp.batch = some b →
      (¬ cuts → joins { b with count := b.count + 1, held := b.held + h, lastTime := st.time, check := crcMore b.check bytes })
      ∧ (cuts → s.evid.queue.length < 496 → ∃ y more, t.evid.queue = s.evid.queue ++ y :: more ∧ y.number = s.evid.nextNumber
          ∧ y.body = .batch b (b.check ^^^ 0xFFFFFFFF#32) .cut) := by
  subst stamp
  have size : (afterCuts r x n s).cfg = s.cfg := by
    unfold afterCuts
    split <;> simp [stampMarked]
  have batch := afterCuts_batch r x n s
  have joined {b : Batch} (is : joinBatch (stampFor r x n s) (afterCuts r x n s).stamp.batch = b) := joinStamp_batch is
  rw [size] at joined
  refine ⟨fun fresh => joined ?_, fun b opened => ⟨fun uncut => joined ?_, fun cut room => ?_⟩⟩
  · have closed : (afterCuts r x n s).stamp.batch = none := by
      rw [batch]
      obtain cut | absent := fresh
      · rw [if_pos (sets.mpr cut)]
      · rw [absent, ite_self]
    rw [closed]
    rfl
  · rw [batch, if_neg (mt sets.mp uncut), opened]
    rfl
  · have marked : (stampMarked r x n s).stamp.batch = some b := (stampMarked_batch r x n s).trans opened
    have first : (afterCuts r x n s).evid.queue = s.evid.queue ++ [makeRecord (.batch b (crcFinal b.check) .cut)
        { stampMarked r x n s with stamp.batch := none }] := by
      rw [afterCuts, if_pos (sets.mpr cut), closeBatch, marked]
      exact congrArg Evidence.queue (handRecord_of_room (s := { stampMarked r x n s with stamp.batch := none }) room)
    obtain ⟨more, whole⟩ := (joinStamp_grows_from (stampFor r x n s) (afterCuts r x n s)).keepsQueue
    rw [first, List.append_assoc] at whole
    exact ⟨_, more, whole.symm, rfl, rfl⟩

/-- Settles O40. -/
theorem stampEventIssues : Obligations.StampEventIssues := by
  intro r rest n raw line s queue room isSet next asked rounded tcNs
  obtain ⟨x, source, rfl, time⟩ := rawSource_spec (s := { s with stamp.requests := rest }) asked
  have issued := answerRequest_issues (s := { s with stamp.requests := rest }) isSet next source
  have stamp := issueStamp_stamp r x n { s with stamp.requests := rest }
  have entries := issueStamp_entries r x n { s with stamp.requests := rest }
  have stTime : (stampFor r x n { s with stamp.requests := rest }).time = max rounded s.stamp.floor := by
    rw [stampFor, time]
  have stRounding : (stampFor r x n { s with stamp.requests := rest }).rounding
      = roundingOf s.cfg.rounding s.cfg.granularity raw := by
    rw [stampFor, time]
  have stHeld : (stampFor r x n { s with stamp.requests := rest }).held = decide (rounded < s.stamp.floor) := by
    rw [stampFor, time]
  have stPhase : (stampFor r x n { s with stamp.requests := rest }).phase
      = phaseOf r.group (stampFor r x n { s with stamp.requests := rest }).time s.entries.toList := rfl
  refine ⟨_, stampFor r x n { s with stamp.requests := rest },
    (exec_stampEvent_of_room queue room).trans (congrArg Host.Outcome.next issued), ?_⟩
  have kept : (takeCapture x { s.stamp with requests := rest }).requests = rest := by cases x <;> rfl
  have entry (i : Fin 32) : (issueStamp r x n { s with stamp.requests := rest }).entries[i]
      = s.entries[i].afterStamp s.stamp.floor s.stamp.floorSeq n (stampFor r x n { s with stamp.requests := rest }).time := by
    rw [entries]
    exact Vector.getElem_map _ i.isLt
  refine ⟨by rw [stamp]; exact kept, by rw [stamp], rfl, rfl, stTime, ?_, ?_, ?_, ?_, rfl, overflowOf_eq x _, rfl, rfl, rfl, ?_, ?_,
    issueStamp_batches r x n { s with stamp.requests := rest } rfl (setsCut_iff _ _ _ _ _), by rw [stamp]; rfl, by rw [stamp], by rw [stamp], by rw [stamp],
    fun i => ?_, fun i => ?_, fun i fixed uncut reached => ?_, fun i other => ?_, by simp, by simp, by simp, by simp, by simp, by simp⟩
  · rw [stRounding]
    exact roundingOf_exact_iff _ _ _
  · rw [stRounding]
    exact roundingOf_down_iff _ _ _
  · rw [stRounding]
    exact roundingOf_up_iff _ _ _
  · rw [stHeld, decide_eq_true_iff]
  · exact fun noGroup => if_pos noGroup
  · intro ok named
    rw [stPhase]
    exact phaseOf_spec ok named _
  · rw [stamp]
    exact takeCapture_captures x { s.stamp with requests := rest } i
  · rw [stamp]
    exact takeCapture_overflow x { s.stamp with requests := rest } i
  · rw [entry, Entry.afterStamp_of_due fixed uncut reached]
    refine ⟨fun above => by rw [if_pos above], fun equal => ?_⟩
    rw [if_neg (not_lt.mpr equal.le)]
  · rw [entry, Entry.afterStamp_of_not_due other]

end Sys2Proof.Machine
end

