-- ==== Sys2Proof/Proofs/Encodings.lean ====
section
/-! Frames, labels and descriptors read back from their own bytes (R16, R48, R155). -/

namespace Sys2Proof.Machine

/-! ### Fields in a run of bytes -/

/-- A field past a number that was written before it. -/
theorem field_skip {n v off len : Nat} {post : Bytes} (h : n ≤ off) :
    field off len (le n v ++ post) = field (off - n) len post := by
  rw [field_drop (by simpa using h), le_length]

/-- The last field of a run of bytes. -/
theorem field_last (n v : Nat) : field 0 n (le n v) = v % 256 ^ n := by
  have whole := field_le (n := n) (v := v) (post := [])
  rwa [List.append_nil] at whole

/-- A field past a time that was written before it. -/
theorem field_skip_time {t off len : Nat} {post : Bytes} (h : 11 ≤ off) :
    field off len (timeBytes t ++ post) = field (off - 11) len post := by
  rw [field_drop (by simpa using h), timeBytes_length]

theorem fieldTime_timeBytes {t : Nat} (range : t ≤ maxTime) (post : Bytes) : fieldTime 0 (timeBytes t ++ post) = t := by
  obtain ⟨seconds, nanos, fine, whole⟩ := time_parts range
  simp only [fieldTime, timeBytes, List.append_assoc, field_skip, field_le, Nat.reduceAdd, Nat.reduceSub, Nat.reduceLeDiff,
    Nat.mod_eq_of_lt seconds, Nat.mod_eq_of_lt nanos, Nat.mod_eq_of_lt fine]
  exact whole

theorem fieldNanos_timeBytes {t : Nat} (range : t ≤ maxTime) (post : Bytes) : fieldNanos 0 (timeBytes t ++ post) ≤ 999999999 := by
  obtain ⟨-, nanos, -, -⟩ := time_parts range
  simp only [fieldNanos, timeBytes, List.append_assoc, field_skip, field_le, Nat.reduceAdd, Nat.reduceSub, Nat.reduceLeDiff,
    Nat.mod_eq_of_lt nanos]
  omega

theorem fieldTime_drop {pre post : Bytes} {off : Nat} (h : pre.length ≤ off) :
    fieldTime off (pre ++ post) = fieldTime (off - pre.length) post := by
  simp only [fieldTime]
  rw [field_drop h, field_drop (by omega), field_drop (by omega), Nat.sub_add_comm h, Nat.sub_add_comm h]

theorem fieldNanos_drop {pre post : Bytes} {off : Nat} (h : pre.length ≤ off) :
    fieldNanos off (pre ++ post) = fieldNanos (off - pre.length) post := by
  simp only [fieldNanos]
  rw [field_drop (by omega), Nat.sub_add_comm h]

/-! ### Receipts (12 section 12.3) -/

/-- A receipt is read back wherever it stands. -/
theorem receiptAt_of_split {pre post : Bytes} {r : Receipt} {i : Nat} (place : pre.length = 22 + 14 * i) (peer : r.peer ≤ 15)
    (time : r.time ≤ maxTime) : receiptAt (pre ++ (r.bytes ++ post)) i = r := by
  have seqRange := r.seq.isLt
  have first : field (22 + 14 * i) 1 (pre ++ (r.bytes ++ post)) = r.peer := by
    rw [field_drop place.le, place, Nat.sub_self]
    simp only [Receipt.bytes, List.append_assoc, field_le]
    omega
  have second : field (23 + 14 * i) 2 (pre ++ (r.bytes ++ post)) = r.seq.toNat := by
    have offset : 23 + 14 * i - (22 + 14 * i) = 1 := by omega
    rw [field_drop (by omega), place, offset]
    simp only [Receipt.bytes, List.append_assoc, field_skip, field_le, Nat.reduceSub, Nat.le_refl]
    omega
  have third : fieldTime (25 + 14 * i) (pre ++ (r.bytes ++ post)) = r.time := by
    have offset : 25 + 14 * i - (22 + 14 * i) = 3 := by omega
    rw [fieldTime_drop (by omega), place, offset, Receipt.bytes, List.append_assoc, fieldTime_drop (by simp)]
    simpa using fieldTime_timeBytes time post
  rw [receiptAt, first, second, third, BitVec.ofNat_toNat, BitVec.setWidth_eq]

theorem receiptNanos_of_split {pre post : Bytes} {r : Receipt} {i : Nat} (place : pre.length = 22 + 14 * i)
    (time : r.time ≤ maxTime) : fieldNanos (25 + 14 * i) (pre ++ (r.bytes ++ post)) ≤ 999999999 := by
  have offset : 25 + 14 * i - (22 + 14 * i) = 3 := by omega
  rw [fieldNanos_drop (by omega), place, offset, Receipt.bytes, List.append_assoc, fieldNanos_drop (by simp)]
  simpa using fieldNanos_timeBytes time post

/-- The bytes of a list of receipts, cut before its `i`th one. -/
theorem receipts_split (rs : List Receipt) {i : Nat} (h : i < rs.length) :
    rs.flatMap Receipt.bytes
      = (rs.take i).flatMap Receipt.bytes ++ (rs[i].bytes ++ (rs.drop (i + 1)).flatMap Receipt.bytes) := by
  conv_lhs => rw [← List.take_append_drop i rs, List.drop_eq_getElem_cons h]
  rw [List.flatMap_append, List.flatMap_cons]

/-- The receipts of a beacon, behind the 22 bytes that come first. -/
theorem receipts_readBack {pre post : Bytes} {rs : List Receipt} (place : pre.length = 22)
    (peers : ∀ r ∈ rs, r.peer ≤ 15) (times : ∀ r ∈ rs, r.time ≤ maxTime) :
    (List.range rs.length).map (receiptAt (pre ++ (rs.flatMap Receipt.bytes ++ post))) = rs
      ∧ ∀ i < rs.length, fieldNanos (25 + 14 * i) (pre ++ (rs.flatMap Receipt.bytes ++ post)) ≤ 999999999 := by
  have whole {i : Nat} (h : i < rs.length) : pre ++ (rs.flatMap Receipt.bytes ++ post)
      = (pre ++ (rs.take i).flatMap Receipt.bytes) ++ (rs[i].bytes ++ ((rs.drop (i + 1)).flatMap Receipt.bytes ++ post)) := by
    rw [receipts_split rs h]
    simp only [List.append_assoc]
  have length {i : Nat} (h : i < rs.length) : (pre ++ (rs.take i).flatMap Receipt.bytes).length = 22 + 14 * i := by
    rw [List.length_append, place, receipts_length, List.length_take, Nat.min_eq_left h.le]
  refine ⟨List.ext_getElem (by simp) fun i low high => ?_, fun i h => ?_⟩
  · rw [List.getElem_map, List.getElem_range, whole high]
    exact receiptAt_of_split (length high) (peers _ (List.getElem_mem high)) (times _ (List.getElem_mem high))
  · rw [whole h]
    exact receiptNanos_of_split (length h) (times _ (List.getElem_mem h))

theorem peer_le_of_ordered {sender : Nat} {rs : List Receipt} (ordered : receiptsOrdered sender rs = true) :
    ∀ r ∈ rs, r.peer ≤ 15 := by
  induction rs with
  | nil => exact nofun
  | cons r rs ih =>
    cases rs with
    | nil =>
      intro y mem
      obtain rfl := List.mem_singleton.mp mem
      simp only [receiptsOrdered, Bool.and_eq_true, decide_eq_true_iff] at ordered
      exact ordered.1
    | cons r' rs =>
      intro y mem
      simp only [receiptsOrdered, Bool.and_eq_true, decide_eq_true_iff] at ordered
      obtain ⟨⟨⟨range, -⟩, -⟩, rest⟩ := ordered
      obtain rfl | mem := List.mem_cons.mp mem
      · exact range
      · exact ih rest y mem

/-! ### Frames (R16, R24) -/

/-- A frame whose check stands behind its body is whole where its length is the one its kind has. -/
theorem frameWhole_of_length {f : Frame} (length : frameLength f.bytes = some f.bytes.length) : frameWhole f.bytes = true := by
  have size : f.bytes.length - 4 = f.body.length := by simp [Frame.bytes]
  have check : field f.body.length 4 f.bytes = (crc32c f.body).toNat := by
    rw [Frame.bytes, field_drop (le_refl _), Nat.sub_self, field_last]
    exact Nat.mod_eq_of_lt (crc32c f.body).isLt
  have body : f.bytes.take f.body.length = f.body := List.take_left' rfl
  rw [frameWhole, decide_eq_true length, Bool.true_and, size, check, body, decide_eq_true rfl]

theorem Grade.ofCode_code (g : Grade) : Grade.ofCode (g.code % 256) = some g := by cases g <;> rfl

theorem SteerState.ofCode_code (x : SteerState) : SteerState.ofCode (x.code % 256) = some x := by cases x <;> rfl

theorem ofNat_toNat_mod {w m : Nat} (v : BitVec w) (h : 2 ^ w ≤ m) : BitVec.ofNat w (v.toNat % m) = v := by
  rw [Nat.mod_eq_of_lt (v.isLt.trans_le h), BitVec.ofNat_toNat, BitVec.setWidth_eq]

/-! What a frame of each kind is tested for and read as (R24 test 3). -/

theorem frameLength_of_beacon {bs : Bytes} (kind : field 0 1 bs = 1) :
    frameLength bs = if field 21 1 bs ≤ 15 then some (26 + 14 * field 21 1 bs) else none := by
  rw [frameLength, kind]
  rfl

theorem parseFrame_of_beacon {bs : Bytes} (kind : field 0 1 bs = 1) {g : Grade} {x : SteerState}
    (grade : Grade.ofCode (field 15 1 bs) = some g) (steer : SteerState.ofCode (field 16 1 bs) = some x) :
    parseFrame bs
      = if fieldNanos 4 bs ≤ 999999999 ∧ receiptNanosOk bs ∧ receiptsOrdered (frameSender bs) (receiptsOf bs) then
          some (.beacon { sender := frameSender bs, seq := BitVec.ofNat 16 (field 2 2 bs), t1 := fieldTime 4 bs, grade := g,
                          steer := x, bound := field 17 4 bs, receipts := receiptsOf bs })
        else none := by
  rw [parseFrame, kind, grade, steer]
  rfl

theorem parseFrame_of_draw {bs : Bytes} (kind : field 0 1 bs = 2) :
    parseFrame bs
      = if field 2 2 bs ≠ 0 ∧ field 4 8 bs ≤ maxTn then
          some (.draw { sender := frameSender bs, group := BitVec.ofNat 16 (field 2 2 bs), tn := field 4 8 bs,
                        share := BitVec.ofNat 32 (field 12 4 bs) })
        else none := by
  rw [parseFrame, kind]
  rfl

theorem parseFrame_of_tally {bs : Bytes} (kind : field 0 1 bs = 3) :
    parseFrame bs
      = if field 2 2 bs ≠ 0 ∧ field 4 8 bs ≤ maxTn ∧ field 14 4 bs < 3600000 then
          some (.tally { sender := frameSender bs, group := BitVec.ofNat 16 (field 2 2 bs), tn := field 4 8 bs,
                         members := BitVec.ofNat 16 (field 12 2 bs), offset := field 14 4 bs })
        else none := by
  rw [parseFrame, kind]
  rfl

theorem draw_readsBack {d : Draw} (range : (Frame.draw d).inRange) :
    frameWhole (Frame.draw d).bytes = true ∧ frameSender (Frame.draw d).bytes = d.sender
      ∧ parseFrame (Frame.draw d).bytes = some (.draw d) := by
  obtain ⟨sender, group, tn⟩ := range
  have groupRange := d.group.isLt
  have named : d.group.toNat ≠ 0 := fun zero => group (BitVec.eq_of_toNat_eq (by simpa using zero))
  simp only [maxTn] at tn
  have kind : field 0 1 (Frame.draw d).bytes = 2 := by simp [Frame.bytes, Frame.body, field_le]
  have from_ : frameSender (Frame.draw d).bytes = d.sender := by
    simp only [frameSender, Frame.bytes, Frame.body, List.append_assoc, field_skip, field_le, Nat.reduceSub, Nat.le_refl]
    omega
  have groupField : field 2 2 (Frame.draw d).bytes = d.group.toNat := by
    simp only [Frame.bytes, Frame.body, List.append_assoc, field_skip, field_le, Nat.reduceSub, Nat.reduceLeDiff, Nat.le_refl]
    omega
  have tnField : field 4 8 (Frame.draw d).bytes = d.tn := by
    simp only [Frame.bytes, Frame.body, List.append_assoc, field_skip, field_le, Nat.reduceSub, Nat.reduceLeDiff, Nat.le_refl]
    omega
  have shareField : BitVec.ofNat 32 (field 12 4 (Frame.draw d).bytes) = d.share := by
    simp only [Frame.bytes, Frame.body, List.append_assoc, field_skip, field_le, Nat.reduceSub, Nat.reduceLeDiff, Nat.le_refl]
    exact ofNat_toNat_mod d.share (by decide)
  refine ⟨frameWhole_of_length ?_, from_, ?_⟩
  · rw [frameLength, kind]
    simp [Frame.bytes, Frame.body]
  · rw [parseFrame_of_draw kind, groupField, tnField, if_pos ⟨named, by simpa [maxTn] using tn⟩, from_, shareField, BitVec.ofNat_toNat, BitVec.setWidth_eq]

theorem tally_readsBack {f : TallyFrame} (range : (Frame.tally f).inRange) :
    frameWhole (Frame.tally f).bytes = true ∧ frameSender (Frame.tally f).bytes = f.sender
      ∧ parseFrame (Frame.tally f).bytes = some (.tally f) := by
  obtain ⟨sender, group, tn, offset⟩ := range
  have groupRange := f.group.isLt
  have named : f.group.toNat ≠ 0 := fun zero => group (BitVec.eq_of_toNat_eq (by simpa using zero))
  simp only [maxTn] at tn
  have kind : field 0 1 (Frame.tally f).bytes = 3 := by simp [Frame.bytes, Frame.body, field_le]
  have from_ : frameSender (Frame.tally f).bytes = f.sender := by
    simp only [frameSender, Frame.bytes, Frame.body, List.append_assoc, field_skip, field_le, Nat.reduceSub, Nat.le_refl]
    omega
  have groupField : field 2 2 (Frame.tally f).bytes = f.group.toNat := by
    simp only [Frame.bytes, Frame.body, List.append_assoc, field_skip, field_le, Nat.reduceSub, Nat.reduceLeDiff, Nat.le_refl]
    omega
  have tnField : field 4 8 (Frame.tally f).bytes = f.tn := by
    simp only [Frame.bytes, Frame.body, List.append_assoc, field_skip, field_le, Nat.reduceSub, Nat.reduceLeDiff, Nat.le_refl]
    omega
  have membersField : BitVec.ofNat 16 (field 12 2 (Frame.tally f).bytes) = f.members := by
    simp only [Frame.bytes, Frame.body, setBytes, List.append_assoc, field_skip, field_le, Nat.reduceSub, Nat.reduceLeDiff,
      Nat.le_refl]
    exact ofNat_toNat_mod f.members (by decide)
  have offsetField : field 14 4 (Frame.tally f).bytes = f.offset := by
    simp only [Frame.bytes, Frame.body, setBytes, List.append_assoc, field_skip, field_le, Nat.reduceSub, Nat.reduceLeDiff,
      Nat.le_refl]
    omega
  refine ⟨frameWhole_of_length ?_, from_, ?_⟩
  · rw [frameLength, kind]
    simp [Frame.bytes, Frame.body]
  · rw [parseFrame_of_tally kind, groupField, tnField, offsetField, if_pos ⟨named, by simpa [maxTn] using tn, offset⟩, from_, membersField,
      BitVec.ofNat_toNat, BitVec.setWidth_eq]

/-- The bytes of a beacon before its receipts. -/
def beaconHead (b : Beacon) : Bytes :=
  le 1 1 ++ le 1 b.sender ++ le 2 b.seq.toNat ++ timeBytes b.t1 ++ le 1 b.grade.code ++ le 1 b.steer.code ++ le 4 b.bound
    ++ le 1 b.receipts.length

theorem beaconHead_length (b : Beacon) : (beaconHead b).length = 22 := by simp [beaconHead]

theorem beacon_bytes (b : Beacon) : (Frame.beacon b).bytes
    = beaconHead b ++ (b.receipts.flatMap Receipt.bytes ++ le 4 (crc32c (Frame.beacon b).body).toNat) := by
  rw [Frame.bytes, ← List.append_assoc]
  rfl

theorem beacon_readsBack {b : Beacon} (range : (Frame.beacon b).inRange) :
    frameWhole (Frame.beacon b).bytes = true ∧ frameSender (Frame.beacon b).bytes = b.sender
      ∧ parseFrame (Frame.beacon b).bytes = some (.beacon b) := by
  obtain ⟨sender, t1, bound, count, ordered, times⟩ := range
  simp only [max32] at bound
  have head : (Frame.beacon b).bytes = le 1 1 ++ (le 1 b.sender ++ (le 2 b.seq.toNat ++ (timeBytes b.t1 ++ (le 1 b.grade.code
      ++ (le 1 b.steer.code ++ (le 4 b.bound ++ (le 1 b.receipts.length ++ (b.receipts.flatMap Receipt.bytes
      ++ le 4 (crc32c (Frame.beacon b).body).toNat)))))))) := by
    rw [beacon_bytes, beaconHead]
    simp only [List.append_assoc]
  have kind : field 0 1 (Frame.beacon b).bytes = 1 := by rw [head, field_le]; rfl
  have from_ : frameSender (Frame.beacon b).bytes = b.sender := by
    simp only [frameSender, head, field_skip, field_le, Nat.reduceSub, Nat.le_refl]
    omega
  have seqField : BitVec.ofNat 16 (field 2 2 (Frame.beacon b).bytes) = b.seq := by
    simp only [head, field_skip, field_le, Nat.reduceSub, Nat.reduceLeDiff, Nat.le_refl]
    exact ofNat_toNat_mod b.seq (by decide)
  have gradeField : Grade.ofCode (field 15 1 (Frame.beacon b).bytes) = some b.grade := by
    simp only [head, field_skip, field_skip_time, field_le, Nat.reduceSub, Nat.reduceLeDiff, Nat.le_refl]
    exact b.grade.ofCode_code
  have steerField : SteerState.ofCode (field 16 1 (Frame.beacon b).bytes) = some b.steer := by
    simp only [head, field_skip, field_skip_time, field_le, Nat.reduceSub, Nat.reduceLeDiff, Nat.le_refl]
    exact b.steer.ofCode_code
  have boundField : field 17 4 (Frame.beacon b).bytes = b.bound := by
    simp only [head, field_skip, field_skip_time, field_le, Nat.reduceSub, Nat.reduceLeDiff, Nat.le_refl]
    omega
  have countField : field 21 1 (Frame.beacon b).bytes = b.receipts.length := by
    simp only [head, field_skip, field_skip_time, field_le, Nat.reduceSub, Nat.reduceLeDiff, Nat.le_refl]
    omega
  have t1Field : fieldTime 4 (Frame.beacon b).bytes = b.t1 := by
    rw [head, fieldTime_drop (by simp), fieldTime_drop (by simp), fieldTime_drop (by simp)]
    simpa using fieldTime_timeBytes t1 _
  have t1Nanos : fieldNanos 4 (Frame.beacon b).bytes ≤ 999999999 := by
    rw [head, fieldNanos_drop (by simp), fieldNanos_drop (by simp), fieldNanos_drop (by simp)]
    simpa using fieldNanos_timeBytes t1 _
  have receipts := receipts_readBack (post := le 4 (crc32c (Frame.beacon b).body).toNat) (beaconHead_length b)
    (peer_le_of_ordered ordered) times
  rw [← beacon_bytes] at receipts
  obtain ⟨receipts, nanos⟩ := receipts
  rw [← countField] at receipts nanos
  have list : receiptsOf (Frame.beacon b).bytes = b.receipts := receipts
  have nanosOk : receiptNanosOk (Frame.beacon b).bytes = true :=
    List.all_eq_true.mpr fun i mem => decide_eq_true (nanos i (List.mem_range.mp mem))
  have ordered' : receiptsOrdered (frameSender (Frame.beacon b).bytes) (receiptsOf (Frame.beacon b).bytes) = true := by
    rw [from_, list, ordered]
  have length : (Frame.beacon b).bytes.length = 26 + 14 * b.receipts.length := by
    rw [beacon_bytes, List.length_append, beaconHead_length, List.length_append, receipts_length, le_length]
    omega
  refine ⟨frameWhole_of_length ?_, from_, ?_⟩
  · rw [frameLength_of_beacon kind, countField, if_pos count, length]
  · rw [parseFrame_of_beacon kind gradeField steerField, if_pos ⟨t1Nanos, nanosOk, ordered'⟩, from_, seqField, t1Field, boundField, list]

/-- Settles O26. -/
theorem framesReadBack : Obligations.FramesReadBack := by
  intro f range
  cases f with
  | beacon b => exact beacon_readsBack range
  | draw d => exact draw_readsBack range
  | tally t => exact tally_readsBack range

/-! ### Labels (R48, R57) -/

theorem parseLabel_bytes {l : RefLabel} (range : l.second < 2 ^ 48) : parseLabel l.bytes = some l := by
  have head : l.bytes = le 6 l.second ++ (flagBytes l.locked ++ le 4 (crc32c (le 6 l.second ++ flagBytes l.locked)).toNat) := by
    rw [RefLabel.bytes, List.append_assoc]
  have length : l.bytes.length = 11 := by simp [RefLabel.bytes]
  have seven : (le 6 l.second ++ flagBytes l.locked).length = 7 := by simp
  have body : l.bytes.take 7 = le 6 l.second ++ flagBytes l.locked := List.take_left' seven
  have check : field 7 4 l.bytes = (crc32c (l.bytes.take 7)).toNat := by
    rw [body, RefLabel.bytes, field_drop seven.le, seven, Nat.sub_self, field_last]
    exact Nat.mod_eq_of_lt (crc32c _).isLt
  have second : field 0 6 l.bytes = l.second := by
    rw [head, field_le]
    omega
  have lock : field 6 1 l.bytes = flagNat l.locked := by
    rw [head, field_skip (le_refl 6), flagBytes, Nat.sub_self, field_le]
    cases l.locked <;> rfl
  have flag : flagNat l.locked ≤ 1 ∧ decide (flagNat l.locked = 1) = l.locked := by cases l.locked <;> decide
  rw [parseLabel, lock, if_pos ⟨length, check, flag.1⟩, second, flag.2]

theorem parseLabel_of_bad {bytes : Bytes}
    (bad : bytes.length ≠ 11 ∨ field 7 4 bytes ≠ (crc32c (bytes.take 7)).toNat ∨ 1 < field 6 1 bytes) :
    parseLabel bytes = none := by
  rw [parseLabel, if_neg]
  rintro ⟨length, check, lock⟩
  obtain wrong | wrong | wrong := bad
  · exact wrong length
  · exact wrong check
  · exact absurd lock (not_le.mpr wrong)

theorem exec_labelReceived_of_kept {s : State} (listening : refListening s = true) (kept : s.ref.cutLabel = false) (bytes : Bytes) :
    exec (.labelReceived bytes) s = .next { s with ref.label := parseLabel bytes } := by
  simp only [exec, execLabelReceived, listening, kept]
  rfl

/-- Settles O27. -/
theorem labelReceived : Obligations.LabelReceived := by
  intro s run fitted
  have listening : refListening s = true := decide_eq_true ⟨run, fitted⟩
  refine ⟨fun l kept range => ?_, fun bytes kept bad => ?_, fun bytes cut => ?_⟩
  · rw [exec_labelReceived_of_kept listening kept, parseLabel_bytes range]
  · rw [exec_labelReceived_of_kept listening kept, parseLabel_of_bad bad]
  · simp only [exec, execLabelReceived, listening, cut]
    rfl

/-! ### Descriptors (R155, R157) -/

theorem DescMode.ofCode_code (m : DescMode) : DescMode.ofCode m.code = some m := by cases m <;> rfl

theorem AddrControl.ofCode_code (a : AddrControl) : AddrControl.ofCode a.code = some a := by cases a <;> rfl

theorem DescMode.code_le (m : DescMode) : m.code ≤ 2 := by cases m <;> decide

theorem AddrControl.code_le (a : AddrControl) : a.code ≤ 2 := by cases a <;> decide

theorem DescMode.ofCode_of_le {n : Nat} (h : n ≤ 2) : ∃ m : DescMode, DescMode.ofCode n = some m ∧ m.code = n := by
  interval_cases n
  exacts [⟨.single, rfl, rfl⟩, ⟨.run, rfl, rfl⟩, ⟨.block, rfl, rfl⟩]

theorem AddrControl.ofCode_of_le {n : Nat} (h : n ≤ 2) : ∃ a : AddrControl, AddrControl.ofCode n = some a ∧ a.code = n := by
  interval_cases n
  exacts [⟨.fixed, rfl, rfl⟩, ⟨.increment, rfl, rfl⟩, ⟨.incrementRestart, rfl, rfl⟩]

/-- The copy that the bytes of a descriptor spell, its mode and address control apart. -/
def spelled (bs : Bytes) (m : DescMode) (a : AddrControl) : Descriptor :=
  { mode := m, control := a, linkEnable := decide (field 1 1 bs / 16 % 2 = 1), noticeOnDone := decide (field 1 1 bs / 32 % 2 = 1),
    linkIndex := field 2 1 bs, blockLength := zeroAs 256 (field 3 1 bs), position := field 4 1 bs,
    count := zeroAs 65536 (field 6 2 bs), base := field 8 8 bs, current := field 16 8 bs, last := field 24 8 bs }

/-- The tests of a descriptor whose mode and address control are known, in their order (R157). -/
theorem parseDescriptor_of_codes {bs : Bytes} {m : DescMode} {a : AddrControl} (mode : DescMode.ofCode (field 1 1 bs % 4) = some m)
    (control : AddrControl.ofCode (field 1 1 bs / 4 % 4) = some a) :
    parseDescriptor bs
      = if zeroAs 256 (field 3 1 bs) ≤ field 4 1 bs ∨ (field 1 1 bs / 16 % 2 = 1 ∧ 63 < field 2 1 bs) then .error .invalid
        else if field 8 8 bs % 64 = 0 ∧ field 16 8 bs % 64 = 0 then .ok (spelled bs m a) else .error .misaligned := by
  rw [parseDescriptor, mode, control]
  dsimp only
  by_cases long : zeroAs 256 (field 3 1 bs) ≤ field 4 1 bs
  · rw [if_pos long, if_pos (.inl long)]
  · rw [if_neg long]
    by_cases far : field 1 1 bs / 16 % 2 = 1 ∧ 63 < field 2 1 bs
    · rw [if_pos ⟨decide_eq_true far.1, far.2⟩, if_pos (.inr far)]
    · rw [if_neg fun ⟨linked, high⟩ => far ⟨of_decide_eq_true linked, high⟩, if_neg (not_or.mpr ⟨long, far⟩)]
      by_cases aligned : field 8 8 bs % 64 = 0 ∧ field 16 8 bs % 64 = 0
      · rw [if_neg (by simpa using aligned), if_pos aligned]
        rfl
      · rw [if_pos (by by_contra both; exact aligned (by simpa using both)), if_neg aligned]

/-- A mode or address control of code 3 names none (R157). -/
theorem parseDescriptor_of_code_three {bs : Bytes} (three : field 1 1 bs % 4 = 3 ∨ field 1 1 bs / 4 % 4 = 3) :
    parseDescriptor bs = .error .invalid := by
  rw [parseDescriptor]
  dsimp only
  split
  · next mode control =>
    obtain is | is := three
    · rw [is] at mode
      exact nomatch mode
    · rw [is] at control
      exact nomatch control
  · rfl

theorem descriptor_readsBack {d : Descriptor} {st : CompletionStatus} (length : 1 ≤ d.blockLength) (lengthMax : d.blockLength ≤ 256)
    (position : d.position < d.blockLength) (link : d.linkIndex ≤ 63) (count : 1 ≤ d.count) (countMax : d.count ≤ 65536)
    (base : d.base < 2 ^ 64) (current : d.current < 2 ^ 64) (last : d.last < 2 ^ 64) (baseAligned : d.base % 64 = 0)
    (currentAligned : d.current % 64 = 0) :
    (d.bytes .armed st).length = 32 ∧ field 0 1 (d.bytes .armed st) = 1 ∧ parseDescriptor (d.bytes .armed st) = .ok d := by
  have modeMax := d.mode.code_le
  have controlMax := d.control.code_le
  have flagMax (b : Bool) : flagNat b ≤ 1 := by cases b <;> decide
  have linkMax := flagMax d.linkEnable
  have noticeMax := flagMax d.noticeOnDone
  have flagIs (b : Bool) : decide (flagNat b = 1) = b := by cases b <;> decide
  have first : field 1 1 (d.bytes .armed st)
      = d.mode.code + 4 * d.control.code + 16 * flagNat d.linkEnable + 32 * flagNat d.noticeOnDone := by
    simp only [Descriptor.bytes, List.append_assoc, field_skip, field_le, Nat.reduceSub, Nat.le_refl]
    omega
  have mode : DescMode.ofCode (field 1 1 (d.bytes .armed st) % 4) = some d.mode := by
    rw [first, show (d.mode.code + 4 * d.control.code + 16 * flagNat d.linkEnable + 32 * flagNat d.noticeOnDone) % 4 = d.mode.code by
      omega, d.mode.ofCode_code]
  have control : AddrControl.ofCode (field 1 1 (d.bytes .armed st) / 4 % 4) = some d.control := by
    rw [first, show (d.mode.code + 4 * d.control.code + 16 * flagNat d.linkEnable + 32 * flagNat d.noticeOnDone) / 4 % 4
      = d.control.code by omega, d.control.ofCode_code]
  have linked : decide (field 1 1 (d.bytes .armed st) / 16 % 2 = 1) = d.linkEnable := by
    rw [first, show (d.mode.code + 4 * d.control.code + 16 * flagNat d.linkEnable + 32 * flagNat d.noticeOnDone) / 16 % 2
      = flagNat d.linkEnable by omega, flagIs]
  have noticed : decide (field 1 1 (d.bytes .armed st) / 32 % 2 = 1) = d.noticeOnDone := by
    rw [first, show (d.mode.code + 4 * d.control.code + 16 * flagNat d.linkEnable + 32 * flagNat d.noticeOnDone) / 32 % 2
      = flagNat d.noticeOnDone by omega, flagIs]
  have linkField : field 2 1 (d.bytes .armed st) = d.linkIndex := by
    simp only [Descriptor.bytes, List.append_assoc, field_skip, field_le, Nat.reduceSub, Nat.reduceLeDiff, Nat.le_refl]
    omega
  have lengthField : zeroAs 256 (field 3 1 (d.bytes .armed st)) = d.blockLength := by
    simp only [Descriptor.bytes, List.append_assoc, field_skip, field_le, Nat.reduceSub, Nat.reduceLeDiff, Nat.le_refl, zeroAs]
    split <;> omega
  have positionField : field 4 1 (d.bytes .armed st) = d.position := by
    simp only [Descriptor.bytes, List.append_assoc, field_skip, field_le, Nat.reduceSub, Nat.reduceLeDiff, Nat.le_refl]
    omega
  have countField : zeroAs 65536 (field 6 2 (d.bytes .armed st)) = d.count := by
    simp only [Descriptor.bytes, List.append_assoc, field_skip, field_le, Nat.reduceSub, Nat.reduceLeDiff, Nat.le_refl, zeroAs]
    split <;> omega
  have baseField : field 8 8 (d.bytes .armed st) = d.base := by
    simp only [Descriptor.bytes, List.append_assoc, field_skip, field_le, Nat.reduceSub, Nat.reduceLeDiff, Nat.le_refl]
    omega
  have currentField : field 16 8 (d.bytes .armed st) = d.current := by
    simp only [Descriptor.bytes, List.append_assoc, field_skip, field_le, Nat.reduceSub, Nat.reduceLeDiff, Nat.le_refl]
    omega
  have lastField : field 24 8 (d.bytes .armed st) = d.last := by
    simp only [Descriptor.bytes, List.append_assoc, field_skip, field_last, Nat.reduceSub, Nat.reduceLeDiff, Nat.le_refl]
    omega
  refine ⟨by simp [Descriptor.bytes], ?_, ?_⟩
  · simp only [Descriptor.bytes, List.append_assoc, field_le]
    rfl
  · rw [parseDescriptor_of_codes mode control, lengthField, positionField, linkField, baseField, currentField, if_neg (by omega),
      if_pos ⟨baseAligned, currentAligned⟩, spelled, linked, noticed, linkField, lengthField, positionField, countField, baseField,
      currentField, lastField]

/-- Settles O60. -/
theorem descriptorsReadBack : Obligations.DescriptorsReadBack := by
  refine ⟨fun d st length lengthMax position link count countMax base current last baseAligned currentAligned =>
    descriptor_readsBack length lengthMax position link count countMax base current last baseAligned currentAligned, ?_⟩
  intro bs b1 len invalid aligned
  have codes (valid : ¬ invalid) : ∃ m a, DescMode.ofCode (field 1 1 bs % 4) = some m ∧ m.code = field 1 1 bs % 4
      ∧ AddrControl.ofCode (field 1 1 bs / 4 % 4) = some a ∧ a.code = field 1 1 bs / 4 % 4 := by
    have modeLow : field 1 1 bs % 4 ≠ 3 := fun three => valid (.inl three)
    have controlLow : field 1 1 bs / 4 % 4 ≠ 3 := fun three => valid (.inr (.inl three))
    obtain ⟨m, mode, modeCode⟩ := DescMode.ofCode_of_le (n := field 1 1 bs % 4) (by omega)
    obtain ⟨a, control, controlCode⟩ := AddrControl.ofCode_of_le (n := field 1 1 bs / 4 % 4) (by omega)
    exact ⟨m, a, mode, modeCode, control, controlCode⟩
  refine ⟨fun bad => ?_, fun valid unaligned => ?_, fun valid isAligned => ?_⟩
  · by_cases three : field 1 1 bs % 4 = 3 ∨ field 1 1 bs / 4 % 4 = 3
    · exact parseDescriptor_of_code_three three
    · obtain ⟨modeLow, controlLow⟩ := not_or.mp three
      obtain ⟨m, mode, -⟩ := DescMode.ofCode_of_le (n := field 1 1 bs % 4) (by omega)
      obtain ⟨a, control, -⟩ := AddrControl.ofCode_of_le (n := field 1 1 bs / 4 % 4) (by omega)
      rw [parseDescriptor_of_codes mode control, if_pos]
      obtain is | is | rest := bad
      · exact absurd is modeLow
      · exact absurd is controlLow
      · exact rest
  · obtain ⟨m, a, mode, -, control, -⟩ := codes valid
    exact (parseDescriptor_of_codes mode control).trans
      ((if_neg fun bad => valid (.inr (.inr bad))).trans (if_neg unaligned))
  · obtain ⟨m, a, mode, modeCode, control, controlCode⟩ := codes valid
    refine ⟨spelled bs m a, ?_, modeCode, controlCode, decide_eq_true_iff, decide_eq_true_iff, rfl, rfl, rfl, rfl, rfl, rfl, rfl⟩
    exact (parseDescriptor_of_codes mode control).trans
      ((if_neg fun bad => valid (.inr (.inr bad))).trans (if_pos isAligned))

end Sys2Proof.Machine
end

