-- ==== Sys2Proof/Proofs/PeerLinkFrames.lean ====
section
/-! The segment, the transmitter, and the tests of a received frame (chapter 02). -/

namespace Sys2Proof.Machine

/-! ### The segment (R14, R21) -/

theorem turnIdle_eq (osc : Nat) (l : Link) :
    l.turnIdle osc = { l with busy := false, tx := match l.tx with | .deferring _ => .deferring osc | y => y } := by
  unfold Link.turnIdle
  cases tx : l.tx <;> rfl

/-- Settles O19. -/
theorem segmentIsSensed : Obligations.SegmentIsSensed := by
  intro s config
  refine ⟨?_, fun idle silent => ?_, fun f idle sending => ?_, fun busy => ?_⟩
  · exact congrArg (fun l => Host.Outcome.next { s with link := l }) (turnIdle_eq s.osc s.link)
  · have silent' : s.link.tx.isSending = false := by
      cases tx : s.link.tx with
      | idle => rfl
      | deferring _ => rfl
      | sending f => exact absurd tx (silent f)
    simp [exec, execFrameArrival, Link.arrive, idle, silent', config]
  · simp [exec, execFrameArrival, Link.arrive, idle, sending, Tx.isSending, config]
  · simp [exec, execFrameArrival, Link.arrive, busy, config]

/-! ### Sending (R15, R19 to R23) -/

/-- Settles O20. -/
theorem framesAreSent : Obligations.FramesAreSent := by
  refine ⟨fun x s run series due => ?_, fun since s run deferring idle wait => ⟨fun beacon => ?_, fun w ws noBeacon queue => ?_⟩⟩
  · have reached : s.phase = .run ∧ seriesDue s.link.series = true := ⟨run, by simp [seriesDue, series, due]⟩
    refine (if_pos reached).trans (congrArg (fun l => Host.Outcome.next { s with link := l }) ?_)
    cases tx : s.link.tx <;> simp [settleTx, tx, Link.hasWaiting, series, Series.taken]
  · have due : s.phase = .run ∧ accessDue s = true := by
      refine ⟨run, ?_⟩
      simp [accessDue, deferring, idle, Link.hasWaiting, beacon, accessWait, wait]
    exact (if_pos due).trans (congrArg Host.Outcome.next (if_pos beacon))
  · have due : s.phase = .run ∧ accessDue s = true := by
      refine ⟨run, ?_⟩
      simp [accessDue, deferring, idle, Link.hasWaiting, queue, accessWait, wait]
    refine (if_pos due).trans (congrArg Host.Outcome.next ?_)
    rw [departFrame, if_neg (by simp [noBeacon]), queue]

theorem settleTx_of_idle {l : Link} (osc : Nat) (idle : l.tx = .idle) :
    settleTx osc l = { l with tx := if l.hasWaiting then .deferring osc else .idle } := by
  unfold settleTx
  rw [idle]
  dsimp only
  split
  · rfl
  · rw [← idle]

/-- Settles O21. -/
theorem frameSentEndsSending : Obligations.FrameSentEndsSending := by
  intro f s sending bounded
  refine ⟨historyAfter f s.link.history, ?_, fun b is => ?_, fun other => ?_⟩
  · simp only [exec, execFrameSent, sending]
    exact congrArg (fun l => Host.Outcome.next { s with link := l })
      (settleTx_of_idle (l := { s.link with tx := .idle, history := historyAfter f s.link.history }) s.osc rfl)
  · subst is
    refine ⟨List.drop_suffix _ _, ?_⟩
    simp only [historyAfter, addHistory, List.length_drop, List.length_append, List.length_singleton]
    omega
  · cases f with
    | beacon b => exact absurd rfl (other b)
    | draw d => rfl
    | tally t => rfl

/-! ### The tests of a frame (R24) -/

theorem frameWhole_iff (bs : Bytes) :
    frameWhole bs = true ↔
      (field 0 1 bs = 1 ∧ field 21 1 bs ≤ 15 ∧ bs.length = 26 + 14 * field 21 1 bs ∨ field 0 1 bs = 2 ∧ bs.length = 20
        ∨ field 0 1 bs = 3 ∧ bs.length = 22)
      ∧ field (bs.length - 4) 4 bs = (crc32c (bs.take (bs.length - 4))).toNat := by
  rw [frameWhole, Bool.and_eq_true, decide_eq_true_iff, decide_eq_true_iff]
  refine and_congr_left fun _ => ?_
  unfold frameLength
  split
  · next kind =>
    simp only [kind]
    split
    · next few => simp [few, eq_comm]
    · next many => simp [many]
  · next kind => simp [kind, eq_comm]
  · next kind => simp [kind, eq_comm]
  · next one two three =>
    refine iff_of_false nofun ?_
    rintro (⟨kind, -⟩ | ⟨kind, -⟩ | ⟨kind, -⟩)
    · exact one kind
    · exact two kind
    · exact three kind

theorem inSet_iff (i : Nat) (m : BitVec 16) : inSet i m = true ↔ i ≤ 15 ∧ m.getLsbD i = true := by
  rw [inSet, Bool.and_eq_true, decide_eq_true_iff]
  exact and_congr_left fun _ => Nat.lt_succ_iff

theorem receiptsOrdered_iff (sender : Nat) (rs : List Receipt) :
    receiptsOrdered sender rs = true ↔
      (∀ r ∈ rs, r.peer ≤ 15 ∧ r.peer ≠ sender) ∧ rs.Pairwise (fun a b => a.peer < b.peer) := by
  rw [← List.isChain_iff_pairwise]
  induction rs with
  | nil => simp [receiptsOrdered]
  | cons r rs ih =>
    cases rs with
    | nil => simp [receiptsOrdered]
    | cons r' rs =>
      rw [receiptsOrdered, Bool.and_eq_true, ih, List.isChain_cons_cons]
      simp only [Bool.and_eq_true, decide_eq_true_iff, List.forall_mem_cons]
      tauto

/-- The receipts of a beacon stand in order exactly where no one of them names an id that R24 forbids it. -/
theorem receiptsOf_ordered_iff (sender : Nat) (bs : Bytes) :
    receiptsOrdered sender (receiptsOf bs) = true ↔
      ∀ i < field 21 1 bs, field (22 + 14 * i) 1 bs ≤ 15 ∧ field (22 + 14 * i) 1 bs ≠ sender
        ∧ ∀ j < i, field (22 + 14 * j) 1 bs < field (22 + 14 * i) 1 bs := by
  rw [receiptsOrdered_iff, receiptsOf, List.pairwise_map, List.pairwise_iff_getElem]
  simp only [List.mem_map, List.mem_range, forall_exists_index, and_imp, forall_apply_eq_imp_iff₂, List.length_range,
    List.getElem_range]
  constructor
  · exact fun ⟨range, rising⟩ i few => ⟨(range i few).1, (range i few).2, fun j before => rising j i (before.trans few) few before⟩
  · exact fun all => ⟨fun i few => ⟨(all i few).1, (all i few).2.1⟩, fun j i _ few before => (all i few).2.2 j before⟩

theorem receiptNanosOk_iff (bs : Bytes) :
    receiptNanosOk bs = true ↔ ∀ i < field 21 1 bs, field (31 + 14 * i) 4 bs ≤ 999999999 := by
  simp only [receiptNanosOk, List.all_eq_true, List.mem_range, decide_eq_true_iff]
  refine forall₂_congr fun i _ => ?_
  rw [fieldNanos, show 25 + 14 * i + 6 = 31 + 14 * i by omega]

theorem Grade.ofCode_eq_none_iff (n : Nat) : Grade.ofCode n = none ↔ 3 < n := by
  obtain _ | _ | _ | _ | n := n
  iterate 4 exact iff_of_false nofun (by decide)
  exact iff_of_true rfl (by omega)

theorem SteerState.ofCode_eq_none_iff (n : Nat) : SteerState.ofCode n = none ↔ 3 < n := by
  obtain _ | _ | _ | _ | n := n
  iterate 4 exact iff_of_false nofun (by decide)
  exact iff_of_true rfl (by omega)

/-- A beacon is malformed by its codes, its times or its receipts (R24 test 3). -/
theorem parseFrame_of_beacon_eq_none_iff {bs : Bytes} (kind : field 0 1 bs = 1) :
    parseFrame bs = none ↔
      999999999 < field 10 4 bs ∨ 3 < field 15 1 bs ∨ 3 < field 16 1 bs
        ∨ ∃ i, i < field 21 1 bs ∧ (999999999 < field (31 + 14 * i) 4 bs ∨ 15 < field (22 + 14 * i) 1 bs
            ∨ field (22 + 14 * i) 1 bs = field 1 1 bs
            ∨ ∃ j, j < i ∧ field (22 + 14 * i) 1 bs ≤ field (22 + 14 * j) 1 bs) := by
  cases grade : Grade.ofCode (field 15 1 bs) with
  | none =>
    have high := (Grade.ofCode_eq_none_iff _).mp grade
    have bad : parseFrame bs = none := by
      rw [parseFrame, kind, grade]
      rfl
    exact iff_of_true bad (.inr (.inl high))
  | some g =>
    have gradeLow : ¬ 3 < field 15 1 bs := fun high => nomatch ((Grade.ofCode_eq_none_iff _).mpr high).symm.trans grade
    cases steer : SteerState.ofCode (field 16 1 bs) with
    | none =>
      have high := (SteerState.ofCode_eq_none_iff _).mp steer
      have bad : parseFrame bs = none := by
        rw [parseFrame, kind, grade, steer]
        rfl
      exact iff_of_true bad (.inr (.inr (.inl high)))
    | some x =>
      have steerLow : ¬ 3 < field 16 1 bs := fun high => nomatch ((SteerState.ofCode_eq_none_iff _).mpr high).symm.trans steer
      rw [parseFrame_of_beacon kind grade steer]
      simp only [ite_eq_right_iff, reduceCtorEq, imp_false, receiptNanosOk_iff, receiptsOf_ordered_iff, gradeLow, steerLow, false_or,
        fieldNanos, frameSender, not_and_or, not_forall, exists_prop, not_le, not_lt, not_not, ← exists_or, ← and_or_left,
        Nat.reduceAdd, ne_eq]

theorem parseFrame_of_draw_eq_none_iff {bs : Bytes} (kind : field 0 1 bs = 2) :
    parseFrame bs = none ↔ field 2 2 bs = 0 ∨ 281474976710655 * 1000 + 999 < field 4 8 bs := by
  rw [parseFrame_of_draw kind]
  simp only [ite_eq_right_iff, reduceCtorEq, imp_false, not_and_or, not_le, not_not, ne_eq, maxTn]

theorem parseFrame_of_tally_eq_none_iff {bs : Bytes} (kind : field 0 1 bs = 3) :
    parseFrame bs = none ↔ (field 2 2 bs = 0 ∨ 281474976710655 * 1000 + 999 < field 4 8 bs) ∨ 3600000 ≤ field 14 4 bs := by
  rw [parseFrame_of_tally kind]
  simp only [ite_eq_right_iff, reduceCtorEq, imp_false, not_and_or, not_le, not_lt, not_not, ne_eq, maxTn, or_assoc]

/-! ### The outcomes of the tests (R24, R28, R29) -/

theorem exec_frameReceived_of_run {x : Incoming} {rest : List Incoming} {s : State} (front : s.link.incoming = x :: rest)
    (run : s.phase = .run) (kept : x.discarded = false) (bytes : Bytes) (damaged : Bool) :
    exec (.frameReceived bytes damaged) s
      = .next (checkFrame bytes (damaged || x.overlapped) x.time { s with link.incoming := rest }) := by
  simp only [exec, execFrameReceived, front]
  rw [if_neg (by simp [kept, run])]

theorem exec_frameReceived_of_dropped {x : Incoming} {rest : List Incoming} {s : State} (front : s.link.incoming = x :: rest)
    (dropped : x.discarded = true ∨ s.phase = .config) (bytes : Bytes) (damaged : Bool) :
    exec (.frameReceived bytes damaged) s = .next { s with link.incoming := rest } := by
  simp only [exec, execFrameReceived, front]
  rw [if_pos (by simpa using dropped)]

theorem checkFrame_damaged {bytes : Bytes} {damaged : Bool} (bad : damaged = true ∨ frameWhole bytes = false) (t : Nat) (s : State) :
    checkFrame bytes damaged t s = countError s :=
  if_pos (by simpa using bad)

theorem checkFrame_foreign {bytes : Bytes} (whole : frameWhole bytes = true) {s : State}
    (foreign : inSet (frameSender bytes) s.cfg.membership = false) (t : Nat) : checkFrame bytes false t s = countForeign s := by
  rw [checkFrame, if_neg (by simp [whole]), if_pos foreign]

theorem checkFrame_malformed {bytes : Bytes} (whole : frameWhole bytes = true) {s : State}
    (member : inSet (frameSender bytes) s.cfg.membership = true) (malformed : parseFrame bytes = none) (t : Nat) :
    checkFrame bytes false t s = countError s := by
  rw [checkFrame, if_neg (by simp [whole]), if_neg (by simp [member]), malformed]

theorem checkFrame_parsed {bytes : Bytes} {f : Frame} (whole : frameWhole bytes = true) {s : State}
    (member : inSet (frameSender bytes) s.cfg.membership = true) (parsed : parseFrame bytes = some f) (t : Nat) :
    checkFrame bytes false t s = if f.sender = s.cfg.stationId then conflict f t s else deliver f t s := by
  rw [checkFrame, if_neg (by simp [whole]), if_neg (by simp [member]), parsed]

/-- Neither a conflict nor a delivery touches more of the interface than the receipt set (R25 to R27). -/
theorem conflict_link (f : Frame) (t : Nat) (s : State) : (conflict f t s).link = s.link := by
  cases f <;> simp [conflict]

theorem deliver_link (f : Frame) (t : Nat) (s : State) :
    (deliver f t s).link = { s.link with receipts := (deliver f t s).link.receipts } := by
  cases f <;> simp [deliver, acceptBeacon]

/-- Settles O22. -/
theorem rejectedFramesAreCounted : Obligations.RejectedFramesAreCounted := by
  intro x rest bytes damaged s front received kind sender n peer whole member malformed
  have wholeIff : frameWhole bytes = true ↔ whole := frameWhole_iff bytes
  have memberIff : inSet (frameSender bytes) s.cfg.membership = true ↔ member := inSet_iff _ _
  have malformedIff (isWhole : whole) : parseFrame bytes = none ↔ malformed := by
    obtain ⟨isKind, -⟩ := isWhole
    obtain ⟨one, -⟩ | ⟨two, -⟩ | ⟨three, -⟩ := isKind
    · rw [parseFrame_of_beacon_eq_none_iff one]
      simp [malformed, kind, one, peer, sender, n]
    · rw [parseFrame_of_draw_eq_none_iff two]
      simp [malformed, kind, two]
    · rw [parseFrame_of_tally_eq_none_iff three]
      simp [malformed, kind, three]
  have clean (undamaged : damaged = false) (single : x.overlapped = false) : (damaged || x.overlapped) = false := by
    simp [undamaged, single]
  refine ⟨fun config => exec_frameReceived_of_dropped front (.inr config) bytes damaged, fun run => ⟨fun dropped => ?_,
    fun kept bad => ?_, fun kept undamaged single isWhole foreign => ?_, fun kept undamaged single isWhole isMember bad => ?_,
    fun kept undamaged single isWhole isMember good => ?_⟩⟩
  · exact exec_frameReceived_of_dropped front (.inl dropped) bytes damaged
  · refine (exec_frameReceived_of_run front run kept bytes damaged).trans (congrArg Host.Outcome.next ?_)
    refine checkFrame_damaged ?_ _ _
    obtain bad | bad | bad := bad
    · exact .inl (by simp [bad])
    · exact .inl (by simp [bad])
    · exact .inr (Bool.eq_false_iff.mpr (mt wholeIff.mp bad))
  · refine (exec_frameReceived_of_run front run kept bytes damaged).trans (congrArg Host.Outcome.next ?_)
    rw [clean undamaged single]
    exact checkFrame_foreign (s := { s with link.incoming := rest }) (wholeIff.mpr isWhole) (Bool.eq_false_iff.mpr (mt memberIff.mp foreign)) _
  · refine (exec_frameReceived_of_run front run kept bytes damaged).trans (congrArg Host.Outcome.next ?_)
    rw [clean undamaged single]
    exact checkFrame_malformed (s := { s with link.incoming := rest }) (wholeIff.mpr isWhole) (memberIff.mpr isMember) ((malformedIff isWhole).mpr bad) _
  · have ran := exec_frameReceived_of_run front run kept bytes damaged
    obtain ⟨f, parsed⟩ := Option.ne_none_iff_exists'.mp (mt (malformedIff isWhole).mp good)
    rw [clean undamaged single, checkFrame_parsed (s := { s with link.incoming := rest }) (wholeIff.mpr isWhole)
      (memberIff.mpr isMember) parsed] at ran
    refine ⟨_, ran, ?_⟩
    split
    · rw [conflict_link]
      exact ⟨rfl, rfl, rfl⟩
    · rw [deliver_link]
      exact ⟨rfl, rfl, rfl⟩

/-! ### The station's own id (R25, R44) -/

/-- A frame in the ranges of R17 and R18 from a member passes every test (R24). -/
theorem exec_frameReceived_of_inRange {f : Frame} {x : Incoming} {rest : List Incoming} {s : State} (range : f.inRange)
    (member : inSet f.sender s.cfg.membership = true) (run : s.phase = .run) (front : s.link.incoming = x :: rest)
    (kept : x.discarded = false) (single : x.overlapped = false) :
    exec (.frameReceived f.bytes false) s
      = .next (if f.sender = s.cfg.stationId then conflict f x.time { s with link.incoming := rest }
          else deliver f x.time { s with link.incoming := rest }) := by
  obtain ⟨whole, sender, parsed⟩ := framesReadBack f range
  rw [exec_frameReceived_of_run front run kept, single]
  exact congrArg Host.Outcome.next
    (checkFrame_parsed (s := { s with link.incoming := rest }) whole (by rw [sender]; exact member) parsed _)

/-- A record that finds room sets no flag (R144). -/
theorem handRecord_port_of_room {b : Body} {s : State} (room : s.evid.queue.length < b.capacity) :
    (handRecord b s).port = s.port := by
  rw [handRecord, if_pos (by rw [admitted, decide_eq_true_iff]; exact room)]
  simp

/-- Settles O23. -/
theorem ownIdFrameIsAConflict : Obligations.OwnIdFrameIsAConflict := by
  intro f x rest s range own member run front kept single
  have received := exec_frameReceived_of_inRange range (own ▸ member) run front kept single
  rw [if_pos own] at received
  refine ⟨fun other => ?_, fun b is room => ⟨_, received, ?_⟩⟩
  · rw [received]
    cases f with
    | beacon b => exact absurd rfl (other b)
    | draw d => rfl
    | tally t => rfl
  · subst is
    have flags : (handRecord (.idConflict s.cfg.stationId b.seq b.t1 x.time)
        (raise .idConflict { s with link.incoming := rest })).port.flags = s.port.flags ||| 16#14 := by
      rw [handRecord_port_of_room (b := .idConflict s.cfg.stationId b.seq b.t1 x.time)
        (s := raise .idConflict { s with link.incoming := rest }) room]
      rfl
    refine ⟨by simp [conflict], by simp [conflict], flags, ?_, by simp [conflict], by simp [conflict], by simp [conflict],
      by simp [conflict], by simp [conflict], by simp [conflict]⟩
    exact recordAdded_of_handed (u := raise .idConflict { s with link.incoming := rest }) rfl rfl rfl rfl (by simp [conflict])
      (by simp [conflict]) (by simp [conflict])

end Sys2Proof.Machine
end

