-- ==== Sys2Proof/Proofs/AcceptedBeacons.lean ====
section
/-! An accepted beacon: the peer's receipt and record, the estimate or the miss, and the change of state (R26, R31 to R35, R43). -/

namespace Sys2Proof.Machine

/-! ### The Peer Table -/

theorem putPeer_peers (p : Peer) (s : State) : (putPeer p s).peers = s.peers.map (fun q => if q.id = p.id then p else q) := rfl

theorem find_map_put_other {p : Peer} {i : Nat} (other : i ≠ p.id) (ps : List Peer) :
    (ps.map (fun q => if q.id = p.id then p else q)).find? (fun q => decide (q.id = i)) = ps.find? (fun q => decide (q.id = i)) := by
  induction ps with
  | nil => rfl
  | cons q ps ih =>
    by_cases named : q.id = p.id
    · have notPut : ¬ p.id = i := fun same => other same.symm
      have notOld : ¬ q.id = i := fun same => other (same.symm.trans named)
      simp [named, notPut, ih]
    · simp only [List.map_cons, if_neg named, List.find?_cons, ih]

theorem find_map_put_same {p old : Peer} {ps : List Peer} (found : ps.find? (fun q => decide (q.id = p.id)) = some old) :
    (ps.map (fun q => if q.id = p.id then p else q)).find? (fun q => decide (q.id = p.id)) = some p := by
  induction ps with
  | nil => exact nomatch found
  | cons q ps ih =>
    by_cases named : q.id = p.id
    · simp [named]
    · rw [List.find?_cons_of_neg (by simpa using named)] at found
      rw [List.map_cons, if_neg named, List.find?_cons_of_neg (by simpa using named)]
      exact ih found

theorem findPeer_id {i : Nat} {s : State} {p : Peer} (found : findPeer i s = some p) : p.id = i := by
  have holds := List.find?_some found
  exact of_decide_eq_true holds

theorem findPeer_of_peers {s t : State} (peers : t.peers = s.peers) (i : Nat) : findPeer i t = findPeer i s := by
  rw [findPeer, findPeer, peers]

theorem findPeer_putPeer_other {p : Peer} {i : Nat} (other : i ≠ p.id) (s : State) : findPeer i (putPeer p s) = findPeer i s :=
  find_map_put_other other s.peers

theorem findPeer_putPeer_same {p old : Peer} {s : State} (found : findPeer p.id s = some old) :
    findPeer p.id (putPeer p s) = some p := find_map_put_same found

/-! ### A committed record (R43) -/

theorem commitPeer_peers (old : PeerState) (cause : PeerCause) (p : Peer) (s : State) :
    (commitPeer old cause p s).peers = (putPeer p s).peers := by
  unfold commitPeer
  dsimp only
  split
  · rfl
  · simp

theorem commitPeer_of_same {old : PeerState} {p : Peer} (same : p.state = old) (cause : PeerCause) (s : State) :
    commitPeer old cause p s = putPeer p s := if_pos same

/-- A change of state makes a PEER record and sets the flag. -/
theorem commitPeer_of_change {old : PeerState} {p : Peer} (change : p.state ≠ old) (cause : PeerCause) {s u : State}
    (evid : u.evid = s.evid) :
    flagSet .peer (commitPeer old cause p u) = true ∧ recordAdded (.peer (peerBody old cause p)) s (commitPeer old cause p u) := by
  rw [commitPeer, if_neg change]
  refine ⟨raise_sets .peer _, recordAdded_of_handed (u := putPeer p u) ?_ ?_ ?_ rfl (by simp) (by simp) (by simp)⟩
  · rw [← evid]; rfl
  · rw [← evid]; rfl
  · rw [← evid]; rfl

/-! ### The record of a heard peer (R26, R31 to R35) -/

/-- A receipt that names a beacon of the history (R26). -/
theorem resolveReceipt_matched {own : Nat} {history : List Sent} {b : Beacon} {m : Receipt} {h : Sent}
    (named : b.receipts.find? (fun r => decide (r.peer = own)) = some m)
    (sent : history.find? (fun y => decide (y.seq = m.seq)) = some h) :
    resolveReceipt own history b = .matched h.seq h.time m.time := by
  rw [resolveReceipt, named]
  dsimp only
  rw [sent]

theorem resolveReceipt_missed {own : Nat} {history : List Sent} {b : Beacon}
    (missed : ∀ m, b.receipts.find? (fun r => decide (r.peer = own)) = some m →
      history.find? (fun y => decide (y.seq = m.seq)) = none) :
    resolveReceipt own history b = .none ∨ resolveReceipt own history b = .unmatched := by
  unfold resolveReceipt
  split
  · exact .inl rfl
  · next m named =>
    rw [missed m named]
    exact .inr rfl

theorem takeReceipt_eq (t1 t2 : Nat) (r : ReceiptResult) (p : Peer) :
    p.takeReceipt t1 t2 r = { p with
      pairing := (p.takeReceipt t1 t2 r).pairing, miss := (p.takeReceipt t1 t2 r).miss
      estimate := (p.takeReceipt t1 t2 r).estimate, valid := (p.takeReceipt t1 t2 r).valid } := by
  unfold Peer.takeReceipt
  split
  · rfl
  · split
    · rfl
    · split <;> rfl

/-- A miss of a record without a pairing (R32). -/
theorem takeReceipt_missed_unpaired {r : ReceiptResult} (missed : r = .none ∨ r = .unmatched) {p : Peer} (unpaired : p.pairing = none)
    (t1 t2 : Nat) : p.takeReceipt t1 t2 r = { p with miss := min (p.miss + 1) 4 } := by
  obtain rfl | rfl := missed <;> simp [Peer.takeReceipt, unpaired]

/-- A miss of a paired record: the fourth one loses the pairing (R32). -/
theorem takeReceipt_missed_paired {r : ReceiptResult} (missed : r = .none ∨ r = .unmatched) {p : Peer} (paired : p.pairing ≠ none)
    (t1 t2 : Nat) :
    p.takeReceipt t1 t2 r = if 4 ≤ p.miss + 1 then { p with pairing := none, estimate := none, valid := false, miss := 0 }
      else { p with miss := p.miss + 1 } := by
  obtain ⟨x, pairing⟩ := Option.ne_none_iff_exists'.mp paired
  obtain rfl | rfl := missed <;> simp [Peer.takeReceipt, pairing]

theorem heardState_of_unpaired {p : Peer} (unpaired : p.pairing = none) : p.heardState = .heard := by
  rw [Peer.heardState, unpaired]

theorem heardState_of_paired {p : Peer} (paired : p.pairing ≠ none) : p.heardState = if p.mark then .excluded else .paired := by
  obtain ⟨x, pairing⟩ := Option.ne_none_iff_exists'.mp paired
  rw [Peer.heardState, pairing]

theorem onBeacon_of_taken {b : Beacon} {t2 : Nat} {r : ReceiptResult} {p q : Peer}
    (taken : (p.takeBeacon b t2).takeReceipt b.t1 t2 r = q) : p.onBeacon b t2 r = { q with state := q.heardState } := by
  rw [Peer.onBeacon, taken]

theorem onBeacon_matched (b : Beacon) (t2 : Nat) (own : BitVec 16) (t3 t4 : Nat) (p : Peer) :
    p.onBeacon b t2 (.matched own t3 t4)
      = { p.takeBeacon b t2 with
          pairing := some ⟨own, t3, t4⟩, miss := 0, estimate := some (estimateOf b.t1 t2 t3 t4), valid := true
          state := if p.mark then .excluded else .paired } := rfl

theorem onBeacon_kept {r : ReceiptResult} (missed : r = .none ∨ r = .unmatched) {p : Peer} (paired : p.pairing ≠ none)
    (few : p.miss < 3) (b : Beacon) (t2 : Nat) :
    p.onBeacon b t2 r = { p.takeBeacon b t2 with miss := p.miss + 1, state := if p.mark then .excluded else .paired } := by
  have taken := takeReceipt_missed_paired (p := p.takeBeacon b t2) missed paired b.t1 t2
  have notFourth : ¬ 4 ≤ (p.takeBeacon b t2).miss + 1 := by
    simp only [Peer.takeBeacon]
    omega
  rw [if_neg notFourth] at taken
  exact (onBeacon_of_taken taken).trans
    (congrArg (fun x => { p.takeBeacon b t2 with miss := p.miss + 1, state := x }) (heardState_of_paired paired))

theorem onBeacon_lost {r : ReceiptResult} (missed : r = .none ∨ r = .unmatched) {p : Peer} (paired : p.pairing ≠ none)
    (many : 3 ≤ p.miss) (b : Beacon) (t2 : Nat) :
    p.onBeacon b t2 r
      = { p.takeBeacon b t2 with pairing := none, estimate := none, valid := false, miss := 0, state := .heard } := by
  have taken := takeReceipt_missed_paired (p := p.takeBeacon b t2) missed paired b.t1 t2
  have fourth : 4 ≤ (p.takeBeacon b t2).miss + 1 := by
    simp only [Peer.takeBeacon]
    omega
  rw [if_pos fourth] at taken
  exact onBeacon_of_taken taken

theorem onBeacon_unpaired {r : ReceiptResult} (missed : r = .none ∨ r = .unmatched) {p : Peer} (unpaired : p.pairing = none)
    (b : Beacon) (t2 : Nat) :
    p.onBeacon b t2 r = { p.takeBeacon b t2 with miss := min (p.miss + 1) 4, state := .heard } := by
  exact (onBeacon_of_taken (takeReceipt_missed_unpaired (p := p.takeBeacon b t2) missed unpaired b.t1 t2)).trans
    (congrArg (fun x => { p.takeBeacon b t2 with miss := min (p.miss + 1) 4, state := x }) (heardState_of_unpaired unpaired))

/-- A beacon sets what it advertises and leaves the judging of the record alone (R31). -/
theorem onBeacon_takes (b : Beacon) (t2 : Nat) (r : ReceiptResult) (p : Peer) :
    p.onBeacon b t2 r = { p.takeBeacon b t2 with
      pairing := (p.onBeacon b t2 r).pairing, miss := (p.onBeacon b t2 r).miss, estimate := (p.onBeacon b t2 r).estimate
      valid := (p.onBeacon b t2 r).valid, state := (p.onBeacon b t2 r).state } := by
  exact congrArg (fun q : Peer => { q with state := (p.onBeacon b t2 r).state }) (takeReceipt_eq b.t1 t2 r (p.takeBeacon b t2))

/-! ### Delivery (R23, R26) -/

theorem mem_putReceipt (r : Receipt) (rs : List Receipt) : r ∈ putReceipt r rs := by
  induction rs with
  | nil => exact List.mem_singleton_self r
  | cons x xs ih =>
    unfold putReceipt
    split
    · exact List.mem_cons_self
    · split
      · exact List.mem_cons_self
      · exact List.mem_cons_of_mem x ih

theorem beaconReport_of_found {b : Beacon} {s : State} {p : Peer} (found : findPeer b.sender s = some p) (t2 : Nat)
    (r : ReceiptResult) :
    beaconReport b t2 r s
      = commitPeer p.state (beaconCause p.state (p.onBeacon b t2 r).state) (p.onBeacon b t2 r) s := by
  rw [beaconReport, found]

/-- Settles O24. -/
theorem acceptedBeaconUpdatesPeer : Obligations.AcceptedBeaconUpdatesPeer := by
  intro b p x rest s range member other run front kept single found named sent missed
  have received := exec_frameReceived_of_inRange range member run front kept single
  rw [if_neg (by exact other)] at received
  -- the station with the receipt set, to which the report is made
  obtain ⟨u, heard⟩ : ∃ u : State, u = { s with link := { s.link with
    incoming := rest, receipts := putReceipt ⟨b.sender, b.seq, x.time⟩ s.link.receipts } } := ⟨_, rfl⟩
  obtain ⟨r, result⟩ : ∃ r, resolveReceipt s.cfg.stationId s.link.history b = r := ⟨_, rfl⟩
  have foundThere : findPeer b.sender u = some p := heard ▸ found
  have delivered : deliver (.beacon b) x.time { s with link.incoming := rest }
      = commitPeer p.state (beaconCause p.state (p.onBeacon b x.time r).state) (p.onBeacon b x.time r) u := by
    rw [← beaconReport_of_found foundThere, heard, ← result]
    rfl
  rw [delivered] at received
  have takes := onBeacon_takes b x.time r p
  have missedResult (miss : missed) : r = .none ∨ r = .unmatched := result ▸ resolveReceipt_missed miss
  obtain ⟨q, onBeacon⟩ : ∃ q, p.onBeacon b x.time r = q := ⟨_, rfl⟩
  have id : q.id = b.sender := by
    have kept : (p.onBeacon b x.time r).id = p.id := by rw [takes]; rfl
    rw [← onBeacon, kept, findPeer_id found]
  have changes (cause : PeerCause) (is : beaconCause p.state q.state = cause) (change : q.state ≠ p.state) :
      flagSet .peer (commitPeer p.state (beaconCause p.state q.state) q u) = true
      ∧ recordAdded (.peer { id := b.sender, old := p.state, new := q.state, cause := cause, estimate := q.estimate,
                             valid := q.valid, disagree := q.disagree, agree := q.agree, miss := q.miss, seq := b.seq,
                             grade := b.grade }) s (commitPeer p.state (beaconCause p.state q.state) q u) := by
    have made := commitPeer_of_change change (beaconCause p.state q.state) (s := s) (u := u) (by rw [heard])
    have body : peerBody p.state (beaconCause p.state q.state) q
        = { id := b.sender, old := p.state, new := q.state, cause := cause, estimate := q.estimate,
            valid := q.valid, disagree := q.disagree, agree := q.agree, miss := q.miss, seq := b.seq, grade := b.grade } := by
      rw [peerBody, id, is, ← onBeacon, takes]
      rfl
    rwa [body] at made
  rw [onBeacon] at received
  refine ⟨_, q, received, ?_, fun i different => ?_, ?_, ?_, by rw [← onBeacon, takes]; rfl, by rw [← onBeacon, takes]; rfl,
    by rw [← onBeacon, takes]; rfl, by rw [← onBeacon, takes]; rfl, by rw [← onBeacon, takes]; rfl, by rw [← onBeacon, takes]; rfl,
    by rw [← onBeacon, takes]; rfl, by rw [← onBeacon, takes]; rfl, fun m h isNamed isSent => ?_, fun miss paired few => ?_,
    fun miss paired many => ?_, fun miss unpaired => ?_, ⟨fun same => ?_, fun old new => ?_, fun old new => ?_, fun old new => ?_,
    fun old new => ?_, fun old new => ?_⟩, by simp [heard], by simp [heard], by simp [heard], by simp [heard], by simp [heard],
    by simp [heard]⟩
  · rw [findPeer_of_peers (commitPeer_peers _ _ _ _), ← id]
    exact findPeer_putPeer_same (id ▸ foundThere)
  · rw [findPeer_of_peers (commitPeer_peers _ _ _ _), findPeer_putPeer_other (id ▸ different), heard]
    rfl
  · simp only [commitPeer_keeps, heard]
    exact mem_putReceipt _ _
  · simp [heard]
  · obtain rfl : r = .matched h.seq h.time m.time := result ▸ resolveReceipt_matched isNamed isSent
    rw [← onBeacon, onBeacon_matched]
    refine ⟨rfl, rfl, rfl, ?_, rfl⟩
    simp only [estimateOf, Int.fdiv_eq_ediv_of_nonneg _ (by decide : (0 : Int) ≤ 2)]
  · rw [← onBeacon, onBeacon_kept (missedResult miss) paired few]
    exact ⟨rfl, rfl, rfl, rfl, rfl⟩
  · rw [← onBeacon, onBeacon_lost (missedResult miss) paired many]
    exact ⟨rfl, rfl, rfl, rfl, rfl⟩
  · rw [← onBeacon, onBeacon_unpaired (missedResult miss) unpaired]
    exact ⟨unpaired, rfl, rfl, rfl, rfl⟩
  · rw [commitPeer_of_same same, heard]
    exact ⟨rfl, rfl⟩
  · exact changes _ (by rw [old, new]; rfl) (by rw [old, new]; decide)
  · exact changes _ (by rw [old, new]; rfl) (by rw [old, new]; decide)
  · obtain old | old := old
    · exact changes _ (by rw [old, new]; rfl) (by rw [old, new]; decide)
    · exact changes _ (by rw [old, new]; rfl) (by rw [old, new]; decide)
  · obtain old | old | old := old
    · exact changes _ (by rw [old, new]; rfl) (by rw [old, new]; decide)
    · exact changes _ (by rw [old, new]; rfl) (by rw [old, new]; decide)
    · exact changes _ (by rw [old, new]; rfl) (by rw [old, new]; decide)
  · obtain old | old := old
    · exact changes _ (by rw [old, new]; rfl) (by rw [old, new]; decide)
    · exact changes _ (by rw [old, new]; rfl) (by rw [old, new]; decide)

end Sys2Proof.Machine
end

