-- ==== Sys2Proof/Proofs/AuctionReports.lean ====
section
/-! An accepted DRAW or TALLY at the entry it names (R126, R128), with the maps and sets by station id. -/

namespace Sys2Proof.Machine

/-! ### Maps and sets by station id -/

theorem lookup_putKey_same {α : Type} (k : Nat) (v : α) (m : List (Nat × α)) : (putKey k v m).lookup k = some v := by
  induction m with
  | nil => simp [putKey]
  | cons x m ih =>
    obtain ⟨k', v'⟩ := x
    unfold putKey
    split
    · simp
    · split
      · simp
      · next different => rw [List.lookup_cons, beq_false_of_ne different, ih]

theorem lookup_putKey_other {α : Type} {k q : Nat} (other : q ≠ k) (v : α) (m : List (Nat × α)) :
    (putKey k v m).lookup q = m.lookup q := by
  have passes : (q == k) = false := beq_false_of_ne other
  induction m with
  | nil => simp [putKey, List.lookup_cons, passes]
  | cons x m ih =>
    obtain ⟨k', v'⟩ := x
    unfold putKey
    split
    · rw [List.lookup_cons, passes]
    · split
      · next same =>
        subst same
        rw [List.lookup_cons, passes, List.lookup_cons, passes]
      · rw [List.lookup_cons, List.lookup_cons, ih]

theorem lookup_dropKey_same {α : Type} (k : Nat) (m : List (Nat × α)) : (dropKey k m).lookup k = none := by
  rw [List.lookup_eq_none_iff]
  intro x mem
  have kept := (List.mem_filter.mp mem).2
  have different : k ≠ x.1 := fun same => by simp [same] at kept
  exact bne_iff_ne.mpr different

theorem lookup_dropKey_other {α : Type} {k q : Nat} (other : q ≠ k) (m : List (Nat × α)) :
    (dropKey k m).lookup q = m.lookup q := by
  induction m with
  | nil => rfl
  | cons x m ih =>
    obtain ⟨k', v'⟩ := x
    by_cases same : k' = k
    · have passes : (q == k') = false := beq_false_of_ne (same ▸ other)
      rw [dropKey, List.filter_cons_of_neg (by simp [same]), List.lookup_cons, passes]
      exact ih
    · rw [dropKey, List.filter_cons_of_pos (by simp [same]), List.lookup_cons, List.lookup_cons]
      split
      · rfl
      · exact ih

theorem inSet_addTo_same {i : Nat} (h : i ≤ 15) (m : BitVec 16) : inSet i (addTo i m) = true := by
  rw [inSet_iff]
  refine ⟨h, ?_⟩
  rw [addTo, BitVec.getLsbD_or, BitVec.getLsbD_twoPow]
  simp
  omega

theorem inSet_addTo_other {i q : Nat} (other : q ≠ i) (m : BitVec 16) : inSet q (addTo i m) = inSet q m := by
  have different : ¬ i = q := fun same => other same.symm
  simp [inSet, addTo, BitVec.getLsbD_or, BitVec.getLsbD_twoPow, different]

/-! ### The entry a report is matched to (R126) -/

theorem find_of_unique {α : Type} {p : α → Bool} {a : α} {l : List α} (mem : a ∈ l) (holds : p a = true)
    (unique : ∀ x ∈ l, p x = true → x = a) : l.find? p = some a := by
  cases found : l.find? p with
  | none => exact absurd holds (List.find?_eq_none.mp found a mem)
  | some x => rw [unique x (List.mem_of_find?_eq_some found) (List.find?_some found)]

/-- A live entry of the named group and Tn is matched, and where none is live one that is CLOSED or VOID. -/
theorem matchEntry_of_named {s : State} (ok : AuctionsOk s.entries) {group : BitVec 16} {tn : Nat} {i : Fin 32}
    (sameGroup : s.entries[i].group = group) (sameTn : s.entries[i].tn = some tn)
    (only : s.entries[i].state.live = true ∨ ∀ j : Fin 32, j ≠ i → ¬ (s.entries[j].group = group ∧ s.entries[j].tn = some tn))
    (present : s.entries[i].state.live = true ∨ s.entries[i].state = .closed ∨ s.entries[i].state = .void) :
    matchEntry group tn s = some i := by
  have named : decide (s.entries[i].group = group ∧ s.entries[i].tn = some tn) = true := decide_eq_true ⟨sameGroup, sameTn⟩
  by_cases live : s.entries[i].state.live = true
  · have found := find_of_unique (p := fun j : Fin 32 => decide (s.entries[j].group = group ∧ s.entries[j].tn = some tn)
        && s.entries[j].state.live) (List.mem_finRange i) (by rw [named, live]; rfl) fun j _ holds => by
      obtain ⟨both, alive⟩ := Bool.and_eq_true_iff.mp holds
      obtain ⟨group', -⟩ := of_decide_eq_true both
      exact ok.oneLive j i alive live (group'.trans sameGroup.symm)
    rw [matchEntry]
    rw [found]
  · have alone := only.resolve_left live
    have ended := present.resolve_left live
    have noneLive : (List.finRange 32).find? (fun j : Fin 32 =>
        decide (s.entries[j].group = group ∧ s.entries[j].tn = some tn) && s.entries[j].state.live) = none := by
      rw [List.find?_eq_none]
      intro j _ holds
      obtain ⟨both, alive⟩ := Bool.and_eq_true_iff.mp holds
      by_cases same : j = i
      · exact live (same ▸ alive)
      · exact alone j same (of_decide_eq_true both)
    have found := find_of_unique (p := fun j : Fin 32 => decide (s.entries[j].group = group ∧ s.entries[j].tn = some tn
        ∧ (s.entries[j].state = .closed ∨ s.entries[j].state = .void))) (List.mem_finRange i)
        (decide_eq_true ⟨sameGroup, sameTn, ended⟩) fun j _ holds => by
      obtain ⟨group', tn', -⟩ := of_decide_eq_true holds
      by_contra different
      exact alone j different ⟨group', tn'⟩
    rw [matchEntry]
    rw [noneLive]
    exact found

theorem drawReport_of_named {s : State} {d : Draw} {i : Fin 32} (named : matchEntry d.group d.tn s = some i) :
    drawReport d s = setEntry i (s.entries[i].drawReport d.sender d.share) s := by
  rw [drawReport, named]

theorem tallyReport_of_named {s : State} {f : TallyFrame} {i : Fin 32} (named : matchEntry f.group f.tn s = some i) :
    tallyReport f s = setEntry i (s.entries[i].tallyReport f.sender f.members f.offset) s := by
  rw [tallyReport, named]

/-! ### What a report does to the entry (R126, R128) -/

theorem Entry.drawReport_taken {e : Entry} (window : 0 < e.window) (state : e.state = .armed ∨ e.state = .drawing) (p : Nat)
    (x : BitVec 32) : e.drawReport p x = e.takeShare p x := by
  obtain state | state := state <;> rw [Entry.drawReport, state] <;> exact if_pos window

theorem Entry.drawReport_late {e : Entry}
    (late : e.state = .tallying ∨ e.state = .fixed ∨ e.state = .closed ∨ (e.window = 0 ∧ (e.state = .armed ∨ e.state = .drawing)))
    (p : Nat) (x : BitVec 32) : e.drawReport p x = e.countLate := by
  obtain state | state | state | ⟨window, state⟩ := late
  · rw [Entry.drawReport, state]
  · rw [Entry.drawReport, state]
  · rw [Entry.drawReport, state]
  · have shut : ¬ 0 < e.window := by omega
    obtain state | state := state <;> rw [Entry.drawReport, state] <;> exact if_neg shut

theorem Entry.drawReport_void {e : Entry} (state : e.state = .void) (p : Nat) (x : BitVec 32) : e.drawReport p x = e := by
  rw [Entry.drawReport, state]

theorem Entry.tallyReport_taken {e : Entry} {o : Nat} (inside : o < e.window) (state : e.state = .drawing ∨ e.state = .tallying)
    (p : Nat) (m : BitVec 16) : e.tallyReport p m o = e.takeTally p m o := by
  obtain state | state := state <;> rw [Entry.tallyReport, state] <;> exact if_pos ⟨by omega, inside⟩

theorem Entry.tallyReport_late {e : Entry} {o : Nat}
    (late : e.state = .armed ∨ e.state = .fixed ∨ e.state = .closed
      ∨ (e.window ≤ o ∧ (e.state = .drawing ∨ e.state = .tallying))) (p : Nat) (m : BitVec 16) :
    e.tallyReport p m o = e.countLate := by
  obtain state | state | state | ⟨outside, state⟩ := late
  · rw [Entry.tallyReport, state]
  · rw [Entry.tallyReport, state]
  · rw [Entry.tallyReport, state]
  · obtain state | state := state <;> rw [Entry.tallyReport, state] <;> exact if_neg fun inside => absurd inside.2 (not_lt.mpr outside)

theorem Entry.tallyReport_void {e : Entry} (state : e.state = .void) (p : Nat) (m : BitVec 16) (o : Nat) :
    e.tallyReport p m o = e := by
  rw [Entry.tallyReport, state]

theorem Entry.takeShare_conflicting {e : Entry} {p : Nat} (conflict : inSet p e.conflicts = true) (x : BitVec 32) :
    e.takeShare p x = e := if_pos conflict

theorem Entry.takeShare_first {e : Entry} {p : Nat} (clear : inSet p e.conflicts = false) (fresh : e.shares.lookup p = none)
    (x : BitVec 32) : e.takeShare p x = { e with shares := putKey p x e.shares } := by
  rw [Entry.takeShare, if_neg (by simp [clear]), fresh]

theorem Entry.takeShare_again {e : Entry} {p : Nat} {y : BitVec 32} (clear : inSet p e.conflicts = false)
    (sent : e.shares.lookup p = some y) (x : BitVec 32) :
    e.takeShare p x = if x = y then e else { e with conflicts := addTo p e.conflicts, shares := dropKey p e.shares } := by
  rw [Entry.takeShare, if_neg (by simp [clear]), sent]

theorem Entry.takeTally_first {e : Entry} {p : Nat} (fresh : e.tallies.lookup p = none) (m : BitVec 16) (o : Nat) :
    e.takeTally p m o = { e with tallies := putKey p (.tally m o) e.tallies } := by
  rw [Entry.takeTally, fresh]

theorem Entry.takeTally_again {e : Entry} {p : Nat} {m' : BitVec 16} {o' : Nat} (sent : e.tallies.lookup p = some (.tally m' o'))
    (m : BitVec 16) (o : Nat) :
    e.takeTally p m o = if m = m' ∧ o = o' then e else { e with tallies := putKey p .dropped e.tallies } := by
  rw [Entry.takeTally, sent]

theorem Entry.takeTally_dropped {e : Entry} {p : Nat} (sent : e.tallies.lookup p = some .dropped) (m : BitVec 16) (o : Nat) :
    e.takeTally p m o = e := by
  rw [Entry.takeTally, sent]

/-! ### Delivery (R24, R27) -/

/-- Settles O25. -/
theorem acceptedAuctionFramesReachTheEntry : Obligations.AcceptedAuctionFramesReachTheEntry := by
  intro i x rest s ok run front kept single e after late named
  have matched {group : BitVec 16} {tn : Nat} (names : named group tn)
      (present : e.state.live = true ∨ e.state = .closed ∨ e.state = .void) :
      matchEntry group tn { s with link.incoming := rest } = some i :=
    matchEntry_of_named (s := { s with link.incoming := rest }) ok names.1 names.2.1 names.2.2 present
  have aliveAs {st : EntryState} (state : e.state = st) (live : st.live = true) :
      e.state.live = true ∨ e.state = .closed ∨ e.state = .void := .inl (state ▸ live)
  refine ⟨?_, ?_⟩
  · intro d range member other names got
    have received := exec_frameReceived_of_inRange range member run front kept single
    rw [if_neg (by exact other)] at received
    have reported (present : e.state.live = true ∨ e.state = .closed ∨ e.state = .void) :
        got (after (e.drawReport d.sender d.share)) :=
      received.trans (congrArg Host.Outcome.next (drawReport_of_named (matched names present)))
    refine ⟨fun window state => ?_, fun isLate => ?_, fun state => ?_⟩
    · have got' := reported (state.elim (fun armed => aliveAs armed rfl) (fun drawing => aliveAs drawing rfl))
      rw [Entry.drawReport_taken window state] at got'
      refine ⟨fun conflict => ?_, fun clear fresh => ?_, fun clear sent => ?_, fun y clear sent different => ?_⟩
      · rwa [Entry.takeShare_conflicting conflict] at got'
      · rw [Entry.takeShare_first clear fresh] at got'
        exact ⟨_, got', lookup_putKey_same _ _ _, fun q different => lookup_putKey_other different _ _⟩
      · rwa [Entry.takeShare_again clear sent, if_pos rfl] at got'
      · rw [Entry.takeShare_again clear sent, if_neg (fun same => different same.symm)] at got'
        exact ⟨_, _, got', lookup_dropKey_same _ _, inSet_addTo_same range.1 _,
          fun q different => ⟨lookup_dropKey_other different _, inSet_addTo_other different _⟩⟩
    · have present : e.state.live = true ∨ e.state = .closed ∨ e.state = .void := by
        obtain state | state | state | ⟨-, state | state⟩ := isLate
        · exact aliveAs state rfl
        · exact aliveAs state rfl
        · exact .inr (.inl state)
        · exact aliveAs state rfl
        · exact aliveAs state rfl
      have got' := reported present
      rwa [Entry.drawReport_late isLate] at got'
    · have got' := reported (.inr (.inr state))
      rwa [Entry.drawReport_void state] at got'
  · intro f range member other names got stored
    have received := exec_frameReceived_of_inRange range member run front kept single
    rw [if_neg (by exact other)] at received
    have reported (present : e.state.live = true ∨ e.state = .closed ∨ e.state = .void) :
        got (after (e.tallyReport f.sender f.members f.offset)) :=
      received.trans (congrArg Host.Outcome.next (tallyReport_of_named (matched names present)))
    refine ⟨fun inside state => ?_, fun isLate => ?_, fun state => ?_⟩
    · have got' := reported (state.elim (fun drawing => aliveAs drawing rfl) (fun tallying => aliveAs tallying rfl))
      rw [Entry.tallyReport_taken inside state] at got'
      refine ⟨fun fresh => ?_, fun sent => ?_, fun m o sent different => ?_, fun sent => ?_⟩
      · rw [Entry.takeTally_first fresh] at got'
        exact ⟨_, got', lookup_putKey_same _ _ _, fun q different => lookup_putKey_other different _ _⟩
      · rwa [Entry.takeTally_again sent, if_pos ⟨rfl, rfl⟩] at got'
      · rw [Entry.takeTally_again sent, if_neg] at got'
        · exact ⟨_, got', lookup_putKey_same _ _ _, fun q different => lookup_putKey_other different _ _⟩
        · exact fun same => different.elim (fun members => members same.1.symm) (fun offset => offset same.2.symm)
      · rwa [Entry.takeTally_dropped sent] at got'
    · have present : e.state.live = true ∨ e.state = .closed ∨ e.state = .void := by
        obtain state | state | state | ⟨-, state | state⟩ := isLate
        · exact aliveAs state rfl
        · exact aliveAs state rfl
        · exact .inr (.inl state)
        · exact aliveAs state rfl
        · exact aliveAs state rfl
      have got' := reported present
      rwa [Entry.tallyReport_late isLate] at got'
    · have got' := reported (.inr (.inr state))
      rwa [Entry.tallyReport_void state] at got'

end Sys2Proof.Machine
end

