-- ==== Sys2Proof/Proofs/ReferenceEdges.lean ====
section
/-! An edge and the edge timeout in each reference state (R49 to R52, R56, R79, R87). -/

namespace Sys2Proof.Machine

/-! ### A change out of a state (R56, R87) -/

theorem changeGrade_steer (g : Grade) (cause : GradeCause) (s : State) :
    (changeGrade g cause s).steer = { s.steer with grade := g } := by
  unfold changeGrade
  split
  · next same => rw [same]
  · simp

theorem leaveState_steer (old : RefState) (cause : RefCause) (s : State) :
    (leaveState old cause s).steer = { s.steer with grade := (leaveState old cause s).steer.grade } := by
  have demoted : ∀ u : State, (demote u).steer = { u.steer with grade := (demote u).steer.grade } := fun u => by
    unfold demote
    split
    · rw [changeGrade_steer]
    · rfl
  unfold leaveState
  dsimp only
  split
  · rw [demoted]
    simp
  · simp

/-- Only an ANCHORED grade and a reference that was VALID make the change more than its record. -/
theorem leaveState_of_unbacked {old : RefState} {s : State} (unbacked : old ≠ .valid ∨ s.steer.grade ≠ .anchored)
    (cause : RefCause) : leaveState old cause s = recordReference old cause s := by
  unfold leaveState
  dsimp only
  split
  · next valid => exact if_neg (by simpa using unbacked.resolve_left fun different => different valid)
  · rfl

theorem leaveState_not_anchored (cause : RefCause) (s : State) : (leaveState .valid cause s).steer.grade ≠ .anchored := by
  rw [leaveState_grade]
  split
  · exact demotedGrade_ne_anchored _
  · next kept => exact fun anchored => kept ⟨rfl, anchored⟩

/-- The body of the REFERENCE record of a change from `old` to the state `r` is in (R56). -/
def referenceBody (old : RefState) (cause : RefCause) (r : Reference) : Body :=
  .reference { old := old, new := r.state, cause := cause, verdict := r.verdict, theta := r.theta, latestGood := r.latestGood,
               run := r.run, disagree := r.disagree, agree := r.agree }

theorem recordReference_eq (old : RefState) (cause : RefCause) (s : State) :
    recordReference old cause s = raise .reference (handRecord (referenceBody old cause s.ref) s) := rfl

theorem recordReference_sets (old : RefState) (cause : RefCause) (s : State) :
    flagSet .reference (recordReference old cause s) = true := raise_sets _ _

theorem recordReference_added {s u : State} (evid : u.evid = s.evid) (old : RefState) (cause : RefCause) :
    recordAdded (referenceBody old cause u.ref) s (recordReference old cause u) :=
  recordAdded_of_handed (u := u) (by rw [evid]) (by rw [evid]) (by rw [evid]) (by rw [recordReference_eq, raise_evid])
    (by simp) (by simp) (by simp)

theorem leaveState_sets (old : RefState) (cause : RefCause) (s : State) :
    flagSet .reference (leaveState old cause s) = true := by
  unfold leaveState
  dsimp only
  split
  · exact demote_holds (recordReference_sets _ _ _)
  · exact recordReference_sets _ _ _

/-- The REFERENCE record is the first one a change out of a state adds (log 23). -/
theorem leaveState_records {s : State} (room : s.evid.queue.length < 496) (old : RefState) (cause : RefCause) :
    ∃ x more, (leaveState old cause s).evid.queue = s.evid.queue ++ x :: more ∧ x.number = s.evid.nextNumber
      ∧ x.body = referenceBody old cause s.ref := by
  have recorded : (recordReference old cause s).evid = s.evid.append (makeRecord (referenceBody old cause s.ref) s) := by
    rw [recordReference_eq, raise_evid, handRecord_of_room room]
  have grows : Evidence.Grows (recordReference old cause s).evid (leaveState old cause s).evid := by
    unfold leaveState
    dsimp only
    split
    · exact demote_grows (.refl _)
    · exact .refl _
  obtain ⟨more, queue⟩ := grows.keepsQueue
  refine ⟨makeRecord (referenceBody old cause s.ref) s, more, ?_, rfl, rfl⟩
  rw [← queue, recorded, Evidence.append, List.append_assoc, List.singleton_append]

/-- The body of the STEP record of a step that is taken (R72, R81). -/
def stepTakenBody (a : Int) (cause : StepCause) (before : SteerState) (present : Nat) : Body :=
  .step { kind := .taken, cause := cause, before := before, after := .acquire, requested := a, applied := appliedAmount present a,
          timeBefore := present, timeAfter := steppedTime present a }

theorem takeStep_handed (a : Int) (cause : StepCause) (s : State) :
    ∃ u : State, u.evid = s.evid
      ∧ (takeStep a cause s).evid = (handRecord (stepTakenBody a cause s.steer.state s.clock.present) u).evid := by
  refine ⟨?u, ?kept, ?handed⟩
  case handed =>
    rw [takeStep, raise_evid]
    rfl
  case kept => rfl

theorem takeStep_records {s : State} (room : s.evid.queue.length < 512) (a : Int) (cause : StepCause) :
    ∃ y, (takeStep a cause s).evid.queue = s.evid.queue ++ [y] ∧ y.number = s.evid.nextNumber
      ∧ y.body = stepTakenBody a cause s.steer.state s.clock.present := by
  obtain ⟨u, evid, handed⟩ := takeStep_handed a cause s
  rw [handed, handRecord_evid, evid, if_pos (by exact room)]
  exact ⟨makeRecord _ u, rfl, congrArg Evidence.nextNumber evid, rfl⟩

/-! ### The verdict on an edge (R49) -/

/-- What the first failing test of an edge is, as the statements spell it. -/
def edgeBad (osc : Nat) (r : Reference) (v : Verdict) : Prop :=
  (v = .noLabel ∧ r.label = none) ∨ (v = .unlocked ∧ ∃ n, r.label = some ⟨n, false⟩)
    ∨ ∃ n p, r.label = some ⟨n, true⟩ ∧ r.prev = some p
        ∧ ((v = .sequence ∧ n ≠ p.second + 1)
          ∨ (v = .interval ∧ n = p.second + 1 ∧ (osc < p.osc + 512 * 999950000 ∨ p.osc + 512 * 1000050000 < osc)))

def edgeGood (osc : Nat) (r : Reference) (n : Nat) : Prop :=
  r.label = some ⟨n, true⟩
    ∧ ∀ p, r.prev = some p → n = p.second + 1 ∧ p.osc + 512 * 999950000 ≤ osc ∧ osc ≤ p.osc + 512 * 1000050000

theorem intervalOk_iff (osc : Nat) (p : PrevEdge) :
    intervalOk osc p = true ↔ p.osc + 512 * 999950000 ≤ osc ∧ osc ≤ p.osc + 512 * 1000050000 := by
  rw [intervalOk, decide_eq_true_iff, oscNs, oscNs]

theorem edgeVerdict_of_bad {osc : Nat} {r : Reference} {v : Verdict} (bad : edgeBad osc r v) :
    edgeVerdict osc r = v ∧ v ≠ .good := by
  obtain ⟨rfl, label⟩ | ⟨rfl, n, label⟩ | ⟨n, p, label, prev, ⟨rfl, broken⟩ | ⟨rfl, follows, outside⟩⟩ := bad
  · exact ⟨by rw [edgeVerdict, label], nofun⟩
  · refine ⟨?_, nofun⟩
    rw [edgeVerdict, label]
    exact if_pos rfl
  · refine ⟨?_, nofun⟩
    rw [edgeVerdict, label, prev]
    exact (if_neg nofun).trans (if_pos broken)
  · refine ⟨?_, nofun⟩
    have off : intervalOk osc p = false := by
      rw [← Bool.not_eq_true, intervalOk_iff]
      omega
    rw [edgeVerdict, label, prev]
    exact (if_neg nofun).trans ((if_neg (not_not.mpr follows)).trans (if_pos off))

theorem edgeVerdict_of_good {osc : Nat} {r : Reference} {n : Nat} (good : edgeGood osc r n) : edgeVerdict osc r = .good := by
  obtain ⟨label, follows⟩ := good
  rw [edgeVerdict, label]
  refine (if_neg nofun).trans ?_
  cases prev : r.prev with
  | none => rfl
  | some p =>
    obtain ⟨next, low, high⟩ := follows p prev
    have inside : intervalOk osc p = true := (intervalOk_iff osc p).mpr ⟨low, high⟩
    exact (if_neg (not_not.mpr next)).trans (if_neg (by simp [inside]))

theorem refListening_iff (s : State) : refListening s = true ↔ s.phase = .run ∧ s.ref.state ≠ .absent := by
  rw [refListening, decide_eq_true_iff]

theorem exec_edge_of_bad {s : State} {v : Verdict} (run : s.phase = .run) (fitted : s.ref.state ≠ .absent)
    (bad : edgeBad s.osc s.ref v) : exec .edge s = .next (badEdge v s) := by
  obtain ⟨verdict, notGood⟩ := edgeVerdict_of_bad bad
  change execEdge s = _
  unfold execEdge
  rw [if_pos ((refListening_iff s).mpr ⟨run, fitted⟩), verdict]
  split
  · exact absurd rfl notGood
  · rfl

theorem exec_edge_of_good {s : State} {n : Nat} (run : s.phase = .run) (fitted : s.ref.state ≠ .absent)
    (good : edgeGood s.osc s.ref n) : exec .edge s = .next (goodEdge n s) := by
  change execEdge s = _
  unfold execEdge
  rw [if_pos ((refListening_iff s).mpr ⟨run, fitted⟩), edgeVerdict_of_good good, good.1]

/-! ### A bad edge (R51) -/

theorem badEdge_seeking {s : State} (seeking : s.ref.state = .seeking) (v : Verdict) :
    badEdge v s = { s with ref := { s.ref with label := none, verdict := v } } := by
  rw [badEdge, seeking]
  rfl

theorem badEdge_tracking {s : State} (tracking : s.ref.state.tracking = true) (v : Verdict) :
    badEdge v s = leaveState s.ref.state .badEdge { s with ref := { s.ref with label := none, verdict := v }.seek } :=
  if_pos tracking

theorem tracking_of {x : RefState} (h : x = .qualifying ∨ x = .valid ∨ x = .disputed) : x.tracking = true := by
  obtain rfl | rfl | rfl := h <;> rfl

/-! ### A good edge (R50, R51) -/

theorem goodEdge_seeking {s : State} (seeking : s.ref.state = .seeking) (n : Nat) :
    goodEdge n s = recordReference .seeking .runBegun
      { s with ref := { s.ref.goodEdge n s.osc s.clock.present s.cfg.cableDelay with state := .qualifying, run := 1 } } := by
  have advanced : (s.ref.goodEdge n s.osc s.clock.present s.cfg.cableDelay).advanceRun
      = { s.ref.goodEdge n s.osc s.clock.present s.cfg.cableDelay with state := .qualifying, run := 1 } := by
    rw [Reference.advanceRun, show (s.ref.goodEdge n s.osc s.clock.present s.cfg.cableDelay).state = .seeking from seeking]
  rw [goodEdge, seeking, advanced]

theorem goodEdge_run {s : State} (qualifying : s.ref.state = .qualifying) (short : s.ref.run < 3) (n : Nat) :
    goodEdge n s = { s with ref := { s.ref.goodEdge n s.osc s.clock.present s.cfg.cableDelay with run := s.ref.run + 1 } } := by
  have same : (s.ref.goodEdge n s.osc s.clock.present s.cfg.cableDelay).state = .qualifying := qualifying
  have advanced : (s.ref.goodEdge n s.osc s.clock.present s.cfg.cableDelay).advanceRun
      = { s.ref.goodEdge n s.osc s.clock.present s.cfg.cableDelay with run := s.ref.run + 1 } := by
    rw [Reference.advanceRun, same]
    have unfinished : ¬ 3 ≤ (s.ref.goodEdge n s.osc s.clock.present s.cfg.cableDelay).run := not_le.mpr short
    dsimp only
    rw [if_neg unfinished, same]
    rfl
  rw [goodEdge, qualifying, advanced]
  dsimp only
  rw [same]

/-- The reference that a good edge leaves in VALID. -/
def measuredValid (n : Nat) (s : State) : Reference :=
  { s.ref.goodEdge n s.osc s.clock.present s.cfg.cableDelay with state := .valid, run := 0 }

theorem goodEdge_qualified {s : State} (qualifying : s.ref.state = .qualifying) (long : 3 ≤ s.ref.run) (n : Nat) :
    goodEdge n s = qualificationReport (thetaRef n s.cfg.cableDelay s.clock.present)
      (recordReference .qualifying .qualified { s with ref := measuredValid n s }) := by
  have advanced : (s.ref.goodEdge n s.osc s.clock.present s.cfg.cableDelay).advanceRun
      = measuredValid n s := by
    rw [Reference.advanceRun, show (s.ref.goodEdge n s.osc s.clock.present s.cfg.cableDelay).state = .qualifying from qualifying]
    exact if_pos (c := 3 ≤ s.ref.run) long
  rw [goodEdge, qualifying, advanced]
  rfl

theorem goodEdge_settled {s : State} (settled : s.ref.state = .valid ∨ s.ref.state = .disputed) (n : Nat) :
    goodEdge n s = { s with ref := s.ref.goodEdge n s.osc s.clock.present s.cfg.cableDelay } := by
  have same : (s.ref.goodEdge n s.osc s.clock.present s.cfg.cableDelay).state = s.ref.state := rfl
  have advanced : (s.ref.goodEdge n s.osc s.clock.present s.cfg.cableDelay).advanceRun
      = s.ref.goodEdge n s.osc s.clock.present s.cfg.cableDelay := by
    obtain valid | disputed := settled
    · rw [Reference.advanceRun, same.trans valid]
    · rw [Reference.advanceRun, same.trans disputed]
  rw [goodEdge, advanced]
  obtain valid | disputed := settled
  · rw [valid]
  · rw [disputed]

/-! ### The obligations -/

/-- Settles O28: the STEP record of the qualification report follows the REFERENCE record (log 38). -/
theorem edgeMovesTheReference : Obligations.EdgeMovesTheReference := by
  intro s
  refine ⟨fun deaf => ?_, fun run fitted => ⟨fun v bad seeking => ?_, fun v bad tracks => ?_, fun n good seeking => ?_,
    fun n good qualifying short => ?_, fun n good qualifying long => ⟨fun notCold => ?_, fun cold allowed => ?_⟩,
    fun n good settled => ?_⟩⟩
  · refine if_neg fun listening => ?_
    obtain ⟨run, fitted⟩ := (refListening_iff s).mp listening
    exact deaf.elim (fun config => nomatch run.symm.trans config) fitted
  · rw [exec_edge_of_bad run fitted bad, badEdge_seeking seeking]
  · refine ⟨_, exec_edge_of_bad run fitted bad, ?_⟩
    rw [badEdge_tracking (tracking_of tracks)]
    refine ⟨by simp only [leaveState_keeps]; rfl, leaveState_sets _ _ _, leaveState_steer _ _ _, fun valid => ?_, fun unbacked => ?_,
      fun room => ?_, by simp⟩
    · rw [valid]
      exact leaveState_not_anchored _ _
    · rw [leaveState_of_unbacked (by exact unbacked)]
      exact ⟨by simp, by simp⟩
    · exact leaveState_records (by exact room) _ _
  · refine ⟨_, exec_edge_of_good run fitted good, ?_⟩
    rw [goodEdge_seeking seeking]
    refine ⟨by simp only [recordReference_keeps]; rfl, recordReference_sets _ _ _, ?_, by simp, by simp, by simp⟩
    rw [show s.ref.state = .seeking from seeking]
    exact recordReference_added (s := s)
      (u := { s with ref := { s.ref.goodEdge n s.osc s.clock.present s.cfg.cableDelay with state := .qualifying, run := 1 } })
      rfl .seeking .runBegun
  · rw [exec_edge_of_good run fitted good, goodEdge_run qualifying short]
    rfl
  · refine ⟨_, exec_edge_of_good run fitted good, ?_⟩
    rw [goodEdge_qualified qualifying long, qualificationReport, if_neg (by simpa using notCold)]
    refine ⟨by simp only [recordReference_keeps]; rfl, recordReference_sets _ _ _, ?_, by simp, by simp, by simp⟩
    rw [show s.ref.state = .qualifying from qualifying]
    exact recordReference_added (s := s) (u := { s with ref := measuredValid n s }) rfl .qualifying .qualified
  · refine ⟨_, exec_edge_of_good run fitted good, ?_⟩
    rw [goodEdge_qualified qualifying long, qualificationReport, if_pos (by simpa using cold)]
    generalize recorded : recordReference .qualifying .qualified _ = v
    have before : v = recordReference .qualifying .qualified { s with ref := measuredValid n s } := recorded.symm
    have kept : v.clock = s.clock ∧ v.steer = s.steer ∧ v.peers = s.peers ∧ v.ref = measuredValid n s ∧ v.stamp = s.stamp
        ∧ v.entries = s.entries ∧ v.card = s.card := by simp [before]
    obtain ⟨clock, steer, peers, ref, stamp, entries, card⟩ := kept
    have allowed' : stepForbidden (thetaRef n s.cfg.cableDelay s.clock.present) v = false := by
      rw [stepForbidden_congr entries (by rw [clock])]
      exact (not_stepForbidden_iff _ _).mpr allowed
    rw [stepInCold, if_neg (by simp [allowed'])]
    have present := steppedTime_int s.clock.present (thetaRef n s.cfg.cableDelay s.clock.present)
    refine ⟨takeStep_holds (before ▸ recordReference_sets _ _ _), raise_sets _ _, ?_, ?_, ?_, ?_, fun room => ?_, ?_, ?_, ?_⟩
    · rw [takeStep_clock, clock, steer, ← Int.toNat_natCast (steppedTime _ _), present]
      rfl
    · rw [takeStep_ref, takeStep_clock, clock, ref]
      rfl
    · rw [takeStep_steer, steer]
      rfl
    · rw [takeStep_peers, peers]
      rfl
    · have held : v.evid.queue.length < 496 := lt_of_le_of_lt (takeStep_grows (.refl v.evid)).keepsQueue.length_le room
      have handed : v.evid = (handRecord (referenceBody .qualifying .qualified (measuredValid n s))
          { s with ref := measuredValid n s }).evid := by rw [before, recordReference_eq, raise_evid]
      have first := handRecord_of_small (handed ▸ held)
      obtain ⟨y, queue, -, body⟩ := takeStep_records (show v.evid.queue.length < 512 by omega)
        (thetaRef n s.cfg.cableDelay s.clock.present) .reference
      refine ⟨makeRecord (referenceBody .qualifying .qualified (measuredValid n s)) { s with ref := measuredValid n s }, y,
        ?_, rfl, rfl, ?_, ?_⟩
      · rw [queue, handed, first, Evidence.append, List.append_assoc]
        rfl
      · rw [show s.ref.state = .qualifying from qualifying]
        rfl
      · rw [body, stepTakenBody, clock, steer, cold, takeStep_clock, clock, appliedAmount]
        rfl
    · simp [stamp]
    · simp [entries]
    · simp [card]
  · rw [exec_edge_of_good run fitted good, goodEdge_settled settled]
    rfl

/-- Settles O29. -/
theorem edgeTimeoutSeeks : Obligations.EdgeTimeoutSeeks := by
  intro p s run tracks prev late
  have tracking := tracking_of tracks
  have fitted : s.ref.state ≠ .absent := fun absent => by rw [absent] at tracking; exact nomatch tracking
  have listening := (refListening_iff s).mpr ⟨run, fitted⟩
  have due : edgeTimeoutDue s = true := by
    rw [edgeTimeoutDue, listening, tracking, prev]
    simp only [Bool.true_and, decide_eq_true_iff, oscNs]
    exact late
  refine ⟨_, if_pos due, leaveState_sets _ _ _, by simp only [leaveState_keeps]; rfl, fun valid => ?_, leaveState_steer _ _ _,
    fun room => leaveState_records (by exact room) _ _, by simp⟩
  rw [valid]
  exact leaveState_not_anchored _ _

end Sys2Proof.Machine
end

