-- ==== Sys2Proof/Proofs/SteeringStages.lean ====
section
/-! The stages of a steering instant (R58), each said once: the member taken, U and grade, the judging of the reference, the runs, the
slew, and what the ending of the instant keeps. -/

namespace Sys2Proof.Machine

/-! ### A record that the end of a run of operations still holds -/

/-- A record handed over on the way is held at the end, where the queue is short then (R140, R142). -/
theorem handed_record_stays {s u t : State} {b : Body} (before : Evidence.Grows s.evid u.evid)
    (after : Evidence.Grows (handRecord b u).evid t.evid) (room : t.evid.queue.length < 496) :
    ∃ y ∈ t.evid.queue, s.evid.nextNumber ≤ y.number ∧ y.body = b := by
  have kept := after.keepsQueue
  have added := handRecord_of_small (lt_of_le_of_lt kept.length_le room)
  refine ⟨makeRecord b u, kept.subset ?_, before.numbers, rfl⟩
  rw [added, Evidence.append]
  simp

/-! ### The member taken, and the instant by its stages -/

/-- The station once the reached member of the steering series is taken (R13). -/
def takeMember (x : Series) (s : State) : State :=
  { s with steer := { s.steer with series := some { x with due := false } } }

theorem exec_steeringInstant {s : State} {x : Series} (run : s.phase = .run) (series : s.steer.series = some x)
    (due : x.due = true) : exec .steeringInstant s = .next (steeringInstant (takeMember x s)) := by
  have isDue : seriesDue s.steer.series = true := by rw [series]; exact due
  change execSteeringInstant s = _
  unfold execSteeringInstant
  rw [if_pos ⟨run, isDue⟩, series]
  rfl

/-- The state stage 4 finds: holdover rate captured, the outcome of kind NONE for now (R68, R64). -/
def sampled (s : State) : State :=
  { s with steer := { captureHoldover s.steer with latest := some ((instantCombination s).latest .none) }, fresh := s.fresh + 1 }

theorem beforeApply_eq (s : State) :
    beforeApply s = judgeAll (sourceList s) s.ref (instantCombination s).correction (formGrade (instantCombination s) (sampled s)) :=
  rfl

/-- The state the apply stage leaves. -/
def applied (s : State) : State := applyOutcome (instantCombination s).correction (beforeApply s)

theorem steeringInstant_applied (s : State) : steeringInstant s = periodicCheckpoint (recordSync (applied s)) := rfl

/-- The records that end an instant change the Evidence Unit and its notice alone. -/
structure SameButRecords (u t : State) : Prop where
  clock : t.clock = u.clock
  steer : t.steer = u.steer
  ref : t.ref = u.ref
  stamp : t.stamp = u.stamp
  peers : t.peers = u.peers
  entries : t.entries = u.entries
  link : t.link = u.link
  cfg : t.cfg = u.cfg
  card : t.card = u.card
  pending : t.pending = u.pending

theorem steeringInstant_sameButRecords (s : State) : SameButRecords (applied s) (steeringInstant s) where
  clock := by simp [steeringInstant_applied]
  steer := by simp [steeringInstant_applied]
  ref := by simp [steeringInstant_applied]
  stamp := by simp [steeringInstant_applied]
  peers := by simp [steeringInstant_applied]
  entries := by simp [steeringInstant_applied]
  link := by simp [steeringInstant_applied]
  cfg := by simp [steeringInstant_applied]
  card := by simp [steeringInstant_applied]
  pending := by simp [steeringInstant_applied]

theorem applied_grows (s : State) : Evidence.Grows (applied s).evid (steeringInstant s).evid :=
  periodicCheckpoint_grows (recordSync_grows (.refl _))

theorem applied_holds {n : Notice} {s : State} (h : flagSet n (applied s) = true) : flagSet n (steeringInstant s) = true :=
  periodicCheckpoint_holds (recordSync_holds h)

theorem beforeApply_grows (s : State) : Evidence.Grows s.evid (beforeApply s).evid :=
  judgeAll_grows (formGrade_grows (.refl _))

theorem beforeApply_applied_grows (s : State) : Evidence.Grows (beforeApply s).evid (applied s).evid :=
  applyOutcome_grows (.refl _)

theorem beforeApply_frame (s : State) :
    (beforeApply s).clock = s.clock ∧ (beforeApply s).cfg = s.cfg ∧ (beforeApply s).entries = s.entries
      ∧ (beforeApply s).link = s.link ∧ (beforeApply s).card = s.card ∧ (beforeApply s).pending = s.pending := by
  simp [beforeApply]

theorem applied_frame (s : State) :
    (applied s).cfg = s.cfg ∧ (applied s).entries = s.entries ∧ (applied s).card = s.card ∧ (applied s).pending = s.pending
      ∧ (applied s).stamp = (beforeApply s).stamp := by
  simp [applied, beforeApply]

/-! ### U and the grade (R83 to R88) -/

theorem captureHoldover_captured (x : Steering) :
    (captureHoldover x).holdover = if x.state = .track then some x.rf else x.holdover := by
  unfold captureHoldover
  split <;> rfl

/-- The Steering Unit as stage 4 finds it. -/
theorem sampled_steer (s : State) :
    (sampled s).steer = { s.steer with holdover := (if s.steer.state = .track then some s.steer.rf else s.steer.holdover)
                                       latest := some ((instantCombination s).latest .none) } := by
  rw [sampled, captureHoldover_eq, captureHoldover_captured]

theorem formGrade_of_cold {s : State} (cold : s.steer.state = .cold) (x : Combination) : formGrade x s = s := if_pos cold

theorem formGrade_of_some {s : State} {x : Combination} {g : Grade} (notCold : s.steer.state ≠ .cold) (cstar : x.cstar = some g) :
    formGrade x s = changeGrade (gradeOf s.cfg g x.refRetained (boundOf s.cfg x.retained)) .combination
      { s with steer := { s.steer with bound := boundOf s.cfg x.retained } } := by
  rw [formGrade, if_neg notCold, cstar]

theorem formGrade_of_none {s : State} {x : Combination} (notCold : s.steer.state ≠ .cold) (cstar : x.cstar = none) :
    formGrade x s = changeGrade (heldGrade s.cfg s.steer.grade (grownBound s.cfg s.steer.bound)) .noCombination
      { s with steer := { s.steer with bound := grownBound s.cfg s.steer.bound } } := by
  rw [formGrade, if_neg notCold, cstar]

theorem changeGrade_same {g : Grade} {s : State} (same : g = s.steer.grade) (cause : GradeCause) : changeGrade g cause s = s :=
  if_pos same

/-- A change of grade sets the mark and the flag, and its record comes first (R88, R89). -/
theorem changeGrade_changed {g : Grade} {s : State} (changed : g ≠ s.steer.grade) (cause : GradeCause) :
    flagSet .grade (changeGrade g cause s) = true ∧ (changeGrade g cause s).stamp.gradeMark = true
      ∧ (s.evid.queue.length < 512 → ∃ y, (changeGrade g cause s).evid.queue = s.evid.queue ++ [y] ∧ y.number = s.evid.nextNumber
          ∧ y.grade = g ∧ y.bound = s.steer.bound
          ∧ y.body = .grade (gradeBody s.steer.grade cause
              { s with steer := { s.steer with grade := g }, stamp := { s.stamp with gradeMark := true } })) := by
  have made : changeGrade g cause s = raise .grade (handRecord (.grade (gradeBody s.steer.grade cause
        { s with steer := { s.steer with grade := g }, stamp := { s.stamp with gradeMark := true } }))
      { s with steer := { s.steer with grade := g }, stamp := { s.stamp with gradeMark := true } }) := if_neg changed
  refine ⟨by rw [made]; exact raise_sets _ _, by rw [made]; simp, fun room => ?_⟩
  rw [made, raise_evid, handRecord_priority rfl (by exact room)]
  exact ⟨makeRecord _ { s with steer := { s.steer with grade := g }, stamp := { s.stamp with gradeMark := true } },
    rfl, rfl, rfl, rfl, rfl⟩

/-- The grade as the statements spell it (R85). -/
theorem gradeOf_spelled (c : Settings) (g : Grade) (ref : Bool) (u : Nat) :
    gradeOf c g ref u
      = if ref = true ∧ u ≤ c.limitA then .anchored
        else if (g = .anchored ∨ g = .agreed) ∧ u ≤ c.limitG then .agreed
        else if g = .holdover ∧ u ≤ c.limitG then .holdover
        else .free := by
  have atLeast : g.atLeast .agreed = true ↔ g = .anchored ∨ g = .agreed := by cases g <;> decide
  simp only [gradeOf, atLeast]

theorem demotedGrade_some (g : Grade) : demotedGrade (some g) = if g = .anchored then .agreed else g := by
  cases g <;> rfl

/-! ### The judging of the reference (R55, R56, R87) -/

/-- What judging the reference comes to: runs alone, a dispute, or an agreement. -/
inductive Judged (s : State) : State → Prop where
  | runs (r : Reference) : r.state = s.ref.state → Judged s { s with ref := r }
  | dispute (r : Reference) : s.ref.state = .valid → r.state = .disputed → Judged s (leaveState .valid .dispute { s with ref := r })
  | agreement (r : Reference) : s.ref.state = .disputed → r.state = .valid →
      Judged s (leaveState .disputed .agreement { s with ref := r })

theorem Reference.judgedRuns_state (out : Bool) (r : Reference) : (r.judgedRuns out).state = r.state := by
  unfold Reference.judgedRuns
  split <;> rfl

theorem judgeReference_judged (correction : Int) (s : State) : Judged s (judgeReference s.ref correction s) := by
  unfold judgeReference
  split
  · next valid _ =>
    dsimp only
    split
    · exact .dispute _ valid rfl
    · exact .runs _ (Reference.judgedRuns_state _ _)
  · next disputed _ =>
    dsimp only
    split
    · exact .agreement _ disputed rfl
    · exact .runs _ (Reference.judgedRuns_state _ _)
  · exact .runs s.ref rfl

theorem Judged.steer {s t : State} (judged : Judged s t) : t.steer = { s.steer with grade := t.steer.grade } := by
  cases judged with
  | runs r _ => rfl
  | dispute r _ _ => exact leaveState_steer _ _ _
  | agreement r _ _ => exact leaveState_steer _ _ _

theorem Judged.grade {s t : State} (judged : Judged s t) :
    t.steer.grade = if s.ref.state = .valid ∧ t.ref.state = .disputed ∧ s.steer.grade = .anchored then
      demotedGrade (s.steer.latest.bind Latest.cstar) else s.steer.grade := by
  cases judged with
  | runs r same =>
    refine (if_neg ?_).symm
    rintro ⟨valid, disputed, -⟩
    exact nomatch (same.trans valid).symm.trans disputed
  | dispute r valid disputed => rw [leaveState_grade]; simp [valid, disputed]
  | agreement r disputed _ => rw [leaveState_grade]; simp [disputed]

theorem Judged.stamp {s t : State} (judged : Judged s t) (same : t.ref.state = s.ref.state) : t.stamp = s.stamp := by
  cases judged with
  | runs r _ => rfl
  | dispute r valid disputed =>
    simp only [leaveState_keeps] at same
    exact nomatch disputed.symm.trans (same.trans valid)
  | agreement r disputed valid =>
    simp only [leaveState_keeps] at same
    exact nomatch valid.symm.trans (same.trans disputed)

theorem changeGrade_gradeMark {g : Grade} {cause : GradeCause} {s : State} (marked : s.stamp.gradeMark = true) :
    (changeGrade g cause s).stamp.gradeMark = true := by
  by_cases same : g = s.steer.grade
  · rwa [changeGrade_same same]
  · exact (changeGrade_changed same cause).2.1

theorem leaveState_gradeMark {old : RefState} {cause : RefCause} {s : State} (marked : s.stamp.gradeMark = true) :
    (leaveState old cause s).stamp.gradeMark = true := by
  unfold leaveState
  dsimp only
  split
  · unfold demote
    split
    · exact changeGrade_gradeMark (by simpa using marked)
    · simpa using marked
  · simpa using marked

theorem Judged.gradeMark {s t : State} (judged : Judged s t) (marked : s.stamp.gradeMark = true) : t.stamp.gradeMark = true := by
  cases judged with
  | runs r _ => exact marked
  | dispute r _ _ => exact leaveState_gradeMark marked
  | agreement r _ _ => exact leaveState_gradeMark marked

theorem latest_of_some {x : Combination} {g : Grade} (cstar : x.cstar = some g) (kind : OutcomeKind) :
    x.latest kind = { correction := correctionOf x.retained, spread := spreadOf x.retained, cstar := some g,
                      candidates := x.candidates, retained := x.retained.length, kind := kind, refRetained := x.refRetained } := by
  rw [Combination.latest, cstar]

theorem latest_of_none {x : Combination} (cstar : x.cstar = none) (kind : OutcomeKind) :
    x.latest kind = { correction := 0, spread := 0, cstar := none, candidates := x.candidates, retained := 0, kind := kind,
                      refRetained := false } := by
  rw [Combination.latest, cstar]

theorem correction_of_some {x : Combination} {g : Grade} (cstar : x.cstar = some g) : x.correction = some (correctionOf x.retained) := by
  rw [Combination.correction, cstar]
  rfl

theorem correction_of_none {x : Combination} (cstar : x.cstar = none) : x.correction = none := by
  rw [Combination.correction, cstar]
  rfl

/-- Stage 5 is the judging of the reference on the state the Peer Table leaves. -/
theorem beforeApply_judged {s : State} {g : Grade} (cstar : (instantCombination s).cstar = some g) :
    ∃ u : State, u.steer = (formGrade (instantCombination s) (sampled s)).steer
      ∧ u.stamp = (formGrade (instantCombination s) (sampled s)).stamp ∧ u.ref = s.ref ∧ Judged u (beforeApply s) := by
  have judged : beforeApply s = judgeReference s.ref (correctionOf (instantCombination s).retained)
      (peersAtInstant (sourceList s) (some (correctionOf (instantCombination s).retained))
        (formGrade (instantCombination s) (sampled s))) := by
    rw [beforeApply_eq, correction_of_some cstar]
    rfl
  refine ⟨peersAtInstant (sourceList s) (some (correctionOf (instantCombination s).retained))
    (formGrade (instantCombination s) (sampled s)), by simp, by simp, by simp [sampled], ?_⟩
  have ref : (peersAtInstant (sourceList s) (some (correctionOf (instantCombination s).retained))
      (formGrade (instantCombination s) (sampled s))).ref = s.ref := by simp [sampled]
  rw [judged, ← ref]
  exact judgeReference_judged _ _

theorem changeGrade_bound_steer (g : Grade) (cause : GradeCause) (u : Nat) (s : State) :
    (changeGrade g cause { s with steer := { s.steer with bound := u } }).steer = { s.steer with bound := u, grade := g } :=
  changeGrade_steer _ _ _

theorem sampled_keeps_grade (s : State) : (sampled s).steer.grade = s.steer.grade := by rw [sampled_steer]

theorem sampled_keeps_state (s : State) : (sampled s).steer.state = s.steer.state := by rw [sampled_steer]

theorem sampled_latest (s : State) : (sampled s).steer.latest = some ((instantCombination s).latest .none) := by rw [sampled_steer]

/-- U and grade once stage 4 has formed them as `u` and `grade` (R87, R88). -/
theorem beforeApply_of_formed {s : State} {g grade : Grade} {u : Nat} (cstar : (instantCombination s).cstar = some g)
    (formed : formGrade (instantCombination s) (sampled s)
      = changeGrade grade .combination { sampled s with steer := { (sampled s).steer with bound := u } }) :
    (beforeApply s).steer = { s.steer with
        holdover := (if s.steer.state = .track then some s.steer.rf else s.steer.holdover)
        latest := some ((instantCombination s).latest .none)
        bound := u
        grade := (beforeApply s).steer.grade }
      ∧ (beforeApply s).steer.grade
          = (if s.ref.state = .valid ∧ (beforeApply s).ref.state = .disputed ∧ grade = .anchored then
              (if g = .anchored then .agreed else g) else grade)
      ∧ (grade ≠ s.steer.grade → flagSet .grade (beforeApply s) = true ∧ (beforeApply s).stamp.gradeMark = true
          ∧ (s.evid.queue.length < 512 → ∃ y more, (beforeApply s).evid.queue = s.evid.queue ++ y :: more
              ∧ y.number = s.evid.nextNumber ∧ y.grade = grade ∧ y.bound = u
              ∧ y.body = .grade { old := s.steer.grade, new := grade, cause := .combination, bound := u, cstar := some g,
                                  retained := (instantCombination s).retained.length,
                                  candidates := (instantCombination s).candidates,
                                  refRetained := (instantCombination s).refRetained,
                                  ref := s.ref.state, steer := s.steer.state }))
      ∧ (grade = s.steer.grade → (beforeApply s).ref.state = s.ref.state → (beforeApply s).stamp = s.stamp) := by
  obtain ⟨w, steer, stamp, ref, judged⟩ := beforeApply_judged cstar
  have formedSteer : w.steer = { (sampled s).steer with bound := u, grade := grade } :=
    steer.trans ((congrArg State.steer formed).trans (changeGrade_bound_steer _ _ _ _))
  have latest : (instantCombination s).latest .none = _ := latest_of_some cstar .none
  have grows : Evidence.Grows (formGrade (instantCombination s) (sampled s)).evid (beforeApply s).evid := judgeAll_grows (.refl _)
  refine ⟨?_, ?_, fun changed => ?_, fun same sameRef => ?_⟩
  · rw [judged.steer, formedSteer, sampled_steer]
  · rw [judged.grade, ref, formedSteer, sampled_latest, latest]
    simp only [Option.bind_some, demotedGrade_some]
  · obtain ⟨flag, marked, added⟩ := changeGrade_changed (s := { sampled s with steer := { (sampled s).steer with bound := u } })
      (show grade ≠ (sampled s).steer.grade by rw [sampled_keeps_grade]; exact changed) .combination
    rw [← formed] at flag marked added
    refine ⟨judgeAll_holds flag, judged.gradeMark (stamp ▸ marked), fun room => ?_⟩
    obtain ⟨y, queue, number, grade', bound, body⟩ := added room
    obtain ⟨more, final⟩ := grows.keepsQueue
    refine ⟨y, more, ?_, number, grade', bound, ?_⟩
    · rw [← final, queue, List.append_assoc]
      rfl
    · rw [body]
      simp only [gradeBody, sampled_latest, latest, sampled_keeps_grade, sampled_keeps_state]
      rfl
  · rw [judged.stamp (by rw [ref]; exact sameRef), stamp, formed,
      changeGrade_same (by rw [same]; exact (sampled_keeps_grade s).symm)]
    rfl

/-- Stage 4 of an instant with a combination, outside COLD (R84, R85). -/
theorem formGrade_sampled {s : State} {g : Grade} (notCold : s.steer.state ≠ .cold) (cstar : (instantCombination s).cstar = some g) :
    formGrade (instantCombination s) (sampled s)
      = changeGrade (gradeOf s.cfg g (instantCombination s).refRetained (boundOf s.cfg (instantCombination s).retained)) .combination
          { sampled s with steer := { (sampled s).steer with bound := boundOf s.cfg (instantCombination s).retained } } :=
  formGrade_of_some (by rw [sampled_keeps_state]; exact notCold) cstar

end Sys2Proof.Machine
end

