-- ==== Sys2Proof/Proofs/SteeringInstants.lean ====
section
/-! The apply stage and the whole steering instant: slewed or deferred, stepped, and without a combination (R64 to R77, R83 to R89). -/

namespace Sys2Proof.Machine

/-! ### The apply stage -/

theorem activeBank_spelled (s : State) :
    activeBank s = if s.steer.state = .track then s.cfg.trackBank else s.cfg.acquireBank := by
  unfold activeBank
  split
  · next track => rw [if_pos track]
  · next notTrack => rw [if_neg notTrack]

/-- State and runs after a combination outside COLD (R66, R67). -/
theorem moveRuns_spelled (c : Settings) (C : Int) {y : Steering} (notCold : y.state ≠ .cold) :
    ((moveRuns c C (leaveHoldover y)).state, (moveRuns c C (leaveHoldover y)).lockRun, (moveRuns c C (leaveHoldover y)).unlockRun)
      = if y.state = .track then
          if c.unlockThreshold * 256 < C.natAbs then
            (if 3 ≤ y.unlockRun + 1 then (.acquire, y.lockRun, 0) else (.track, y.lockRun, y.unlockRun + 1))
          else (.track, y.lockRun, 0)
        else if c.lockThreshold * 256 < C.natAbs then (.acquire, 0, if y.state = .holdover then 0 else y.unlockRun)
        else if 8 ≤ (if y.state = .holdover then 0 else y.lockRun) + 1 then
          (.track, 0, if y.state = .holdover then 0 else y.unlockRun)
        else (.acquire, (if y.state = .holdover then 0 else y.lockRun) + 1, if y.state = .holdover then 0 else y.unlockRun) := by
  have acquired (z : Steering) (acquire : z.state = .acquire) :
      ((moveRuns c C z).state, (moveRuns c C z).lockRun, (moveRuns c C z).unlockRun)
        = if c.lockThreshold * 256 < C.natAbs then (.acquire, 0, z.unlockRun)
          else if 8 ≤ z.lockRun + 1 then (.track, 0, z.unlockRun)
          else (.acquire, z.lockRun + 1, z.unlockRun) := by
    simp only [moveRuns, acquire, above, decide_eq_true_eq]
    split
    · simp
    · split
      · rfl
      · simp
  cases state : y.state with
  | cold => exact absurd state notCold
  | acquire =>
    rw [leaveHoldover, if_neg (by simp [state]), acquired y state]
    simp
  | holdover =>
    rw [leaveHoldover, if_pos state, acquired _ rfl]
    simp
  | track =>
    rw [leaveHoldover, if_neg (by simp [state])]
    simp only [moveRuns, state, above, decide_eq_true_eq, if_true]
    split
    · split
      · rfl
      · simp
    · simp

/-- A combination outside COLD that no step is taken for: it is slewed, and STEP_DEFERRED tells whether a step was called for. -/
structure Slewed (C : Int) (s t : State) : Prop where
  steer : t.steer = { (slew C (movedRuns C s)).steer with
    stepDeferred := callsForStep s.cfg C
    latest := s.steer.latest.map (fun l => { l with kind := if callsForStep s.cfg C then .deferred else .slew }) }
  clock : t.clock = (slew C (movedRuns C s)).clock
  ref : t.ref = s.ref
  stamp : t.stamp = s.stamp
  link : t.link = s.link
  /-- a deferral that begins makes its record and sets the flag -/
  record : callsForStep s.cfg C = true → s.steer.stepDeferred = false → flagSet .step t = true
    ∧ ∃ u, Evidence.Grows s.evid u.evid ∧ t.evid = (handRecord
        (.step { kind := .deferred, cause := .combination, before := (movedRuns C s).steer.state
                 after := (movedRuns C s).steer.state, requested := C, applied := 0, timeBefore := s.clock.present
                 timeAfter := s.clock.present }) u).evid

theorem deferStep_records {C : Int} {s : State} (first : s.steer.stepDeferred = false) :
    flagSet .step (deferStep C s) = true
      ∧ (deferStep C s).evid = (handRecord
          (.step { kind := .deferred, cause := .combination, before := s.steer.state, after := s.steer.state, requested := C
                   applied := 0, timeBefore := s.clock.present, timeAfter := s.clock.present })
          { slew C s with steer := { (slew C s).steer with stepDeferred := true } }).evid := by
  have deferred : deferStep C s = setKind .deferred (recordDeferral C
      { slew C s with steer := { (slew C s).steer with stepDeferred := true } }) := by
    rw [deferStep, first]
    rfl
  rw [deferred]
  exact ⟨raise_sets .step _, rfl⟩

theorem Applied.slewed_of {C : Int} {s t : State} (applied : Applied C s t) (notCold : s.steer.state ≠ .cold)
    (held : callsForStep s.cfg C = false ∨ stepForbidden C s = true) : Slewed C s t := by
  cases applied with
  | stayed cold _ => exact absurd cold notCold
  | steppedCold cold _ => exact absurd cold notCold
  | stepped _ calls allowed =>
    obtain small | forbidden := held
    · exact nomatch small.symm.trans calls
    · exact nomatch forbidden.symm.trans allowed
  | deferred _ calls _ =>
    refine ⟨?_, deferStep_clock _ _, by simp [movedRuns], by simp [movedRuns], by simp [movedRuns], fun _ first => ?_⟩
    · rw [deferStep_steer, calls, movedRuns_steer, moveRuns_eq]
      rfl
    · obtain ⟨flag, evid⟩ := deferStep_records (C := C) (s := movedRuns C s)
        (by rw [movedRuns_steer, moveRuns_eq]; exact first)
      refine ⟨flag, ?handed, ?grows, ?made⟩
      case made => exact evid
      case grows => exact .refl s.evid
  | slewed _ small =>
    refine ⟨?_, rfl, rfl, rfl, rfl, fun calls => nomatch small.symm.trans calls⟩
    rw [small]
    simp only [setKind, slew_keeps, movedRuns_steer]
    rw [moveRuns_eq]
    rfl

theorem slew_steer (C : Int) (m : State) :
    (slew C m).steer = { m.steer with
      rp := clampTo (activeBank m).slewMax (rawPhase (activeBank m) (rateQuotient m.cfg C))
      rf := clampTo m.cfg.rateMax (rawFreq (activeBank m) m.steer.rf (rateQuotient m.cfg C))
      incomplete := decide ((slew C m).steer.rp ≠ rawPhase (activeBank m) (rateQuotient m.cfg C))
      rateLimit := decide ((slew C m).steer.rf ≠ rawFreq (activeBank m) m.steer.rf (rateQuotient m.cfg C)
        ∨ (slew C m).clock.rate ≠ (slew C m).steer.rf + (slew C m).steer.rp) } := rfl

theorem slew_clock (C : Int) (m : State) :
    (slew C m).clock = { m.clock with rate := clampTo m.cfg.rateMax ((slew C m).steer.rf + (slew C m).steer.rp) } := rfl

/-- The rates of a slew, with the bank that is then active (R69, R74 to R76). -/
structure SlewRates (b : Bank) (q : Int) (w t : State) : Prop where
  phase : t.steer.rp = clampTo b.slewMax (rawPhase b q)
  freq : t.steer.rf = clampTo w.cfg.rateMax (rawFreq b w.steer.rf q)
  clock : t.clock = { w.clock with rate := clampTo w.cfg.rateMax (t.steer.rf + t.steer.rp) }
  incomplete : t.steer.incomplete = true ↔ t.steer.rp ≠ rawPhase b q
  rateLimit : t.steer.rateLimit = true ↔ t.steer.rf ≠ rawFreq b w.steer.rf q ∨ t.clock.rate ≠ t.steer.rf + t.steer.rp

theorem slew_rates {C : Int} {m : State} {b : Bank} {q : Int} (bank : activeBank m = b) (quotient : rateQuotient m.cfg C = q) :
    SlewRates b q m (slew C m) := by
  have steer := slew_steer C m
  rw [bank, quotient] at steer
  refine ⟨by rw [steer], by rw [steer], slew_clock C m, ?_, ?_⟩
  · have incomplete := congrArg Steering.incomplete steer
    dsimp only at incomplete
    rw [incomplete, decide_eq_true_iff]
  · have limit := congrArg Steering.rateLimit steer
    dsimp only at limit
    rw [limit, decide_eq_true_iff]

theorem movedRuns_steer_eq (C : Int) (s : State) :
    (movedRuns C s).steer = { s.steer with state := (movedRuns C s).steer.state, lockRun := (movedRuns C s).steer.lockRun
                                           unlockRun := (movedRuns C s).steer.unlockRun } :=
  moveRuns_eq _ _ _

theorem Slewed.rates {C : Int} {w t : State} {b : Bank} {q : Int} (slewed : Slewed C w t) (bank : activeBank (movedRuns C w) = b)
    (quotient : rateQuotient w.cfg C = q) : SlewRates b q w t := by
  have rates : SlewRates b q (movedRuns C w) (slew C (movedRuns C w)) := slew_rates bank quotient
  have kept : (movedRuns C w).steer.rf = w.steer.rf := by rw [movedRuns_steer_eq]
  obtain ⟨phase, freq, clock, incomplete, limit⟩ := rates
  rw [kept] at freq limit
  refine ⟨?_, ?_, ?_, ?_, ?_⟩
  · rw [slewed.steer]
    exact phase
  · rw [slewed.steer]
    exact freq
  · rw [slewed.clock, slewed.steer]
    exact clock
  · rw [slewed.steer]
    exact incomplete
  · rw [slewed.steer, slewed.clock]
    exact limit

/-- What a slew keeps of the Steering Unit. -/
theorem Slewed.kept {C : Int} {w t : State} (slewed : Slewed C w t) :
    (t.steer.state, t.steer.lockRun, t.steer.unlockRun)
        = ((movedRuns C w).steer.state, (movedRuns C w).steer.lockRun, (movedRuns C w).steer.unlockRun)
      ∧ t.steer.holdover = w.steer.holdover ∧ t.steer.bound = w.steer.bound ∧ t.steer.grade = w.steer.grade
      ∧ t.steer.series = w.steer.series := by
  rw [slewed.steer, slew_steer]
  refine ⟨rfl, ?_⟩
  rw [movedRuns_steer_eq]
  exact ⟨rfl, rfl, rfl, rfl⟩

/-! ### An instant that is slewed or deferred (R70, R73) -/

theorem boundOf_spelled (c : Settings) (r : List Source) :
    boundOf c r = min (sourceTerm r + ((spreadOf r).toNat + 511) / 512 + ((correctionOf r).natAbs + 255) / 256
      + (c.drift * (c.period * 1000000) + 999999999999) / 1000000000000) 4294967295 := by
  rw [boundOf, driftTerm, max32]

theorem callsForStep_iff (c : Settings) (C : Int) : callsForStep c C = true ↔ c.stepThreshold * 256 ≤ C.natAbs := by
  rw [callsForStep, decide_eq_true_iff]

theorem takeMember_formed {x : Series} {g grade : Grade} {u : Nat} {s : State} (notCold : s.steer.state ≠ .cold)
    (cstar : (instantCombination s).cstar = some g) (bound : boundOf s.cfg (instantCombination s).retained = u)
    (graded : gradeOf s.cfg g (instantCombination s).refRetained u = grade) :
    formGrade (instantCombination (takeMember x s)) (sampled (takeMember x s))
      = changeGrade grade .combination { sampled (takeMember x s) with
          steer := { (sampled (takeMember x s)).steer with bound := u } } := by
  have formed : formGrade (instantCombination (takeMember x s)) (sampled (takeMember x s))
      = changeGrade (gradeOf s.cfg g (instantCombination s).refRetained (boundOf s.cfg (instantCombination s).retained)) .combination
          { sampled (takeMember x s) with
            steer := { (sampled (takeMember x s)).steer with bound := boundOf s.cfg (instantCombination s).retained } } :=
    formGrade_sampled (s := takeMember x s) notCold cstar
  rwa [bound, graded] at formed

theorem takeMember_applied {x : Series} {g : Grade} {s : State} (cstar : (instantCombination s).cstar = some g) :
    Applied (correctionOf (instantCombination s).retained) (beforeApply (takeMember x s)) (applied (takeMember x s)) := by
  have corrects : (instantCombination (takeMember x s)).correction = some (correctionOf (instantCombination s).retained) :=
    correction_of_some cstar
  rw [applied, corrects]
  exact applyCombination_applied _ _

/-- U, grade, GRADE record and stamps at the end of an instant whose apply stage keeps what stages 4 and 5 left of them (R84 to R89). -/
theorem steeringInstant_of_formed {x : Series} {g grade : Grade} {u : Nat} {s : State} (cstar : (instantCombination s).cstar = some g)
    (formed : formGrade (instantCombination (takeMember x s)) (sampled (takeMember x s))
      = changeGrade grade .combination { sampled (takeMember x s) with
          steer := { (sampled (takeMember x s)).steer with bound := u } })
    (keepsGrade : (applied (takeMember x s)).steer.grade = (beforeApply (takeMember x s)).steer.grade)
    (keepsBound : (applied (takeMember x s)).steer.bound = (beforeApply (takeMember x s)).steer.bound)
    (keepsRef : (applied (takeMember x s)).ref.state = (beforeApply (takeMember x s)).ref.state) :
    let t := steeringInstant (takeMember x s)
    t.steer.bound = u
      ∧ t.steer.grade
          = (if s.ref.state = .valid ∧ t.ref.state = .disputed ∧ grade = .anchored then (if g = .anchored then .agreed else g) else grade)
      ∧ (grade ≠ s.steer.grade → flagSet .grade t = true ∧ t.stamp.gradeMark = true
          ∧ (s.evid.queue.length < 512 →
              ∃ y more, t.evid.queue = s.evid.queue ++ y :: more ∧ y.number = s.evid.nextNumber ∧ y.grade = grade ∧ y.bound = u
                ∧ y.body = .grade { old := s.steer.grade, new := grade, cause := .combination, bound := u, cstar := some g,
                                    retained := (instantCombination s).retained.length,
                                    candidates := (instantCombination s).candidates, refRetained := (instantCombination s).refRetained,
                                    ref := s.ref.state, steer := s.steer.state }))
      ∧ (grade = s.steer.grade → t.ref.state = s.ref.state → t.stamp = s.stamp) := by
  intro t
  obtain ⟨wSteer, wGrade, wRecord, wStamp⟩ := beforeApply_of_formed (s := takeMember x s) cstar formed
  obtain ⟨-, -, -, -, aStamp⟩ := applied_frame (takeMember x s)
  have same : SameButRecords (applied (takeMember x s)) t := steeringInstant_sameButRecords (takeMember x s)
  have sameRef : t.ref.state = (beforeApply (takeMember x s)).ref.state := by rw [same.ref, keepsRef]
  refine ⟨?_, ?_, fun changed => ?_, fun kept keptRef => ?_⟩
  · rw [same.steer, keepsBound, wSteer]
  · rw [same.steer, keepsGrade, wGrade, sameRef]
    rfl
  · obtain ⟨flag, marked, added⟩ := wRecord changed
    refine ⟨applied_holds (applyOutcome_holds flag), by rw [same.stamp, aStamp, marked], fun room => ?_⟩
    obtain ⟨y, more, queue, number, rest⟩ := added room
    obtain ⟨more', final⟩ := ((beforeApply_applied_grows (takeMember x s)).trans (applied_grows (takeMember x s))).keepsQueue
    refine ⟨y, more ++ more', ?_, number, rest⟩
    rw [← final, queue, List.append_assoc]
    rfl
  · rw [same.stamp, aStamp]
    exact wStamp kept (sameRef.symm.trans keptRef)

/-- Settles O31. -/
theorem steeringInstantSlews : Obligations.SteeringInstantSlews := by
  intro x g s run series due notCold cstar r C beyond steps held unheld moved b q rp rf u ref grade keeps
  have formed := takeMember_formed (x := x) notCold cstar (boundOf_spelled s.cfg r) (gradeOf_spelled s.cfg g ref u)
  change formGrade _ _ = changeGrade grade _ { sampled (takeMember x s) with
    steer := { (sampled (takeMember x s)).steer with bound := u } } at formed
  clear_value u grade
  obtain ⟨wSteer, -, -, -⟩ := beforeApply_of_formed (s := takeMember x s) cstar formed
  obtain ⟨wClock, wCfg, wEntries, wLink, -, -⟩ := beforeApply_frame (takeMember x s)
  obtain ⟨aCfg, aEntries, aCard, aPending, -⟩ := applied_frame (takeMember x s)
  have same := steeringInstant_sameButRecords (takeMember x s)
  have wState : (beforeApply (takeMember x s)).steer.state = s.steer.state := by rw [wSteer]; rfl
  have slewed := (takeMember_applied (x := x) cstar).slewed_of (by rw [wState]; exact notCold) (by
    rw [wCfg, stepForbidden_congr (s := s) wEntries (by rw [wClock]; rfl), stepForbidden_iff]
    refine keeps.imp_left fun small => ?_
    rw [← Bool.not_eq_true, callsForStep_iff]
    exact small)
  obtain ⟨tRuns, tHoldover, tBound, tGrade, tSeries⟩ := slewed.kept
  obtain ⟨bound, graded, record, stamp⟩ := steeringInstant_of_formed cstar formed tGrade tBound (by rw [slewed.ref])
  have triple : ((movedRuns C (beforeApply (takeMember x s))).steer.state, (movedRuns C (beforeApply (takeMember x s))).steer.lockRun,
      (movedRuns C (beforeApply (takeMember x s))).steer.unlockRun) = moved := by
    refine (moveRuns_spelled (beforeApply (takeMember x s)).cfg C (by rw [wState]; exact notCold)).trans ?_
    rw [wCfg, wSteer]
    rfl
  clear_value moved
  have mState : (movedRuns C (beforeApply (takeMember x s))).steer.state = moved.1 := congrArg Prod.fst triple
  have bank : activeBank (movedRuns C (beforeApply (takeMember x s))) = b := by
    rw [activeBank_spelled, mState, show (movedRuns C (beforeApply (takeMember x s))).cfg = s.cfg from wCfg]
  have rates := slewed.rates bank (q := q) (by rw [wCfg]; rfl)
  have wFreq : (beforeApply (takeMember x s)).steer.rf = s.steer.rf := by rw [wSteer]; rfl
  have calls : callsForStep (beforeApply (takeMember x s)).cfg C = decide steps := by
    rw [wCfg]
    rfl
  obtain ⟨phase, freq, clock, incomplete, limit⟩ := rates
  rw [wCfg, wFreq] at freq
  rw [wFreq] at limit
  rw [wCfg, wClock] at clock
  rw [← same.steer] at tRuns tHoldover tSeries phase freq clock incomplete limit
  rw [← same.clock] at clock limit
  refine ⟨_, exec_steeringInstant run series due, ?_, tRuns.trans triple, ?_, bound, graded, record, stamp, phase, freq, clock,
    incomplete, limit, ?_, fun stepCalled first => ?_, ?_,
    same.entries.trans aEntries, same.link.trans (slewed.link.trans wLink), same.cfg.trans aCfg, same.card.trans aCard,
    same.pending.trans aPending⟩
  · rw [tSeries, wSteer]
    rfl
  · rw [tHoldover, wSteer]
    rfl
  · rw [same.steer, slewed.steer, calls]
    exact decide_eq_true_iff
  · obtain ⟨flag, v, grows, made⟩ := slewed.record (calls.trans (decide_eq_true stepCalled)) (by rw [wSteer]; exact first)
    refine ⟨applied_holds flag, fun room => ?_⟩
    rw [mState, wClock] at made
    exact handed_record_stays (s := takeMember x s) ((beforeApply_grows _).trans grows)
      (made ▸ applied_grows (takeMember x s)) room
  · rw [same.steer, slewed.steer, calls, wSteer]
    simp only [show (instantCombination (takeMember x s)).latest .none = _ from latest_of_some cstar .none, Option.map_some,
      decide_eq_true_eq]
    rfl

/-! ### An instant that steps the clock (R65, R70 to R72) -/

/-- The state a combination is applied in: its runs moved, but in COLD. -/
def runsMoved (C : Int) (s : State) : State := if s.steer.state = .cold then s else movedRuns C s

/-- A combination that a step is taken for. -/
structure Stepped (C : Int) (s t : State) : Prop where
  steer : t.steer = { s.steer with
    state := .acquire, lockRun := 0, unlockRun := 0, rp := 0, incomplete := false, rateLimit := false, stepDeferred := false
    latest := s.steer.latest.map (fun l => { l with kind := .step })
    series := t.steer.series }
  clock : t.clock = { s.clock with present := steppedTime s.clock.present C, rate := s.steer.rf }
  ref : t.ref = refAfterStep (appliedAmount s.clock.present C) s.ref
  peers : t.peers = peersAfterStep s.peers
  flag : flagSet .step t = true
  record : ∃ u : State, Evidence.Grows s.evid u.evid
    ∧ t.evid = (handRecord (stepTakenBody C .combination (runsMoved C s).steer.state s.clock.present) u).evid

theorem runsMoved_steer (C : Int) (s : State) :
    (runsMoved C s).steer = { s.steer with state := (runsMoved C s).steer.state, lockRun := (runsMoved C s).steer.lockRun
                                           unlockRun := (runsMoved C s).steer.unlockRun } := by
  unfold runsMoved
  split
  · rfl
  · exact movedRuns_steer_eq C s

theorem runsMoved_eq (C : Int) (s : State) : runsMoved C s = { s with steer := (runsMoved C s).steer } := by
  unfold runsMoved
  split <;> rfl

theorem takeStep_stepped (C : Int) (s : State) : Stepped C s (takeStep C .combination (setKind .step (runsMoved C s))) := by
  obtain ⟨u, evid, handed⟩ := takeStep_handed C .combination (setKind .step (runsMoved C s))
  have steer := runsMoved_steer C s
  have whole := runsMoved_eq C s
  have clock : (runsMoved C s).clock = s.clock := by rw [whole]
  have kept : (runsMoved C s).evid = s.evid := by rw [whole]
  refine ⟨?_, ?_, ?_, ?_, raise_sets .step _, u, ?_, ?_⟩
  · rw [takeStep_steer, setKind, steer]
    rfl
  · rw [takeStep_clock, setKind, clock, steer]
  · rw [takeStep_ref, setKind, clock, whole]
  · rw [takeStep_peers, setKind, whole]
  · rw [evid, setKind, kept]
    exact .refl _
  · rw [handed, setKind, clock]

theorem Applied.stepped_of {C : Int} {s t : State} (applied : Applied C s t) (allowed : stepForbidden C s = false)
    (calls : s.steer.state = .cold ∨ callsForStep s.cfg C = true) : Stepped C s t := by
  have stepped := takeStep_stepped C s
  cases applied with
  | stayed _ forbidden => exact nomatch allowed.symm.trans forbidden
  | deferred _ _ forbidden => exact nomatch allowed.symm.trans forbidden
  | slewed notCold small => exact calls.elim (fun cold => absurd cold notCold) (fun called => nomatch small.symm.trans called)
  | steppedCold cold _ => rwa [runsMoved, if_pos cold] at stepped
  | stepped notCold _ _ => rwa [runsMoved, if_neg notCold] at stepped

/-- The state a combination outside COLD moves to (R66, R67). -/
theorem movedRuns_state_spelled (C : Int) {s : State} (notCold : s.steer.state ≠ .cold) :
    (movedRuns C s).steer.state
      = if s.steer.state = .track then
          if s.cfg.unlockThreshold * 256 < C.natAbs ∧ 3 ≤ s.steer.unlockRun + 1 then .acquire else .track
        else if s.cfg.lockThreshold * 256 < C.natAbs ∨ (if s.steer.state = .holdover then 0 else s.steer.lockRun) + 1 < 8 then .acquire
        else .track := by
  have moved := congrArg Prod.fst (moveRuns_spelled s.cfg C notCold)
  rw [movedRuns_steer]
  refine moved.trans ?_
  split
  · by_cases beyond : s.cfg.unlockThreshold * 256 < C.natAbs
    · by_cases long : 3 ≤ s.steer.unlockRun + 1
      · rw [if_pos beyond, if_pos long, if_pos ⟨beyond, long⟩]
      · rw [if_pos beyond, if_neg long, if_neg (fun both => long both.2)]
    · rw [if_neg beyond, if_neg (fun both => beyond both.1)]
  · generalize (if s.steer.state = .holdover then 0 else s.steer.lockRun) = held
    by_cases beyond : s.cfg.lockThreshold * 256 < C.natAbs
    · rw [if_pos beyond, if_pos (Or.inl beyond)]
    · by_cases long : 8 ≤ held + 1
      · rw [if_neg beyond, if_pos long, if_neg (not_or.mpr ⟨beyond, not_lt.mpr long⟩)]
      · rw [if_neg beyond, if_neg long, if_pos (Or.inr (not_le.mp long))]

/-- What the stages before the apply stage keep of the Steering Unit. -/
theorem beforeApply_kept (s : State) :
    (beforeApply s).steer.rf = s.steer.rf ∧ (beforeApply s).steer.lockRun = s.steer.lockRun
      ∧ (beforeApply s).steer.unlockRun = s.steer.unlockRun
      ∧ (beforeApply s).steer.holdover = (if s.steer.state = .track then some s.steer.rf else s.steer.holdover)
      ∧ (beforeApply s).steer.latest = some ((instantCombination s).latest .none) := by
  simp [beforeApply_eq, sampled_steer]

/-- In COLD U is kept, and the grade while the reference keeps its state (R83, R87). -/
theorem beforeApply_of_cold {s : State} {g : Grade} (cold : s.steer.state = .cold) (cstar : (instantCombination s).cstar = some g) :
    (beforeApply s).steer.bound = s.steer.bound
      ∧ ((beforeApply s).ref.state = s.ref.state →
          (beforeApply s).steer.grade = s.steer.grade ∧ (beforeApply s).stamp = s.stamp) := by
  obtain ⟨w, steer, stamp, ref, judged⟩ := beforeApply_judged cstar
  rw [formGrade_of_cold (by rw [sampled_keeps_state]; exact cold)] at steer stamp
  refine ⟨by rw [judged.steer, steer, sampled_steer], fun sameRef => ⟨?_, ?_⟩⟩
  · rw [judged.grade, if_neg]
    · rw [steer, sampled_keeps_grade]
    · rintro ⟨valid, disputed, -⟩
      rw [ref] at valid
      exact nomatch disputed.symm.trans (sameRef.trans valid)
  · rw [judged.stamp (by rw [ref]; exact sameRef), stamp]
    rfl

/-- Settles O32. -/
theorem firstCombinationSetsTheClock : Obligations.FirstCombinationSetsTheClock := by
  intro x g s run series due cstar r C cold held moved u ref grade calls free
  obtain ⟨wClock, wCfg, wEntries, -, -, -⟩ := beforeApply_frame (takeMember x s)
  obtain ⟨aCfg, aEntries, aCard, -, aStamp⟩ := applied_frame (takeMember x s)
  obtain ⟨wFreq, wLock, wUnlock, wHoldover, wLatest⟩ := beforeApply_kept (takeMember x s)
  have wState : (beforeApply (takeMember x s)).steer.state = s.steer.state := beforeApply_state _
  have same := steeringInstant_sameButRecords (takeMember x s)
  have allowed : stepForbidden C (beforeApply (takeMember x s)) = false := by
    rw [stepForbidden_congr (s := s) wEntries (by rw [wClock]; rfl)]
    exact (not_stepForbidden_iff _ _).mpr free
  have stepped := (takeMember_applied (x := x) cstar).stepped_of allowed (by
    rw [wState, wCfg, callsForStep_iff]
    exact calls)
  have tSteer := same.steer.trans stepped.steer
  have tClock := same.clock.trans stepped.clock
  have tRef : (steeringInstant (takeMember x s)).ref.state = (beforeApply (takeMember x s)).ref.state := by
    rw [same.ref, stepped.ref]
    rfl
  rw [wFreq, wClock] at tClock
  have reaches := steppedTime_int s.clock.present C
  refine ⟨_, exec_steeringInstant run series due, by rw [tSteer], by rw [tSteer], by rw [tSteer], ?_, by rw [tSteer], ?_, by rw [tSteer],
    by rw [tSteer], by rw [tSteer], applied_holds stepped.flag, ?_, fun isCold => ⟨?_, fun sameRef => ⟨?_, ?_⟩⟩, fun notCold => ?_, ?_,
    ?_, fun room => ?_, same.entries.trans aEntries, same.cfg.trans aCfg, same.card.trans aCard⟩
  · rw [tClock, ← Int.toNat_natCast (steppedTime _ _)]
    exact congrArg (fun p : Int => ({ s.clock with present := p.toNat, rate := s.steer.rf } : Clock)) reaches
  · rw [tSteer]
    exact wFreq
  · rw [tSteer]
    exact wHoldover
  · rw [tSteer]
    exact (beforeApply_of_cold (s := takeMember x s) isCold cstar).1
  · rw [tSteer]
    exact ((beforeApply_of_cold (s := takeMember x s) isCold cstar).2 (tRef.symm.trans sameRef)).1
  · rw [same.stamp, aStamp]
    exact ((beforeApply_of_cold (s := takeMember x s) isCold cstar).2 (tRef.symm.trans sameRef)).2
  · exact steeringInstant_of_formed cstar
      (takeMember_formed (x := x) notCold cstar (boundOf_spelled s.cfg r) (gradeOf_spelled s.cfg g ref u))
      (by rw [stepped.steer]) (by rw [stepped.steer]) (by rw [stepped.ref]; rfl)
  · intro p mem
    rw [same.peers, stepped.peers] at mem
    obtain ⟨p', -, rfl⟩ := List.mem_map.mp mem
    rfl
  · rw [tSteer, wLatest, show (instantCombination (takeMember x s)).latest .none = _ from latest_of_some cstar .none]
    rfl
  · obtain ⟨v, grows, made⟩ := stepped.record
    have before : (runsMoved C (beforeApply (takeMember x s))).steer.state = if cold then .cold else moved := by
      rw [runsMoved, wState]
      split
      · next isCold => exact wState.trans isCold
      · next notCold =>
        rw [movedRuns_state_spelled C (by rw [wState]; exact notCold), wState, wCfg, wLock, wUnlock]
        rfl
    rw [before, wClock] at made
    have present : (steeringInstant (takeMember x s)).clock.present = steppedTime s.clock.present C := by rw [tClock]; rfl
    rw [present]
    exact handed_record_stays (s := takeMember x s) ((beforeApply_grows _).trans grows)
      (made ▸ applied_grows (takeMember x s)) room

/-! ### An instant without a combination (R64, R77, R83, R86) -/

theorem instantCombination_none {s : State} (cstar : (instantCombination s).cstar = none) :
    (instantCombination s).candidates = (admittedSources s.cfg s.ref (sourceList s)).length
      ∧ (admittedSources s.cfg s.ref (sourceList s)).length < 2 * s.cfg.faults + 1 := by
  cases selected : selectClass (2 * s.cfg.faults + 1) (admittedSources s.cfg s.ref (sourceList s)) with
  | none =>
    refine ⟨?_, (selectClass_none_iff _ _).mp selected⟩
    rw [instantCombination, combine_of_none selected]
  | some g =>
    rw [instantCombination, combine_of_some selected] at cstar
    exact nomatch cstar

theorem beforeApply_none {s : State} (cstar : (instantCombination s).cstar = none) :
    (beforeApply s).steer = (formGrade (instantCombination s) (sampled s)).steer ∧ (beforeApply s).ref = s.ref := by
  rw [beforeApply_eq, correction_of_none cstar, judgeAll]
  simp [sampled]

theorem changeGrade_of_none_steer {s : State} {u : Nat} {grade : Grade} (notCold : s.steer.state ≠ .cold)
    (cstar : (instantCombination s).cstar = none) (bound : grownBound s.cfg s.steer.bound = u)
    (graded : heldGrade s.cfg s.steer.grade u = grade) :
    (formGrade (instantCombination s) (sampled s)).steer = { (sampled s).steer with bound := u, grade := grade } := by
  have kept : (sampled s).steer.bound = s.steer.bound := by rw [sampled_steer]
  have formed := formGrade_of_none (s := sampled s) (by rw [sampled_keeps_state]; exact notCold) cstar
  rw [kept, sampled_keeps_grade, show (sampled s).cfg = s.cfg from rfl, bound, graded] at formed
  rw [formed]
  exact changeGrade_bound_steer grade .noCombination u (sampled s)

theorem grownBound_spelled (c : Settings) (u : Nat) :
    grownBound c u = min (u + (c.drift * (c.period * 1000000) + 999999999999) / 1000000000000) 4294967295 := by
  rw [grownBound, driftTerm, max32]

theorem applyNone_stays {s : State} (state : s.steer.state = .cold ∨ s.steer.state = .holdover) : applyNone s = s := by
  unfold applyNone
  obtain cold | holdover := state
  · rw [cold]
  · rw [holdover]

theorem applyNone_enters {s : State} (state : s.steer.state = .acquire ∨ s.steer.state = .track) :
    applyNone s = enterHoldover s := by
  unfold applyNone
  obtain acquire | track := state
  · rw [acquire]
  · rw [track]

/-- Settles O33. -/
theorem instantWithoutCombination : Obligations.InstantWithoutCombination := by
  intro x s run series due cstar n u
  obtain ⟨candidates, few⟩ := instantCombination_none cstar
  obtain ⟨wClock, wCfg, wEntries, wLink, -, -⟩ := beforeApply_frame (takeMember x s)
  obtain ⟨aCfg, aEntries, aCard, -, -⟩ := applied_frame (takeMember x s)
  obtain ⟨wFreq, -, -, wHoldover, wLatest⟩ := beforeApply_kept (takeMember x s)
  obtain ⟨wFormed, wRef⟩ := beforeApply_none (s := takeMember x s) cstar
  have wState : (beforeApply (takeMember x s)).steer.state = s.steer.state := beforeApply_state _
  have same := steeringInstant_sameButRecords (takeMember x s)
  have stage : applied (takeMember x s) = applyNone (beforeApply (takeMember x s)) := by
    rw [applied, show (instantCombination (takeMember x s)).correction = none from correction_of_none cstar]
    rfl
  have tSteer : (steeringInstant (takeMember x s)).steer = (applyNone (beforeApply (takeMember x s))).steer := by rw [same.steer, stage]
  have tClock : (steeringInstant (takeMember x s)).clock = (applyNone (beforeApply (takeMember x s))).clock := by rw [same.clock, stage]
  have cold (isCold : s.steer.state = .cold) : (beforeApply (takeMember x s)).steer = (sampled (takeMember x s)).steer := by
    rw [wFormed, formGrade_of_cold (by rw [sampled_keeps_state]; exact isCold)]
  have warm (notCold : s.steer.state ≠ .cold) : (beforeApply (takeMember x s)).steer
      = { (sampled (takeMember x s)).steer with
          bound := u, grade := if s.steer.grade ≠ .free ∧ u ≤ s.cfg.limitG then .holdover else .free } :=
    wFormed.trans (changeGrade_of_none_steer (s := takeMember x s) notCold cstar (grownBound_spelled _ _) rfl)
  clear_value u
  refine ⟨_, exec_steeringInstant run series due, few, ?_, fun isCold => ⟨?_, ?_⟩, fun notCold => ?_, fun state => ?_, fun state => ?_,
    fun state => ?_, ?_, same.entries.trans aEntries, ?_, same.cfg.trans aCfg, same.card.trans aCard⟩
  · rw [tSteer]
    simp only [applyNone_keeps, wLatest, show (instantCombination (takeMember x s)).latest .none = _ from latest_of_none cstar .none]
    exact congrArg (fun k => some (Latest.mk 0 0 none k 0 .none false)) candidates
  · rw [tSteer, applyNone_stays (by rw [wState]; exact .inl isCold), cold isCold, sampled_steer, if_neg]
    · rfl
    · exact fun track => nomatch isCold.symm.trans track
  · rw [tClock, applyNone_stays (by rw [wState]; exact .inl isCold), wClock]
    rfl
  · have state : (applyNone (beforeApply (takeMember x s))).steer.state = .holdover := by
      cases now : s.steer.state with
      | cold => exact absurd now notCold
      | acquire => rw [applyNone_enters (by rw [wState]; exact .inl now)]; rfl
      | track => rw [applyNone_enters (by rw [wState]; exact .inr now)]; rfl
      | holdover => rw [applyNone_stays (by rw [wState]; exact .inr now), wState, now]
    rw [tSteer]
    refine ⟨state, ?_⟩
    simp only [applyNone_keeps]
    rw [warm notCold, sampled_steer]
    exact ⟨rfl, rfl, rfl, rfl⟩
  · rw [tSteer, tClock, applyNone_enters (by rw [wState]; exact state), enterHoldover]
    refine ⟨?_, wHoldover, rfl, rfl, rfl, rfl, rfl, ?_⟩
    · rw [wHoldover, wFreq]
      change (if s.steer.state = .track then some s.steer.rf else s.steer.holdover).getD s.steer.rf = _
      split <;> rfl
    · exact congrArg (fun c : Clock => { c with
        rate := (beforeApply (takeMember x s)).steer.holdover.getD (beforeApply (takeMember x s)).steer.rf }) wClock
  · have notTrack : ¬ s.steer.state = .track := fun track => nomatch state.symm.trans track
    rw [tSteer, applyNone_stays (by rw [wState]; exact .inr state),
      warm (fun cold => nomatch state.symm.trans cold), sampled_steer, if_neg (by exact notTrack)]
    rfl
  · rw [tClock, applyNone_stays (by rw [wState]; exact .inr state), wClock]
    rfl
  · rw [same.ref, stage]
    simp only [applyNone_keeps, wRef]
    rfl
  · rw [same.link, stage]
    simp only [applyNone_keeps, wLink]
    rfl

end Sys2Proof.Machine
end

