-- ==== Sys2Proof/Proofs/JudgedPeers.lean ====
section
/-! The judging and ageing of the peers at a steering instant, peer by peer (R36 to R43), and the instant's last records (R80, R147). -/

namespace Sys2Proof.Machine

/-! ### A run over the Peer Table, one record at a time -/

/-- The ids the table names, in its order. -/
def peerIds (s : State) : List Nat := s.peers.map Peer.id

theorem putPeer_ids (p : Peer) (s : State) : peerIds (putPeer p s) = peerIds s := by
  rw [peerIds, putPeer_peers, List.map_map, peerIds]
  refine List.map_congr_left fun q _ => ?_
  by_cases named : q.id = p.id
  · simp [named]
  · simp [named]

theorem commitPeer_ids (old : PeerState) (cause : PeerCause) (p : Peer) (s : State) : peerIds (commitPeer old cause p s) = peerIds s := by
  rw [peerIds, commitPeer_peers]
  exact putPeer_ids p s

/-- An operation that changes the record of one peer alone, named by its key. -/
structure Peerwise {α : Type} (f : State → α → State) (key : α → Nat) : Prop where
  other : ∀ s e k, k ≠ key e → findPeer k (f s e) = findPeer k s
  cfg : ∀ s e, (f s e).cfg = s.cfg
  ids : ∀ s e, peerIds (f s e) = peerIds s
  grows : ∀ s e, Evidence.Grows s.evid (f s e).evid
  holds : ∀ s e (n : Notice), flagSet n s = true → flagSet n (f s e) = true

namespace Peerwise

variable {α : Type} {f : State → α → State} {key : α → Nat}

theorem foldl_other (one : Peerwise f key) {k : Nat} (l : List α) (s : State) (absent : k ∉ l.map key) :
    findPeer k (l.foldl f s) = findPeer k s := by
  induction l generalizing s with
  | nil => rfl
  | cons e l ih =>
    rw [List.map_cons, List.mem_cons, not_or] at absent
    rw [List.foldl_cons, ih (f s e) absent.2, one.other s e k absent.1]

theorem foldl_cfg (one : Peerwise f key) (l : List α) (s : State) : (l.foldl f s).cfg = s.cfg := by
  induction l generalizing s with
  | nil => rfl
  | cons e l ih => rw [List.foldl_cons, ih, one.cfg]

theorem foldl_ids (one : Peerwise f key) (l : List α) (s : State) : peerIds (l.foldl f s) = peerIds s := by
  induction l generalizing s with
  | nil => rfl
  | cons e l ih => rw [List.foldl_cons, ih, one.ids]

theorem foldl_grows (one : Peerwise f key) (l : List α) (s : State) : Evidence.Grows s.evid (l.foldl f s).evid :=
  Machine.foldl_grows (fun u e grown => grown.trans (one.grows u e)) l (.refl _)

theorem foldl_holds (one : Peerwise f key) (l : List α) {n : Notice} {s : State} (flag : flagSet n s = true) :
    flagSet n (l.foldl f s) = true :=
  Machine.foldl_holds (fun u e => one.holds u e n) l flag

/-- A run that names a peer once does to its record what the one operation does, and keeps what that one adds. -/
theorem foldl_at (one : Peerwise f key) {l : List α} (nodup : (l.map key).Nodup) {e : α} (mem : e ∈ l) (s : State) :
    ∃ u : State, findPeer (key e) u = findPeer (key e) s ∧ u.cfg = s.cfg ∧ Evidence.Grows s.evid u.evid
      ∧ findPeer (key e) (l.foldl f s) = findPeer (key e) (f u e) ∧ Evidence.Grows (f u e).evid (l.foldl f s).evid
      ∧ ∀ n : Notice, flagSet n (f u e) = true → flagSet n (l.foldl f s) = true := by
  obtain ⟨l1, l2, rfl⟩ := List.append_of_mem mem
  rw [List.map_append, List.map_cons, List.nodup_append] at nodup
  obtain ⟨-, last, apart⟩ := nodup
  have before : key e ∉ l1.map key := fun named => apart _ named _ List.mem_cons_self rfl
  have behind : key e ∉ l2.map key := (List.nodup_cons.mp last).1
  rw [List.foldl_append, List.foldl_cons]
  exact ⟨l1.foldl f s, one.foldl_other l1 s before, one.foldl_cfg l1 s, one.foldl_grows l1 s, one.foldl_other l2 _ behind,
    one.foldl_grows l2 _, fun n flag => one.foldl_holds l2 flag⟩

end Peerwise

/-! ### Judging and ageing (R38 to R42) -/

theorem Peer.judgedRuns_id (out : Bool) (p : Peer) : (p.judgedRuns out).id = p.id := by
  unfold Peer.judgedRuns
  split <;> rfl

theorem Peer.judgedState_id (p : Peer) : p.judgedState.id = p.id := by
  unfold Peer.judgedState
  split
  · rfl
  · split <;> rfl

theorem Peer.aged_id (p : Peer) : p.aged.id = p.id := by
  unfold Peer.aged
  split
  · rfl
  · dsimp only
    split
    · split <;> rfl
    · split <;> rfl
    · split <;> rfl
    · split <;> rfl
    · rfl

/-- A peer's record after it is judged with offset `theta` against `C`. -/
def Peer.judged (c : Settings) (theta C : Int) (p : Peer) : Peer := (p.judgedRuns (disagrees c theta C)).judgedState

theorem judgePeer_found {C : Int} {s : State} {e : PeerSource} {p : Peer} (found : findPeer e.id s = some p) :
    judgePeer C s e = commitPeer p.state (if (p.judged s.cfg e.theta C).state = .excluded then .exclusion else .readmission)
      (p.judged s.cfg e.theta C) s := by
  rw [judgePeer, found]
  rfl

theorem agePeer_found {s : State} {i : Nat} {p : Peer} (found : findPeer i s = some p) :
    agePeer s i = commitPeer p.state (if p.aged.state = .absent then .absence else .silence) p.aged s := by
  rw [agePeer, found]

theorem judged_id (c : Settings) (theta C : Int) (p : Peer) : (p.judged c theta C).id = p.id := by
  rw [Peer.judged, Peer.judgedState_id, Peer.judgedRuns_id]

theorem commitPeer_found_other {old : PeerState} {cause : PeerCause} {p : Peer} {s : State} {k : Nat} (other : k ≠ p.id) :
    findPeer k (commitPeer old cause p s) = findPeer k s :=
  (findPeer_of_peers (commitPeer_peers old cause p s) k).trans (findPeer_putPeer_other other s)

theorem commitPeer_found_same {old : PeerState} {cause : PeerCause} {p q : Peer} {s : State} (found : findPeer p.id s = some q) :
    findPeer p.id (commitPeer old cause p s) = some p :=
  (findPeer_of_peers (commitPeer_peers old cause p s) p.id).trans (findPeer_putPeer_same found)

theorem judgePeer_peerwise (C : Int) : Peerwise (judgePeer C) PeerSource.id where
  other s e k different := by
    cases found : findPeer e.id s with
    | none => rw [judgePeer, found]
    | some p =>
      rw [judgePeer_found found]
      exact commitPeer_found_other (by rw [judged_id, findPeer_id found]; exact different)
  cfg s e := by simp
  ids s e := by
    cases found : findPeer e.id s with
    | none => rw [judgePeer, found]
    | some p => rw [judgePeer_found found, commitPeer_ids]
  grows s e := judgePeer_grows (.refl _)
  holds s e n flag := judgePeer_holds flag

theorem agePeer_peerwise : Peerwise agePeer (fun i => i) where
  other s i k different := by
    cases found : findPeer i s with
    | none => rw [agePeer, found]
    | some p =>
      rw [agePeer_found found]
      exact commitPeer_found_other (by rw [Peer.aged_id, findPeer_id found]; exact different)
  cfg s i := by simp
  ids s i := by
    cases found : findPeer i s with
    | none => rw [agePeer, found]
    | some p => rw [agePeer_found found, commitPeer_ids]
  grows s i := agePeer_grows (.refl _)
  holds s i n flag := agePeer_holds flag

/-- A committed change of state is recorded, and the record is held at the end where the queue is short then (R43). -/
theorem commitPeer_recorded {s u t : State} {old : PeerState} {cause : PeerCause} {p : Peer} (changed : p.state ≠ old)
    (before : Evidence.Grows s.evid u.evid) (after : Evidence.Grows (commitPeer old cause p u).evid t.evid)
    (room : t.evid.queue.length < 496) :
    ∃ y ∈ t.evid.queue, s.evid.nextNumber ≤ y.number ∧ y.body = .peer (peerBody old cause p) := by
  have made : (commitPeer old cause p u).evid = (handRecord (.peer (peerBody old cause p)) (putPeer p u)).evid := by
    rw [commitPeer, if_neg changed]
    rfl
  exact handed_record_stays (u := putPeer p u) before (made ▸ after) room

/-! ### Usable estimates and the snapshot (R36, R37) -/

/-- A usable estimate as the statements spell it (R36). -/
def usableEstimate (c : Settings) (p : Peer) : Prop :=
  (p.state = .paired ∨ p.state = .excluded) ∧ p.valid = true ∧ p.age ≤ 1
    ∧ (∃ e, p.estimate = some e ∧ 0 ≤ e.delay ∧ e.delay ≤ (c.delayBound * 256 : Nat)) ∧ (p.grade ≠ .free ∨ p.steer ≠ .cold)

theorem usable_iff (c : Settings) (p : Peer) : p.usable c = true ↔ usableEstimate c p := by
  unfold Peer.usable usableEstimate
  cases p.estimate with
  | none => simp
  | some e => simp [delayOk, and_assoc]

/-- A record is in the snapshot exactly where its estimate is usable. -/
theorem source_eq_some {c : Settings} {p : Peer} {e : PeerSource} :
    p.source c = some e ↔ usableEstimate c p ∧ ∃ x, p.estimate = some x
      ∧ e = ⟨p.id, x.theta, x.delay, p.grade, p.bound, decide (p.state = .excluded)⟩ := by
  unfold Peer.source
  rw [← usable_iff]
  split
  · next usable =>
    cases p.estimate with
    | none => simp
    | some x => simp [usable, eq_comm]
  · next unusable => simp [unusable]

theorem sourceList_ids (c : Settings) (ps : List Peer) :
    ((ps.filterMap (Peer.source c)).map PeerSource.id).Sublist (ps.map Peer.id) := by
  induction ps with
  | nil => exact .slnil
  | cons p ps ih =>
    cases source : p.source c with
    | none =>
      rw [List.filterMap_cons_none source]
      exact ih.trans (List.sublist_cons_self _ _)
    | some e =>
      obtain ⟨-, x, -, rfl⟩ := source_eq_some.mp source
      rw [List.filterMap_cons_some source]
      exact ih.cons_cons _

theorem eq_of_id {s : State} (nodup : (peerIds s).Nodup) {p q : Peer} (hp : p ∈ s.peers) (hq : q ∈ s.peers) (same : p.id = q.id) : p = q :=
  List.inj_on_of_nodup_map nodup hp hq same

theorem findPeer_of_mem {s : State} (nodup : (peerIds s).Nodup) {p : Peer} (mem : p ∈ s.peers) : findPeer p.id s = some p :=
  find_of_unique mem (decide_eq_true rfl) fun _ hq named => eq_of_id nodup hq mem (of_decide_eq_true named)

/-! ### What the statements say of a judged and an aged record -/

theorem disagrees_iff (c : Settings) (theta C : Int) : disagrees c theta C = true ↔ c.disagreeLimit * 256 < (theta - C).natAbs := by
  rw [disagrees, decide_eq_true_iff, Int.abs_eq_natAbs, Nat.cast_lt]

/-- The record after judging, field by field (R38 to R40). -/
theorem judged_spelled (c : Settings) (theta C : Int) (p : Peer) :
    let far := c.disagreeLimit * 256 < (theta - C).natAbs
    let dis := if far then min (p.disagree + 1) 255 else 0
    let agr := if far then 0 else min (p.agree + 1) 255
    let out := p.state = .paired ∧ 4 ≤ dis
    let back := p.state = .excluded ∧ 4 ≤ agr
    p.judged c theta C = { p with
      disagree := dis, agree := agr, state := if out then .excluded else if back then .paired else p.state
      mark := if out then true else if back then false else p.mark } := by
  intro far dis agr out back
  have runs : p.judgedRuns (disagrees c theta C) = { p with disagree := dis, agree := agr } := by
    unfold Peer.judgedRuns
    by_cases beyond : far
    · rw [if_pos ((disagrees_iff c theta C).mpr beyond)]
      simp [dis, agr, beyond]
    · rw [if_neg (fun disagreed => beyond ((disagrees_iff c theta C).mp disagreed))]
      simp [dis, agr, beyond]
  rw [Peer.judged, runs]
  clear_value dis agr
  unfold Peer.judgedState
  by_cases isOut : out
  · rw [if_pos (by exact isOut)]
    simp [isOut]
  · by_cases isBack : back
    · rw [if_neg (by exact isOut), if_pos (by exact isBack)]
      simp [isOut, isBack]
    · rw [if_neg (by exact isOut), if_neg (by exact isBack)]
      simp [isOut, isBack]

/-- The record after ageing, state by state (R41, R42). -/
theorem aged_spelled (j : Peer) :
    let age := min (j.age + 1) 8
    (j.latest = none → j.aged = j)
      ∧ (j.latest ≠ none →
        ((j.state = .heard ∨ j.state = .paired ∨ j.state = .excluded) →
          j.aged = { j with age := age, state := if 2 ≤ age then .silent else j.state })
        ∧ (j.state = .silent → age < 8 → j.aged = { j with age := age })
        ∧ (j.state = .silent → 8 ≤ age →
          j.aged = { j with age := age, state := .absent, pairing := none, estimate := none, valid := false, miss := 0, disagree := 0,
                            agree := 0, mark := false, grade := .free, bound := 4294967295, steer := .cold })
        ∧ (j.state = .absent → j.aged = { j with age := age })) := by
  intro age
  refine ⟨fun unheard => by rw [Peer.aged, unheard], fun heard => ?_⟩
  obtain ⟨b, latest⟩ := Option.ne_none_iff_exists'.mp heard
  refine ⟨fun state => ?_, fun state young => ?_, fun state old => ?_, fun state => ?_⟩
  · have aged : j.aged = if 2 ≤ age then { j with age := age, state := .silent } else { j with age := age } := by
      rw [Peer.aged, latest]
      obtain state | state | state := state <;> rw [state]
    rw [aged]
    split <;> rfl
  · rw [Peer.aged, latest, state]
    exact if_neg (not_le.mpr young)
  · rw [Peer.aged, latest, state]
    exact if_pos old
  · rw [Peer.aged, latest, state]

/-- An estimate ceases to be valid only with the record's fall to ABSENT (R42). -/
theorem aged_valid (j : Peer) : j.aged.valid = (j.valid && decide (j.aged.state ≠ .absent ∨ j.state = .absent)) := by
  obtain ⟨unheard, heard⟩ := aged_spelled j
  by_cases latest : j.latest = none
  · rw [unheard latest]
    by_cases absent : j.state = .absent <;> simp [absent]
  · obtain ⟨known, young, old, absent⟩ := heard latest
    have settled (state : j.state = .heard ∨ j.state = .paired ∨ j.state = .excluded) (notAbsent : j.state ≠ .absent) :
        j.aged.valid = (j.valid && decide (j.aged.state ≠ .absent ∨ j.state = .absent)) := by
      rw [known state]
      by_cases quiet : 2 ≤ min (j.age + 1) 8 <;> simp [quiet, notAbsent]
    cases state : j.state with
    | absent => simp [absent state]
    | heard => simpa [state] using settled (.inl state) (by simp [state])
    | paired => simpa [state] using settled (.inr (.inl state)) (by simp [state])
    | excluded => simpa [state] using settled (.inr (.inr state)) (by simp [state])
    | silent =>
      by_cases gone : 8 ≤ min (j.age + 1) 8
      · rw [old state gone]
        simp
      · rw [young state (not_le.mp gone)]
        simp [state]

/-! ### One peer through the instant (section 3.5) -/

/-- Somewhere between `s` and `t` the record `p` was committed, and `t` still shows what that left. -/
def Committed (s t : State) (old : PeerState) (cause : PeerCause) (p : Peer) : Prop :=
  ∃ u : State, Evidence.Grows s.evid u.evid ∧ Evidence.Grows (commitPeer old cause p u).evid t.evid
    ∧ ∀ n : Notice, flagSet n (commitPeer old cause p u) = true → flagSet n t = true

theorem Committed.later {s t v : State} {old : PeerState} {cause : PeerCause} {p : Peer} (done : Committed s t old cause p)
    (grows : Evidence.Grows t.evid v.evid) (holds : ∀ n : Notice, flagSet n t = true → flagSet n v = true) :
    Committed s v old cause p := by
  obtain ⟨u, before, after, flags⟩ := done
  exact ⟨u, before, after.trans grows, fun n flag => holds n (flags n flag)⟩

theorem Committed.earlier {r s t : State} {old : PeerState} {cause : PeerCause} {p : Peer} (done : Committed s t old cause p)
    (grows : Evidence.Grows r.evid s.evid) : Committed r t old cause p := by
  obtain ⟨u, before, after, flags⟩ := done
  exact ⟨u, grows.trans before, after, flags⟩

/-- A committed change of state sets the flag and leaves its record (R43). -/
theorem Committed.changed {s t : State} {old : PeerState} {cause : PeerCause} {p : Peer} (done : Committed s t old cause p)
    (changed : p.state ≠ old) :
    flagSet .peer t = true ∧ (t.evid.queue.length < 496 →
      ∃ y ∈ t.evid.queue, s.evid.nextNumber ≤ y.number ∧ y.body = .peer (peerBody old cause p)) := by
  obtain ⟨u, before, after, flags⟩ := done
  exact ⟨flags _ (commitPeer_of_change changed cause (s := u) rfl).1, commitPeer_recorded changed before after⟩

/-- The judging of the snapshot, where there is a correction. -/
def judgedPeers (C : Option Int) (s : State) : State :=
  match C with
  | none => s
  | some c => (sourceList s).foldl (judgePeer c) s

theorem peersAtInstant_eq (C : Option Int) (s : State) :
    peersAtInstant (sourceList s) C s = (peerIds (judgedPeers C s)).foldl agePeer (judgedPeers C s) := by
  cases C <;> rfl

theorem judgedPeers_ids (C : Option Int) (s : State) : peerIds (judgedPeers C s) = peerIds s := by
  cases C with
  | none => rfl
  | some c => exact (judgePeer_peerwise c).foldl_ids _ _

/-- A peer whose estimate is usable is judged against C, any other is left as it was (R38). -/
theorem judgedPeers_at {s : State} (nodup : (peerIds s).Nodup) {p : Peer} (mem : p ∈ s.peers) (C : Option Int) :
    ∃ j : Peer, (¬ (C ≠ none ∧ usableEstimate s.cfg p) → j = p)
      ∧ (∀ e c, C = some c → usableEstimate s.cfg p → p.estimate = some e → j = p.judged s.cfg e.theta c)
      ∧ j.id = p.id ∧ findPeer p.id (judgedPeers C s) = some j
      ∧ (j.state ≠ p.state →
          Committed s (judgedPeers C s) p.state (if j.state = .excluded then .exclusion else .readmission) j) := by
  have found := findPeer_of_mem nodup mem
  cases C with
  | none => exact ⟨p, fun _ => rfl, nofun, rfl, found, fun changed => absurd rfl changed⟩
  | some c =>
    have one := judgePeer_peerwise c
    have listed : ((sourceList s).map PeerSource.id).Nodup := (sourceList_ids s.cfg s.peers).nodup nodup
    by_cases usable : usableEstimate s.cfg p
    · obtain ⟨x, estimate, -⟩ := usable.2.2.2.1
      have source := source_eq_some.mpr ⟨usable, x, estimate, rfl⟩
      obtain ⟨u, sameFound, sameCfg, before, final, after, flags⟩ :=
        one.foldl_at listed (List.mem_filterMap.mpr ⟨p, mem, source⟩) s
      have foundU := sameFound.trans found
      rw [judgePeer_found foundU, sameCfg] at final after flags
      have named : (p.judged s.cfg x.theta c).id = p.id := judged_id _ _ _ _
      refine ⟨p.judged s.cfg x.theta c, fun idle => absurd ⟨nofun, usable⟩ idle, fun e c' given _ isEstimate => ?_, named,
        final.trans ?_, fun _ => ⟨u, before, after, flags⟩⟩
      · obtain rfl := Option.some.inj given
        obtain rfl := Option.some.inj (estimate.symm.trans isEstimate)
        rfl
      · have putAt := commitPeer_found_same (old := p.state)
          (cause := if (p.judged s.cfg x.theta c).state = .excluded then .exclusion else .readmission)
          (p := p.judged s.cfg x.theta c) (s := u) (by rw [named]; exact foundU)
        rwa [named] at putAt
    · have absent : p.id ∉ (sourceList s).map PeerSource.id := by
        intro named
        obtain ⟨e, memE, sameId⟩ := List.mem_map.mp named
        obtain ⟨q, memQ, source⟩ := List.mem_filterMap.mp memE
        obtain ⟨usableQ, x, -, rfl⟩ := source_eq_some.mp source
        obtain rfl := eq_of_id nodup memQ mem sameId
        exact usable usableQ
      exact ⟨p, fun _ => rfl, fun e c' _ isUsable => absurd isUsable usable, rfl,
        (one.foldl_other _ s absent).trans found, fun changed => absurd rfl changed⟩

/-- One peer through the whole of its unit's part of the instant: judged, then aged (log 20). -/
theorem peersAtInstant_at {s : State} (nodup : (peerIds s).Nodup) {p : Peer} (mem : p ∈ s.peers) (C : Option Int) :
    ∃ j : Peer, (¬ (C ≠ none ∧ usableEstimate s.cfg p) → j = p)
      ∧ (∀ e c, C = some c → usableEstimate s.cfg p → p.estimate = some e → j = p.judged s.cfg e.theta c)
      ∧ findPeer p.id (peersAtInstant (sourceList s) C s) = some j.aged
      ∧ (j.state ≠ p.state → Committed s (peersAtInstant (sourceList s) C s) p.state
          (if j.state = .excluded then .exclusion else .readmission) j)
      ∧ (j.aged.state ≠ j.state → Committed s (peersAtInstant (sourceList s) C s) j.state
          (if j.aged.state = .absent then .absence else .silence) j.aged) := by
  obtain ⟨j, idle, judged, named, found, committed⟩ := judgedPeers_at nodup mem C
  have one := agePeer_peerwise
  have grown : Evidence.Grows s.evid (judgedPeers C s).evid := by
    cases C with
    | none => exact .refl _
    | some c => exact (judgePeer_peerwise c).foldl_grows _ _
  have listed : ((peerIds (judgedPeers C s)).map (fun i => i)).Nodup := by
    rw [List.map_id', judgedPeers_ids]
    exact nodup
  have inTable : p.id ∈ peerIds (judgedPeers C s) := by
    rw [judgedPeers_ids]
    exact List.mem_map_of_mem mem
  obtain ⟨u, sameFound, -, before, final, after, flags⟩ := one.foldl_at listed inTable (judgedPeers C s)
  have foundU := sameFound.trans found
  rw [agePeer_found foundU] at final after flags
  rw [peersAtInstant_eq]
  refine ⟨j, idle, judged, final.trans ?_, fun changed => (committed changed).later (one.foldl_grows _ _) fun n flag => one.foldl_holds _ flag,
    fun _ => ⟨u, grown.trans before, after, flags⟩⟩
  have agedNamed : j.aged.id = p.id := j.aged_id.trans named
  have putAt := commitPeer_found_same (old := j.state) (cause := if j.aged.state = .absent then .absence else .silence)
    (p := j.aged) (s := u) (by rw [agedNamed]; exact foundU)
  rwa [agedNamed] at putAt

end Sys2Proof.Machine
end

