-- ==== Sys2Proof/Proofs/InstantJudging.lean ====
section
/-! The judging of the reference, spelled (R55), what the apply stage does to the measuring units (R38, R53, R72), the records that end an
instant (R80, R147), and the whole of it. -/

namespace Sys2Proof.Machine

/-! ### The apply stage at the measuring units -/

/-- What the apply stage does outside the Steering Unit. -/
structure MeasureKept (s t : State) : Prop where
  peers : t.peers = s.peers ∨ t.peers = peersAfterStep s.peers
  ref : t.ref = { s.ref with theta := s.ref.theta.map (fun y => y - ((t.clock.present : Int) - s.clock.present)) }
  grade : t.steer.grade = s.steer.grade
  latest : ∀ l, s.steer.latest = some l → ∃ l', t.steer.latest = some l'

theorem theta_kept (r : Reference) (p : Nat) : r = { r with theta := r.theta.map (fun y => y - ((p : Int) - p)) } := by
  have same : r.theta.map (fun y => y - ((p : Int) - p)) = r.theta := by
    cases r.theta <;> simp
  rw [same]

theorem MeasureKept.of_kept {s t : State} (peers : t.peers = s.peers) (ref : t.ref = s.ref)
    (present : t.clock.present = s.clock.present) (grade : t.steer.grade = s.steer.grade)
    (latest : ∀ l, s.steer.latest = some l → ∃ l', t.steer.latest = some l') : MeasureKept s t where
  peers := .inl peers
  ref := by
    rw [present, ref]
    exact theta_kept _ _
  grade := grade
  latest := latest

theorem Stepped.measureKept {C : Int} {s t : State} (stepped : Stepped C s t) : MeasureKept s t where
  peers := .inr stepped.peers
  ref := by
    rw [stepped.ref, stepped.clock]
    rfl
  grade := by rw [stepped.steer]
  latest := fun l latest => by
    rw [stepped.steer, latest]
    exact ⟨_, rfl⟩

theorem Slewed.measureKept {C : Int} {s t : State} (slewed : Slewed C s t) (peers : t.peers = s.peers) : MeasureKept s t := by
  refine .of_kept peers slewed.ref ?_ slewed.kept.2.2.2.1 fun l latest => ?_
  · rw [slewed.clock, slew_clock]
    rfl
  · rw [slewed.steer, latest]
    exact ⟨_, rfl⟩

theorem applyOutcome_measureKept (C : Option Int) (s : State) : MeasureKept s (applyOutcome C s) := by
  cases C with
  | none =>
    change MeasureKept s (applyNone s)
    refine .of_kept (by simp) (by simp) (by simp) (by simp) fun l latest => ⟨l, ?_⟩
    simp [latest]
  | some c =>
    have done := applyCombination_applied c s
    change Applied c s (applyOutcome (some c) s) at done
    by_cases cold : s.steer.state = .cold
    · cases forbids : stepForbidden c s with
      | false => exact (done.stepped_of forbids (.inl cold)).measureKept
      | true =>
        have stays : applyOutcome (some c) s = s := by
          change applyCombination c s = s
          rw [applyCombination, if_pos cold, applyCold, if_pos forbids]
        rw [stays]
        exact .of_kept rfl rfl rfl rfl fun l latest => ⟨l, latest⟩
    · by_cases steps : callsForStep s.cfg c = true ∧ stepForbidden c s = false
      · exact (done.stepped_of steps.2 (.inr steps.1)).measureKept
      · have held : callsForStep s.cfg c = false ∨ stepForbidden c s = true := by
          cases calls : callsForStep s.cfg c with
          | false => exact .inl rfl
          | true => exact .inr (by simpa [calls] using steps)
        refine (done.slewed_of cold held).measureKept ?_
        generalize applyOutcome (some c) s = t at done
        cases done with
        | stayed isCold _ => exact absurd isCold cold
        | steppedCold isCold _ => exact absurd isCold cold
        | stepped _ calls allowed =>
          exact held.elim (fun small => nomatch small.symm.trans calls) (fun forbids => nomatch forbids.symm.trans allowed)
        | deferred _ _ _ => simp [movedRuns]
        | slewed _ _ => simp [movedRuns]

/-! ### The records that end an instant -/

theorem periodicCheckpoint_of_due {s : State} {b : Nat} (boundary : s.evid.boundary = some b) (due : b ≤ s.clock.present) :
    periodicCheckpoint s = { takeCheckpoint .period s with
      evid := { (takeCheckpoint .period s).evid with
        boundary := some (multipleAfter (checkpointPeriod s.cfg) s.clock.present) } } := by
  rw [periodicCheckpoint, boundary]
  exact if_pos due

theorem periodicCheckpoint_of_not_due {s : State} (early : ∀ b, s.evid.boundary = some b → s.clock.present < b) :
    periodicCheckpoint s = s := by
  unfold periodicCheckpoint
  split
  · rfl
  · next b boundary => exact if_neg (not_le.mpr (early b boundary))

theorem steeringInstant_boundary (s : State) :
    (steeringInstant s).evid.boundary = s.evid.boundary.map (fun b => if b ≤ (steeringInstant s).clock.present then
      ((steeringInstant s).clock.present / (s.cfg.checkpointMinutes * 60000000000 * 256) + 1)
        * (s.cfg.checkpointMinutes * 60000000000 * 256) else b) := by
  have present : (steeringInstant s).clock.present = (recordSync (applied s)).clock.present := by simp [steeringInstant_applied]
  have kept : (recordSync (applied s)).evid.boundary = s.evid.boundary := by simp [applied, beforeApply]
  have cfg : (recordSync (applied s)).cfg = s.cfg := by simp [applied, beforeApply]
  rw [present, steeringInstant_applied]
  cases boundary : s.evid.boundary with
  | none =>
    rw [periodicCheckpoint_of_not_due (by rw [kept, boundary]; exact nofun), kept, boundary]
    rfl
  | some b =>
    by_cases due : b ≤ (recordSync (applied s)).clock.present
    · rw [periodicCheckpoint_of_due (kept.trans boundary) due, cfg, Option.map_some, if_pos due, multipleAfter, checkpointPeriod]
    · rw [periodicCheckpoint_of_not_due, kept, boundary, Option.map_some, if_neg due]
      intro b' boundary'
      obtain rfl := Option.some.inj (boundary'.symm.trans (kept.trans boundary))
      exact not_le.mp due

/-- The body of the SYNC record of an outcome (R80). -/
def syncBody (l : Latest) (s : State) : Body :=
  .sync { latest := l, state := s.steer.state, incomplete := s.steer.incomplete, rateLimit := s.steer.rateLimit
          stepDeferred := s.steer.stepDeferred, rf := s.steer.rf, rp := s.steer.rp }

/-- The SYNC record comes last, and after it the checkpoint that is due (R80, R147). -/
theorem steeringInstant_ends {s : State} {l : Latest} (latest : (applied s).steer.latest = some l)
    (room : (steeringInstant s).evid.queue.length < 496) :
    ∃ before y, y.body = syncBody l (applied s)
      ∧ y.time = (applied s).clock.present
      ∧ ((∀ b, s.evid.boundary = some b → (applied s).clock.present < b) → (steeringInstant s).evid.queue = before ++ [y])
      ∧ ∀ b, s.evid.boundary = some b → b ≤ (applied s).clock.present →
        ∃ z k, (steeringInstant s).evid.queue = before ++ [y, z] ∧ z.body = .checkpoint k ∧ k.cause = .period
          ∧ k.state = (applied s).steer.state ∧ k.rf = (applied s).steer.rf ∧ k.rp = (applied s).steer.rp
          ∧ k.holdover = (applied s).steer.holdover ∧ k.nextSeq = (applied s).stamp.nextSeq ∧ k.ref = (applied s).ref.state
          ∧ k.held = before.length + 1 := by
  rw [steeringInstant_applied] at room ⊢
  have kept : (recordSync (applied s)).evid.boundary = s.evid.boundary := by simp [applied, beforeApply]
  have present : (recordSync (applied s)).clock.present = (applied s).clock.present := by simp
  have small : (recordSync (applied s)).evid.queue.length < 496 :=
    lt_of_le_of_lt (periodicCheckpoint_grows (.refl (recordSync (applied s)).evid)).keepsQueue.length_le room
  have handed : recordSync (applied s) = handRecord (syncBody l (applied s)) (applied s) := by
    rw [recordSync, latest]
    rfl
  have added := handRecord_of_small (handed ▸ small)
  rw [← handed] at added
  obtain ⟨y, queue, body, time⟩ : ∃ y : Record, (recordSync (applied s)).evid.queue = (applied s).evid.queue ++ [y]
      ∧ y.body = syncBody l (applied s) ∧ y.time = (applied s).clock.present := ⟨_, congrArg Evidence.queue added, rfl, rfl⟩
  refine ⟨(applied s).evid.queue, y, body, time, fun early => ?_, fun b boundary due => ?_⟩
  · rw [periodicCheckpoint_of_not_due (by rw [kept, present]; exact early)]
    exact queue
  · rw [periodicCheckpoint_of_due (kept.trans boundary) (by rw [present]; exact due)] at room ⊢
    have checkpoint := handRecord_of_small (b := .checkpoint (checkpointBody .period (recordSync (applied s))))
      (s := recordSync (applied s)) room
    refine ⟨makeRecord (.checkpoint (checkpointBody .period (recordSync (applied s)))) (recordSync (applied s)), _, ?_, rfl, rfl, ?_⟩
    · refine (congrArg Evidence.queue checkpoint).trans ?_
      rw [Evidence.append, queue, List.append_assoc]
      rfl
    · simp only [checkpointBody, recordSync_keeps, queue, List.length_append, List.length_singleton]
      simp

/-! ### The judging of the reference, spelled -/

theorem leaveState_recorded (old : RefState) (cause : RefCause) (s : State) :
    Evidence.Grows (handRecord (referenceBody old cause s.ref) s).evid (leaveState old cause s).evid := by
  have recorded : (handRecord (referenceBody old cause s.ref) s).evid = (recordReference old cause s).evid := by
    rw [recordReference_eq, raise_evid]
  rw [recorded]
  unfold leaveState
  dsimp only
  split
  · exact demote_grows (.refl _)
  · exact .refl _

theorem judgeReference_idle {s : State} (idle : (s.ref.state ≠ .valid ∧ s.ref.state ≠ .disputed) ∨ s.ref.theta = none) (C : Int) :
    judgeReference s.ref C s = s := by
  unfold judgeReference
  split
  · next valid theta => exact idle.elim (fun away => absurd valid away.1) (fun none => nomatch none.symm.trans theta)
  · next disputed theta => exact idle.elim (fun away => absurd disputed away.2) (fun none => nomatch none.symm.trans theta)
  · rfl

theorem judgedRuns_spelled (c : Settings) (theta C : Int) (r : Reference) :
    r.judgedRuns (disagrees c theta C) = { r with
      disagree := if c.disagreeLimit * 256 < (theta - C).natAbs then min (r.disagree + 1) 255 else 0
      agree := if c.disagreeLimit * 256 < (theta - C).natAbs then 0 else min (r.agree + 1) 255 } := by
  unfold Reference.judgedRuns
  by_cases far : c.disagreeLimit * 256 < (theta - C).natAbs
  · rw [if_pos ((disagrees_iff c theta C).mpr far), if_pos far, if_pos far]
  · rw [if_neg (fun disagreed => far ((disagrees_iff c theta C).mp disagreed)), if_neg far, if_neg far]

/-- The runs, the state and the change of a judged reference (R55, R56). -/
theorem judgeReference_spelled {s : State} {theta C : Int} {dis agr : Nat} {new : RefState}
    (state : s.ref.state = .valid ∨ s.ref.state = .disputed) (given : s.ref.theta = some theta)
    (isDis : dis = if s.cfg.disagreeLimit * 256 < (theta - C).natAbs then min (s.ref.disagree + 1) 255 else 0)
    (isAgr : agr = if s.cfg.disagreeLimit * 256 < (theta - C).natAbs then 0 else min (s.ref.agree + 1) 255)
    (isNew : new = if s.ref.state = .valid ∧ 4 ≤ dis then .disputed
      else if s.ref.state = .disputed ∧ 4 ≤ agr then .valid else s.ref.state) :
    (new = s.ref.state → judgeReference s.ref C s = { s with ref := { s.ref with state := new, disagree := dis, agree := agr } })
      ∧ (new ≠ s.ref.state → judgeReference s.ref C s
          = leaveState s.ref.state (if new = .disputed then .dispute else .agreement)
              { s with ref := { s.ref with state := new, disagree := dis, agree := agr } })
      ∧ (new = .disputed → new ≠ s.ref.state → s.ref.state = .valid) := by
  have runs := judgedRuns_spelled s.cfg theta C s.ref
  rw [← isDis, ← isAgr] at runs
  clear isDis isAgr
  obtain valid | disputed := state
  · have judged : judgeReference s.ref C s
        = if 4 ≤ dis then leaveState .valid .dispute { s with ref := { s.ref with state := .disputed, disagree := dis, agree := agr } }
          else { s with ref := { s.ref with disagree := dis, agree := agr } } := by
      rw [judgeReference, valid, given]
      dsimp only
      rw [runs]
    by_cases four : 4 ≤ dis
    · obtain rfl : new = .disputed := isNew.trans (if_pos ⟨valid, four⟩)
      rw [judged, if_pos four, valid]
      exact ⟨(nomatch ·), fun _ => rfl, fun _ _ => rfl⟩
    · obtain rfl : new = s.ref.state := isNew.trans
        ((if_neg (fun both => four both.2)).trans (if_neg (fun both => nomatch (valid.symm.trans both.1 : RefState.valid = .disputed))))
      rw [judged, if_neg four]
      exact ⟨fun _ => rfl, fun changed => absurd rfl changed, fun _ changed => absurd rfl changed⟩
  · have judged : judgeReference s.ref C s
        = if 4 ≤ agr then leaveState .disputed .agreement { s with ref := { s.ref with state := .valid, disagree := dis, agree := agr } }
          else { s with ref := { s.ref with disagree := dis, agree := agr } } := by
      rw [judgeReference, disputed, given]
      dsimp only
      rw [runs]
    have notValid : ¬ (s.ref.state = .valid ∧ 4 ≤ dis) := fun both => nomatch disputed.symm.trans both.1
    by_cases four : 4 ≤ agr
    · obtain rfl : new = .valid := isNew.trans ((if_neg notValid).trans (if_pos ⟨disputed, four⟩))
      rw [judged, if_pos four, disputed]
      exact ⟨(nomatch ·), fun _ => rfl, (nomatch ·)⟩
    · obtain rfl : new = s.ref.state := isNew.trans ((if_neg notValid).trans (if_neg (fun both => four both.2)))
      rw [judged, if_neg four]
      exact ⟨fun _ => rfl, fun changed => absurd rfl changed, fun _ changed => absurd rfl changed⟩

/-! ### The whole of it -/

/-- The state the Peer Table's part of an instant leaves, before the reference is judged. -/
def peersDone (s : State) : State :=
  peersAtInstant (sourceList s) (instantCombination s).correction (formGrade (instantCombination s) (sampled s))

theorem peersDone_ref (s : State) : (peersDone s).ref = s.ref := by simp [peersDone, sampled]

theorem peersDone_cfg (s : State) : (peersDone s).cfg = s.cfg := by simp [peersDone, sampled]

theorem peersDone_grows (s : State) : Evidence.Grows s.evid (peersDone s).evid :=
  peersAtInstant_grows (formGrade_grows (.refl _))

theorem beforeApply_uncorrected {s : State} (none : (instantCombination s).correction = none) : beforeApply s = peersDone s := by
  rw [beforeApply_eq, peersDone, none]
  rfl

theorem beforeApply_corrected {s : State} {c : Int} (corrects : (instantCombination s).correction = some c) :
    beforeApply s = judgeReference s.ref c (peersDone s) := by
  rw [beforeApply_eq, peersDone, corrects]
  rfl

theorem beforeApply_peers (s : State) : (beforeApply s).peers = (peersDone s).peers := by
  cases corrects : (instantCombination s).correction with
  | none => rw [beforeApply_uncorrected corrects]
  | some c => simp [beforeApply_corrected corrects]

theorem peersDone_beforeApply_grows (s : State) : Evidence.Grows (peersDone s).evid (beforeApply s).evid := by
  cases corrects : (instantCombination s).correction with
  | none =>
    rw [beforeApply_uncorrected corrects]
    exact .refl _
  | some c =>
    rw [beforeApply_corrected corrects]
    exact judgeReference_grows (.refl _)

theorem peersDone_final_grows (s : State) : Evidence.Grows (peersDone s).evid (steeringInstant s).evid :=
  (peersDone_beforeApply_grows s).trans ((beforeApply_applied_grows s).trans (applied_grows s))

theorem beforeApply_final_holds {n : Notice} {s : State} (flag : flagSet n (beforeApply s) = true) :
    flagSet n (steeringInstant s) = true := applied_holds (applyOutcome_holds flag)

theorem peersDone_final_holds {n : Notice} {s : State} (flag : flagSet n (peersDone s) = true) :
    flagSet n (steeringInstant s) = true := by
  refine beforeApply_final_holds ?_
  cases corrects : (instantCombination s).correction with
  | none => rwa [beforeApply_uncorrected corrects]
  | some c =>
    rw [beforeApply_corrected corrects]
    exact judgeReference_holds flag

/-- A peer's record at the end of an instant: as the Peer Table's part left it, but for the validity a step takes from it (R38). -/
theorem findPeer_final {s : State} {i : Nat} {a : Peer} (found : findPeer i (peersDone s) = some a) :
    ∃ q : Peer, findPeer i (steeringInstant s) = some q ∧ q = { a with valid := q.valid } ∧ (q.valid = true → a.valid = true) := by
  have same := (steeringInstant_sameButRecords s).peers
  have foundW : findPeer i (beforeApply s) = some a := (findPeer_of_peers (beforeApply_peers s) i).trans found
  obtain kept | stepped := (applyOutcome_measureKept (instantCombination s).correction (beforeApply s)).peers
  · exact ⟨a, (findPeer_of_peers (same.trans kept) i).trans foundW, rfl, id⟩
  · refine ⟨{ a with valid := false }, ?_, rfl, nofun⟩
    rw [findPeer, same.trans stepped, peersAfterStep, List.find?_map]
    exact congrArg (Option.map (fun p : Peer => { p with valid := false })) foundW

theorem peerIds_final (s : State) : peerIds (steeringInstant s) = peerIds s := by
  have same := (steeringInstant_sameButRecords s).peers
  have before : peerIds (beforeApply s) = peerIds s := by
    have formed : peerIds (formGrade (instantCombination s) (sampled s)) = peerIds s := by simp [peerIds, sampled]
    have sources : sourceList s = sourceList (formGrade (instantCombination s) (sampled s)) := by simp [sourceList, sampled]
    rw [peerIds, beforeApply_peers, peersDone, sources, peersAtInstant_eq]
    refine (agePeer_peerwise.foldl_ids _ _).trans ?_
    rw [judgedPeers_ids, formed]
  obtain kept | stepped := (applyOutcome_measureKept (instantCombination s).correction (beforeApply s)).peers
  · rw [← before, peerIds, same.trans kept]
    rfl
  · rw [← before, peerIds, same.trans stepped, peersAfterStep, List.map_map]
    rfl

/-- The peers of an instant, as the statement spells them. -/
theorem steeringInstant_at {s : State} (nodup : (peerIds s).Nodup) {p : Peer} (mem : p ∈ s.peers) :
    ∃ j : Peer, (¬ ((instantCombination s).correction ≠ none ∧ usableEstimate s.cfg p) → j = p)
      ∧ (∀ e c, (instantCombination s).correction = some c → usableEstimate s.cfg p → p.estimate = some e →
          j = p.judged s.cfg e.theta c)
      ∧ findPeer p.id (peersDone s) = some j.aged
      ∧ (j.state ≠ p.state → Committed s (steeringInstant s) p.state (if j.state = .excluded then .exclusion else .readmission) j)
      ∧ (j.aged.state ≠ j.state → Committed s (steeringInstant s) j.state
          (if j.aged.state = .absent then .absence else .silence) j.aged) := by
  have peers : (formGrade (instantCombination s) (sampled s)).peers = s.peers := by simp [sampled]
  have cfg : (formGrade (instantCombination s) (sampled s)).cfg = s.cfg := by simp [sampled]
  have sources : sourceList s = sourceList (formGrade (instantCombination s) (sampled s)) := by simp [sourceList, sampled]
  have through := peersAtInstant_at (s := formGrade (instantCombination s) (sampled s)) (by rw [peerIds, peers]; exact nodup)
    (p := p) (by rw [peers]; exact mem) (instantCombination s).correction
  rw [← sources, cfg] at through
  obtain ⟨j, idle, judged, found, first, second⟩ := through
  have grown : Evidence.Grows s.evid (formGrade (instantCombination s) (sampled s)).evid := formGrade_grows (.refl _)
  exact ⟨j, idle, judged, found,
    fun changed => ((first changed).earlier grown).later (peersDone_final_grows s) fun _ => peersDone_final_holds,
    fun changed => ((second changed).earlier grown).later (peersDone_final_grows s) fun _ => peersDone_final_holds⟩

/-- Settles O34. -/
theorem steeringInstantJudges : Obligations.SteeringInstantJudges := by
  intro x s run series due nodup C combined far usable judged aged body
  have same := steeringInstant_sameButRecords (takeMember x s)
  obtain ⟨aCfg, aEntries, aCard, -, -⟩ := applied_frame (takeMember x s)
  have measured := applyOutcome_measureKept (instantCombination (takeMember x s)).correction (beforeApply (takeMember x s))
  have wClock : (beforeApply (takeMember x s)).clock = s.clock := (beforeApply_frame _).1
  have corrects (c : combined) : (instantCombination (takeMember x s)).correction = some C := by
    obtain ⟨g, cstar⟩ := Option.ne_none_iff_exists'.mp c
    exact correction_of_some cstar
  have uncorrected (c : ¬ combined) : (instantCombination (takeMember x s)).correction = none := by
    have cstar : (instantCombination s).cstar = none := by simpa [combined] using c
    exact correction_of_none cstar
  have corrected_iff : (instantCombination (takeMember x s)).correction ≠ none ↔ combined := by
    exact ⟨fun some_ none => some_ (correction_of_none none), fun c => by rw [corrects c]; exact nofun⟩
  have tRef : (steeringInstant (takeMember x s)).ref = { (beforeApply (takeMember x s)).ref with
      theta := (beforeApply (takeMember x s)).ref.theta.map
        (fun y => y - (((steeringInstant (takeMember x s)).clock.present : Int) - s.clock.present)) } := by
    rw [same.ref, same.clock, ← wClock]
    exact measured.ref
  refine ⟨_, exec_steeringInstant run series due, fun p mem => ?_, peerIds_final _, fun theta c state given => ?_, fun idle => ?_,
    steeringInstant_boundary _, fun room => ?_, ?_, same.entries.trans aEntries, same.cfg.trans aCfg, same.card.trans aCard⟩
  · obtain ⟨j, idle, isJudged, found, first, second⟩ := steeringInstant_at (s := takeMember x s) nodup mem
    obtain ⟨q, final, form, validity⟩ := findPeer_final found
    refine ⟨j, j.aged, q, ⟨fun not => idle ?_, fun e c u estimate => ?_⟩, ?_, aged_valid j, final, form, validity,
      fun changed => (first changed).changed changed, fun changed => (second changed).changed changed⟩
    · rw [corrected_iff]
      exact not
    · rw [isJudged e C (corrects c) u estimate]
      exact judged_spelled _ _ _ _
    · obtain ⟨unheard, heard⟩ := aged_spelled j
      refine ⟨fun none => by rw [unheard none], fun given => ?_⟩
      obtain ⟨known, young, old, absent⟩ := heard given
      exact ⟨fun state => by rw [known state], fun state age => by rw [young state age], old, fun state => by rw [absent state]⟩
  · intro dis agr new
    have vRef : (peersDone (takeMember x s)).ref = s.ref := peersDone_ref _
    have vCfg : (peersDone (takeMember x s)).cfg = s.cfg := peersDone_cfg _
    have wEq : beforeApply (takeMember x s) = judgeReference s.ref C (peersDone (takeMember x s)) := beforeApply_corrected (corrects c)
    have spelled := judgeReference_spelled (s := peersDone (takeMember x s)) (C := C) (dis := dis) (agr := agr) (new := new)
      (by rw [vRef]; exact state) (by rw [vRef]; exact given) (by rw [vRef, vCfg]) (by rw [vRef, vCfg]) (by rw [vRef])
    rw [vRef, ← wEq] at spelled
    clear_value new dis agr
    obtain ⟨still, changes, wasValid⟩ := spelled
    have wRef : (beforeApply (takeMember x s)).ref = { s.ref with state := new, disagree := dis, agree := agr } := by
      by_cases kept : new = s.ref.state
      · exact congrArg State.ref (still kept)
      · refine (congrArg State.ref (changes kept)).trans ?_
        simp only [leaveState_keeps]
    refine ⟨?_, fun changed => ?_⟩
    · rw [tRef, wRef]
      simp only [given]
      rfl
    · have left : beforeApply (takeMember x s) = leaveState s.ref.state (if new = .disputed then .dispute else .agreement)
          { peersDone (takeMember x s) with ref := { s.ref with state := new, disagree := dis, agree := agr } } :=
        changes changed
      refine ⟨beforeApply_final_holds (by rw [left]; exact leaveState_sets _ _ _), fun disputed => ?_, fun room => ?_⟩
      · rw [same.steer, show (applied (takeMember x s)).steer.grade = _ from measured.grade, left, wasValid disputed changed]
        exact leaveState_not_anchored _ _
      · have recorded := leaveState_recorded s.ref.state (if new = .disputed then .dispute else .agreement)
          { peersDone (takeMember x s) with ref := { s.ref with state := new, disagree := dis, agree := agr } }
        rw [← left] at recorded
        obtain ⟨y, held, number, body⟩ := handed_record_stays (s := takeMember x s) (t := steeringInstant (takeMember x s))
          (u := { peersDone (takeMember x s) with ref := { s.ref with state := new, disagree := dis, agree := agr } })
          (peersDone_grows (takeMember x s)) (recorded.trans ((beforeApply_applied_grows _).trans (applied_grows _))) room
        refine ⟨y, held, number, body.trans ?_⟩
        rw [← given]
        rfl
  · have kept : (beforeApply (takeMember x s)).ref = s.ref := by
      by_cases c : combined
      · rw [beforeApply_corrected (corrects c)]
        have still := judgeReference_idle (s := peersDone (takeMember x s))
          (by rw [peersDone_ref]; exact idle.resolve_left (not_not.mpr c)) C
        rw [peersDone_ref] at still
        rw [show (takeMember x s).ref = s.ref from rfl] at still ⊢
        rw [still, peersDone_ref]
        rfl
      · rw [beforeApply_uncorrected (uncorrected c), peersDone_ref]
        rfl
    rw [tRef, kept]
  · obtain ⟨-, -, -, -, sampled⟩ := beforeApply_kept (takeMember x s)
    obtain ⟨l, latest⟩ := measured.latest _ sampled
    obtain ⟨before, y, body, time, early, late⟩ := steeringInstant_ends (s := takeMember x s) (l := l) latest room
    rw [same.clock, same.steer, same.stamp, same.ref]
    exact ⟨before, l, y, latest, body, time, early, late⟩
  · rw [steeringInstant_link]
    rfl

end Sys2Proof.Machine
end

