-- ==== Sys2Proof/Proofs/AuctionCommands.lean ====
section
/-! The commands on entries: ARM_AUCTION test by test, CANCEL_AUCTION and RELEASE_AUCTION (R119 to R123). -/

namespace Sys2Proof.Machine

/-! ### ARM_AUCTION (R119, R120) -/

theorem slotOf_val (i : Fin 32) : slotOf i.val = some i := dif_pos i.isLt

theorem linkSlot_of_slot {a : ArmFields} {j : Fin 32} (link : a.link = j.val) : a.linkSlot = some j := by
  rw [ArmFields.linkSlot, link, if_neg (by omega), slotOf_val]

theorem linkSlot_of_absent {a : ArmFields} (link : a.link = 255) : a.linkSlot = none := if_pos link

theorem inRange_iff (a : ArmFields) : a.inRange = true ↔
    a.slot ≤ 31 ∧ a.group ≠ 0 ∧ a.window ≤ 3600000 ∧ a.leadS + 1000 ≤ a.leadL ∧ a.leadE + 500 ≤ a.leadS ∧ 100 ≤ a.leadE
      ∧ a.leadL ≤ 86400000 ∧ a.quorum ≤ 16 ∧ a.start ≤ 1 ∧ (a.link = 255 ∨ a.link ≤ 31) ∧ a.linkDelay ≤ 86400000
      ∧ (a.start = 0 → a.tn + a.window ≤ maxTn) := by
  rw [ArmFields.inRange, decide_eq_true_iff]

theorem groupLive_iff (g : BitVec 16) (s : State) :
    groupLive g s = true ↔ ∃ j : Fin 32, s.entries[j].group = g ∧ s.entries[j].state.live = true := by
  refine ⟨fun live => ?_, fun ⟨j, group, live⟩ => ?_⟩
  · obtain ⟨e, mem, holds⟩ := List.any_eq_true.mp live
    obtain ⟨j, hj, rfl⟩ := Vector.mem_iff_getElem.mp (Vector.mem_toList_iff.mp mem)
    obtain ⟨group, alive⟩ := Bool.and_eq_true_iff.mp holds
    exact ⟨⟨j, hj⟩, of_decide_eq_true group, alive⟩
  · by_contra dead
    exact groupLive_false (by simpa using dead) j live group

/-- Test 5 as the statement spells it. -/
theorem linkFree_iff {i : Fin 32} {a : ArmFields} (range : a.link = 255 ∨ a.link ≤ 31) (s : State) :
    linkFree i a.linkSlot s = true ↔ ∀ j : Fin 32, a.link = j.val →
      s.entries[j].state = .held ∧ s.entries[j].pred = none ∧ ∀ n, (nextSlot s.entries)^[n] (some j) ≠ some i := by
  obtain absent | named := range
  · rw [linkSlot_of_absent absent]
    exact ⟨fun _ j link => absurd (absent.symm.trans link) (by omega), fun _ => rfl⟩
  · have link : a.link = (⟨a.link, by omega⟩ : Fin 32).val := rfl
    generalize (⟨a.link, by omega⟩ : Fin 32) = j at link
    have unreached : chainReaches s i 33 j = false ↔ ∀ n, (nextSlot s.entries)^[n] (some j) ≠ some i := by
      rw [← Bool.not_eq_true, chainReaches_iff, not_exists]
    rw [linkSlot_of_slot link]
    simp only [linkFree, Bool.and_eq_true, decide_eq_true_eq, Bool.not_eq_true', unreached]
    refine ⟨fun ⟨⟨held, pred⟩, away⟩ k named => ?_, fun free => ?_⟩
    · obtain rfl : j = k := Fin.ext (link.symm.trans named)
      exact ⟨held, pred, away⟩
    · obtain ⟨held, pred, away⟩ := free j link
      exact ⟨⟨held, pred⟩, away⟩

theorem armAuction_refused {body : Bytes} {i : Fin 32} {s : State} {st : Status} (warm : clockSet s = true)
    (range : (armFields body).inRange = true) (slot : (armFields body).slot = i.val)
    (status : armStatus i (armFields body) s = st) (fails : st ≠ .ok) : armAuction body s = s.replied st [] := by
  unfold armAuction
  dsimp only
  rw [if_neg (by simp [warm]), if_neg (by simp [range]), slot, slotOf_val]
  dsimp only
  rw [status]
  split
  · exact absurd rfl fails
  · rfl

theorem armAuction_accepted {body : Bytes} {i : Fin 32} {s : State} (warm : clockSet s = true)
    (range : (armFields body).inRange = true) (slot : (armFields body).slot = i.val)
    (status : armStatus i (armFields body) s = .ok) :
    armAuction body s
      = respond .ok [] (setPred i (armFields body).linkSlot (setEntry i (armedEntry (armFields body) s.cfg.quorum) s)) := by
  unfold armAuction
  dsimp only
  rw [if_neg (by simp [warm]), if_neg (by simp [range]), slot, slotOf_val]
  dsimp only
  rw [status]

/-- Settles O44. -/
theorem armAuctionFillsTheEntry : Obligations.ArmAuctionFillsTheEntry := by
  intro body s length absent run slot group tn window leadL leadS leadE quorum start link linkDelay refusal inRange
  have executed : exec (.armAuction body) s = .next (armAuction body s) := congrArg Host.Outcome.next (onCommand_of_fits absent length)
  refine ⟨fun cold => ?_, fun notCold outside => ?_, fun notCold inside i named => ?_⟩
  · refine executed.trans (congrArg Host.Outcome.next ?_)
    have unset : clockSet s = false := by
      rw [← Bool.not_eq_true, clockSet_iff]
      exact fun set => set.2 cold
    exact if_pos unset
  · refine executed.trans (congrArg Host.Outcome.next ?_)
    have set : clockSet s = true := (clockSet_iff s).mpr ⟨run, notCold⟩
    have bad : (armFields body).inRange = false := by
      rw [← Bool.not_eq_true, inRange_iff]
      exact outside
    unfold armAuction
    dsimp only
    rw [if_neg (by simp [set]), if_pos bad]
    rfl
  · intro live follow linkFree' tooLate e
    have warm : clockSet s = true := (clockSet_iff s).mpr ⟨run, notCold⟩
    have range : (armFields body).inRange = true := (inRange_iff _).mpr inside
    obtain ⟨-, -, -, -, -, -, -, -, -, linkRange, -, -⟩ := id inside
    have refused (st : Status) (status : armStatus i (armFields body) s = st) (fails : st ≠ .ok) : refusal st :=
      executed.trans (congrArg Host.Outcome.next (armAuction_refused warm range named status fails))
    have isFree (free : s.entries[i].state = .free) : ¬ s.entries[i].state ≠ .free := not_not.mpr free
    have isDead (dead : ¬ live) : ¬ groupLive (BitVec.ofNat 16 (armFields body).group) s = true := mt (groupLive_iff _ _).mp dead
    have isLate : tooLate ↔ (armFields body).start = 0 ∧ (((armFields body).tn - (armFields body).leadL) * fineMs ≤ s.clock.present
        ∨ (armFields body).tn * 1000000 < s.stamp.floor) := by
      refine and_congr Iff.rfl (or_congr ?_ Iff.rfl)
      change tn * 256000000 ≤ s.clock.present + leadL * 256000000 ↔ (tn - leadL) * fineMs ≤ s.clock.present
      rw [fineMs]
      omega
    refine ⟨fun taken => refused _ (if_pos taken) nofun, fun free isLive => refused _ ?_ nofun,
      fun free dead linked => refused _ ?_ nofun, fun free dead unlinked late => refused _ ?_ nofun,
      fun free dead unlinked early => ?_⟩
    · exact (if_neg (isFree free)).trans (if_pos ((groupLive_iff _ _).mpr isLive))
    · have blocked : linkFree i (armFields body).linkSlot s = false := by
        rw [← Bool.not_eq_true, linkFree_iff linkRange]
        exact linked
      exact (if_neg (isFree free)).trans ((if_neg (isDead dead)).trans (if_pos blocked))
    · have open_ : linkFree i (armFields body).linkSlot s = true := (linkFree_iff linkRange s).mpr unlinked
      exact (if_neg (isFree free)).trans ((if_neg (isDead dead)).trans
        ((if_neg (by simp [open_])).trans (if_pos (isLate.mp late))))
    · have open_ : linkFree i (armFields body).linkSlot s = true := (linkFree_iff linkRange s).mpr unlinked
      have status : armStatus i (armFields body) s = .ok := (if_neg (isFree free)).trans ((if_neg (isDead dead)).trans
        ((if_neg (by simp [open_])).trans (if_neg (mt isLate.mpr early))))
      have accepted := executed.trans (congrArg Host.Outcome.next (armAuction_accepted warm range named status))
      refine ⟨fun unnamed => ?_, fun j isJ => ?_⟩
      · have noLink : (armFields body).linkSlot = none := linkSlot_of_absent unnamed
        rw [accepted, armedEntry, noLink]
        rfl
      · have link : (armFields body).linkSlot = some j := linkSlot_of_slot isJ
        rw [link] at open_
        obtain ⟨-, -, other⟩ := linkFree_some open_
        rw [accepted, armedEntry, link, setPred, setEntry_entries, entries_set_ne _ _ other]
        rfl

/-! ### One entry voided, whatever the links (R122) -/

theorem voidOne_self (i : Fin 32) (r : VoidReason) (s : State) :
    (voidOne i r s).entries[i] = { s.entries[i] with
      state := .void, reason := some r, pred := none
      link := if s.entries[i].pred = some i then none else s.entries[i].link } := by
  simp only [voidOne, clearLink_entries, raise_keeps, handRecord_keeps, withdrawSlot_keeps, setEntry_entries, entries_set_self]
  split <;> rfl

theorem voidOne_other {i j : Fin 32} (other : j ≠ i) (r : VoidReason) (s : State) :
    (voidOne i r s).entries[j] = { s.entries[j] with
      link := if s.entries[i].pred = some j then none else s.entries[j].link } := by
  simp only [voidOne, clearLink_entries, raise_keeps, handRecord_keeps, withdrawSlot_keeps, setEntry_entries,
    entries_set_ne _ _ other.symm]
  split <;> rfl

theorem voidChain_of_end {i : Fin 32} {s : State} (last : s.entries[i].link = none) (n : Nat) (r : VoidReason) :
    voidChain (n + 1) i r s = voidOne i r s := by
  rw [voidChain, last]

theorem voidChain_of_link {i j : Fin 32} {s : State} (link : s.entries[i].link = some j) (n : Nat) (r : VoidReason) :
    voidChain (n + 1) i r s = voidChain n j .predecessor (voidOne i r s) := by
  rw [voidChain, link]

/-- An entry that nothing links to is met by no chain that starts elsewhere: at most its own link is cleared. -/
theorem voidChain_apart {n : Nat} {m i : Fin 32} {r : VoidReason} {s : State} (ok : AuctionsOk s.entries) (other : i ≠ m)
    (unlinked : s.entries[i].pred = none) :
    ∃ l, (voidChain n m r s).entries[i] = { s.entries[i] with link := l } ∧ (l = s.entries[i].link ∨ l = none) := by
  induction n generalizing m r s with
  | zero => exact ⟨_, rfl, .inl rfl⟩
  | succ n ih =>
    have once := voidOne_other other r s
    have kept : (if s.entries[m].pred = some i then none else s.entries[i].link) = s.entries[i].link
        ∨ (if s.entries[m].pred = some i then none else s.entries[i].link) = none := by
      split
      · exact .inr rfl
      · exact .inl rfl
    cases link : s.entries[m].link with
    | none =>
      rw [voidChain_of_end link, once]
      exact ⟨_, rfl, kept⟩
    | some k =>
      have apart : i ≠ k := by
        rintro rfl
        exact nomatch unlinked.symm.trans (ok.forward m i link)
      obtain ⟨l, entry, form⟩ := ih (r := .predecessor) (voidOne_ok (r := r) ok) apart (by rw [once]; exact unlinked)
      rw [voidChain_of_link link, entry, once]
      refine ⟨l, rfl, ?_⟩
      obtain same | none := form
      · rw [same, once]
        exact kept
      · exact .inr none

/-! ### CANCEL_AUCTION and RELEASE_AUCTION (R121, R123) -/

theorem exec_onSlot (i : Fin 32) {c : Instr} {run : Fin 32 → State → State} {s : State} (absent : s.port.transaction = .absent)
    (own : exec c s = .next (onCommand 1 [BitVec.ofNat 8 i.val] (onSlot [BitVec.ofNat 8 i.val] run) s)) :
    exec c s = .next (run i s) :=
  own.trans (congrArg Host.Outcome.next ((onCommand_of_fits absent rfl).trans (onSlot_of_slot i run s)))

/-- A live entry without links is voided alone. -/
theorem voidEntry_alone {i : Fin 32} {s : State} (link : s.entries[i].link = none) (pred : s.entries[i].pred = none) (r : VoidReason) :
    voidEntry i r s = raise .auctionVoid (handRecord (.void (voidBody i s.entries[i] r))
      (withdrawSlot i (setEntry i { s.entries[i] with state := .void, reason := some r } s))) := by
  have entry : ({ s.entries[i] with state := .void, reason := some r, pred := none } : Entry)
      = { s.entries[i] with state := .void, reason := some r } := by
    rw [← pred]
  have alone : voidEntry i r s = voidOne i r s := voidChain_of_end link 31 r
  rw [alone, voidOne, pred, ← entry]
  rfl

/-- An entry and the one it links to are voided, also where the links run in a circle. -/
theorem voidEntry_linked {i j : Fin 32} {r : VoidReason} {s : State} (ok : AuctionsOk s.entries) (other : j ≠ i)
    (link : s.entries[i].link = some j) :
    let t := voidEntry i r s
    t.entries[i].state = .void ∧ t.entries[i].reason = some r ∧ t.entries[i].link = none
      ∧ t.entries[j].state = .void ∧ t.entries[j].reason = some .predecessor ∧ t.entries[j].pred = none := by
  intro t
  have voided : t = voidChain 31 j .predecessor (voidOne i r s) := voidChain_of_link link 31 r
  have ok1 := voidOne_ok (i := i) (r := r) ok
  have pred : (voidOne i r s).entries[j].pred = some i := by
    rw [voidOne_other other]
    exact ok.forward i j link
  have first := voidOne_self i r s
  have firstI := (voidOne_other other.symm .predecessor (voidOne i r s)).trans (by rw [pred, if_pos rfl, first])
  have firstJ := voidOne_self j .predecessor (voidOne i r s)
  have ok2 := voidOne_ok (i := j) (r := .predecessor) ok1
  cases next : (voidOne i r s).entries[j].link with
  | none =>
    rw [voided, voidChain_of_end next 30, firstI, firstJ]
    exact ⟨rfl, rfl, rfl, rfl, rfl, rfl⟩
  | some k =>
    have answered := ok1.forward j k next
    have notI : i ≠ k := by
      rintro rfl
      rw [first] at answered
      exact nomatch answered
    have notJ : j ≠ k := by
      rintro rfl
      exact other (Option.some.inj (answered.symm.trans pred))
    obtain ⟨l, restI, keptI⟩ := voidChain_apart (n := 30) (r := .predecessor) ok2 notI (by rw [firstI])
    obtain ⟨l', restJ, -⟩ := voidChain_apart (n := 30) (r := .predecessor) ok2 notJ (by rw [firstJ])
    rw [firstI] at keptI restI
    rw [voided, voidChain_of_link next 30, restI, restJ, firstJ]
    exact ⟨rfl, rfl, keptI.elim id id, rfl, rfl, rfl⟩

/-- Settles O45. -/
theorem cancelAndRelease : Obligations.CancelAndRelease := by
  refine ⟨fun b s absent high => ⟨?_, ?_⟩, fun i s absent => ?_⟩
  · exact congrArg Host.Outcome.next ((onCommand_of_fits absent rfl).trans (onSlot_of_high (by omega) _ _))
  · exact congrArg Host.Outcome.next ((onCommand_of_fits absent rfl).trans (onSlot_of_high (by omega) _ _))
  · intro b
    have cancels : exec (.cancelAuction [b]) s = .next (cancelSlot i s) := exec_onSlot i absent rfl
    have releases : exec (.releaseAuction [b]) s = .next (releaseSlot i s) := exec_onSlot i absent rfl
    have voids (live : s.entries[i].state.live = true) :
        exec (.cancelAuction [b]) s = .next (respond .ok [] (voidEntry i .cancelled s)) :=
      cancels.trans (congrArg Host.Outcome.next (if_pos live))
    refine ⟨fun dead => ?_, fun notClosed notVoid => ?_, fun live link pred => ?_, fun j other ok live link => ?_,
      fun rest ok live chain => ?_, fun ok ended => ?_⟩
    · exact cancels.trans (congrArg Host.Outcome.next (if_neg (c := s.entries[i].state.live = true) (by rw [dead]; exact nofun)))
    · exact releases.trans (congrArg Host.Outcome.next (if_neg (not_or.mpr ⟨notClosed, notVoid⟩)))
    · have alone := voidEntry_alone link pred .cancelled
      have effects := (voidOne_effects i .cancelled s).1
      rw [← voidChain_of_end link 31] at effects
      have added : recordAdded (.void (voidBody i s.entries[i] .cancelled)) s (respond .ok [] (voidEntry i .cancelled s)) := by
        rw [alone]
        refine recordAdded_of_handed (u := withdrawSlot i (setEntry i { s.entries[i] with state := .void, reason := some .cancelled } s))
          ?_ ?_ ?_ rfl (by simp) (by simp) (by simp) <;> simp
      refine ⟨_, voids live, rfl, ?_, ?_, ?_, fun o c offset tc => ?_, fun unsettled => ?_, ?_⟩
      · rw [alone]
        exact raise_sets .auctionVoid _
      · rw [alone]
        simp
      · refine Eq.trans effects (List.filter_congr fun w _ => ?_)
        rw [decide_not]
      · rwa [voidBody, offset, tc] at added
      · rwa [voidBody, unsettled] at added
      · rw [alone]
        simp
    · obtain ⟨own, reason, ownLink, nextState, nextReason, nextPred⟩ := voidEntry_linked (r := .cancelled) ok other link
      exact ⟨_, voids live, own, reason, ownLink, nextState, nextReason, nextPred⟩
    · obtain ⟨first, predecessor, successors, others, withdrawn, records, flag, flags, kept⟩ := voidEntry_voids (r := .cancelled) ok chain
      exact ⟨_, voids live, rfl, first, predecessor, successors, others, withdrawn, records, flag, flags, kept⟩
    · refine ⟨_, releases.trans (congrArg Host.Outcome.next (if_pos ended)), rfl, releaseEntry_self i s, fun j other => ?_,
        by simp [releaseEntry], by simp [releaseEntry], by simp [releaseEntry], by simp [releaseEntry], by simp [releaseEntry]⟩
      have linked : s.entries[i].pred = some j ↔ s.entries[j].link = some i := ⟨ok.backward j i, ok.forward j i⟩
      have preceded : s.entries[i].link = some j ↔ s.entries[j].pred = some i := ⟨ok.forward i j, ok.backward i j⟩
      refine (releaseEntry_other s other.symm).trans ?_
      simp only [Entry.partedFrom, linked, preceded]

end Sys2Proof.Machine
end

