-- ==== Sys2Proof/Proofs/AuctionInstants.lean ====
section
/-! The draw, tally and fix instants of an entry (R117, R125, R127, R129, R130). -/

namespace Sys2Proof.Machine

/-! ### Waiting frames (R19) -/

theorem settleTx_waiting (osc : Nat) (l : Link) : (settleTx osc l).waiting = l.waiting := by
  unfold settleTx
  split
  · rfl
  · split <;> rfl
  · split <;> rfl

theorem requestFrame_last (i : Fin 32) (isTally : Bool) (f : Frame) (s : State) :
    (requestFrame i isTally f s).link.waiting.getLast? = some ⟨i, isTally, f⟩ := by
  rw [requestFrame, settleTx_waiting, List.getLast?_concat]

theorem withdrawKind_waiting (i : Fin 32) (isTally : Bool) (s : State) :
    (withdrawKind i isTally s).link.waiting = s.link.waiting.filter (fun w => !(decide (w.slot = i) && decide (w.isTally = isTally))) := by
  rw [withdrawKind, settleTx_waiting]

/-- A transmitter whose state fits what waits is left as it is (R15). -/
theorem settleTx_of_settled {l : Link} (osc : Nat) (idle : l.tx = .idle → l.hasWaiting = false)
    (deferring : ∀ n, l.tx = .deferring n → l.hasWaiting = true) : settleTx osc l = l := by
  unfold settleTx
  split
  · rfl
  · next state => exact if_neg (by simp [idle state])
  · next n state => exact if_pos (deferring n state)

/-! ### The draw instant (R117, R125) -/

theorem exec_drawInstant {i : Fin 32} {tn : Nat} {s : State} (armed : s.entries[i].state = .armed) (given : s.entries[i].tn = some tn)
    (reached : (tn - s.entries[i].leadL) * 256000000 ≤ s.clock.present) : exec (.drawInstant i) s = .next (drawEntry i s) := by
  have due : s.entries[i].drawAt ≤ s.clock.present := by
    rw [Entry.drawAt, given, fineMs]
    exact reached
  exact if_pos ⟨armed, due⟩

theorem drawShare_none {i : Fin 32} {e : Entry} {s : State}
    (barred : e.window = 0 ∨ s.steer.grade = .free ∨ s.port.selfTest.randomFail = true) :
    drawShare i (setEntry i e s) = setEntry i e s := by
  have entry : (setEntry i e s).entries[i] = e := entries_set_self _ _ _
  refine if_neg fun ⟨window, grade, source⟩ => ?_
  rw [entry] at window
  obtain none | free | failed := barred
  · omega
  · exact grade free
  · exact nomatch source.symm.trans failed

/-- A draw that is made: the share is held and a DRAW requested (R125). -/
theorem drawShare_some {i : Fin 32} {e : Entry} {s : State} (window : 0 < e.window) (grade : s.steer.grade ≠ .free)
    (source : s.port.selfTest.randomFail = false) :
    drawShare i (setEntry i e s) = requestFrame i false
      (.draw ⟨s.cfg.stationId, e.group, e.tn.getD 0, Config.randomShare s.fresh⟩)
      { s with entries := s.entries.set i { e with drawn := true, ownShare := some (Config.randomShare s.fresh) }
               fresh := s.fresh + 1 } := by
  have entry : (setEntry i e s).entries[i] = e := entries_set_self _ _ _
  refine (if_pos ⟨by rw [entry]; exact window, grade, source⟩).trans ?_
  rw [entry]
  simp only [setEntry, Vector.set_set]

/-- Settles O46. -/
theorem drawInstantDraws : Obligations.DrawInstantDraws := by
  intro i tn s armed given leads reached e
  have executed := exec_drawInstant armed given reached
  refine ⟨fun barred => ?_, fun window grade source => ?_⟩
  · rw [executed, drawEntry, drawShare_none (by exact barred)]
    rfl
  · refine ⟨_, Config.randomShare s.fresh, executed, ?_⟩
    rw [drawEntry, drawShare_some (by exact window) grade source]
    refine ⟨by simp only [requestFrame_keeps]; rfl, ?_, by simp⟩
    rw [requestFrame_last]
    dsimp only
    rw [given]
    rfl

/-! ### The tally instant (R127) -/

theorem addTo_getLsbD (p : Nat) (m : BitVec 16) {q : Nat} (small : q < 16) :
    (addTo p m).getLsbD q = true ↔ q = p ∨ m.getLsbD q = true := by
  rw [addTo, BitVec.getLsbD_or, BitVec.getLsbD_twoPow, Bool.or_eq_true, Bool.and_eq_true, decide_eq_true_iff, decide_eq_true_iff]
  exact ⟨fun known => known.elim .inr fun added => .inl added.2.symm,
    fun known => known.elim (fun same => .inr ⟨same ▸ small, same.symm⟩) .inl⟩

theorem keySet_getLsbD {α : Type} (m : List (Nat × α)) {q : Nat} (small : q < 16) :
    (keySet m).getLsbD q = true ↔ ∃ x, (q, x) ∈ m := by
  have fold (b : BitVec 16) : (m.foldl (fun b p => addTo p.1 b) b).getLsbD q = true ↔ b.getLsbD q = true ∨ ∃ x, (q, x) ∈ m := by
    induction m generalizing b with
    | nil => simp
    | cons p m ih =>
      obtain ⟨k, v⟩ := p
      rw [List.foldl_cons, ih, addTo_getLsbD _ _ small]
      simp only [List.mem_cons, Prod.mk.injEq, exists_or, exists_and_left, exists_eq]
      tauto
  rw [keySet, fold]
  simp

theorem memberSet_getLsbD (own : Nat) (e : Entry) {q : Nat} (small : q < 16) :
    (memberSet own e).getLsbD q = true ↔ (e.drawn = true ∧ q = own) ∨ ∃ x, (q, x) ∈ e.shares := by
  unfold memberSet
  split
  · next drawn => rw [addTo_getLsbD _ _ small, keySet_getLsbD _ small]; simp [drawn]
  · next idle => rw [keySet_getLsbD _ small]; simp [idle]

theorem exec_tallyInstant {i : Fin 32} {tn : Nat} {s : State} (drawing : s.entries[i].state = .drawing)
    (given : s.entries[i].tn = some tn) (reached : (tn - s.entries[i].leadS) * 256000000 ≤ s.clock.present) :
    exec (.tallyInstant i) s = .next (tallyEntry i s) := by
  have due : s.entries[i].tallyAt ≤ s.clock.present := by
    rw [Entry.tallyAt, given, fineMs]
    exact reached
  exact if_pos ⟨drawing, due⟩

/-- A withdrawal that finds nothing changes nothing. -/
theorem withdrawKind_of_absent {i : Fin 32} {isTally : Bool} {s : State}
    (absent : ∀ w ∈ s.link.waiting, w.slot = i → w.isTally ≠ isTally) (idle : s.link.tx = .idle → s.link.hasWaiting = false)
    (deferring : ∀ n, s.link.tx = .deferring n → s.link.hasWaiting = true) : withdrawKind i isTally s = s := by
  have kept : s.link.waiting.filter (fun w => !(decide (w.slot = i) && decide (w.isTally = isTally))) = s.link.waiting := by
    refine List.filter_eq_self.mpr fun w mem => ?_
    by_cases slot : w.slot = i
    · simp [absent w mem slot]
    · simp [slot]
  rw [withdrawKind, kept]
  exact congrArg (fun l => { s with link := l }) (settleTx_of_settled s.osc idle deferring)

/-- Settles O47. -/
theorem tallyInstantTallies : Obligations.TallyInstantTallies := by
  intro i tn s drawing given leads reached e
  have executed := exec_tallyInstant drawing given reached
  refine ⟨fun none noDraw idle deferring => ?_, fun window => ?_⟩
  · have nothing : withdrawKind i false s = s :=
      withdrawKind_of_absent (fun w mem slot => by rw [noDraw w mem slot]; exact nofun) idle deferring
    rw [executed, tallyEntry, nothing]
    exact congrArg Host.Outcome.next (if_pos none)
  · intro own o
    have tallied : tallyEntry i s = requestFrame i true
        (.tally ⟨s.cfg.stationId, e.group, e.tn.getD 0, memberSet s.cfg.stationId e, ownOffset e⟩)
        (setEntry i { e with state := .tallying, members := memberSet s.cfg.stationId e
                             tallies := putKey s.cfg.stationId (.tally (memberSet s.cfg.stationId e) (ownOffset e)) e.tallies }
          (withdrawKind i false s)) := if_neg (Nat.pos_iff_ne_zero.mp window)
    refine ⟨_, memberSet s.cfg.stationId e, executed, fun q small => memberSet_getLsbD _ _ small, ⟨_, ?_,
      lookup_putKey_same _ (Tally.tally (memberSet s.cfg.stationId e) (ownOffset e)) e.tallies,
      fun q other => lookup_putKey_other other _ _⟩, ?_, ?_⟩
    · rw [tallied]
      simp
    · rw [tallied, requestFrame_last, given]
      rfl
    · rw [tallied]
      simp

/-! ### The best offset (R129) -/

/-- An offset ranks before another: higher count, then larger member set, then smaller value. -/
def Ranks (ts : List (BitVec 16 × Nat)) (a b : Nat) : Prop :=
  offsetCount ts b < offsetCount ts a
    ∨ (offsetCount ts b = offsetCount ts a
        ∧ (offsetMembers ts b < offsetMembers ts a ∨ (offsetMembers ts b = offsetMembers ts a ∧ a < b)))

theorem offsetBetter_iff (ts : List (BitVec 16 × Nat)) (a b : Nat) : offsetBetter ts a b = true ↔ Ranks ts a b := by
  unfold offsetBetter Ranks
  split
  · rw [decide_eq_true_iff]
    omega
  · split
    · rw [decide_eq_true_iff]
      omega
    · rw [decide_eq_true_iff]
      omega

theorem Ranks.trans {ts : List (BitVec 16 × Nat)} {a b c : Nat} (ab : Ranks ts a b) (bc : Ranks ts b c) : Ranks ts a c := by
  unfold Ranks at *
  omega

theorem Ranks.of_not {ts : List (BitVec 16 × Nat)} {a b : Nat} (not : ¬ Ranks ts a b) : b = a ∨ Ranks ts b a := by
  unfold Ranks at *
  omega

/-- The fold keeps an offset that is the start or a tally's, and that ranks before all it has met. -/
theorem best_of_fold (ts us : List (BitVec 16 × Nat)) (own : Nat) :
    let best := us.foldl (fun best t => if offsetBetter ts t.2 best then t.2 else best) own
    (best = own ∨ ∃ x ∈ us, x.2 = best) ∧ (best = own ∨ Ranks ts best own) ∧ ∀ x ∈ us, x.2 = best ∨ Ranks ts best x.2 := by
  induction us generalizing own with
  | nil => exact ⟨.inl rfl, .inl rfl, nofun⟩
  | cons u us ih =>
    intro best
    by_cases better : offsetBetter ts u.2 own = true
    · have rest : best = us.foldl (fun best t => if offsetBetter ts t.2 best then t.2 else best) u.2 := by
        simp only [best, List.foldl_cons, if_pos better]
      obtain ⟨from_, first, all⟩ := ih u.2
      rw [← rest] at from_ first all
      have ranks := (offsetBetter_iff ts u.2 own).mp better
      refine ⟨.inr ?_, .inr ?_, List.forall_mem_cons.mpr ⟨first.imp_left Eq.symm, all⟩⟩
      · obtain same | ⟨x, mem, same⟩ := from_
        · exact ⟨u, List.mem_cons_self, same.symm⟩
        · exact ⟨x, List.mem_cons_of_mem _ mem, same⟩
      · obtain same | before := first
        · rw [same]; exact ranks
        · exact before.trans ranks
    · have rest : best = us.foldl (fun best t => if offsetBetter ts t.2 best then t.2 else best) own := by
        simp only [best, List.foldl_cons, if_neg better]
      obtain ⟨from_, first, all⟩ := ih own
      rw [← rest] at from_ first all
      refine ⟨from_.imp_right fun ⟨x, mem, same⟩ => ⟨x, List.mem_cons_of_mem _ mem, same⟩, first,
        List.forall_mem_cons.mpr ⟨?_, all⟩⟩
      obtain same | ranks := Ranks.of_not (mt (offsetBetter_iff ts u.2 own).mpr better)
      · rw [← same]
        exact first.imp_left Eq.symm
      · obtain isOwn | before := first
        · rw [isOwn]; exact .inr ranks
        · exact .inr (before.trans ranks)

/-- The best offset is a tally's, and no other tally's ranks before it. -/
theorem bestOffset_spec {ts : List (BitVec 16 × Nat)} {own : Nat} (cast : ∃ x ∈ ts, x.2 = own) :
    (∃ x ∈ ts, x.2 = bestOffset ts own) ∧ ∀ x ∈ ts, x.2 ≠ bestOffset ts own → Ranks ts (bestOffset ts own) x.2 := by
  obtain ⟨from_, -, all⟩ := best_of_fold ts ts own
  refine ⟨?_, fun x mem different => (all x mem).resolve_left different⟩
  obtain same | found := from_
  · obtain ⟨x, mem, isOwn⟩ := cast
    exact ⟨x, mem, isOwn.trans same.symm⟩
  · exact found

theorem mem_of_lookup {α : Type} {k : Nat} {v : α} {m : List (Nat × α)} (found : m.lookup k = some v) : (k, v) ∈ m := by
  induction m with
  | nil => exact nomatch found
  | cons p m ih =>
    obtain ⟨k', v'⟩ := p
    rw [List.lookup_cons] at found
    split at found
    · next same =>
      obtain rfl := Option.some.inj found
      obtain rfl := eq_of_beq same
      exact List.mem_cons_self
    · exact List.mem_cons_of_mem _ (ih found)

theorem counted_of_lookup {e : Entry} {k o : Nat} {m : BitVec 16} (cast : e.tallies.lookup k = some (.tally m o)) :
    (m, o) ∈ counted e :=
  List.mem_filterMap.mpr ⟨(k, .tally m o), mem_of_lookup cast, rfl⟩

/-- What is settled at the fix, as the statement spells it (R129). -/
theorem settle_spelled {e : Entry} {station own : Nat} {m : BitVec 16}
    (cast : e.window ≠ 0 → e.tallies.lookup station = some (.tally m own)) :
    let ts := counted e
    let r := settle station e
    (e.window = 0 → r.1 = 0 ∧ r.2.1 = .noWindow ∧ r.2.2 = 0)
      ∧ (e.window ≠ 0 → e.quorum ≤ offsetCount ts own → r.1 = own ∧ r.2.1 = .agreed ∧ r.2.2 = offsetCount ts own)
      ∧ (e.window ≠ 0 → offsetCount ts own < e.quorum →
          (∃ x ∈ ts, x.2 = r.1) ∧ (∀ x ∈ ts, x.2 ≠ r.1 → Ranks ts r.1 x.2)
          ∧ r.2.2 = offsetCount ts r.1 ∧ r.2.1 = if e.quorum ≤ offsetCount ts r.1 then .adopted else .split) := by
  intro ts r
  have windowed (window : e.window ≠ 0) : r = if e.quorum ≤ offsetCount ts own then (own, .agreed, offsetCount ts own)
      else if e.quorum ≤ offsetCount ts (bestOffset ts own) then (bestOffset ts own, .adopted, offsetCount ts (bestOffset ts own))
      else (bestOffset ts own, .split, offsetCount ts (bestOffset ts own)) := by
    have isOwn : ownTallyOffset station e = own := by rw [ownTallyOffset, cast window]
    refine (if_neg window).trans ?_
    rw [isOwn]
  refine ⟨fun none => ?_, fun window enough => ?_, fun window few => ?_⟩
  · have settled : r = (0, .noWindow, 0) := if_pos none
    rw [settled]
    exact ⟨rfl, rfl, rfl⟩
  · rw [windowed window, if_pos enough]
    exact ⟨rfl, rfl, rfl⟩
  · obtain ⟨found, ranks⟩ := bestOffset_spec (ts := ts) ⟨(m, own), counted_of_lookup (cast window), rfl⟩
    rw [windowed window, if_neg (not_le.mpr few)]
    by_cases adopted : e.quorum ≤ offsetCount ts (bestOffset ts own)
    · rw [if_pos adopted]
      exact ⟨found, ranks, rfl, (if_pos adopted).symm⟩
    · rw [if_neg adopted]
      exact ⟨found, ranks, rfl, (if_neg adopted).symm⟩

/-! ### The fix instant (R129, R130) -/

theorem exec_fixInstant {i : Fin 32} {tn : Nat} {s : State} (tallying : s.entries[i].state = .tallying)
    (given : s.entries[i].tn = some tn) (reached : (tn - s.entries[i].leadE) * 256000000 ≤ s.clock.present) :
    exec (.fixInstant i) s = .next (fixEntry i s) := by
  have due : s.entries[i].fixAt ≤ s.clock.present := by
    rw [Entry.fixAt, given, fineMs]
    exact reached
  exact if_pos ⟨tallying, due⟩

/-- The entry that becomes FIXED and its FIX record (R130). -/
theorem recordFix_records {i : Fin 32} {e : Entry} {s u : State} (evid : u.evid = s.evid) :
    recordAdded (.fix (fixBody i e u)) s (recordFix i (setEntry i e u)) := by
  have entry : (setEntry i e u).entries[i] = e := entries_set_self _ _ _
  refine recordAdded_of_handed (u := setEntry i e u) (by simp [evid]) (by simp [evid]) (by simp [evid]) ?_ ?_ ?_ ?_
  · rw [recordFix, entry]
    rfl
  all_goals simp

theorem recordFix_sets (i : Fin 32) (s : State) : flagSet .auctionFixed (recordFix i s) = true := raise_sets _ _

theorem recordFix_flag {n : Notice} {i : Fin 32} {s : State} (other : n ≠ .auctionFixed) (loss : n ≠ .evidenceLoss) :
    flagSet n (recordFix i s) = flagSet n s := (raise_flag _ other).trans (handRecord_flag _ _ loss)

/-- The chain voided from a slot does not tell whether the frames of that slot were withdrawn before (R19, R122). -/
theorem ChainVoided.of_withdrawn {reason : VoidReason} {i : Fin 32} {rest : List (Fin 32)} {isTally : Bool} {es : Vector Entry 32}
    {s t : State} (voided : ChainVoided reason i rest { withdrawKind i isTally s with entries := es } t) :
    ChainVoided reason i rest { s with entries := es } t := by
  obtain ⟨first, predecessor, successors, others, withdrawn, records, flag, flags, kept⟩ := voided
  refine ⟨first, predecessor, successors, others, ?_, by simpa using records, flag, ?_, by simpa using kept⟩
  · rw [withdrawn]
    dsimp only
    rw [withdrawKind_waiting, List.filter_filter]
    refine List.filter_congr fun w _ => ?_
    by_cases slot : w.slot = i
    · simp [slot]
    · simp [slot]
  · simpa [flagSet] using flags

/-- Settles O48. -/
theorem fixInstantSettles : Obligations.FixInstantSettles := by
  intro i tn own m s tallying given leads reached e ts count size cast
  have executed := exec_fixInstant tallying given reached
  obtain ⟨windowless, agreed, voted⟩ := settle_spelled cast
  have settledIs : e.settled s.cfg.stationId = { e with
      offset := some (settle s.cfg.stationId e).1, status := some (settle s.cfg.stationId e).2.1
      agreeing := (settle s.cfg.stationId e).2.2, tc := some (tn + (settle s.cfg.stationId e).1) } := by
    rw [Entry.settled, given]
    rfl
  refine ⟨(settle s.cfg.stationId e).1, (settle s.cfg.stationId e).2.1, (settle s.cfg.stationId e).2.2, windowless, agreed,
    fun window few => voted window few, ?_⟩
  clear windowless agreed voted
  generalize (settle s.cfg.stationId e).1 = o at *
  generalize (settle s.cfg.stationId e).2.1 = status at *
  generalize (settle s.cfg.stationId e).2.2 = agreeing at *
  intro settled
  have tcNs : (e.settled s.cfg.stationId).tcNs = (tn + o) * 1000000 := by rw [settledIs]; rfl
  have moved : AuctionsOk s.entries → AuctionsOk (s.entries.set i settled) := by
    have taken : e.state ≠ .free := by rw [tallying]; exact nofun
    exact (TableMoves.put (e := settled) (.of_kept rfl rfl rfl rfl taken)).ok
  have links (j : Fin 32) : (s.entries.set i settled)[j].link = s.entries[j].link := by
    rw [entries_set]
    split
    · next same => rw [← same]
    · rfl
  refine ⟨fun ahead => ?_, fun behind ok rest chain => ?_⟩
  · have fixed : fixEntry i s = if status = .adopted ∨ status = .split
        then raise .disagree (recordFix i (setEntry i { settled with state := .fixed } (withdrawKind i true s)))
        else recordFix i (setEntry i { settled with state := .fixed } (withdrawKind i true s)) := by
      refine (if_pos (by rw [tcNs]; exact ahead)).trans ?_
      rw [settledIs]
      simp only [Option.some.injEq]
      rfl
    have recorded := recordFix_records (i := i) (e := { settled with state := .fixed }) (s := s) (u := withdrawKind i true s) (by simp)
    have waiting : (withdrawKind i true s).link.waiting = s.link.waiting.filter (fun w => decide (w.slot ≠ i ∨ w.isTally = false)) := by
      rw [withdrawKind_waiting]
      refine List.filter_congr fun w _ => ?_
      simp
    have body : fixBody i { settled with state := .fixed } (withdrawKind i true s)
        = { slot := i, group := e.group, tn := tn, window := e.window, offset := o, status := status, members := e.members
            agreeing := agreeing, counted := ts.length, drawn := e.drawn, share := e.ownShare.getD 0, conflicts := e.conflicts
            grade := s.steer.grade, bound := s.steer.bound } := by
      simp only [fixBody, withdrawKind_keeps]
      rw [given]
      rfl
    rw [body] at recorded
    have set := recordFix_sets i (setEntry i { settled with state := .fixed } (withdrawKind i true s))
    have flag : flagSet .disagree (recordFix i (setEntry i { settled with state := .fixed } (withdrawKind i true s)))
        = flagSet .disagree s := by
      rw [recordFix_flag (n := .disagree) nofun nofun]
      simp [flagSet]
    refine ⟨_, executed, ?_⟩
    rw [fixed]
    split
    · next disputed =>
      refine ⟨by simp, raise_holds set, fun _ => raise_sets _ _, fun notAdopted notSplit => absurd disputed (by simp [notAdopted, notSplit]),
        by simpa using waiting, recorded, by simp⟩
    · next plain =>
      exact ⟨by simp, set, fun disputed => absurd disputed plain, fun _ _ => flag, by simpa using waiting, recorded, by simp⟩
  · have fixed : fixEntry i s = voidEntry i .behindFloor (setEntry i settled (withdrawKind i true s)) := by
      refine (if_neg (by rw [tcNs]; exact not_le.mpr behind)).trans ?_
      rw [settledIs]
    have chained : isChainFrom (s.entries.set i settled) i rest := by
      unfold isChainFrom at *
      simpa only [links] using chain
    have voided := voidEntry_voids (r := .behindFloor) (i := i) (rest := rest)
      (s := { withdrawKind i true s with entries := s.entries.set i settled }) (moved ok) chained
    refine ⟨_, executed, ?_⟩
    have put : setEntry i settled (withdrawKind i true s) = { withdrawKind i true s with entries := s.entries.set i settled } := by
      simp [setEntry]
    rw [fixed, put]
    exact voided.of_withdrawn

end Sys2Proof.Machine
end

