-- ==== Sys2Proof/Proofs/AuctionClose.lean ====
section
/-! The close of an entry and what becomes of the successor it is linked to (R108, R131, R132). -/

namespace Sys2Proof.Machine

/-! ### One entry closes (R108, R131) -/

/-- The cut of an entry that closes: the one it has, else the one its close notice gives (R108). -/
def closedCut (u : StampUnit) (e : Entry) : Option Nat :=
  if e.cut = none then cutValue u.floor u.floorSeq u.nextSeq e else e.cut

/-- The entry as its close leaves it. -/
def Entry.closedBy (u : StampUnit) (e : Entry) : Entry := { e with state := .closed, cut := closedCut u e }

theorem closeNotice_of_cut {i : Fin 32} {s : State} (cut : s.entries[i].cut ≠ none) :
    closeNotice i s = { s with stamp := raiseFloor s.entries[i].tcNs s.stamp } := by
  unfold closeNotice
  dsimp only
  split
  · rfl
  · next uncut => exact absurd uncut cut

theorem closeNotice_of_uncut {i : Fin 32} {s : State} (uncut : s.entries[i].cut = none) :
    closeNotice i s = { (closeBatch .close { s with entries := s.entries.set i { s.entries[i] with
          cut := cutValue s.stamp.floor s.stamp.floorSeq s.stamp.nextSeq s.entries[i] } }) with
      stamp := raiseFloor s.entries[i].tcNs { s.stamp with batch := none } } := by
  unfold closeNotice
  dsimp only
  split
  · next cut => exact nomatch uncut.symm.trans cut
  · rw [closeBatch_stamp]

theorem closeNotice_evid {i : Fin 32} {s : State} (quiet : s.entries[i].cut ≠ none ∨ s.stamp.batch = none) :
    (closeNotice i s).evid = s.evid := by
  by_cases uncut : s.entries[i].cut = none
  · have none : s.stamp.batch = none := quiet.resolve_left (not_not.mpr uncut)
    rw [closeNotice_of_uncut uncut]
    obtain kept | ⟨b, batch, -⟩ := closeBatch_evid .close { s with entries := s.entries.set i { s.entries[i] with
        cut := cutValue s.stamp.floor s.stamp.floorSeq s.stamp.nextSeq s.entries[i] } }
    · exact kept
    · exact nomatch none.symm.trans batch
  · rw [closeNotice_of_cut uncut]

theorem closeNotice_stamp (i : Fin 32) (s : State) : (closeNotice i s).stamp =
    raiseFloor s.entries[i].tcNs { s.stamp with batch := if s.entries[i].cut = none then none else s.stamp.batch } := by
  by_cases uncut : s.entries[i].cut = none
  · rw [closeNotice_of_uncut uncut, if_pos uncut]
  · rw [closeNotice_of_cut uncut, if_neg uncut]

theorem closeOne_entries (i : Fin 32) (s : State) :
    (closeOne i s).entries = s.entries.set i (s.entries[i].closedBy s.stamp) := by
  have entry : (setEntry i { s.entries[i] with state := .closed } s).entries[i] = { s.entries[i] with state := .closed } :=
    entries_set_self _ _ _
  have noticed : (closeNotice i (setEntry i { s.entries[i] with state := .closed } s)).entries
      = s.entries.set i (s.entries[i].closedBy s.stamp) := by
    rw [closeNotice_entries, Entry.closedBy, closedCut, entry, setEntry_entries]
    split
    · next cut => rw [if_neg (by rw [cut]; exact nofun)]
    · next uncut =>
      rw [if_pos uncut, Vector.set_set]
      rfl
  simpa [closeOne] using noticed

theorem closeOne_stamp (i : Fin 32) (s : State) : (closeOne i s).stamp =
    raiseFloor s.entries[i].tcNs { s.stamp with batch := if s.entries[i].cut = none then none else s.stamp.batch } := by
  have entry : (setEntry i { s.entries[i] with state := .closed } s).entries[i] = { s.entries[i] with state := .closed } :=
    entries_set_self _ _ _
  have noticed := closeNotice_stamp i (setEntry i { s.entries[i] with state := .closed } s)
  rw [entry] at noticed
  simp only [closeOne, raise_stamp, handRecord_keeps, noticed]
  rfl

theorem closeOne_sets (i : Fin 32) (s : State) : flagSet .auctionClosed (closeOne i s) = true := raise_sets _ _

theorem closeOne_records {i : Fin 32} {s : State} (quiet : s.entries[i].cut ≠ none ∨ s.stamp.batch = none) :
    recordAdded (.close (closeBody i (s.entries[i].closedBy s.stamp) s)) s (closeOne i s) := by
  have entry : (setEntry i { s.entries[i] with state := .closed } s).entries[i] = { s.entries[i] with state := .closed } :=
    entries_set_self _ _ _
  have evid : (closeNotice i (setEntry i { s.entries[i] with state := .closed } s)).evid = s.evid :=
    closeNotice_evid (by rw [entry]; exact quiet)
  have closed : (closeNotice i (setEntry i { s.entries[i] with state := .closed } s)).entries[i] = s.entries[i].closedBy s.stamp := by
    have all := closeOne_entries i s
    simp only [closeOne, raise_entries, handRecord_keeps] at all
    rw [all]
    exact entries_set_self _ _ _
  refine recordAdded_of_handed (u := closeNotice i (setEntry i { s.entries[i] with state := .closed } s))
    (by rw [evid]) (by rw [evid]) (by rw [evid]) ?_ (by simp [closeOne]) (by simp [closeOne]) (by simp [closeOne])
  simp only [closeOne, raise_evid, closed]
  congr 2
  simp [closeBody]

theorem raiseFloor_floor (x : Nat) (u : StampUnit) : (raiseFloor x u).floor = max u.floor x := by
  unfold raiseFloor
  split
  · dsimp only; omega
  · omega

theorem raiseFloor_floorSeq (x : Nat) (u : StampUnit) :
    (raiseFloor x u).floorSeq = if u.floor < x then u.nextSeq else u.floorSeq := by
  unfold raiseFloor
  split <;> rfl

theorem raiseFloor_keeps (x : Nat) (u : StampUnit) : (raiseFloor x u).nextSeq = u.nextSeq ∧ (raiseFloor x u).batch = u.batch := by
  unfold raiseFloor
  split
  · exact ⟨rfl, rfl⟩
  · exact ⟨rfl, rfl⟩

/-! ### The successor (R132) -/

/-- What the close does to a HELD successor whose Tn is the one given, after its predecessor has closed (R132). -/
def armSuccessor (n : Nat) (j : Fin 32) (tn : Nat) (s : State) : State :=
  let e := s.entries[j].withTn tn
  if maxTn < tn then voidEntry j .range s
  else if tn * 1000000 < s.stamp.floor then voidEntry j .behindFloor (setEntry j e s)
  else if s.clock.present < e.drawAt then setEntry j { e with state := .armed } s
  else if s.clock.present < e.tallyAt then drawShare j (setEntry j { e with state := .drawing } s)
  else
    let s1 := recordFix j (setEntry j (s.entries[j].fixedLate tn) s)
    if tn * fineMs ≤ s1.clock.present then closeChain n j s1 else s1

theorem closeChain_of_end {i : Fin 32} {s : State} (last : s.entries[i].link = none) (n : Nat) :
    closeChain (n + 1) i s = closeOne i s := by
  rw [closeChain, last]

theorem closeChain_of_held {i j : Fin 32} {s : State} (link : s.entries[i].link = some j)
    (held : (closeOne i s).entries[j].state = .held) (n : Nat) :
    closeChain (n + 1) i s = armSuccessor n j (s.entries[i].tc.getD 0 + s.entries[i].linkDelay) (closeOne i s) := by
  rw [closeChain, link]
  exact if_neg (not_not.mpr held)

theorem entries_ext {es fs : Vector Entry 32} (same : ∀ x : Fin 32, es[x] = fs[x]) : es = fs :=
  Vector.ext fun k hk => same ⟨k, hk⟩

/-- Two slots written twice hold what was written last. -/
theorem set_again {es : Vector Entry 32} {i j : Fin 32} {a b c d : Entry} :
    (((es.set i a).set j b).set i c).set j d = (es.set i c).set j d := by
  refine entries_ext fun x => ?_
  rw [entries_set, entries_set _ j]
  split
  · rfl
  · next notJ =>
    rw [entries_set, entries_set _ i, entries_set, if_neg notJ, entries_set]
    split
    · rfl
    · rfl

/-- A HELD entry that no entry is linked from is voided with its own record, and the entry that links to it is parted from it. -/
theorem voidEntry_held {i j : Fin 32} {f : Entry} {r : VoidReason} {u : State} (entry : u.entries[j] = f) (held : f.state = .held)
    (pred : f.pred = some i) (link : f.link = none) (other : j ≠ i) :
    (voidEntry j r u).entries
        = (u.entries.set i { u.entries[i] with link := none }).set j { f with state := .void, reason := some r, pred := none }
    ∧ flagSet .auctionVoid (voidEntry j r u) = true
    ∧ ((voidEntry j r u).evid.queue.length < 496 → ∃ y b, (voidEntry j r u).evid.queue.getLast? = some y ∧ y.body = .void b
        ∧ b.slot = j ∧ b.before = .held ∧ b.reason = r) := by
  have alone : voidEntry j r u = voidOne j r u := voidChain_of_end (by rw [entry]; exact link) 31 r
  rw [alone]
  refine ⟨?_, (voidOne_effects j r u).2.2.1, fun small => ?_⟩
  · refine entries_ext fun x => ?_
    have self := voidOne_self j r u
    have rest (other : x ≠ j) := voidOne_other other r u
    rw [entry, pred] at self rest
    rw [entries_set, entries_set]
    by_cases isJ : x = j
    · rw [isJ, if_pos rfl, self, if_neg (by simpa using other.symm)]
    · rw [rest isJ, if_neg (Ne.symm isJ)]
      by_cases isI : x = i
      · rw [isI, if_pos rfl, if_pos rfl]
      · rw [if_neg (by simpa using Ne.symm isI), if_neg (Ne.symm isI)]
  · simp only [voidOne, clearLink_keeps, raise_evid] at small ⊢
    rw [handRecord_of_small small]
    exact ⟨_, _, List.getLast?_concat, rfl, rfl, by rw [voidBody, entry, held], rfl⟩

theorem withTn_drawAt (tn : Nat) (e : Entry) : (e.withTn tn).drawAt = (tn - e.leadL) * 256000000 := by
  rw [Entry.drawAt, fineMs, Entry.withTn, Option.getD_some]

theorem withTn_tallyAt (tn : Nat) (e : Entry) : (e.withTn tn).tallyAt = (tn - e.leadS) * 256000000 := by
  rw [Entry.tallyAt, fineMs, Entry.withTn, Option.getD_some]

/-- The five ways of a successor, by its Tn against the largest, the floor and the present time (R132). -/
theorem armSuccessor_cases (n : Nat) (j : Fin 32) (tn : Nat) (u : State) :
    (maxTn < tn → armSuccessor n j tn u = voidEntry j .range u)
    ∧ (tn ≤ maxTn → tn * 1000000 < u.stamp.floor →
        armSuccessor n j tn u = voidEntry j .behindFloor (setEntry j (u.entries[j].withTn tn) u))
    ∧ (tn ≤ maxTn → u.stamp.floor ≤ tn * 1000000 →
      (u.clock.present < (tn - u.entries[j].leadL) * 256000000 →
        armSuccessor n j tn u = setEntry j { u.entries[j].withTn tn with state := .armed } u)
      ∧ ((tn - u.entries[j].leadL) * 256000000 ≤ u.clock.present →
        (u.clock.present < (tn - u.entries[j].leadS) * 256000000 →
          armSuccessor n j tn u = drawShare j (setEntry j { u.entries[j].withTn tn with state := .drawing } u))
        ∧ ((tn - u.entries[j].leadS) * 256000000 ≤ u.clock.present →
          (u.clock.present < tn * 256000000 →
            armSuccessor n j tn u = recordFix j (setEntry j (u.entries[j].fixedLate tn) u))
          ∧ (tn * 256000000 ≤ u.clock.present →
            armSuccessor n j tn u = closeChain n j (recordFix j (setEntry j (u.entries[j].fixedLate tn) u)))))) := by
  have clock : (recordFix j (setEntry j (u.entries[j].fixedLate tn) u)).clock.present = u.clock.present := by simp
  unfold armSuccessor
  dsimp only
  rw [clock, withTn_drawAt, withTn_tallyAt, fineMs]
  refine ⟨fun outside => if_pos outside, fun inRange behind => ?_, fun inRange ahead => ?_⟩
  · rw [if_neg (not_lt.mpr inRange), if_pos behind]
  · rw [if_neg (not_lt.mpr inRange), if_neg (not_lt.mpr ahead)]
    refine ⟨fun early => if_pos early, fun drawn => ?_⟩
    rw [if_neg (not_lt.mpr drawn)]
    refine ⟨fun early => if_pos early, fun tallied => ?_⟩
    rw [if_neg (not_lt.mpr tallied)]
    exact ⟨fun early => if_neg (not_le.mpr early), fun due => if_pos due⟩

/-! ### The close instant (R131) -/

theorem exec_closeInstant {i : Fin 32} {tc : Nat} {s : State} (fixed : s.entries[i].state = .fixed)
    (given : s.entries[i].tc = some tc) (reached : tc * 256000000 ≤ s.clock.present) :
    exec (.closeInstant i) s = .next (closeEntry i s) := by
  have due : s.entries[i].closeAt ≤ s.clock.present := by
    rw [Entry.closeAt, given, fineMs]
    exact reached
  exact if_pos ⟨fixed, due⟩

theorem recordFix_entries (j : Fin 32) (u : State) : (recordFix j u).entries = u.entries := by simp

/-- What a successor that is fixed late leaves of the state (R132). -/
theorem recordFix_late {j : Fin 32} {tn : Nat} {f : Entry} {u : State} :
    let t := recordFix j (setEntry j (f.fixedLate tn) u)
    t.evid.queue.length < 496 → ∃ y b, t.evid.queue.getLast? = some y ∧ y.body = .fix b ∧ b.slot = j ∧ b.tn = tn ∧ b.offset = 0
      ∧ b.status = .late := by
  intro t small
  have entry : (setEntry j (f.fixedLate tn) u).entries[j] = f.fixedLate tn := entries_set_self _ _ _
  simp only [t, recordFix, raise_evid, entry] at small ⊢
  rw [handRecord_of_small small]
  exact ⟨_, _, List.getLast?_concat, rfl, rfl, rfl, rfl, rfl⟩

/-- A successor fixed late whose Tc has come closes at once, on top of the floor its predecessor left (R108, R132). -/
theorem closeOne_late {j : Fin 32} {tn : Nat} {f : Entry} {u : State} :
    let t := closeOne j (recordFix j (setEntry j (f.fixedLate tn) u))
    t.stamp.floor = max u.stamp.floor (tn * 1000000)
    ∧ ∃ c, t.entries = u.entries.set j { f.fixedLate tn with state := .closed, cut := c }
      ∧ (f.cut = none → c = if u.stamp.floor < tn * 1000000 then u.stamp.nextSeq else u.stamp.floorSeq) := by
  intro t
  have entry : (recordFix j (setEntry j (f.fixedLate tn) u)).entries[j] = f.fixedLate tn := by
    rw [(recordFix_entries _ _)]
    exact entries_set_self _ _ _
  have stamp : (recordFix j (setEntry j (f.fixedLate tn) u)).stamp = u.stamp := by simp
  have tnNs : (f.fixedLate tn).tcNs = tn * 1000000 := by rw [Entry.tcNs, Entry.fixedLate, Option.getD_some]
  refine ⟨?_, closedCut u.stamp (f.fixedLate tn), ?_, fun uncut => ?_⟩
  · simp only [t]
    rw [closeOne_stamp, raiseFloor_floor, entry, tnNs, stamp]
  · simp only [t]
    rw [closeOne_entries, entry, stamp, recordFix_entries, setEntry_entries, Vector.set_set]
    rfl
  · rw [closedCut, if_pos (by exact uncut), cutValue, tnNs]

/-- Settles O49. -/
theorem closeInstantCloses : Obligations.CloseInstantCloses := by
  intro i tc s fixed given reached _ e e' closed follows tn
  have executed := exec_closeInstant fixed given reached
  have isE : s.entries[i].closedBy s.stamp = e' := by
    have cut : closedCut s.stamp s.entries[i] = e'.cut := by
      rw [closedCut, cutValue, Entry.tcNs, given, Option.getD_some]
      cases cut : s.entries[i].cut with
      | none => simp only [e', e, cut, if_true]
      | some n => simp only [e', e, cut, reduceCtorEq, if_false]
    rw [Entry.closedBy, cut]
  have tcNs : s.entries[i].tcNs = tc * 1000000 := by rw [Entry.tcNs, given, Option.getD_some]
  have entries := closeOne_entries i s
  have stamp := closeOne_stamp i s
  have quietly := closeOne_records (i := i) (s := s)
  have body : closeBody i (s.entries[i].closedBy s.stamp) s = { slot := i, group := e.group, tc := tc, cut := e'.cut, late := e.late
                                                                grade := s.steer.grade, bound := s.steer.bound } := by
    rw [← isE]
    simp only [closeBody, Entry.closedBy, given]
    rfl
  rw [body] at quietly
  rw [tcNs] at stamp
  have closedState : e'.state = .closed := rfl
  rw [isE] at entries
  clear_value e'
  have floor : (closeOne i s).stamp.floor = max s.stamp.floor (tc * 1000000) := by rw [stamp, raiseFloor_floor]
  have floorSeq : (closeOne i s).stamp.floorSeq = if s.stamp.floor < tc * 1000000 then s.stamp.nextSeq else s.stamp.floorSeq := by
    rw [stamp, raiseFloor_floorSeq]
  have nextSeq : (closeOne i s).stamp.nextSeq = s.stamp.nextSeq := by rw [stamp, (raiseFloor_keeps _ _).1]
  have batch : (closeOne i s).stamp.batch = if e.cut = none then none else s.stamp.batch := by rw [stamp, (raiseFloor_keeps _ _).2]
  have closes (es : Vector Entry 32) (ran : exec (.closeInstant i) s = .next { closeOne i s with entries := es }) :
      closed { closeOne i s with entries := es } :=
    ⟨ran, closeOne_sets i s, floor, fun rises => floorSeq.trans (if_pos rises), nextSeq, fun uncut => batch.trans (if_pos uncut),
      fun cut => batch.trans (if_neg cut), quietly, by simp⟩
  refine ⟨fun last => ⟨closeOne i s, closes (closeOne i s).entries ?_, entries⟩, ?_⟩
  · rw [executed, closeEntry, closeChain_of_end last]
  intro j link other held f
  have atJ : (closeOne i s).entries[j] = f := by rw [entries, entries_set_ne _ _ other.symm]
  have atI : (closeOne i s).entries[i] = e' := by rw [entries, entries_set_self]
  have ran : exec (.closeInstant i) s = .next (armSuccessor 31 j tn (closeOne i s)) := by
    rw [executed, closeEntry, closeChain_of_held link (by rw [atJ]; exact held), given]
    rfl
  have later : tc ≤ tn := Nat.le_add_right _ _
  obtain ⟨range, behindFloor, inTime⟩ := armSuccessor_cases 31 j tn (closeOne i s)
  rw [atJ, floor] at behindFloor inTime
  have present : (closeOne i s).clock.present = s.clock.present := by simp
  rw [present] at inTime
  have inTime (inRange : tn ≤ maxTn) (ahead : s.stamp.floor ≤ tn * 1000000) := inTime inRange (by omega)
  clear_value tn
  have goesOn (t : State) (ran : exec (.closeInstant i) s = .next t) (x y : Entry) (state : x.state = .closed) (cut : x.cut = e'.cut)
      (put : t.entries = (s.entries.set i x).set j y) (grows : (closeOne i s).evid.Grows t.evid)
      (flag : flagSet .auctionClosed t = true)
      (kept : t.clock = s.clock ∧ t.steer = s.steer ∧ t.peers = s.peers ∧ t.ref = s.ref ∧ t.card = s.card) : follows t := by
    have entry : t.entries[i] = x := by rw [put, entries_set_ne _ _ other, entries_set_self]
    refine ⟨ran, flag, by rw [entry, state], by rw [entry, cut], fun quiet room => ?_, kept⟩
    obtain ⟨r, queue, isClose, number, -⟩ := quietly quiet room
    obtain ⟨more, later⟩ := grows.keepsQueue
    exact ⟨r, more, by rw [← later, queue, List.append_assoc]; rfl, number, isClose⟩
  refine ⟨fun inRange ahead early => ?_, fun pred noLink => ⟨fun outside => ?_, fun inRange behind => ?_, fun inRange ahead due => ?_⟩⟩
  · rw [(inTime inRange ahead).1 early] at ran
    exact ⟨_, closes _ ran, congrArg (fun es : Vector Entry 32 => es.set j _) entries⟩
  · rw [range outside] at ran
    obtain ⟨put, flag, last⟩ := voidEntry_held (r := .range) atJ held pred noLink other
    rw [atI, entries, Vector.set_set] at put
    exact ⟨_, goesOn _ ran { e' with link := none } _ closedState rfl put (voidEntry_grows (.refl _))
      (voidEntry_holds (closeOne_sets i s)) (by simp), flag, put, last⟩
  · rw [behindFloor inRange (lt_of_lt_of_le behind (le_max_left _ _))] at ran
    have entryJ : (setEntry j (f.withTn tn) (closeOne i s)).entries[j] = f.withTn tn := entries_set_self _ _ _
    have entryI : (setEntry j (f.withTn tn) (closeOne i s)).entries[i] = e' := (entries_set_ne _ _ other).trans atI
    obtain ⟨put, flag, last⟩ := voidEntry_held (r := .behindFloor) entryJ held pred noLink other
    rw [entryI, setEntry_entries, entries, set_again] at put
    exact ⟨_, goesOn _ ran { e' with link := none } _ closedState rfl put (voidEntry_grows (.refl _))
      (voidEntry_holds (closeOne_sets i s)) (by simp), flag, put, last⟩
  · obtain ⟨-, waited⟩ := inTime inRange ahead
    obtain ⟨draws, fixes⟩ := waited due
    have writes (y : Entry) : (setEntry j y (closeOne i s)).entries = (s.entries.set i e').set j y := by
      rw [setEntry_entries, entries]
    refine ⟨fun early => ⟨fun barred => ?_, fun window grade source => ?_⟩, fun tallied => ?_⟩
    · have idle := drawShare_none (i := j) (e := { f.withTn tn with state := .drawing }) (s := closeOne i s)
        (by simpa [Entry.withTn] using barred)
      rw [draws early, idle] at ran
      exact ⟨_, goesOn _ ran e' _ closedState rfl (writes _) (.refl _) (closeOne_sets i s) (by simp), writes _, by simp⟩
    · have drawn := drawShare_some (i := j) (e := { f.withTn tn with state := .drawing }) (s := closeOne i s) window
        (by simpa using grade) (by simpa using source)
      rw [draws early] at ran
      refine ⟨_, Config.randomShare (closeOne i s).fresh, goesOn _ ran e'
        { f with state := .drawing, tn := some tn, drawn := true, ownShare := some (Config.randomShare (closeOne i s).fresh) }
        closedState rfl ?put (by simpa using Evidence.Grows.refl _) (flagSet_of_port (by simp) (closeOne_sets i s)) (by simp), ?put, ?last⟩
      case last =>
        rw [drawn, requestFrame_last]
        simp [Entry.withTn]
      case put =>
        rw [drawn]
        simp only [requestFrame_keeps]
        exact writes _
    · have stampKept : (recordFix j (setEntry j (f.fixedLate tn) (closeOne i s))).stamp = (closeOne i s).stamp := by simp
      have put : (recordFix j (setEntry j (f.fixedLate tn) (closeOne i s))).entries = (s.entries.set i e').set j (f.fixedLate tn) := by
        simpa using writes (f.fixedLate tn)
      have grows : (closeOne i s).evid.Grows (recordFix j (setEntry j (f.fixedLate tn) (closeOne i s))).evid := recordFix_grows (.refl _)
      have flag := recordFix_sets j (setEntry j (f.fixedLate tn) (closeOne i s))
      have still : flagSet .auctionClosed (recordFix j (setEntry j (f.fixedLate tn) (closeOne i s))) = true :=
        recordFix_holds (closeOne_sets i s)
      obtain ⟨stays, closesToo⟩ := fixes tallied
      intro late
      refine ⟨fun early => ?_, fun reachedToo => ?_⟩
      · rw [stays early] at ran
        exact ⟨_, goesOn _ ran e' _ closedState rfl put grows still (by simp), flag, put, by simp, recordFix_late⟩
      · rw [closesToo reachedToo] at ran
        have alone : closeChain 31 j (recordFix j (setEntry j (f.fixedLate tn) (closeOne i s)))
            = closeOne j (recordFix j (setEntry j (f.fixedLate tn) (closeOne i s))) := by
          refine closeChain_of_end ?_ 30
          rw [put, entries_set_self]
          exact noLink
        obtain ⟨raised, c, again, isCut⟩ := closeOne_late (j := j) (tn := tn) (f := f) (u := closeOne i s)
        rw [alone] at ran
        rw [entries] at again
        refine ⟨_, c, goesOn _ ran e' _ closedState rfl again (closeOne_grows grows) (closeOne_sets j _) (by simp),
          closeOne_holds flag, ?rises, again, fun uncut => ?_⟩
        case rises =>
          rw [raised, floor, max_assoc, max_eq_right (Nat.mul_le_mul_right _ later)]
        rw [isCut uncut, floor, floorSeq, nextSeq]
        exact (ite_or _ _ _ _).symm

end Sys2Proof.Machine
end

