-- ==== Sys2Proof/Proofs/FenceAndCheckpoint.lean ====
section
/-! The commands of the Evidence Unit: FENCE and CHECKPOINT (R148 to R150). -/

namespace Sys2Proof.Machine

/-! ### The open batch at a fence (R149) -/

theorem closeBatch_of_none {c : BatchCause} {s : State} (none : s.stamp.batch = none) : closeBatch c s = s := by
  unfold closeBatch
  split
  · rfl
  · next b batch => exact nomatch none.symm.trans batch

theorem closeBatch_of_some {c : BatchCause} {b : Batch} {s : State} (batch : s.stamp.batch = some b) :
    closeBatch c s = handRecord (.batch b (crcFinal b.check) c) { s with stamp.batch := none } := by
  unfold closeBatch
  split
  · next none => exact nomatch batch.symm.trans none
  · next b' open_ =>
    obtain rfl : b = b' := Option.some.inj (batch.symm.trans open_)
    rfl

theorem fenceBatch_of_some {b : Batch} {s : State} (batch : s.stamp.batch = some b) :
    fenceBatch s = if s.evid.queue.length < 496 then .numbered s.evid.nextNumber else .lost := by
  unfold fenceBatch
  split
  · next none => exact nomatch batch.symm.trans none
  · simp only [admitted, decide_eq_true_eq]
    rfl

theorem handRecord_of_full {b : Body} {s : State} (full : b.capacity ≤ s.evid.queue.length) : handRecord b s = loseRecord b s :=
  if_neg (by rw [admitted, decide_eq_true_iff]; exact not_lt.mpr full)

/-- What the fence finds of the open batch: none, its record made, or its record lost (R142, R149). -/
theorem closeBatch_fence (s : State) :
    (s.stamp.batch = none → (closeBatch .fence s).evid.nextNumber = s.evid.nextNumber ∧ fenceBatch s = .none)
    ∧ (s.stamp.batch ≠ none → s.evid.queue.length < 496 →
        (closeBatch .fence s).evid.nextNumber = s.evid.nextNumber + 1 ∧ fenceBatch s = .numbered s.evid.nextNumber)
    ∧ (s.stamp.batch ≠ none → 496 ≤ s.evid.queue.length →
        (closeBatch .fence s).evid.nextNumber = s.evid.nextNumber ∧ fenceBatch s = .lost
          ∧ flagSet .evidenceLoss (closeBatch .fence s) = true) := by
  refine ⟨fun none => ?_, fun some room => ?_, fun some full => ?_⟩
  · rw [closeBatch_of_none none, fenceBatch, none]
    exact ⟨rfl, rfl⟩
  · obtain ⟨b, batch⟩ := Option.ne_none_iff_exists'.mp some
    rw [closeBatch_of_some batch, fenceBatch_of_some batch, if_pos room, handRecord_of_room (by exact room)]
    exact ⟨rfl, rfl⟩
  · obtain ⟨b, batch⟩ := Option.ne_none_iff_exists'.mp some
    rw [closeBatch_of_some batch, fenceBatch_of_some batch, if_neg (not_lt.mpr full), handRecord_of_full (by exact full)]
    exact ⟨rfl, rfl, raise_sets _ _⟩

/-! ### FENCE and CHECKPOINT -/

theorem takeFence_holds {n : Notice} {token : BitVec 32} {s : State} (set : flagSet n (closeBatch .fence s) = true) :
    flagSet n (takeFence token s) = true :=
  wakeEngine_holds (s := { handRecord (.fence token s.stamp.nextSeq (fenceBatch s)) (closeBatch .fence s) with evid.fence := _ })
    (handRecord_holds set)

theorem exec_fence_of_run {body : Bytes} {s : State} (run : s.phase = .run) (absent : s.port.transaction = .absent)
    (length : body.length = 4) :
    (s.evid.fence ≠ none ∨ 512 ≤ s.evid.queue.length → exec (.fence body) s = .next (s.replied .busy []))
    ∧ (s.evid.fence = none → s.evid.queue.length < 512 →
        exec (.fence body) s = .next (takeFence (BitVec.ofNat 32 (field 0 4 body)) s)) := by
  have executed : exec (.fence body) s = .next (fence body s) := congrArg Host.Outcome.next (onCommand_of_fits absent length)
  have inRun : ¬ s.phase = .config := by rw [run]; exact nofun
  rw [executed, fence, if_neg inRun]
  refine ⟨fun held => ?_, fun free room => ?_⟩
  · by_cases pending : s.evid.fence.isSome
    · rw [if_pos pending]
      rfl
    · have full := held.resolve_left (not_not.mpr (Option.not_isSome_iff_eq_none.mp pending))
      rw [if_neg pending, if_pos full]
      rfl
  · rw [if_neg (by rw [free]; exact nofun), if_neg (not_le.mpr room)]

theorem exec_checkpoint_of_run {s : State} (run : s.phase = .run) (absent : s.port.transaction = .absent) :
    exec (.checkpoint []) s = .next (respond .ok
      (optBytes 8 (le 8) (if s.evid.queue.length < 512 then some s.evid.nextNumber else none)) (takeCheckpoint .command s)) := by
  have executed : exec (.checkpoint []) s = .next (checkpoint s) := congrArg Host.Outcome.next (onCommand_of_fits absent rfl)
  have inRun : ¬ s.phase = .config := by rw [run]; exact nofun
  rw [executed, checkpoint, if_neg inRun]
  simp only [admitted, decide_eq_true_eq]
  rfl

/-- Settles O51. -/
theorem fenceAndCheckpoint : Obligations.FenceAndCheckpoint := by
  intro body s run absent
  refine ⟨fun length held => (exec_fence_of_run run absent length).1 held, fun length free room => ?_, fun room => ?_, fun full => ?_⟩
  · have evid := takeFence_evid (BitVec.ofNat 32 (field 0 4 body)) room
    obtain ⟨none, made, lost⟩ := closeBatch_fence s
    refine ⟨_, (closeBatch .fence s).evid.nextNumber, _, (exec_fence_of_run run absent length).2 free room, rfl, by rw [evid],
      by rw [evid]; exact List.getLast?_concat, rfl, by rw [evid]; rfl, takeFence_stamp _ _, fun isNone => ?_, fun isSome few => ?_,
      fun isSome many => ?_, ?_, by simp [takeFence], by simp [takeFence], by simp [takeFence], by simp [takeFence],
      by simp [takeFence]⟩
    · obtain ⟨number, batch⟩ := none isNone
      exact ⟨number, by rw [← batch]; rfl⟩
    · obtain ⟨number, batch⟩ := made isSome few
      exact ⟨number, by rw [← batch]; rfl⟩
    · obtain ⟨number, batch, flag⟩ := lost isSome many
      exact ⟨number, by rw [← batch]; rfl, takeFence_holds flag⟩
    · rw [evid]
      exact (closeBatch_grows (.refl _)).keepsQueue.trans (List.prefix_append _ _)
  · refine ⟨_, checkpointBody .command s, exec_checkpoint_of_run run absent, ?_,
      recordAdded_of_handed (u := s) rfl rfl rfl rfl (by simp [takeCheckpoint]) (by simp [takeCheckpoint]) (by simp [takeCheckpoint]),
      rfl, rfl, rfl, rfl, rfl, rfl, rfl, rfl, by simp [takeCheckpoint], by simp [takeCheckpoint], by simp [takeCheckpoint],
      by simp [takeCheckpoint], by simp [takeCheckpoint]⟩
    rw [if_pos room]
    rfl
  · have lost : takeCheckpoint .command s = loseRecord (.checkpoint (checkpointBody .command s)) s := handRecord_of_full full
    refine ⟨_, exec_checkpoint_of_run run absent, ?_, ?_, ?_, ?_⟩
    · rw [if_neg (not_lt.mpr full)]
      rfl
    · rw [lost]
      rfl
    · rw [lost]
      exact raise_sets _ _
    · rw [lost]
      simp [loseRecord, countLoss, Body.kind, RecordKind.lossIndex]

end Sys2Proof.Machine
end

