-- ==== Sys2Proof/Proofs/DescriptorReads.lean ====
section
/-! The commands that read a descriptor, the stop of the engine, and the error response to a transfer (R157 to R159, R164 to R166). -/

namespace Sys2Proof.Machine

/-! ### Card transfers and the states the engine ends in -/

theorem hostFirst_of_none {k : CardInput} (none : k.hostWrites = []) (s : State) : hostFirst k s = s := by
  rw [hostFirst, none]
  rfl

theorem hostLate_of_none {k : CardInput} (none : k.hostWritesLate = []) (s : State) : hostLate k s = s := by
  rw [hostLate, none]
  rfl

theorem writeCard_eq (a : Nat) (bs : Bytes) (error : Bool) (s : State) :
    writeCard a bs error s = { s with card := if error then s.card else cardWrite s.card a bs } := by
  unfold writeCard
  split
  · rfl
  · rfl

theorem writeCard_answered (a : Nat) (bs : Bytes) (s : State) : writeCard a bs false s = { s with card := cardWrite s.card a bs } :=
  if_neg Bool.false_ne_true

theorem enterFault_eq (i : Option Nat) (st : CompletionStatus) (s : State) : enterFault i st s = { s with
    engine := { state := .fault, index := i, copy := none, lastStatus := st, transfer := none }
    port := { s.port with flags := s.port.flags ||| 4096#14 } } := rfl

theorem enterStalled_eq (i : Nat) (s : State) : enterStalled i s = { s with
    engine := { s.engine with state := .stalled, index := some i, copy := none, transfer := none }
    port := { s.port with flags := s.port.flags ||| 4096#14 } } := rfl

theorem le_one_eq (v : Nat) : le 1 v = [BitVec.ofNat 8 v] := rfl

theorem faultedAsRead_eq (bs : Bytes) (st : CompletionStatus) :
    faultedAsRead bs st = 3 :: (bs.drop 1).take 4 ++ BitVec.ofNat 8 st.code :: bs.drop 6 := by
  rw [faultedAsRead, le_one_eq, le_one_eq, List.append_assoc]
  rfl

theorem faultWriteBack_of_whole {k : CardInput} (whole : k.hold ≠ some .faulted) (bs : Bytes) (st : CompletionStatus) (s : State) :
    faultWriteBack bs st k s = { s with
      engine := { state := .fault, index := s.engine.index, copy := none, lastStatus := st, transfer := none }
      card := if k.faultWriteError then s.card else cardWrite s.card (s.cfg.tableBase + 32 * s.engine.index.getD 0) bs
      port := { s.port with flags := s.port.flags ||| 4096#14 } } := by
  rw [faultWriteBack, if_neg whole, writeCard_eq, enterFault_eq, descriptorAddress]

/-! ### The read of a descriptor with its four outcomes (R157) -/

theorem armed_code : DescState.armed.code = 1 := rfl

section
variable {i : Nat} {k : CardInput} {s : State}

theorem readDescriptor_of_error (error : k.readError = true) : readDescriptor i k s = { s with
    engine := { state := .fault, index := some i, copy := none, lastStatus := .memoryError, transfer := none }
    port := { s.port with flags := s.port.flags ||| 4096#14 } } := by
  rw [readDescriptor]
  dsimp only
  rw [if_pos error, enterFault_eq]

theorem readDescriptor_of_unarmed (answered : k.readError = false)
    (unarmed : field 0 1 (cardReadN s.card (s.cfg.tableBase + 32 * i) 32) ≠ 1) : readDescriptor i k s = { s with
      engine := { s.engine with state := .stalled, index := some i, copy := none, transfer := none }
      port := { s.port with flags := s.port.flags ||| 4096#14 } } := by
  rw [readDescriptor, descriptorAddress]
  dsimp only
  rw [armed_code, if_neg (by simp [answered]), if_pos unarmed, enterStalled_eq]

theorem readDescriptor_of_unusable {st : CompletionStatus} (answered : k.readError = false)
    (armed : field 0 1 (cardReadN s.card (s.cfg.tableBase + 32 * i) 32) = 1)
    (unusable : parseDescriptor (cardReadN s.card (s.cfg.tableBase + 32 * i) 32) = .error st) :
    readDescriptor i k s
      = faultWriteBack (faultedAsRead (cardReadN s.card (s.cfg.tableBase + 32 * i) 32) st) st k { s with engine.index := some i } := by
  rw [readDescriptor, descriptorAddress]
  dsimp only
  rw [armed_code, if_neg (by simp [answered]), if_neg (not_not.mpr armed), unusable]

theorem readDescriptor_of_usable {d : Descriptor} (answered : k.readError = false)
    (armed : field 0 1 (cardReadN s.card (s.cfg.tableBase + 32 * i) 32) = 1)
    (usable : parseDescriptor (cardReadN s.card (s.cfg.tableBase + 32 * i) 32) = .ok d) :
    readDescriptor i k s = { s with
      engine := { s.engine with
        state := if headEligible d s.evid.queue.length s.evid.fence.isSome then .running else .waiting
        index := some i, copy := some d, transfer := none } } := by
  rw [readDescriptor, descriptorAddress]
  dsimp only
  rw [armed_code, if_neg (by simp [answered]), if_neg (not_not.mpr armed), usable]
  rfl

end

/-! ### EXPORT_START and EXPORT_RESUME (R158, R164) -/

theorem engineStart_of_startable {b : Byte} {k : CardInput} {s : State} (run : s.phase = .run) (low : b.toNat ≤ 63)
    (idle : s.engine.state = .stopped ∨ s.engine.state = .fault) :
    exportStart [b] k s = engineReply (readInCommand b.toNat k s) := by
  have startable : s.engine.state.startable = true := by
    obtain state | state := idle
    · rw [state]; rfl
    · rw [state]; rfl
  rw [exportStart, if_neg (by rw [run]; exact nofun), field_one_byte, if_neg (not_lt.mpr low), if_neg (by rw [startable]; exact nofun)]

theorem engineResume_of_stalled {i : Nat} {k : CardInput} {s : State} (run : s.phase = .run) (state : s.engine.state = .stalled)
    (index : s.engine.index = some i) : exportResume k s = engineReply (readInCommand i k s) := by
  rw [exportResume, run, state, index]

/-- Settles O54. -/
theorem exportStartReadsTheDescriptor : Obligations.ExportStartReadsTheDescriptor := by
  intro c b k s run absent low hostFirst hostLate given a bytes reply
  have executed : exec c s = .next (engineReply (readDescriptor b.toNat { k with hold := none } s)) := by
    have inCommand : readInCommand b.toNat k s = readDescriptor b.toNat { k with hold := none } s := by
      rw [readInCommand, hostLate_of_none hostLate]
    rw [← inCommand]
    obtain ⟨rfl, idle⟩ | ⟨rfl, stalled, index⟩ := given
    · rw [← engineStart_of_startable run low idle]
      refine congrArg Host.Outcome.next ?_
      rw [hostFirst_of_none hostFirst]
      exact onCommand_of_fits absent rfl
    · rw [← engineResume_of_stalled run stalled index]
      refine congrArg Host.Outcome.next ?_
      rw [hostFirst_of_none hostFirst]
      exact onCommand_of_fits absent rfl
  rw [executed]
  refine ⟨fun error => ?_, fun answered unarmed => ?_, fun st answered armed unusable => ?_, fun d answered armed usable => ?_⟩
  · rw [readDescriptor_of_error (k := { k with hold := none }) error]
    rfl
  · rw [readDescriptor_of_unarmed (k := { k with hold := none }) answered unarmed]
    rfl
  · rw [readDescriptor_of_unusable (k := { k with hold := none }) answered armed unusable,
      faultWriteBack_of_whole (k := { k with hold := none }) nofun, faultedAsRead_eq]
    rfl
  · rw [readDescriptor_of_usable (k := { k with hold := none }) answered armed usable]
    rfl

end Sys2Proof.Machine
end

