-- ==== Sys2Proof/Proofs/EngineStops.lean ====
section
/-! EXPORT_STOP in every state of the engine and with every transfer under way, and the error response to a transfer (R158, R164 to R166;
log 40). -/

namespace Sys2Proof.Machine

/-! ### An error response to a transfer (R166) -/

theorem strayWrite_of_untaken (s : State) : strayWrite false s = s := by
  unfold strayWrite
  split
  · rfl
  · rfl

theorem writing_of {x : EngineState} (working : x = .running ∨ x = .stopping) : x.writing = true := by
  obtain rfl | rfl := working
  · rfl
  · rfl

section
variable {k : CardInput} {d : Descriptor} {s : State}

theorem exec_writeError_of_transfer {x : EngineTransfer} (none : k.hostWrites = [])
    (working : s.engine.state = .running ∨ s.engine.state = .stopping) (copy : s.engine.copy = some d)
    (transfer : s.engine.transfer = some x) (took : Bool) :
    exec (.recordWriteError k took) s = .next (enterFault s.engine.index x.faultStatus s) := by
  change execRecordWriteError k took s = _
  rw [execRecordWriteError, hostFirst_of_none none, copy]
  dsimp only
  rw [if_pos (writing_of working), transfer]

theorem exec_writeError_of_record (none : k.hostWrites = [])
    (working : s.engine.state = .running ∨ s.engine.state = .stopping) (copy : s.engine.copy = some d)
    (record : s.engine.transfer = Option.none) :
    exec (.recordWriteError k false) s = .next (faultWriteBack (d.bytes .faulted .memoryError) .memoryError k s) := by
  change execRecordWriteError k false s = _
  rw [execRecordWriteError, hostFirst_of_none none, copy]
  dsimp only
  rw [if_pos (writing_of working), record]
  dsimp only
  rw [strayWrite_of_untaken]

end

/-- Settles O58. -/
theorem recordWriteErrorFaults : Obligations.RecordWriteErrorFaults := by
  intro k d i s none working copy index fault
  refine ⟨fun record whole => ?_, fun record held => ?_, fun took => ⟨fun ending => ?_, fun bs st held => ?_⟩⟩
  · rw [exec_writeError_of_record none working copy record, faultWriteBack_of_whole whole, index]
    rfl
  · rw [exec_writeError_of_record none working copy record, faultWriteBack, if_pos held]
  · obtain done | stop | read := ending
    · rw [exec_writeError_of_transfer none working copy done, index]
      rfl
    · rw [exec_writeError_of_transfer none working copy stop, index]
      rfl
    · rw [exec_writeError_of_transfer none working copy read, index]
      rfl
  · rw [exec_writeError_of_transfer none working copy held, index]
    rfl

/-! ### Write-backs (R163, R165) -/

theorem stopWriteBack_of_refused {k : CardInput} (refused : k.writeBackError = true) (d : Descriptor) (s : State) :
    stopWriteBack d k s = { s with
      engine := { state := .fault, index := s.engine.index, copy := none, lastStatus := .memoryError, transfer := none }
      port := { s.port with flags := s.port.flags ||| 4096#14 } } := by
  rw [stopWriteBack, if_pos refused, enterFault_eq]

theorem stopWriteBack_of_taken {k : CardInput} (taken : k.writeBackError = false) (d : Descriptor) (s : State) :
    stopWriteBack d k s = { s with
      engine := { state := .stopped, index := none, copy := none, lastStatus := .stopped, transfer := none }
      card := cardWrite s.card (s.cfg.tableBase + 32 * s.engine.index.getD 0) (d.bytes .armed .stopped) } := by
  rw [stopWriteBack, if_neg (by simp [taken])]
  simp only [writeCard_answered, descriptorAddress, enterStopped]

theorem raise_exportDone (s : State) :
    raise .exportDone s = { s with port := { s.port with flags := s.port.flags ||| 2048#14 } } := rfl

theorem writeDone_eq (d : Descriptor) (s : State) : writeDone d s = { s with
    engine := { s.engine with lastStatus := .done }
    card := cardWrite s.card (s.cfg.tableBase + 32 * s.engine.index.getD 0) (d.bytes .spent .done)
    port := { s.port with flags := if d.noticeOnDone then s.port.flags ||| 2048#14 else s.port.flags } } := by
  simp only [writeDone, writeCard_answered, descriptorAddress]
  cases d.noticeOnDone
  · rw [if_neg Bool.false_ne_true, if_neg Bool.false_ne_true]
  · rw [if_pos rfl, if_pos rfl, raise_exportDone]

theorem flagSet_exportHalt {f : BitVec 14} {s : State} (flags : s.port.flags = f ||| 4096#14) : flagSet .exportHalt s = true := by
  rw [flagSet, flags, BitVec.getLsbD_or, Bool.or_eq_true]
  exact .inr rfl

theorem flagSet_exportDone {f : BitVec 14} {s : State} (flags : s.port.flags = f ||| 2048#14) : flagSet .exportDone s = true := by
  rw [flagSet, flags, BitVec.getLsbD_or, Bool.or_eq_true]
  exact .inr rfl

/-! ### A completion (R163) -/

section
variable {k : CardInput} {d : Descriptor} {s : State}

theorem completeDescriptor_of_refused (whole : k.hold ≠ some .done) (refused : k.writeBackError = true) :
    completeDescriptor d k s = { s with
      engine := { state := .fault, index := s.engine.index, copy := none, lastStatus := .memoryError, transfer := none }
      port := { s.port with flags := s.port.flags ||| 4096#14 } } := by
  rw [completeDescriptor, if_neg whole, if_pos refused, enterFault_eq]

theorem completeDescriptor_of_taken (whole : k.hold ≠ some .done) (taken : k.writeBackError = false) :
    completeDescriptor d k s = followLink d k (writeDone d s) := by
  rw [completeDescriptor, if_neg whole, if_neg (by simp [taken])]

/-- A completion after which no link is followed (R163, R165). -/
theorem completeDescriptor_of_end (whole : k.hold ≠ some .done) (taken : k.writeBackError = false)
    (last : s.engine.state = .stopping ∨ d.linkEnable = false) :
    completeDescriptor d k s = { s with
      engine := { state := .stopped, index := none, copy := none, lastStatus := .done, transfer := none }
      card := cardWrite s.card (s.cfg.tableBase + 32 * s.engine.index.getD 0) (d.bytes .spent .done)
      port := { s.port with flags := if d.noticeOnDone then s.port.flags ||| 2048#14 else s.port.flags } } := by
  have state : (writeDone d s).engine.state = s.engine.state := by rw [writeDone_eq]
  have ends : followLink d k (writeDone d s) = enterStopped (writeDone d s) := by
    obtain stopping | unlinked := last
    · exact if_pos (state.trans stopping)
    · rw [followLink, unlinked, if_neg Bool.false_ne_true, ite_self]
  rw [completeDescriptor_of_taken whole taken, ends, writeDone_eq, enterStopped]

/-- The state at the read of a linked descriptor (R163 stage 3). -/
def linkRead (d : Descriptor) (s : State) : State := { s with
  engine := { s.engine with lastStatus := .done, copy := some d }
  card := cardWrite s.card (s.cfg.tableBase + 32 * s.engine.index.getD 0) (d.bytes .spent .done)
  port := { s.port with flags := if d.noticeOnDone then s.port.flags ||| 2048#14 else s.port.flags } }

theorem followLink_of_linked {u : State} (running : u.engine.state ≠ .stopping) (linked : d.linkEnable = true) :
    followLink d k u = if k.hold = some .read then holdTransfer .read d { u with engine.index := some d.linkIndex }
      else readDescriptor d.linkIndex k (hostLate k { u with engine.copy := some d }) := by
  rw [followLink, if_neg running, if_pos linked]

theorem completeDescriptor_of_linked (none : k.hostWritesLate = []) (notDone : k.hold ≠ some .done) (notRead : k.hold ≠ some .read)
    (taken : k.writeBackError = false) (running : s.engine.state = .running) (linked : d.linkEnable = true) :
    completeDescriptor d k s = readDescriptor d.linkIndex k (linkRead d s) := by
  rw [completeDescriptor_of_taken notDone taken, writeDone_eq, followLink_of_linked (by rw [running]; exact nofun) linked,
    if_neg notRead, hostLate_of_none none, linkRead]

end

/-! ### What a stop finds (R165) -/

theorem stopEngine_of_running {k : CardInput} {s : State} (state : s.engine.state = .running) :
    stopEngine k s = { s with engine.state := .stopping } := by
  rw [stopEngine, state]

theorem stopEngine_of_waiting {k : CardInput} {d : Descriptor} {s : State} (state : s.engine.state = .waiting)
    (copy : s.engine.copy = some d) : stopEngine k s = stopWriteBack d k s := by
  rw [stopEngine, state, copy]

theorem stopEngine_of_stalled {k : CardInput} {s : State} (state : s.engine.state = .stalled) :
    stopEngine k s = enterStopped s := by
  rw [stopEngine, state]

theorem stopEngine_of_ended {k : CardInput} {s : State} (state : s.engine.state = .stopped ∨ s.engine.state = .fault) :
    stopEngine k s = s := by
  obtain state | state := state
  · rw [stopEngine, state]
  · rw [stopEngine, state]

theorem stopWhole_of_record {k : CardInput} {s : State} (record : s.engine.transfer = none) : stopWhole k s = stopEngine k s := by
  rw [stopWhole, record]

/-- The stop input of the write-back that follows a transfer finished within the stop. -/
def afterFinish (k : CardInput) : CardInput := { k with writeBackError := k.stopWriteError }

theorem stopWhole_of_transfer {k : CardInput} {x : EngineTransfer} {d : Descriptor} {s : State}
    (transfer : s.engine.transfer = some x) (copy : s.engine.copy = some d) :
    stopWhole k s = stopEngine (afterFinish k) (resumeTransfer x d { k with hold := none } s) := by
  rw [stopWhole, transfer, copy]
  rfl

theorem exec_stop {k : CardInput} {s : State} (absent : s.port.transaction = .absent) (none : k.hostWrites = []) :
    exec (.exportStop [] k) s = .next (exportStop k s) := by
  refine congrArg Host.Outcome.next ?_
  rw [hostFirst_of_none none]
  exact onCommand_of_fits absent rfl

section
variable {k : CardInput} {s : State} (run : s.phase = .run) (absent : s.port.transaction = .absent) (none : k.hostWrites = [])
include run absent none

theorem exec_stop_of_running (state : s.engine.state = .running) :
    exec (.exportStop [] k) s = .next (respond .ok [] (stopWhole k s)) := by
  rw [exec_stop absent none, exportStop, if_neg (by rw [run]; exact nofun), state]

theorem exec_stop_of_idle (state : s.engine.state = .stalled ∨ s.engine.state = .waiting) :
    exec (.exportStop [] k) s = .next (respond .ok [] (stopEngine k s)) := by
  rw [exec_stop absent none, exportStop, if_neg (by rw [run]; exact nofun)]
  obtain state | state := state
  · rw [state]
  · rw [state]

theorem exec_stop_of_stopping (state : s.engine.state = .stopping) : exec (.exportStop [] k) s = .next (s.replied .busy []) := by
  rw [exec_stop absent none, exportStop, if_neg (by rw [run]; exact nofun), state]
  rfl

theorem exec_stop_of_ended (state : s.engine.state = .stopped ∨ s.engine.state = .fault) :
    exec (.exportStop [] k) s = .next (s.replied .refusedState []) := by
  rw [exec_stop absent none, exportStop, if_neg (by rw [run]; exact nofun)]
  obtain state | state := state
  · rw [state]
    rfl
  · rw [state]
    rfl

theorem exec_start_of_high {b : Byte} (high : 63 < b.toNat) :
    exec (.exportStart [b] k) s = .next (s.replied .refusedRange []) := by
  refine congrArg Host.Outcome.next ?_
  rw [hostFirst_of_none none, onCommand_of_fits (len := 1) (body := [b]) absent rfl, exportStart,
    if_neg (by rw [run]; exact nofun), field_one_byte, if_pos high]
  rfl

theorem exec_start_of_busy {b : Byte} (low : b.toNat ≤ 63) (notStopped : s.engine.state ≠ .stopped)
    (notFault : s.engine.state ≠ .fault) : exec (.exportStart [b] k) s = .next (s.replied .busy []) := by
  have busy : s.engine.state.startable = false := by
    cases state : s.engine.state with
    | stopped => exact absurd state notStopped
    | fault => exact absurd state notFault
    | _ => rfl
  refine congrArg Host.Outcome.next ?_
  rw [hostFirst_of_none none, onCommand_of_fits (len := 1) (body := [b]) absent rfl, exportStart,
    if_neg (by rw [run]; exact nofun), field_one_byte, if_neg (not_lt.mpr low), if_pos busy]
  rfl

end

theorem exec_resume_refused {k : CardInput} {s : State} (absent : s.port.transaction = .absent) (none : k.hostWrites = [])
    (awake : s.engine.state ≠ .stalled) : exec (.exportResume [] k) s = .next (s.replied .refusedState []) := by
  refine congrArg Host.Outcome.next ?_
  rw [hostFirst_of_none none, onCommand_of_fits (len := 0) (body := []) absent rfl]
  unfold exportResume
  split
  · next stalled _ => exact absurd stalled awake
  · rfl

/-! ### A stop that acts after a descriptor read (R157, R165) -/

section
variable {k : CardInput} {l : Nat} {u : State}

theorem stop_after_error (error : k.readError = true) :
    let t := stopEngine (afterFinish k) (readDescriptor l { k with hold := none } u)
    t.engine = ⟨.fault, some l, none, .memoryError, none⟩ ∧ t.card = u.card := by
  rw [readDescriptor_of_error (k := { k with hold := none }) error, stopEngine_of_ended (.inr rfl)]
  exact ⟨rfl, rfl⟩

theorem stop_after_unarmed (answered : k.readError = false)
    (unarmed : field 0 1 (cardReadN u.card (u.cfg.tableBase + 32 * l) 32) ≠ 1) :
    let t := stopEngine (afterFinish k) (readDescriptor l { k with hold := none } u)
    t.engine.state = .stopped ∧ t.engine.index = none ∧ flagSet .exportHalt t = true ∧ t.card = u.card := by
  rw [readDescriptor_of_unarmed (k := { k with hold := none }) answered unarmed, stopEngine_of_stalled rfl]
  exact ⟨rfl, rfl, flagSet_exportHalt rfl, rfl⟩

theorem stop_after_unusable {st : CompletionStatus} (answered : k.readError = false)
    (armed : field 0 1 (cardReadN u.card (u.cfg.tableBase + 32 * l) 32) = 1)
    (unusable : parseDescriptor (cardReadN u.card (u.cfg.tableBase + 32 * l) 32) = .error st) :
    let bytes := cardReadN u.card (u.cfg.tableBase + 32 * l) 32
    let t := stopEngine (afterFinish k) (readDescriptor l { k with hold := none } u)
    t.engine = ⟨.fault, some l, none, st, none⟩ ∧ flagSet .exportHalt t = true
      ∧ t.card = if k.faultWriteError then u.card
          else cardWrite u.card (u.cfg.tableBase + 32 * l) (3 :: (bytes.drop 1).take 4 ++ BitVec.ofNat 8 st.code :: bytes.drop 6) := by
  intro bytes
  rw [readDescriptor_of_unusable (k := { k with hold := none }) answered armed unusable,
    faultWriteBack_of_whole (k := { k with hold := none }) nofun, stopEngine_of_ended (.inr rfl), faultedAsRead_eq]
  exact ⟨rfl, flagSet_exportHalt rfl, rfl⟩

theorem stop_after_eligible {d : Descriptor} (answered : k.readError = false)
    (armed : field 0 1 (cardReadN u.card (u.cfg.tableBase + 32 * l) 32) = 1)
    (usable : parseDescriptor (cardReadN u.card (u.cfg.tableBase + 32 * l) 32) = .ok d)
    (eligible : headEligible d u.evid.queue.length u.evid.fence.isSome = true) :
    let t := stopEngine (afterFinish k) (readDescriptor l { k with hold := none } u)
    t.engine.state = .stopping ∧ t.engine.index = some l ∧ t.engine.copy = some d ∧ t.engine.transfer = none ∧ t.card = u.card := by
  rw [readDescriptor_of_usable (k := { k with hold := none }) answered armed usable, eligible, if_pos rfl, stopEngine_of_running rfl]
  exact ⟨rfl, rfl, rfl, rfl, rfl⟩

theorem stop_after_waiting {d : Descriptor} (answered : k.readError = false)
    (armed : field 0 1 (cardReadN u.card (u.cfg.tableBase + 32 * l) 32) = 1)
    (usable : parseDescriptor (cardReadN u.card (u.cfg.tableBase + 32 * l) 32) = .ok d)
    (waits : headEligible d u.evid.queue.length u.evid.fence.isSome = false) (taken : k.stopWriteError = false) :
    let t := stopEngine (afterFinish k) (readDescriptor l { k with hold := none } u)
    t.engine = ⟨.stopped, none, none, .stopped, none⟩
      ∧ t.card = cardWrite u.card (u.cfg.tableBase + 32 * l) (d.bytes .armed .stopped) := by
  rw [readDescriptor_of_usable (k := { k with hold := none }) answered armed usable, waits, if_neg Bool.false_ne_true,
    stopEngine_of_waiting rfl rfl, stopWriteBack_of_taken taken]
  dsimp only
  rw [Option.getD_some]
  exact ⟨rfl, rfl⟩

end

/-- Settles O55. -/
theorem exportStopAndRefusals : Obligations.ExportStopAndRefusals := by
  intro b k s run absent none stopped stop
  refine ⟨fun d j state copy index taken => ?_, fun d state copy refused => ?_, fun state record => ?_, fun d j state copy index => ?_,
    fun d j bs st state copy index transfer => ?_, fun state => ?_, fun state => exec_stop_of_stopping run absent none state,
    fun state => exec_stop_of_ended run absent none state, fun high => exec_start_of_high run absent none high,
    fun low notStopped notFault => exec_start_of_busy run absent none low notStopped notFault,
    fun awake => exec_resume_refused absent none awake⟩
  · refine (exec_stop_of_idle run absent none (.inr state)).trans ?_
    rw [stopEngine_of_waiting state copy, stopWriteBack_of_taken taken, index, Option.getD_some]
    generalize cardWrite s.card (s.cfg.tableBase + 32 * j) (d.bytes .armed .stopped) = m
    rfl
  · refine ⟨_, exec_stop_of_idle run absent none (.inr state), ?_⟩
    rw [stopEngine_of_waiting state copy, stopWriteBack_of_refused refused]
    exact ⟨rfl, rfl, flagSet_exportHalt rfl, rfl, rfl⟩
  · refine (exec_stop_of_running run absent none state).trans ?_
    rw [stopWhole_of_record record, stopEngine_of_running state]
    rfl
  · intro table finished
    have isFinished : cardWrite s.card (s.cfg.tableBase + 32 * j) (d.bytes .spent .done) = finished := rfl
    clear_value finished
    have stops {x : EngineTransfer} (transfer : s.engine.transfer = some x) :
        stop (respond .ok [] (stopEngine (afterFinish k) (resumeTransfer x d { k with hold := Option.none } s))) := by
      rw [← stopWhole_of_transfer transfer copy]
      exact exec_stop_of_running run absent none state
    refine ⟨fun transfer refused => ?_, fun transfer taken unlinked => ?_, fun m l noneLate read => ?_⟩
    · refine ⟨_, stops transfer, ?_⟩
      rw [resumeTransfer, completeDescriptor_of_refused (k := { k with hold := Option.none }) nofun refused, stopEngine_of_ended (.inr rfl)]
      exact ⟨rfl, rfl, flagSet_exportHalt rfl, rfl⟩
    · refine (stops transfer).trans ?_
      rw [resumeTransfer, completeDescriptor_of_end (k := { k with hold := Option.none }) nofun taken (.inr unlinked),
        stopEngine_of_ended (.inl rfl), index, Option.getD_some, isFinished]
      rfl
    · have reads : ∃ u, stop (respond .ok [] (stopEngine (afterFinish k) (readDescriptor l { k with hold := Option.none } u)))
          ∧ u.card = m ∧ u.cfg = s.cfg ∧ u.evid = s.evid := by
        obtain ⟨transfer, rfl, rfl⟩ | ⟨transfer, taken, linked, rfl, rfl⟩ := read
        · refine ⟨s, ?_, rfl, rfl, rfl⟩
          have resumed := stops transfer
          rw [resumeTransfer, if_neg nofun, hostLate_of_none (k := { k with hold := Option.none }) noneLate, index] at resumed
          exact resumed
        · refine ⟨linkRead d s, ?_, ?_, rfl, rfl⟩
          · have resumed := stops transfer
            rw [resumeTransfer, completeDescriptor_of_linked (k := { k with hold := Option.none }) noneLate nofun nofun taken state linked]
              at resumed
            exact resumed
          · rw [linkRead, index, Option.getD_some, isFinished]
      obtain ⟨u, stopsAfter, card, cfg, evid⟩ := reads
      intro bytes
      have same : cardReadN u.card (u.cfg.tableBase + 32 * l) 32 = bytes := by rw [card, cfg]
      have place : u.cfg.tableBase + 32 * l = table l := by rw [cfg]
      clear_value bytes table
      refine ⟨fun error => ?_, fun answered unarmed => ?_, fun st answered armed unusable => ?_, fun d' answered armed usable =>
        ⟨fun eligible => ?_, fun waits taken => ?_⟩⟩
      · obtain ⟨engine, kept⟩ := stop_after_error (l := l) (u := u) error
        exact ⟨_, stopsAfter, engine, kept.trans card, rfl⟩
      · obtain ⟨ended, index, flag, kept⟩ := stop_after_unarmed (l := l) (u := u) answered (by rw [same]; exact unarmed)
        exact ⟨_, stopsAfter, ended, index, flag, kept.trans card, rfl⟩
      · obtain ⟨engine, flag, written⟩ := stop_after_unusable (l := l) (u := u) answered (by rw [same]; exact armed)
          (by rw [same]; exact unusable)
        rw [same, place, card] at written
        exact ⟨_, stopsAfter, engine, flag, written, rfl⟩
      · obtain ⟨stopping, index, copied, whole, kept⟩ := stop_after_eligible (l := l) (u := u) answered (by rw [same]; exact armed)
          (by rw [same]; exact usable) (by rw [evid]; exact eligible)
        exact ⟨_, stopsAfter, stopping, index, copied, whole, kept.trans card, rfl⟩
      · obtain ⟨engine, written⟩ := stop_after_waiting (l := l) (u := u) answered (by rw [same]; exact armed)
          (by rw [same]; exact usable) (by rw [evid]; exact waits) taken
        rw [place, card] at written
        exact ⟨_, stopsAfter, engine, written, rfl⟩
  · refine (exec_stop_of_running run absent none state).trans ?_
    rw [stopWhole_of_transfer transfer copy, resumeTransfer, faultWriteBack_of_whole (k := { k with hold := Option.none }) nofun,
      stopEngine_of_ended (.inr rfl), index, Option.getD_some]
    rfl
  · refine (exec_stop_of_idle run absent none (.inl state)).trans ?_
    rw [stopEngine_of_stalled state]
    rfl

end Sys2Proof.Machine
end

