-- ==== Sys2Proof/Proofs/RecordWrites.lean ====
section
/-! An acknowledged record write, the removal of the head, and the completion of a descriptor (R142, R145, R150, R157, R160 to R166). -/

namespace Sys2Proof.Machine

/-! ### The removal of the head (R142, R145, R150) -/

theorem lossPending_iff (e : Evidence) : lossPending e = true ↔ ∃ n ∈ e.losses.toList, n ≠ 0 := by
  simp only [lossPending, List.any_eq_true, decide_eq_true_eq, Nat.pos_iff_ne_zero]

theorem recordLoss_of_clean {s : State} (clean : ∀ n ∈ s.evid.losses.toList, n = 0) : recordLoss s = s := by
  refine if_neg fun pending => ?_
  obtain ⟨n, mem, lost⟩ := (lossPending_iff _).mp pending
  exact lost (clean n mem)

theorem recordLoss_of_pending {s : State} (pending : ∃ n ∈ s.evid.losses.toList, n ≠ 0) :
    recordLoss s = handRecord (.loss s.evid.losses s.evid.lostRange)
      { s with evid.losses := Vector.replicate 11 0, evid.lostRange := none } := if_pos ((lossPending_iff _).mpr pending)

theorem handRecord_engine {b : Body} {s : State} (awake : s.engine.state ≠ .waiting) : (handRecord b s).engine = s.engine := by
  unfold handRecord
  split
  · rw [wakeEngine_of_not_waiting (by exact awake)]
  · rfl

theorem recordLoss_engine {s : State} (awake : s.engine.state ≠ .waiting) : (recordLoss s).engine = s.engine := by
  unfold recordLoss
  split
  · exact handRecord_engine awake
  · rfl

theorem fenceWritten_sets {n : Nat} {s : State} (fence : s.evid.fence = some n) : flagSet .fenceDone (fenceWritten n s) = true := by
  rw [fenceWritten, if_pos fence]
  exact raise_sets _ _

/-- What the removal of the head `r` leaves of the queue, the losses, the fence and the other blocks. -/
structure Removed (r : Record) (rest : List Record) (s t : State) : Prop where
  clean : (∀ n ∈ s.evid.losses.toList, n = 0) → t.evid.queue = rest
  lost : (∃ n ∈ s.evid.losses.toList, n ≠ 0) → rest.length < 512 → ∃ l, t.evid.queue = rest ++ [l] ∧ l.number = s.evid.nextNumber
    ∧ l.body = .loss s.evid.losses s.evid.lostRange ∧ t.evid.losses = Vector.replicate 11 0 ∧ t.evid.lostRange = none
  ended : s.evid.fence = some r.number → t.evid.fence = none ∧ flagSet .fenceDone t = true
  pending : s.evid.fence ≠ some r.number → t.evid.fence = s.evid.fence
  others : t.clock = s.clock ∧ t.steer = s.steer ∧ t.stamp = s.stamp ∧ t.entries = s.entries ∧ t.link = s.link

/-- The record is in card memory and off the queue (R160). -/
def afterRemoval (r : Record) (rest : List Record) (d : Descriptor) (s : State) : State :=
  removeHead r.number rest { s with card := cardWrite s.card d.current r.bytes }

section
variable {r : Record} {rest : List Record} {d : Descriptor} {s : State}

theorem afterRemoval_evid : (afterRemoval r rest d s).evid =
    { (recordLoss { s with card := cardWrite s.card d.current r.bytes, evid.queue := rest }).evid with
      fence := if s.evid.fence = some r.number then none else s.evid.fence } := by
  rw [afterRemoval, removeHead, fenceWritten_evid]
  simp

theorem afterRemoval_removed : Removed r rest s (afterRemoval r rest d s) where
  clean := fun clean => by rw [afterRemoval_evid, recordLoss_of_clean (by exact clean)]
  lost := fun pending room => by
    rw [afterRemoval_evid, recordLoss_of_pending (by exact pending), handRecord_priority rfl (by exact room)]
    exact ⟨_, rfl, rfl, rfl, rfl, rfl⟩
  ended := fun fence => by
    refine ⟨by rw [afterRemoval_evid, if_pos fence], ?_⟩
    exact fenceWritten_sets (by simpa using fence)
  pending := fun other => by rw [afterRemoval_evid, if_neg other]
  others := by simp [afterRemoval]

theorem afterRemoval_engine (awake : s.engine.state ≠ .waiting) : (afterRemoval r rest d s).engine = s.engine := by
  rw [afterRemoval, removeHead]
  simp only [fenceWritten_keeps]
  exact recordLoss_engine awake

theorem afterRemoval_card : (afterRemoval r rest d s).card = cardWrite s.card d.current r.bytes := by simp [afterRemoval]

theorem afterRemoval_cfg : (afterRemoval r rest d s).cfg = s.cfg := by simp [afterRemoval]

/-- With no loss to report and no fence pending only the queue and card memory change. -/
theorem afterRemoval_of_clean (clean : ∀ n ∈ s.evid.losses.toList, n = 0) (unfenced : s.evid.fence = none) :
    afterRemoval r rest d s = { s with card := cardWrite s.card d.current r.bytes, evid.queue := rest } := by
  unfold afterRemoval
  generalize cardWrite s.card d.current r.bytes = m
  rw [removeHead, recordLoss_of_clean (by exact clean)]
  exact if_neg (by rw [unfenced]; exact nofun)

theorem Removed.afterWrite {u : State} {m : Descriptor} {k : CardInput} (removed : Removed r rest s u) :
    Removed r rest s (Machine.afterWrite m k u) := by
  obtain ⟨clean, lost, ended, pending, others⟩ := removed
  refine ⟨by simpa using clean, by simpa using lost, fun fence => ?_, by simpa using pending, by simpa using others⟩
  obtain ⟨none, flag⟩ := ended fence
  exact ⟨by simpa using none, afterWrite_holds flag⟩

/-! ### RECORD_WRITE_ACK -/

variable {k : CardInput} (none : k.hostWrites = []) (working : s.engine.state = .running ∨ s.engine.state = .stopping)
  (copy : s.engine.copy = some d)
include none working copy

theorem exec_writeAck : exec (.recordWriteAck k) s = .next (acknowledgeNext d k s) := by
  change execRecordWriteAck k s = _
  rw [execRecordWriteAck, hostFirst_of_none none, copy]
  exact if_pos (writing_of working)

theorem exec_writeAck_of_record (record : s.engine.transfer = Option.none) (queue : s.evid.queue = r :: rest) :
    exec (.recordWriteAck k) s
      = .next (afterWrite (d.advanced r.number (decide (s.evid.fence = some r.number))) k (afterRemoval r rest d s)) := by
  rw [exec_writeAck none working copy, acknowledgeNext, record, queue]
  dsimp only
  rw [acknowledge, writeCard_answered]
  rfl

theorem exec_writeAck_of_transfer {x : EngineTransfer} (transfer : s.engine.transfer = some x) :
    exec (.recordWriteAck k) s = .next (resumeTransfer x d k s) := by
  rw [exec_writeAck none working copy, acknowledgeNext, transfer]

end

/-! ### The engine after a record write (R159, R162, R163, R165) -/

section
variable {m : Descriptor} {k : CardInput} {u : State}

theorem afterWrite_of_complete (complete : m.complete = true) : afterWrite m k u = completeDescriptor m k u := if_pos complete

theorem afterWrite_of_stopping (incomplete : m.complete = false) (stopping : u.engine.state = .stopping) :
    afterWrite m k u = finishStop m k u := by
  rw [afterWrite, if_neg (by simp [incomplete]), if_pos stopping]

theorem afterWrite_of_running (incomplete : m.complete = false) (running : u.engine.state = .running) :
    afterWrite m k u = workFrom m u := by
  rw [afterWrite, if_neg (by simp [incomplete]), if_neg (by rw [running]; exact nofun)]

theorem finishStop_of_whole (whole : k.hold ≠ some .stop) : finishStop m k u = stopWriteBack m k u := if_neg whole

end

/-! ### The copy after an acknowledged write (R161, R162) -/

theorem blockEnds_iff (fence : Bool) (d : Descriptor) :
    blockEnds fence d = true ↔ d.blockLength ≤ d.position + 1 ∨ (d.mode = .block ∧ fence = true) := by
  simp only [blockEnds, Bool.or_eq_true, Bool.and_eq_true, decide_eq_true_eq]

theorem not_complete_of_count {d : Descriptor} (mode : d.mode ≠ .single) (count : d.count ≠ 0) : d.complete = false := by
  unfold Descriptor.complete
  split
  · next single => exact absurd single mode
  · exact decide_eq_false count
  · exact decide_eq_false count

/-- An engine at work that goes on with its copy (R159). -/
theorem workFrom_engine (d : Descriptor) (u : State) :
    ((workFrom d u).engine.state = .running ↔ headEligible d u.evid.queue.length u.evid.fence.isSome = true)
      ∧ ((workFrom d u).engine.state = .running ∨ (workFrom d u).engine.state = .waiting) := by
  have state : (workFrom d u).engine.state = if headEligible d u.evid.queue.length u.evid.fence.isSome then .running else .waiting := rfl
  rw [state]
  by_cases head : headEligible d u.evid.queue.length u.evid.fence.isSome = true
  · rw [if_pos head]
    exact ⟨iff_of_true rfl head, .inl rfl⟩
  · rw [if_neg head]
    exact ⟨iff_of_false nofun head, .inr rfl⟩

/-- Settles O56. -/
theorem recordWriteIsAcknowledged : Obligations.RecordWriteIsAcknowledged := by
  intro k r rest d s none wf running record copy queue below room length ends moved notSingle more
  have isMoved : d.advanced r.number (decide (s.evid.fence = some r.number)) = moved := by
    have ending : blockEnds (decide (s.evid.fence = some r.number)) d = true ↔ ends := by
      rw [blockEnds_iff, decide_eq_true_iff]
    by_cases atEnd : ends
    · simp only [Descriptor.advanced, nextAddress, nextCount, moved, ending.mpr atEnd, if_pos atEnd]
      cases d.control <;> cases d.mode <;> rfl
    · have goesOn : blockEnds (decide (s.evid.fence = some r.number)) d = false := by
        rw [← Bool.not_eq_true, ending]
        exact atEnd
      simp only [Descriptor.advanced, nextAddress, nextCount, moved, goesOn, if_neg atEnd]
      cases d.control <;> cases d.mode <;> rfl
  have mode : moved.mode = d.mode := rfl
  have executed := exec_writeAck_of_record none (.inl running) copy record queue
  rw [isMoved] at executed
  clear_value moved
  have engine : (afterRemoval r rest d s).engine = s.engine := afterRemoval_engine (by rw [running]; exact nofun)
  have card : (afterRemoval r rest d s).card = cardWrite s.card d.current r.bytes := afterRemoval_card
  have removed : Removed r rest s (afterRemoval r rest d s) := afterRemoval_removed
  generalize afterRemoval r rest d s = u at *
  have incomplete : moved.complete = false := not_complete_of_count (by rw [mode]; exact notSingle) more
  rw [afterWrite_of_running incomplete (by rw [engine]; exact running)] at executed
  obtain ⟨clean, lost, ended, pending, others⟩ := removed
  obtain ⟨eligible, works⟩ := workFrom_engine moved u
  refine ⟨workFrom moved u, executed, rfl, (congrArg Engine.index engine : u.engine.index = s.engine.index), rfl, ?_, ?_,
    fun a outside => ?_, clean, fun losses => lost losses room, ended, pending, eligible, works, others⟩
  · have back := cardReadN_cardWrite (a := d.current) (bs := r.bytes) wf (by rw [length]; exact below)
    rw [length] at back
    exact (congrArg (cardReadN · d.current 64) card).trans back
  · exact (congrArg cardWf card).trans (cardWrite_wf wf)
  · refine (congrArg (cardRead · a) card).trans ?_
    rw [cardRead_cardWrite a wf (by rw [length]; exact below), length, if_neg]
    omega

end Sys2Proof.Machine
end

