-- ==== Sys2Proof/Proofs/Completions.lean ====
section
/-! The completion of a descriptor: the write-back, the stop, the link followed, and the transfers that are answered by a later
acknowledgement (R157, R163, R165, R166; log 40). -/

namespace Sys2Proof.Machine

/-! ### What a read leaves (R157) -/

section
variable {l : Nat} {k : CardInput} {u : State}

theorem read_fails (error : k.readError = true) :
    let t := readDescriptor l k u
    t.engine = ⟨.fault, some l, none, .memoryError, none⟩ ∧ flagSet .exportHalt t = true ∧ t.card = u.card := by
  rw [readDescriptor_of_error error]
  exact ⟨rfl, flagSet_exportHalt rfl, rfl⟩

theorem read_stalls (answered : k.readError = false) (unarmed : field 0 1 (cardReadN u.card (u.cfg.tableBase + 32 * l) 32) ≠ 1) :
    let t := readDescriptor l k u
    t.engine = ⟨.stalled, some l, none, u.engine.lastStatus, none⟩ ∧ flagSet .exportHalt t = true ∧ t.card = u.card := by
  rw [readDescriptor_of_unarmed answered unarmed]
  exact ⟨rfl, flagSet_exportHalt rfl, rfl⟩

theorem read_refused {st : CompletionStatus} (whole : k.hold ≠ some .faulted) (answered : k.readError = false)
    (armed : field 0 1 (cardReadN u.card (u.cfg.tableBase + 32 * l) 32) = 1)
    (unusable : parseDescriptor (cardReadN u.card (u.cfg.tableBase + 32 * l) 32) = .error st) :
    let bytes := cardReadN u.card (u.cfg.tableBase + 32 * l) 32
    let t := readDescriptor l k u
    t.engine = ⟨.fault, some l, none, st, none⟩ ∧ flagSet .exportHalt t = true
      ∧ t.card = if k.faultWriteError then u.card
          else cardWrite u.card (u.cfg.tableBase + 32 * l) (3 :: (bytes.drop 1).take 4 ++ BitVec.ofNat 8 st.code :: bytes.drop 6) := by
  intro bytes
  rw [readDescriptor_of_unusable answered armed unusable, faultWriteBack_of_whole whole, faultedAsRead_eq]
  exact ⟨rfl, flagSet_exportHalt rfl, rfl⟩

theorem read_held {st : CompletionStatus} (held : k.hold = some .faulted) (answered : k.readError = false)
    (armed : field 0 1 (cardReadN u.card (u.cfg.tableBase + 32 * l) 32) = 1)
    (unusable : parseDescriptor (cardReadN u.card (u.cfg.tableBase + 32 * l) 32) = .error st) :
    let bytes := cardReadN u.card (u.cfg.tableBase + 32 * l) 32
    let t := readDescriptor l k u
    t.engine = { u.engine with
        index := some l
        transfer := some (.faulted (3 :: (bytes.drop 1).take 4 ++ BitVec.ofNat 8 st.code :: bytes.drop 6) st) } ∧ t.card = u.card := by
  intro bytes
  rw [readDescriptor_of_unusable answered armed unusable, faultWriteBack, if_pos held, faultedAsRead_eq]
  exact ⟨rfl, rfl⟩

theorem read_works {d : Descriptor} (answered : k.readError = false)
    (armed : field 0 1 (cardReadN u.card (u.cfg.tableBase + 32 * l) 32) = 1)
    (usable : parseDescriptor (cardReadN u.card (u.cfg.tableBase + 32 * l) 32) = .ok d) :
    let t := readDescriptor l k u
    t.engine = ⟨if headEligible d u.evid.queue.length u.evid.fence.isSome then .running else .waiting, some l, some d,
        u.engine.lastStatus, none⟩ ∧ t.card = u.card := by
  rw [readDescriptor_of_usable answered armed usable]
  exact ⟨rfl, rfl⟩

theorem read_evid : (readDescriptor l k u).evid = u.evid := by simp

end

/-! ### Completions with a transfer left under way (log 40) -/

section
variable {m : Descriptor} {k : CardInput} {u : State}

theorem completeDescriptor_held (held : k.hold = some .done) : completeDescriptor m k u = holdTransfer .done m u := if_pos held

theorem finishStop_held (held : k.hold = some .stop) : finishStop m k u = holdTransfer .stop m u := if_pos held

theorem completeDescriptor_held_read (held : k.hold = some .read) (taken : k.writeBackError = false)
    (running : u.engine.state = .running) (linked : m.linkEnable = true) :
    completeDescriptor m k u = holdTransfer .read m { linkRead m u with engine.index := some m.linkIndex } := by
  rw [completeDescriptor_of_taken (by rw [held]; exact nofun) taken, writeDone_eq,
    followLink_of_linked (by rw [running]; exact nofun) linked, if_pos held, linkRead, holdTransfer, holdTransfer]

theorem linkRead_sets (notice : m.noticeOnDone = true) : flagSet .exportDone (linkRead m u) = true :=
  flagSet_exportDone (f := u.port.flags) (by rw [linkRead, notice, if_pos rfl])

end

/-- The address of the descriptor in work. -/
theorem place_of_index {u s : State} {i : Nat} (cfg : u.cfg = s.cfg) (index : u.engine.index = some i) :
    u.cfg.tableBase + 32 * u.engine.index.getD 0 = s.cfg.tableBase + 32 * i := by
  rw [cfg, index, Option.getD_some]

/-- Settles O57. -/
theorem completionWritesBack : Obligations.CompletionWritesBack := by
  refine ⟨?_, ?_⟩
  · intro k r rest d i s none noneLate record copy index queue running stopping ack moved table written finished stopped removed
    have notice : moved.noticeOnDone = d.noticeOnDone := rfl
    have link : moved.linkEnable = d.linkEnable := rfl
    have linkIndex : moved.linkIndex = d.linkIndex := rfl
    -- the state once the record is off the queue
    have card : (afterRemoval r rest d s).card = written := afterRemoval_card
    have cfg : (afterRemoval r rest d s).cfg = s.cfg := afterRemoval_cfg
    have engineOf (working : running ∨ stopping) : (afterRemoval r rest d s).engine = s.engine :=
      afterRemoval_engine (working.elim (by rintro (state : s.engine.state = .running); rw [state]; exact nofun)
        (by rintro (state : s.engine.state = .stopping); rw [state]; exact nofun))
    have ran (working : running ∨ stopping) : ack (afterWrite moved k (afterRemoval r rest d s)) :=
      exec_writeAck_of_record none working copy record queue
    have gone : removed (afterWrite moved k (afterRemoval r rest d s)) := by
      obtain ⟨clean, lost, ended, pending, others⟩ := (afterRemoval_removed (r := r) (rest := rest) (d := d) (s := s)).afterWrite
        (m := moved) (k := k)
      exact ⟨clean, lost, ended, pending, others⟩
    have plain (clean : ∀ n ∈ s.evid.losses.toList, n = 0) (unfenced : s.evid.fence = Option.none) :
        afterRemoval r rest d s = { s with card := written, evid.queue := rest } := afterRemoval_of_clean clean unfenced
    have writes (working : running ∨ stopping) (bs : Bytes) :
        cardWrite (afterRemoval r rest d s).card ((afterRemoval r rest d s).cfg.tableBase
          + 32 * (afterRemoval r rest d s).engine.index.getD 0) bs = cardWrite written (table i) bs := by
      rw [card, place_of_index cfg (by rw [engineOf working]; exact index)]
    have isFinished : cardWrite written (table i) (moved.bytes .spent .done) = finished := rfl
    clear_value written finished moved
    generalize afterRemoval r rest d s = u at *
    have linked_read (working : running ∨ stopping) : (linkRead moved u).card = finished ∧ (linkRead moved u).cfg = s.cfg
        ∧ (linkRead moved u).engine = { s.engine with lastStatus := .done, copy := some moved } ∧ (linkRead moved u).evid = u.evid :=
      ⟨by rw [linkRead, writes working, isFinished], cfg, by rw [linkRead, engineOf working], rfl⟩
    refine ⟨fun hold taken => ⟨fun ends => ?_, fun isStopping incomplete => ?_, fun isRunning complete linked => ?_⟩,
      fun hold refused ends => ?_, fun hold complete working => ?_, fun hold incomplete isStopping => ?_,
      fun hold taken complete isRunning linked => ?_, fun st hold taken complete isRunning linked => ?_⟩
    · have working : running ∨ stopping := ends.elim (fun x => .inl x.1) (fun x => .inr x.1)
      have complete : moved.complete = true := ends.elim (fun x => x.2.1) (fun x => x.2)
      have last : u.engine.state = .stopping ∨ moved.linkEnable = false := by
        rw [engineOf working, link]
        exact ends.elim (fun x => .inr x.2.2) (fun x => .inl x.1)
      have ended := completeDescriptor_of_end (d := moved) (k := k) (s := u) (by rw [hold]; exact nofun) taken last
      rw [writes working, isFinished, notice, ← afterWrite_of_complete complete] at ended
      refine ⟨⟨_, ran working, gone, by rw [ended], by rw [ended], fun asks => ?_⟩, fun clean unfenced => ?_⟩
      · rw [ended, asks]
        exact flagSet_exportDone rfl
      · rw [plain clean unfenced] at ended
        exact (plain clean unfenced ▸ ran working).trans (congrArg Host.Outcome.next ended)
    · have stops := stopWriteBack_of_taken taken moved u
      rw [writes (.inr isStopping), ← finishStop_of_whole (by rw [hold]; exact nofun),
        ← afterWrite_of_stopping incomplete (by rw [engineOf (.inr isStopping)]; exact isStopping)] at stops
      refine ⟨⟨_, ran (.inr isStopping), gone, by rw [stops], by rw [stops]⟩, fun clean unfenced => ?_⟩
      rw [plain clean unfenced] at stops
      exact (plain clean unfenced ▸ ran (.inr isStopping)).trans (congrArg Host.Outcome.next stops)
    · have reads : afterWrite moved k u = readDescriptor d.linkIndex k (linkRead moved u) := by
        rw [afterWrite_of_complete complete, completeDescriptor_of_linked noneLate (by rw [hold]; exact nofun) (by rw [hold]; exact nofun)
          taken (by rw [engineOf (.inl isRunning)]; exact isRunning) (link.trans linked), linkIndex]
      have asked : d.noticeOnDone = true → flagSet .exportDone (afterWrite moved k u) = true := fun asks => by
        rw [reads]
        exact readDescriptor_holds (linkRead_sets (notice.trans asks))
      obtain ⟨vCard, vCfg, vEngine, vEvid⟩ := linked_read (.inl isRunning)
      intro bytes done
      have done' : done (afterWrite moved k u) := ⟨ran (.inl isRunning), gone, asked⟩
      have evid : (afterWrite moved k u).evid = u.evid := by simp
      clear_value done
      rw [reads] at done' evid
      generalize linkRead moved u = v at *
      have same : cardReadN v.card (v.cfg.tableBase + 32 * d.linkIndex) 32 = bytes := by rw [vCard, vCfg]
      have place : v.cfg.tableBase + 32 * d.linkIndex = table d.linkIndex := by rw [vCfg]
      clear_value bytes
      refine ⟨fun error => ?_, fun answered unarmed => ?_, fun st answered armed unusable => ?_, fun d' answered armed usable => ?_⟩
      · obtain ⟨engine, flag, kept⟩ := read_fails (l := d.linkIndex) (u := v) error
        exact ⟨_, done', engine, flag, kept.trans vCard⟩
      · obtain ⟨engine, flag, kept⟩ := read_stalls (l := d.linkIndex) (u := v) answered (by rw [same]; exact unarmed)
        rw [vEngine] at engine
        exact ⟨_, done', engine, flag, kept.trans vCard⟩
      · obtain ⟨engine, flag, kept⟩ := read_refused (l := d.linkIndex) (u := v) (by rw [hold]; exact nofun) answered
          (by rw [same]; exact armed) (by rw [same]; exact unusable)
        rw [same, place, vCard] at kept
        exact ⟨_, done', engine, flag, kept⟩
      · obtain ⟨engine, kept⟩ := read_works (l := d.linkIndex) (u := v) answered (by rw [same]; exact armed) (by rw [same]; exact usable)
        rw [vEngine, vEvid, ← evid] at engine
        exact ⟨_, done', kept.trans vCard, engine⟩
    · have working : running ∨ stopping := ends.imp_left And.left
      have fault : afterWrite moved k u = { u with
          engine := { state := .fault, index := u.engine.index, copy := Option.none, lastStatus := .memoryError, transfer := Option.none }
          port := { u.port with flags := u.port.flags ||| 4096#14 } } := by
        cases whole : moved.complete with
        | true => rw [afterWrite_of_complete whole, completeDescriptor_of_refused (by rw [hold]; exact nofun) refused]
        | false =>
          have isStopping : stopping := ends.resolve_left fun x => nomatch whole.symm.trans x.2
          rw [afterWrite_of_stopping whole (by rw [engineOf working]; exact isStopping),
            finishStop_of_whole (by rw [hold]; exact nofun), stopWriteBack_of_refused refused]
      refine ⟨_, ran working, gone, ?_, ?_, ?_⟩
      · rw [fault, engineOf working, index]
      · rw [fault]
        exact flagSet_exportHalt rfl
      · rw [fault]
        exact card
    · have held : afterWrite moved k u = holdTransfer .done moved u :=
        (afterWrite_of_complete complete).trans (completeDescriptor_held hold)
      refine ⟨_, ran working, gone, by rw [held]; exact card, ?_⟩
      rw [held, holdTransfer, engineOf working]
    · have held : afterWrite moved k u = holdTransfer .stop moved u :=
        (afterWrite_of_stopping incomplete (by rw [engineOf (.inr isStopping)]; exact isStopping)).trans (finishStop_held hold)
      refine ⟨_, ran (.inr isStopping), gone, by rw [held]; exact card, ?_⟩
      rw [held, holdTransfer, engineOf (.inr isStopping)]
    · have held : afterWrite moved k u = holdTransfer .read moved { linkRead moved u with engine.index := some moved.linkIndex } :=
        (afterWrite_of_complete complete).trans (completeDescriptor_held_read hold taken
          (by rw [engineOf (.inl isRunning)]; exact isRunning) (link.trans linked))
      obtain ⟨vCard, -, vEngine, -⟩ := linked_read (.inl isRunning)
      have state : s.engine.state = .running := isRunning
      have ran := ran (.inl isRunning)
      rw [held] at ran gone
      generalize linkRead moved u = v at *
      refine ⟨_, ran, gone, vCard, ?_⟩
      simp only [holdTransfer, vEngine, state, linkIndex]
    · intro bytes answered armed unusable
      have reads : afterWrite moved k u = readDescriptor d.linkIndex k (linkRead moved u) := by
        rw [afterWrite_of_complete complete, completeDescriptor_of_linked noneLate (by rw [hold]; exact nofun) (by rw [hold]; exact nofun)
          taken (by rw [engineOf (.inl isRunning)]; exact isRunning) (link.trans linked), linkIndex]
      obtain ⟨vCard, vCfg, vEngine, -⟩ := linked_read (.inl isRunning)
      have ran := ran (.inl isRunning)
      rw [reads] at ran gone
      generalize linkRead moved u = v at *
      have same : cardReadN v.card (v.cfg.tableBase + 32 * d.linkIndex) 32 = bytes := by rw [vCard, vCfg]
      clear_value bytes
      obtain ⟨engine, kept⟩ := read_held (l := d.linkIndex) (u := v) hold answered (by rw [same]; exact armed)
        (by rw [same]; exact unusable)
      have state : s.engine.state = .running := isRunning
      refine ⟨_, ran, gone, kept.trans vCard, ?_⟩
      rw [engine, same, vEngine]
      dsimp only
      rw [state]
  · intro k d i s none noneLate hold working copy index ack table finished ended
    have ran {x : EngineTransfer} (transfer : s.engine.transfer = some x) : ack (resumeTransfer x d k s) :=
      exec_writeAck_of_transfer none working copy transfer
    have place : s.cfg.tableBase + 32 * s.engine.index.getD 0 = table i := place_of_index rfl index
    have isFinished : cardWrite s.card (table i) (d.bytes .spent .done) = finished := rfl
    clear_value finished
    refine ⟨fun transfer taken last => ?_, fun transfer taken => ?_, fun transfer refused => ?_, fun bs st transfer => ?_,
      fun m l st0 read => ?_⟩
    · have done := ran transfer
      rw [resumeTransfer, completeDescriptor_of_end (by rw [hold]; exact nofun) taken last, place, isFinished] at done
      exact done
    · have stops := ran transfer
      rw [resumeTransfer, finishStop_of_whole (by rw [hold]; exact nofun), stopWriteBack_of_taken taken, place] at stops
      exact stops
    · obtain transfer | transfer := transfer
      · have fault := ran transfer
        rw [resumeTransfer, completeDescriptor_of_refused (by rw [hold]; exact nofun) refused, index] at fault
        exact fault
      · have fault := ran transfer
        rw [resumeTransfer, finishStop_of_whole (by rw [hold]; exact nofun), stopWriteBack_of_refused refused, index] at fault
        exact fault
    · have fault := ran transfer
      rw [resumeTransfer, faultWriteBack_of_whole (by rw [hold]; exact nofun), place, index] at fault
      exact fault
    · have reads : ∃ v, ack (readDescriptor l k v) ∧ v.card = m ∧ v.cfg = s.cfg ∧ v.evid = s.evid ∧ v.engine.lastStatus = st0 := by
        obtain ⟨transfer, rfl, rfl, rfl⟩ | ⟨transfer, taken, running, linked, rfl, rfl, rfl⟩ := read
        · have resumed := ran transfer
          rw [resumeTransfer, if_neg (by rw [hold]; exact nofun), hostLate_of_none noneLate, index] at resumed
          exact ⟨s, resumed, rfl, rfl, rfl, rfl⟩
        · have resumed := ran transfer
          rw [resumeTransfer, completeDescriptor_of_linked noneLate (by rw [hold]; exact nofun) (by rw [hold]; exact nofun) taken
            running linked] at resumed
          exact ⟨linkRead d s, resumed, by rw [linkRead, place, isFinished], rfl, rfl, rfl⟩
      obtain ⟨v, ran, vCard, vCfg, vEvid, vStatus⟩ := reads
      intro bytes
      have same : cardReadN v.card (v.cfg.tableBase + 32 * l) 32 = bytes := by rw [vCard, vCfg]
      have place : v.cfg.tableBase + 32 * l = table l := by rw [vCfg]
      have evid : (readDescriptor l k v).evid = s.evid := read_evid.trans vEvid
      clear_value bytes
      refine ⟨fun error => ?_, fun answered unarmed => ?_, fun st answered armed unusable => ?_, fun d' answered armed usable => ?_⟩
      · obtain ⟨engine, flag, kept⟩ := read_fails (l := l) (u := v) error
        exact ⟨_, ran, engine, flag, kept.trans vCard, evid⟩
      · obtain ⟨engine, flag, kept⟩ := read_stalls (l := l) (u := v) answered (by rw [same]; exact unarmed)
        rw [vStatus] at engine
        exact ⟨_, ran, engine, flag, kept.trans vCard, evid⟩
      · obtain ⟨engine, flag, kept⟩ := read_refused (l := l) (u := v) (by rw [hold]; exact nofun) answered (by rw [same]; exact armed)
          (by rw [same]; exact unusable)
        rw [same, place, vCard] at kept
        exact ⟨_, ran, engine, flag, evid, kept⟩
      · obtain ⟨engine, kept⟩ := read_works (l := l) (u := v) answered (by rw [same]; exact armed) (by rw [same]; exact usable)
        rw [vStatus, vEvid] at engine
        exact ⟨_, ran, kept.trans vCard, evid, engine⟩

end Sys2Proof.Machine
end

