-- ==== Sys2Proof/Proofs/VoidedExchanges.lean ====
section
/-! What a warm reset does to the entries in DRAWING or TALLYING, in whatever order the table is: each is VOID with its record, and the
entries of its chain with it (R122, R136). -/

namespace Sys2Proof.Machine

/-! ### Records handed with room left (R142, R144) -/

/-- Records were handed and nothing else was done to the Evidence Unit: where fewer than 496 are held after it, none was lost. -/
structure Handed (s u : State) : Prop where
  grows : s.evid.Grows u.evid
  losses : u.evid.queue.length < 496 → u.evid.losses = s.evid.losses ∧ flagSet .evidenceLoss u = flagSet .evidenceLoss s
  range : u.evid.lostRange = s.evid.lostRange

theorem Handed.refl (s : State) : Handed s s := ⟨.refl _, fun _ => ⟨rfl, rfl⟩, rfl⟩

theorem Evidence.Grows.length {a b : Evidence} (grows : a.Grows b) : a.queue.length ≤ b.queue.length := grows.keepsQueue.length_le

theorem Handed.trans {s u v : State} (first : Handed s u) (next : Handed u v) : Handed s v := by
  refine ⟨first.grows.trans next.grows, fun small => ?_, next.range.trans first.range⟩
  obtain ⟨losses, flag⟩ := first.losses (lt_of_le_of_lt next.grows.length small)
  obtain ⟨losses', flag'⟩ := next.losses small
  exact ⟨losses'.trans losses, flag'.trans flag⟩

/-- A record of a kind that does not widen the lost range. -/
theorem Handed.record {b : Body} {s : State} (plain : ∀ r, widenRange b r = r) : Handed s (handRecord b s) := by
  have flagOf (u : State) : flagSet .evidenceLoss (wakeEngine u) = flagSet .evidenceLoss u := by simp [flagSet]
  refine ⟨handRecord_grows (.refl _), fun small => ⟨?_, ?_⟩, ?_⟩
  · rw [handRecord_of_small small]
    rfl
  · by_cases room : s.evid.queue.length < b.capacity
    · rw [handRecord, if_pos (by rw [admitted, decide_eq_true_iff]; exact room), flagOf]
      rfl
    · have full : (handRecord b s).evid = (loseRecord b s).evid := by rw [handRecord_evid, if_neg room]
      have capacity : 496 ≤ b.capacity := by
        unfold Body.capacity
        split <;> omega
      rw [full, loseRecord_queue] at small
      omega
  · rw [handRecord_evid]
    split
    · rfl
    · exact plain _

/-- A state that differs in nothing the Evidence Unit or the loss flag sees. -/
theorem Handed.of_same {s u : State} (evid : u.evid = s.evid) (flag : flagSet .evidenceLoss u = flagSet .evidenceLoss s) : Handed s u :=
  ⟨by rw [evid]; exact .refl _, fun _ => ⟨by rw [evid], flag⟩, by rw [evid]⟩

/-! ### One entry voided -/

theorem voidOne_handed (i : Fin 32) (r : VoidReason) (s : State) : Handed s (voidOne i r s) := by
  have before : Handed s (withdrawSlot i (setEntry i { s.entries[i] with state := .void, reason := some r, pred := none } s)) :=
    .of_same (by simp) (by simp [flagSet])
  refine before.trans (.trans (.record (b := .void (voidBody i s.entries[i] r)) fun _ => rfl) ?_)
  have linked (p : Option (Fin 32)) (t : State) : flagSet .evidenceLoss (clearLink p t) = flagSet .evidenceLoss t := by
    simp [flagSet]
  exact .of_same (by simp [voidOne]) ((linked _ _).trans (raise_flag _ nofun))

theorem voidOne_recorded {i : Fin 32} {r : VoidReason} {s : State} (small : (voidOne i r s).evid.queue.length < 496) :
    ∃ x b, (voidOne i r s).evid.queue = s.evid.queue ++ [x] ∧ x.body = .void b ∧ b.slot = i ∧ b.reason = r := by
  have before := (voidOne_handed i r s).grows.length
  obtain ⟨x, queue, body, -⟩ := (voidOne_effects i r s).2.1 (by omega)
  exact ⟨x, _, queue, body, rfl, rfl⟩

/-- Every state a slot goes through while entries are voided: its own, or VOID. -/
theorem voidOne_state (i j : Fin 32) (r : VoidReason) (s : State) :
    (voidOne i r s).entries[j].state = .void ∨ (j ≠ i ∧ (voidOne i r s).entries[j].state = s.entries[j].state) := by
  by_cases same : j = i
  · subst same
    exact .inl (by rw [voidOne_self])
  · exact .inr ⟨same, by rw [voidOne_other same]⟩

/-! ### The voiding of all exchanges, as a sequence of entries voided -/

/-- Why an entry is voided at a warm reset that began in `s`: it is exchanging, or an entry voided before links to it. -/
def VoidCause (s u : State) (i : Fin 32) (r : VoidReason) : Prop :=
  (r = .reset ∧ u.entries[i].state.exchanging = true)
    ∨ (r = .predecessor ∧ ∃ j : Fin 32, u.entries[j].state = .void ∧ s.entries[j].link = some i)

/-- Links are only cleared. -/
def LinksFrom (s u : State) : Prop := ∀ i : Fin 32, u.entries[i].link = s.entries[i].link ∨ u.entries[i].link = none

theorem LinksFrom.voidOne {s u : State} (links : LinksFrom s u) (i : Fin 32) (r : VoidReason) : LinksFrom s (Machine.voidOne i r u) := by
  intro j
  have kept (p : Prop) [Decidable p] : (if p then none else u.entries[j].link) = s.entries[j].link
      ∨ (if p then none else u.entries[j].link) = none := by
    split
    · exact .inr rfl
    · exact links j
  by_cases same : j = i
  · subst same
    rw [voidOne_self]
    exact kept _
  · rw [voidOne_other same]
    exact kept _

section
variable {s : State} {P : State → Prop}

theorem voidChain_induct (one : ∀ i r u, P u → VoidCause s u i r → P (voidOne i r u)) {n : Nat} {i : Fin 32} {r : VoidReason} {u : State}
    (holds : P u) (links : LinksFrom s u) (cause : VoidCause s u i r) : P (voidChain n i r u) ∧ LinksFrom s (voidChain n i r u) := by
  induction n generalizing i r u with
  | zero => exact ⟨holds, links⟩
  | succ n ih =>
    cases link : u.entries[i].link with
    | none =>
      rw [voidChain_of_end link]
      exact ⟨one i r u holds cause, links.voidOne i r⟩
    | some j =>
      rw [voidChain_of_link link]
      refine ih (one i r u holds cause) (links.voidOne i r) (.inr ⟨rfl, i, by rw [voidOne_self], ?_⟩)
      exact (links i).elim (fun same => same.symm.trans link) (fun none => nomatch none.symm.trans link)

/-- What holds at the start and is kept as an entry is voided holds when all exchanges are. -/
theorem voidExchanging_induct (start : P s) (one : ∀ i r u, P u → VoidCause s u i r → P (voidOne i r u)) : P (voidExchanging s) := by
  have fold (l : List (Fin 32)) {u : State} (holds : P u) (links : LinksFrom s u) :
      P (l.foldl (fun s i => if s.entries[i].state.exchanging then voidEntry i .reset s else s) u) := by
    induction l generalizing u with
    | nil => exact holds
    | cons i l ih =>
      rw [List.foldl_cons]
      split
      · next exchanging =>
        obtain ⟨holds, links⟩ := voidChain_induct one (n := 32) holds links (.inl ⟨rfl, exchanging⟩)
        exact ih holds links
      · exact ih holds links
  exact fold _ start fun i => .inl rfl

end

theorem voidChain_exchanging {n : Nat} {i j : Fin 32} {r : VoidReason} {u : State} (idle : u.entries[j].state.exchanging = false) :
    (voidChain n i r u).entries[j].state.exchanging = false := by
  induction n generalizing i r u with
  | zero => exact idle
  | succ n ih =>
    have once : (voidOne i r u).entries[j].state.exchanging = false := by
      obtain void | ⟨-, same⟩ := voidOne_state i j r u
      · rw [void]; rfl
      · rw [same]; exact idle
    cases link : u.entries[i].link with
    | none =>
      rw [voidChain_of_end link]
      exact once
    | some k =>
      rw [voidChain_of_link link]
      exact ih once

theorem voidEntry_exchanging (i : Fin 32) (r : VoidReason) (u : State) : (voidEntry i r u).entries[i].state.exchanging = false := by
  have once : (voidOne i r u).entries[i].state.exchanging = false := by rw [voidOne_self]; rfl
  cases link : u.entries[i].link with
  | none =>
    rw [voidEntry, voidChain_of_end link]
    exact once
  | some k =>
    rw [voidEntry, voidChain_of_link link]
    exact voidChain_exchanging once

/-- No entry is exchanging any more. -/
theorem voidExchanging_exchanging (s : State) (j : Fin 32) : (voidExchanging s).entries[j].state.exchanging = false := by
  have fold (l : List (Fin 32)) (u : State) (reached : u.entries[j].state.exchanging = false ∨ j ∈ l) :
      (l.foldl (fun s i => if s.entries[i].state.exchanging then voidEntry i .reset s else s) u).entries[j].state.exchanging = false := by
    induction l generalizing u with
    | nil => exact reached.resolve_right List.not_mem_nil
    | cons i l ih =>
      rw [List.foldl_cons]
      refine ih _ ?_
      split
      · obtain idle | mem := reached
        · exact .inl (voidChain_exchanging idle)
        · obtain rfl | later := List.mem_cons.mp mem
          · exact .inl (voidEntry_exchanging j .reset u)
          · exact .inr later
      · next idle =>
        obtain already | mem := reached
        · exact .inl already
        · obtain rfl | later := List.mem_cons.mp mem
          · exact .inl (by simpa using idle)
          · exact .inr later
  exact fold _ s (.inr (List.mem_finRange j))

/-- With no entry exchanging nothing is voided. -/
theorem voidExchanging_of_none {s : State} (idle : ∀ i : Fin 32, s.entries[i].state.exchanging = false) : voidExchanging s = s := by
  unfold voidExchanging
  generalize List.finRange 32 = l
  induction l with
  | nil => rfl
  | cons i l ih =>
    rw [List.foldl_cons, if_neg (by rw [idle i]; exact nofun)]
    exact ih

/-! ### What the voiding of all exchanges leaves (R122, R136) -/

/-- The station as entries are voided one after the other. -/
structure VoidProgress (s u : State) : Prop where
  /-- an entry is as it was but for its link, or VOID for one of the two reasons -/
  entries : ∀ i : Fin 32, u.entries[i] = { s.entries[i] with link := u.entries[i].link }
    ∨ (u.entries[i].state = .void
        ∧ (u.entries[i].reason = some .reset ∨ ∃ j : Fin 32, s.entries[j].link = some i ∧ u.entries[j].state = .void)
        ∧ (s.entries[i].state.exchanging = true ∨ ∃ j : Fin 32, s.entries[j].link = some i ∧ u.entries[j].state = .void))
  handed : Handed s u
  /-- where there is room, one VOID record for each entry voided, and no other -/
  records : u.evid.queue.length < 496 → ∃ voids, u.evid.queue = s.evid.queue ++ voids
    ∧ (∀ x ∈ voids, ∃ b, x.body = .void b ∧ u.entries[b.slot].state = .void ∧ (b.reason = .reset ∨ b.reason = .predecessor))
    ∧ ∀ i : Fin 32, s.entries[i].state ≠ .void → u.entries[i].state = .void → ∃ x ∈ voids, ∃ b, x.body = .void b ∧ b.slot = i
  flags : ∀ n : Notice, n ≠ .auctionVoid → n ≠ .evidenceLoss → flagSet n u = flagSet n s
  notice : ∀ i : Fin 32, s.entries[i].state ≠ .void → u.entries[i].state = .void → flagSet .auctionVoid u = true

theorem VoidProgress.refl (s : State) : VoidProgress s s where
  entries := fun _ => .inl rfl
  handed := .refl s
  records := fun _ => ⟨[], (List.append_nil _).symm, fun _ mem => absurd mem List.not_mem_nil, fun _ open_ void => absurd void open_⟩
  flags := fun _ _ _ => rfl
  notice := fun _ open_ void => absurd void open_

theorem VoidProgress.exchanging {s u : State} (progress : VoidProgress s u) {i : Fin 32} (now : u.entries[i].state.exchanging = true) :
    s.entries[i].state.exchanging = true := by
  obtain same | ⟨void, -⟩ := progress.entries i
  · rw [same] at now
    exact now
  · rw [void] at now
    exact nomatch now

theorem VoidProgress.voidOne {s u : State} {i : Fin 32} {r : VoidReason} (progress : VoidProgress s u) (cause : VoidCause s u i r) :
    VoidProgress s (Machine.voidOne i r u) := by
  have still (j : Fin 32) (void : u.entries[j].state = .void) : (Machine.voidOne i r u).entries[j].state = .void := by
    obtain new | ⟨-, same⟩ := voidOne_state i j r u
    · exact new
    · exact same.trans void
  have self := voidOne_self i r u
  have linked : (∃ j : Fin 32, s.entries[j].link = some i ∧ u.entries[j].state = .void) →
      ∃ j : Fin 32, s.entries[j].link = some i ∧ (Machine.voidOne i r u).entries[j].state = .void :=
    fun ⟨j, link, void⟩ => ⟨j, link, still j void⟩
  have fresh (j : Fin 32) (void : (Machine.voidOne i r u).entries[j].state = .void) : j = i ∨ u.entries[j].state = .void := by
    by_cases same : j = i
    · exact .inl same
    · rw [voidOne_other same] at void
      exact .inr void
  obtain ⟨-, -, notice, flags⟩ := voidOne_effects i r u
  refine ⟨fun j => ?_, progress.handed.trans (voidOne_handed i r u), fun small => ?_,
    fun n notVoid notLoss => (flags n notVoid notLoss).trans (progress.flags n notVoid notLoss), fun _ _ _ => notice⟩
  · by_cases same : j = i
    · subst same
      refine .inr ⟨by rw [self], ?_, ?_⟩
      · obtain ⟨rfl, -⟩ | ⟨-, linker⟩ := cause
        · exact .inl (by rw [self])
        · obtain ⟨k, void, link⟩ := linker
          exact .inr (linked ⟨k, link, void⟩)
      · obtain ⟨-, now⟩ | ⟨-, k, void, link⟩ := cause
        · exact .inl (progress.exchanging now)
        · exact .inr (linked ⟨k, link, void⟩)
    · have other := voidOne_other same r u
      obtain kept | ⟨void, reason, why⟩ := progress.entries j
      · refine .inl ?_
        rw [other, kept]
      · refine .inr ⟨still j void, ?_, why.imp_right fun ⟨k, link, voidK⟩ => ⟨k, link, still k voidK⟩⟩
        refine Or.imp (fun isReset => ?_) (fun ⟨k, link, voidK⟩ => ⟨k, link, still k voidK⟩) reason
        rw [other]
        exact isReset
  · obtain ⟨x, b, queue, body, slot, isReason⟩ := voidOne_recorded small
    have reasons : r = .reset ∨ r = .predecessor := cause.imp And.left And.left
    have less : u.evid.queue.length < 496 := lt_of_le_of_lt (voidOne_handed i r u).grows.length small
    obtain ⟨voids, earlier, each, all⟩ := progress.records less
    refine ⟨voids ++ [x], by rw [queue, earlier, List.append_assoc], fun y mem => ?_, fun j open_ void => ?_⟩
    · obtain old | new := List.mem_append.mp mem
      · obtain ⟨c, isVoid, void, reason⟩ := each y old
        exact ⟨c, isVoid, still _ void, reason⟩
      · obtain rfl := List.mem_singleton.mp new
        exact ⟨b, body, by subst slot; rw [self], isReason ▸ reasons⟩
    · obtain rfl | before := fresh j void
      · exact ⟨x, List.mem_append_right _ (List.mem_singleton.mpr rfl), b, body, slot⟩
      · obtain ⟨y, mem, c, isVoid, isSlot⟩ := all j open_ before
        exact ⟨y, List.mem_append_left _ mem, c, isVoid, isSlot⟩

theorem voidExchanging_progress (s : State) : VoidProgress s (voidExchanging s) :=
  voidExchanging_induct (.refl s) fun _ _ _ progress cause => progress.voidOne cause

/-- Every entry that was exchanging is VOID. -/
theorem voidExchanging_void {s : State} {i : Fin 32} (exchanging : s.entries[i].state.exchanging = true) :
    (voidExchanging s).entries[i].state = .void := by
  obtain same | ⟨void, -⟩ := (voidExchanging_progress s).entries i
  · have idle := voidExchanging_exchanging s i
    rw [same, exchanging] at idle
    exact nomatch idle
  · exact void

/-- An interface that a warm reset has emptied has nothing to withdraw. -/
theorem voidExchanging_link {s : State} (idle : s.link.tx = .idle) (none : s.link.waiting = []) (noBeacon : s.link.pendingBeacon = false) :
    (voidExchanging s).link = s.link := by
  refine voidExchanging_induct (P := fun u => u.link = s.link) rfl fun i r u same _ => ?_
  have empty : { s.link with waiting := [] } = s.link := by rw [← none]
  rw [voidOne_link, withdrawSlot, same, none]
  dsimp only
  rw [List.filter_nil, empty]
  refine settleTx_of_settled _ (fun _ => ?_) fun n deferring => nomatch idle.symm.trans deferring
  rw [Link.hasWaiting, noBeacon, none]
  rfl

theorem voidExchanging_engine {s : State} (awake : s.engine.state ≠ .waiting) : (voidExchanging s).engine = s.engine := by
  refine voidExchanging_induct (P := fun u => u.engine = s.engine) rfl fun i r u same _ => ?_
  simp only [voidOne, clearLink_keeps, raise_engine]
  rw [handRecord_engine (by simpa [same] using awake)]
  simpa using same

end Sys2Proof.Machine
end

