-- ==== Sys2Proof/Proofs/WarmResets.lean ====
section
/-! The warm reset, stage by stage: the blocks, the RESET and REFERENCE records, the exchanges voided, the demotion; and the three other
resets (R57, R59, R114, R136, R152, R153, R167, R182). -/

namespace Sys2Proof.Machine

/-! ### The demotion (R87, R88) -/

/-- The last stage of a warm reset: nothing more, or an ANCHORED grade that falls with its reference. -/
theorem demotion_cases (old : RefState) (u : State) :
    (if old = .valid then demote u else u) = u
      ∨ (old = .valid ∧ ∃ g, g ≠ u.steer.grade ∧ (if old = .valid then demote u else u) = changeGrade g .referenceLost u) := by
  by_cases valid : old = .valid
  · rw [if_pos valid]
    by_cases anchored : u.steer.grade = .anchored
    · exact .inr ⟨valid, _, by rw [anchored]; exact demotedGrade_ne_anchored _, if_pos anchored⟩
    · exact .inl (if_neg anchored)
  · exact .inl (if_neg valid)

theorem changeGrade_stamp {g : Grade} {s : State} (changed : g ≠ s.steer.grade) (cause : GradeCause) :
    (changeGrade g cause s).stamp = { s.stamp with gradeMark := true } := by
  rw [changeGrade, if_neg changed]
  simp

theorem changeGrade_flag {n : Notice} {g : Grade} {cause : GradeCause} {s : State} (notGrade : n ≠ .grade) (notLoss : n ≠ .evidenceLoss) :
    flagSet n (changeGrade g cause s) = flagSet n s := by
  unfold changeGrade
  split
  · rfl
  · exact (raise_flag _ notGrade).trans (handRecord_flag _ _ notLoss)

theorem changeGrade_handed (g : Grade) (cause : GradeCause) (s : State) : Handed s (changeGrade g cause s) := by
  unfold changeGrade
  split
  · exact .refl s
  · have before : Handed s { s with steer.grade := g, stamp.gradeMark := true } := .of_same rfl rfl
    exact before.trans (.trans (.record fun _ => rfl) (.of_same rfl (raise_flag _ nofun)))

theorem changeGrade_engine {g : Grade} {cause : GradeCause} {s : State} (awake : s.engine.state ≠ .waiting) :
    (changeGrade g cause s).engine = s.engine := by
  unfold changeGrade
  split
  · rfl
  · exact handRecord_engine awake

theorem gradeAfterReset_of_run {s : State} (run : s.phase = .run) : gradeAfterReset s
    = if s.ref.state = .valid ∧ s.steer.grade = .anchored then demotedGrade (s.steer.latest.bind Latest.cstar) else s.steer.grade := by
  by_cases falls : s.ref.state = .valid ∧ s.steer.grade = .anchored
  · rw [if_pos falls]
    refine (if_pos ⟨run, falls⟩).trans ?_
    generalize s.steer.latest.bind Latest.cstar = c
    cases c with
    | none => rfl
    | some g => cases g <;> rfl
  · rw [if_neg falls]
    exact if_neg fun held => falls held.2

theorem gradeAfterReset_of_config {s : State} (config : s.phase = .config) : gradeAfterReset s = s.steer.grade :=
  if_neg fun held => nomatch held.1.symm.trans config

/-! ### The RESET and REFERENCE records (R152, R153) -/

theorem tracking_iff (x : RefState) : x.tracking = true ↔ x = .qualifying ∨ x = .valid ∨ x = .disputed := by
  cases x <;> simp [RefState.tracking]

theorem exchanging_iff (x : EntryState) : x.exchanging = true ↔ x = .drawing ∨ x = .tallying := by
  cases x <;> simp [EntryState.exchanging]

/-- The RESET record and the REFERENCE record where a state is left. -/
def resetRecorded (b : ResetBody) (old : RefState) (s : State) : State :=
  if old.tracking then recordReference old .reset (handRecord (.reset b) s) else handRecord (.reset b) s

theorem warmRecords_eq (b : ResetBody) (old : RefState) (s : State) :
    warmRecords b old s = if old = .valid then demote (voidExchanging (resetRecorded b old s))
      else voidExchanging (resetRecorded b old s) := rfl

section
variable (b : ResetBody) (old : RefState) (s : State)

theorem resetRecorded_keeps : (resetRecorded b old s).entries = s.entries ∧ (resetRecorded b old s).link = s.link
    ∧ (resetRecorded b old s).ref = s.ref ∧ (resetRecorded b old s).steer = s.steer ∧ (resetRecorded b old s).stamp = s.stamp := by
  unfold resetRecorded
  split
  · simp
  · simp

theorem resetRecorded_engine (awake : s.engine.state ≠ .waiting) : (resetRecorded b old s).engine = s.engine := by
  have first := handRecord_engine (b := .reset b) awake
  unfold resetRecorded
  split
  · exact (handRecord_engine (by rw [first]; exact awake)).trans first
  · exact first

theorem resetRecorded_handed : Handed s (resetRecorded b old s) := by
  have first : Handed s (handRecord (.reset b) s) := .record fun _ => rfl
  unfold resetRecorded
  split
  · exact first.trans (.trans (.record fun _ => rfl) (.of_same rfl (raise_flag _ nofun)))
  · exact first

theorem resetRecorded_flag {n : Notice} (notReference : n ≠ .reference) (notLoss : n ≠ .evidenceLoss) :
    flagSet n (resetRecorded b old s) = flagSet n s := by
  unfold resetRecorded
  split
  · exact (raise_flag _ notReference).trans ((handRecord_flag _ _ notLoss).trans (handRecord_flag _ _ notLoss))
  · exact handRecord_flag _ _ notLoss

theorem resetRecorded_reference : flagSet .reference (resetRecorded b old s) = (old.tracking || flagSet .reference s) := by
  unfold resetRecorded
  split
  · next tracking =>
    rw [tracking, Bool.true_or]
    exact recordReference_sets _ _ _
  · next idle =>
    rw [Bool.eq_false_of_not_eq_true idle, Bool.false_or]
    exact handRecord_flag _ _ nofun

/-- RESET is the first record, where the queue has room for it. -/
theorem resetRecorded_first (room : s.evid.queue.length < 512) :
    (handRecord (.reset b) s).evid.queue = s.evid.queue ++ [makeRecord (.reset b) s] ∧
      Evidence.Grows (handRecord (.reset b) s).evid (resetRecorded b old s).evid := by
  refine ⟨by rw [handRecord_priority rfl room]; rfl, ?_⟩
  unfold resetRecorded
  split
  · exact handRecord_grows (.refl _)
  · exact .refl _

theorem resetRecorded_records (small : (resetRecorded b old s).evid.queue.length < 496) :
    ∃ refs, (resetRecorded b old s).evid.queue = s.evid.queue ++ makeRecord (.reset b) s :: refs
      ∧ refs.map Record.body = if old.tracking then [referenceBody old .reset s.ref] else [] := by
  have less := lt_of_le_of_lt (resetRecorded_handed b old s).grows.length small
  obtain ⟨first, -⟩ := resetRecorded_first b old s (by omega)
  have ref : (handRecord (.reset b) s).ref = s.ref := by simp
  unfold resetRecorded at small ⊢
  split at small
  · next tracking =>
    rw [if_pos tracking, if_pos tracking]
    rw [recordReference_eq, raise_evid] at small ⊢
    rw [handRecord_of_small small, ref]
    refine ⟨[makeRecord (referenceBody old .reset s.ref) (handRecord (.reset b) s)], ?_, rfl⟩
    rw [Evidence.append, first, List.append_assoc]
    rfl
  · next idle =>
    rw [if_neg idle, if_neg idle]
    exact ⟨[], first, rfl⟩

end

/-! ### The last stage of a warm reset -/

/-- What the demotion leaves of the state before it (R87, R88). -/
structure Demoted (old : RefState) (u t : State) : Prop where
  handed : Handed u t
  kept : t.entries = u.entries ∧ t.link = u.link ∧ t.ref = u.ref
  steer : t.steer = { u.steer with grade := t.steer.grade }
  stamp : t.stamp = { u.stamp with gradeMark := u.stamp.gradeMark || decide (t.steer.grade ≠ u.steer.grade) }
  engine : u.engine.state ≠ .waiting → t.engine = u.engine
  flags : ∀ n : Notice, n ≠ .grade → n ≠ .evidenceLoss → flagSet n t = flagSet n u
  notice : flagSet .grade t = (flagSet .grade u || decide (t.steer.grade ≠ u.steer.grade))
  records : t.evid.queue.length < 496 → ∃ grades, t.evid.queue = u.evid.queue ++ grades
    ∧ (t.steer.grade = u.steer.grade → grades = [])
    ∧ (t.steer.grade ≠ u.steer.grade → old = .valid ∧ ∃ x b, grades = [x] ∧ x.body = .grade b ∧ b.old = u.steer.grade
        ∧ b.new = t.steer.grade ∧ b.cause = .referenceLost ∧ b.bound = u.steer.bound ∧ b.ref = u.ref.state)

theorem Demoted.refl (old : RefState) (u : State) : Demoted old u u where
  handed := .refl u
  kept := ⟨rfl, rfl, rfl⟩
  steer := rfl
  stamp := by rw [decide_eq_false (not_not.mpr rfl), Bool.or_false]
  engine := fun _ => rfl
  flags := fun _ _ _ => rfl
  notice := by rw [decide_eq_false (not_not.mpr rfl), Bool.or_false]
  records := fun _ => ⟨[], (List.append_nil _).symm, fun _ => rfl, fun changed => absurd rfl changed⟩

theorem Demoted.changed {old : RefState} {g : Grade} {u : State} (valid : old = .valid) (changed : g ≠ u.steer.grade) :
    Demoted old u (changeGrade g .referenceLost u) := by
  have grade := changeGrade_grade g .referenceLost u
  obtain ⟨flag, -, record⟩ := changeGrade_changed changed .referenceLost
  refine ⟨changeGrade_handed g .referenceLost u, by simp, by rw [changeGrade_steer], ?_, changeGrade_engine,
    fun n notGrade notLoss => changeGrade_flag notGrade notLoss, ?_, fun small => ?_⟩
  · rw [changeGrade_stamp changed, grade, decide_eq_true changed, Bool.or_true]
  · rw [flag, grade, decide_eq_true changed, Bool.or_true]
  · have less := lt_of_le_of_lt (changeGrade_handed g .referenceLost u).grows.length small
    obtain ⟨y, queue, -, -, -, body⟩ := record (by omega)
    rw [grade]
    exact ⟨[y], queue, fun same => absurd same changed, fun _ => ⟨valid, y, _, rfl, body, rfl, rfl, rfl, rfl, rfl⟩⟩

theorem demotion_demoted (old : RefState) (u : State) : Demoted old u (if old = .valid then demote u else u) := by
  obtain same | ⟨valid, g, changed, falls⟩ := demotion_cases old u
  · rw [same]
    exact .refl old u
  · rw [falls]
    exact .changed valid changed

/-! ### The warm reset as a whole (R182) -/

theorem refWarmReset_of_present {r : Reference} (present : r.state ≠ .absent) (receiving : Bool) :
    refWarmReset receiving r = { r with state := .seeking, run := 0, label := none, prev := none, theta := none, disagree := 0, agree := 0,
                                        cutLabel := r.cutLabel || receiving } := if_neg present

theorem warmBlocks_flag (label : Bool) (n : Notice) (s : State) : flagSet n (warmBlocks label s) = false := by
  simp [warmBlocks, flagSet]

theorem takeWarmReset_of_config {s : State} (config : s.phase = .config) (cause : ResetCause) (label : Bool) :
    takeWarmReset cause label s = warmBlocks label s := by
  rw [takeWarmReset, config]

theorem takeWarmReset_of_run {s : State} (run : s.phase = .run) (cause : ResetCause) (label : Bool) :
    takeWarmReset cause label s = warmRecords (resetBody cause s) s.ref.state (warmBlocks label s) := by
  rw [takeWarmReset, run]

/-- A warm reset in CONFIG: the blocks alone (R182). -/
theorem warmBlocks_taken {s : State} (config : s.phase = .config) (cause : ResetCause) (label : Bool) :
    WarmResetTaken cause label s (warmBlocks label s) where
  pending := rfl
  phase := rfl
  settings := rfl
  clock := rfl
  peers := rfl
  steering := by rw [gradeAfterReset_of_config config]; rfl
  configuration := ⟨rfl, rfl, rfl⟩
  link := rfl
  reference := fun present => refWarmReset_of_present present _
  noReference := fun absent => if_pos absent
  stamps := by rw [gradeAfterReset_of_config config, decide_eq_false (not_not.mpr rfl), Bool.or_false]; rfl
  engine := rfl
  evidence := ⟨rfl, rfl, rfl, fun _ => rfl⟩
  exchanges := fun run => nomatch run.symm.trans config
  others := fun _ _ _ _ => ⟨rfl, .inl rfl⟩
  config := fun _ => ⟨rfl, rfl, rfl, rfl, rfl, rfl⟩
  flags := fun run => nomatch run.symm.trans config
  ownFlags := fun run => nomatch run.symm.trans config
  records := fun run => nomatch run.symm.trans config

theorem voidExchanging_links (s : State) : LinksFrom s (voidExchanging s) :=
  voidExchanging_induct (P := LinksFrom s) (fun _ => .inl rfl) fun i r _ links _ => links.voidOne i r

/-- The stages of a warm reset in RUN: the blocks, RESET and REFERENCE, the exchanges voided, the demotion. -/
structure WarmStages (cause : ResetCause) (label : Bool) (s u v t : State) : Prop where
  recorded : u = resetRecorded (resetBody cause s) s.ref.state (warmBlocks label s)
  voided : v = voidExchanging u
  demoted : Demoted s.ref.state v t

section
variable {cause : ResetCause} {label : Bool} {s u v t : State} (stages : WarmStages cause label s u v t)
include stages

theorem WarmStages.entries : u.entries = s.entries ∧ t.entries = v.entries := by
  obtain ⟨rfl, -, demoted⟩ := stages
  obtain ⟨entries, -, -⟩ := demoted.kept
  exact ⟨(resetRecorded_keeps _ _ _).1, entries⟩

theorem WarmStages.progress : VoidProgress u v ∧ LinksFrom u v := by
  rw [stages.voided]
  exact ⟨voidExchanging_progress u, voidExchanging_links u⟩

theorem WarmStages.handed : Handed (warmBlocks label s) u ∧ Handed u v ∧ Handed v t := by
  have progress := stages.progress.1
  obtain ⟨rfl, -, demoted⟩ := stages
  exact ⟨resetRecorded_handed _ _ _, progress.handed, demoted.handed⟩

theorem WarmStages.all_handed : Handed (warmBlocks label s) t := by
  obtain ⟨first, second, third⟩ := stages.handed
  exact first.trans (second.trans third)

theorem WarmStages.blocks : u.steer = s.steer ∧ v.steer = s.steer ∧ v.stamp = stampWarmReset s.stamp
    ∧ v.ref = refWarmReset (label && decide (s.phase = .run)) s.ref := by
  obtain ⟨-, -, ref, steer, stamp⟩ := resetRecorded_keeps (resetBody cause s) s.ref.state (warmBlocks label s)
  rw [← stages.recorded] at ref steer stamp
  rw [stages.voided]
  simp only [voidExchanging_keeps]
  exact ⟨steer, steer, stamp, ref⟩

theorem WarmStages.link : t.link = linkWarmReset s.link := by
  obtain ⟨-, link, -⟩ := stages.demoted.kept
  have emptied : u.link = linkWarmReset s.link := by rw [stages.recorded]; exact (resetRecorded_keeps _ _ _).2.1
  rw [link, stages.voided, voidExchanging_link (by rw [emptied]; rfl) (by rw [emptied]; rfl) (by rw [emptied]; rfl), emptied]

theorem WarmStages.engine : t.engine = engineWarmReset s.engine := by
  have stopped : u.engine = engineWarmReset s.engine := by rw [stages.recorded]; exact resetRecorded_engine _ _ _ nofun
  have awake : u.engine.state ≠ .waiting := by rw [stopped]; exact nofun
  have still : v.engine = u.engine := by rw [stages.voided]; exact voidExchanging_engine awake
  rw [stages.demoted.engine (by rw [still]; exact awake), still, stopped]

/-- An entry that was exchanging is VOID, with reason RESET where no entry voided links to it (R136). -/
theorem WarmStages.exchanges {i : Fin 32} (exchanging : s.entries[i].state.exchanging = true) : t.entries[i].state = .void
    ∧ ((∀ j : Fin 32, s.entries[j].link = some i → t.entries[j].state ≠ .void) → t.entries[i].reason = some .reset) := by
  obtain ⟨before, after⟩ := stages.entries
  have void : v.entries[i].state = .void := by
    rw [stages.voided]
    exact voidExchanging_void (by rw [before]; exact exchanging)
  rw [after]
  refine ⟨void, fun apart => ?_⟩
  obtain same | ⟨-, reset | ⟨j, link, linker⟩, -⟩ := stages.progress.1.entries i
  · rw [same, before] at void
    rw [void] at exchanging
    exact nomatch exchanging
  · exact reset
  · rw [before] at link
    exact absurd linker (apart j link)

/-- Any other entry that no entry voided links to keeps all but its link (R122, R136). -/
theorem WarmStages.others {i : Fin 32} (idle : s.entries[i].state.exchanging = false)
    (apart : ∀ j : Fin 32, s.entries[j].link = some i → t.entries[j].state ≠ .void) :
    t.entries[i] = { s.entries[i] with link := t.entries[i].link }
    ∧ (t.entries[i].link = s.entries[i].link ∨ t.entries[i].link = none) := by
  obtain ⟨before, after⟩ := stages.entries
  obtain ⟨progress, links⟩ := stages.progress
  have link := links i
  rw [before] at link
  rw [after] at apart ⊢
  refine ⟨?_, link⟩
  obtain same | ⟨-, -, exchanging | ⟨j, link, linker⟩⟩ := progress.entries i
  · rw [before] at same
    exact same
  · rw [before, idle] at exchanging
    exact nomatch exchanging
  · rw [before] at link
    exact absurd linker (apart j link)

/-- The flags after a warm reset, one by one (R182). -/
theorem WarmStages.flags {n : Notice} (notLoss : n ≠ .evidenceLoss) : flagSet n t = true →
    (n = .reference ∧ s.ref.state.tracking = true) ∨ (n = .auctionVoid ∧ ∃ i : Fin 32, s.entries[i].state.exchanging = true)
      ∨ (n = .grade ∧ t.steer.grade ≠ s.steer.grade) := by
  intro set
  obtain ⟨-, steer, -, -⟩ := stages.blocks
  have progress := stages.progress.1
  have first (notReference : n ≠ .reference) : flagSet n u = false := by
    rw [stages.recorded, resetRecorded_flag _ _ _ notReference notLoss, warmBlocks_flag]
  by_cases isGrade : n = .grade
  · subst isGrade
    rw [stages.demoted.notice, progress.flags .grade nofun nofun, first nofun, Bool.false_or, decide_eq_true_iff, steer] at set
    exact .inr (.inr ⟨rfl, set⟩)
  rw [stages.demoted.flags n isGrade notLoss] at set
  by_cases isVoid : n = .auctionVoid
  · subst isVoid
    refine .inr (.inl ⟨rfl, ?_⟩)
    by_contra none
    have idle (i : Fin 32) : u.entries[i].state.exchanging = false := by
      rw [stages.entries.1, ← Bool.not_eq_true]
      exact fun exchanging => none ⟨i, exchanging⟩
    rw [stages.voided, voidExchanging_of_none idle, first nofun] at set
    exact nomatch set
  rw [progress.flags n isVoid notLoss] at set
  by_cases isReference : n = .reference
  · subst isReference
    rw [stages.recorded, resetRecorded_reference, warmBlocks_flag, Bool.or_false] at set
    exact .inl ⟨rfl, set⟩
  · exact nomatch (first isReference).symm.trans set

/-- The flags that the reset's own records set (R182). -/
theorem WarmStages.ownFlags : (s.ref.state.tracking = true → flagSet .reference t = true)
    ∧ ((∃ i : Fin 32, s.entries[i].state.exchanging = true) → flagSet .auctionVoid t = true)
    ∧ (t.steer.grade ≠ s.steer.grade → flagSet .grade t = true) := by
  obtain ⟨-, steer, -, -⟩ := stages.blocks
  have progress := stages.progress.1
  refine ⟨fun tracking => ?_, fun ⟨i, exchanging⟩ => ?_, fun changed => ?_⟩
  · rw [stages.demoted.flags .reference nofun nofun, progress.flags .reference nofun nofun, stages.recorded,
      resetRecorded_reference, tracking, Bool.true_or]
  · rw [stages.demoted.flags .auctionVoid nofun nofun]
    have before := stages.entries.1
    refine progress.notice i (fun void => ?_) ?_
    · rw [before] at void
      rw [void] at exchanging
      exact nomatch exchanging
    · rw [stages.voided]
      exact voidExchanging_void (by rw [before]; exact exchanging)
  · rw [stages.demoted.notice, steer, decide_eq_true changed, Bool.or_true]

/-- The records of a warm reset, where all of them found room (R152). -/
theorem WarmStages.records (small : t.evid.queue.length < 496) : ∃ added,
    t.evid.queue = s.evid.queue ++ added ∧ ResetRecords cause s t added := by
  obtain ⟨-, second, third⟩ := stages.handed
  obtain ⟨before, after⟩ := stages.entries
  obtain ⟨-, steer, -, ref⟩ := stages.blocks
  have smallV := lt_of_le_of_lt third.grows.length small
  have smallU := lt_of_le_of_lt second.grows.length smallV
  obtain ⟨refs, queueU, isRefs⟩ := resetRecorded_records (resetBody cause s) s.ref.state (warmBlocks label s)
    (by rw [← stages.recorded]; exact smallU)
  rw [← stages.recorded] at queueU
  obtain ⟨voids, queueV, each, all⟩ := stages.progress.1.records smallV
  obtain ⟨grades, queueT, noGrade, aGrade⟩ := stages.demoted.records small
  rw [steer] at noGrade aGrade
  refine ⟨makeRecord (.reset (resetBody cause s)) (warmBlocks label s) :: (refs ++ voids ++ grades), ?_,
    ⟨_, refs, voids, grades, rfl, rfl, rfl, rfl, ?_, fun x mem => ?_, fun i exchanging => ?_, noGrade, fun changed => ?_⟩⟩
  · rw [queueT, queueV, queueU]
    simp [warmBlocks]
  · rw [isRefs]
    by_cases tracking : s.ref.state.tracking = true
    · have present : s.ref.state ≠ .absent := fun absent => by
        rw [absent] at tracking
        exact nomatch tracking
      have seeking : (warmBlocks label s).ref = refWarmReset (label && decide (s.phase = .run)) s.ref := rfl
      rw [if_pos tracking, if_pos ((tracking_iff _).mp tracking), seeking, refWarmReset_of_present present]
      rfl
    · rw [if_neg tracking, if_neg (mt (tracking_iff _).mpr tracking)]
  · obtain ⟨b, body, void, reason⟩ := each x mem
    rw [← after] at void
    exact ⟨b, body, void, reason⟩
  · have now : s.entries[i].state.exchanging = true := (exchanging_iff _).mpr exchanging
    refine all i (fun void => ?_) ?_
    · rw [before] at void
      rw [void] at now
      exact nomatch now
    · rw [← after]
      exact (stages.exchanges now).1
  · obtain ⟨valid, x, b, isOne, body, old, new, isCause, bound, isRef⟩ := aGrade changed
    refine ⟨x, b, isOne, body, old, new, isCause, bound, isRef.trans ?_⟩
    rw [ref, refWarmReset_of_present (by rw [valid]; exact nofun)]

end

theorem takeWarmReset_stages {s : State} (run : s.phase = .run) (cause : ResetCause) (label : Bool) :
    ∃ u v, WarmStages cause label s u v (takeWarmReset cause label s) := by
  refine ⟨_, _, rfl, rfl, ?_⟩
  rw [takeWarmReset_of_run run, warmRecords_eq]
  exact demotion_demoted _ _

/-- A warm reset in RUN (R182). -/
theorem takeWarmReset_taken_of_run {s : State} (run : s.phase = .run) (cause : ResetCause) (label : Bool) :
    WarmResetTaken cause label s (takeWarmReset cause label s) := by
  obtain ⟨u, v, stages⟩ := takeWarmReset_stages run cause label
  have fence : (takeWarmReset cause label s).evid.fence = none := by
    rw [takeWarmReset_of_run run]
    simp [warmBlocks]
  have ref : (takeWarmReset cause label s).ref = refWarmReset (label && decide (s.phase = .run)) s.ref := by
    rw [takeWarmReset_of_run run]
    simp [warmBlocks]
  have grade : (takeWarmReset cause label s).steer.grade = gradeAfterReset s := by
    rw [takeWarmReset_of_run run, warmRecords_grade, gradeAfterReset_of_run run]
    rfl
  obtain ⟨-, steer, stamp, -⟩ := stages.blocks
  have idle {i : Fin 32} (notDrawing : s.entries[i].state ≠ .drawing) (notTallying : s.entries[i].state ≠ .tallying) :
      s.entries[i].state.exchanging = false := by
    rw [← Bool.not_eq_true, exchanging_iff]
    exact not_or.mpr ⟨notDrawing, notTallying⟩
  have handed := stages.all_handed
  refine {
    pending := by simp
    phase := by simp
    settings := by simp
    clock := by simp
    peers := by simp
    steering := ?steering
    configuration := by simp
    link := stages.link
    reference := fun present => ref.trans (refWarmReset_of_present present _)
    noReference := fun absent => ref.trans (if_pos absent)
    stamps := ?stamps
    engine := stages.engine
    evidence := ⟨fence, by simp, handed.range, fun small => (handed.losses small).1⟩
    exchanges := fun _ i exchanging => stages.exchanges ((exchanging_iff _).mpr exchanging)
    others := fun i notDrawing notTallying apart => stages.others (idle notDrawing notTallying) apart
    config := fun config => nomatch run.symm.trans config
    flags := fun _ n set => ?flags
    ownFlags := ?ownFlags
    records := fun _ => ?records }
  case steering =>
    rw [stages.demoted.steer, steer, grade]
  case stamps =>
    rw [stages.demoted.stamp, steer, stamp, grade]
    rfl
  case flags =>
    by_cases loss : n = .evidenceLoss
    · subst loss
      by_cases small : (takeWarmReset cause label s).evid.queue.length < 496
      · rw [(handed.losses small).2, warmBlocks_flag] at set
        exact nomatch set
      · exact .inr (.inr (.inr ⟨rfl, not_lt.mp small⟩))
    · obtain ⟨isReference, tracking⟩ | ⟨isVoid, i, exchanging⟩ | isGrade := stages.flags loss set
      · exact .inl ⟨isReference, (tracking_iff _).mp tracking⟩
      · exact .inr (.inl ⟨isVoid, i, (exchanging_iff _).mp exchanging⟩)
      · exact .inr (.inr (.inl isGrade))
  case ownFlags =>
    obtain ⟨reference, void, changed⟩ := stages.ownFlags
    exact fun _ => ⟨fun left => reference ((tracking_iff _).mpr left),
      fun ⟨i, exchanging⟩ => void ⟨i, (exchanging_iff _).mpr exchanging⟩, changed⟩
  case records =>
    obtain ⟨added, later⟩ := handed.grows.keepsQueue
    refine ⟨added, later.symm, fun room => ?_, fun small => ?_⟩
    · obtain ⟨first, grows⟩ := resetRecorded_first (resetBody cause s) s.ref.state (warmBlocks label s) room
      rw [← stages.recorded] at grows
      obtain ⟨-, second, third⟩ := stages.handed
      obtain ⟨more, rest⟩ := (grows.trans (second.grows.trans third.grows)).keepsQueue
      rw [first, ← later, List.append_assoc] at rest
      exact ⟨_, more, (List.append_cancel_left rest).symm, rfl, rfl, rfl⟩
    · obtain ⟨made, queue, records⟩ := stages.records small
      rw [← later] at queue
      rwa [List.append_cancel_left queue]

theorem takeWarmReset_taken (cause : ResetCause) (label : Bool) (s : State) :
    WarmResetTaken cause label s (takeWarmReset cause label s) := by
  cases phase : s.phase with
  | config =>
    rw [takeWarmReset_of_config phase]
    exact warmBlocks_taken phase cause label
  | run => exact takeWarmReset_taken_of_run phase cause label

/-! ### The write that a reset cuts short (R167; log 27) -/

theorem strayWrite_eq (took : Bool) (s : State) : strayWrite took s = { s with card := (strayWrite took s).card } := by
  have written (a : Nat) (bs : Bytes) : writeCard a bs false s = { s with card := (writeCard a bs false s).card } := by
    rw [writeCard_answered]
  unfold strayWrite
  split
  · split
    · split
      · exact written _ _
      · exact written _ _
      · rfl
      · exact written _ _
      · exact written _ _
      · rfl
    · rfl
  · rfl

/-- Card memory and the transaction have no part in what a warm reset leaves. -/
theorem warmResetState_taken (cause : ResetCause) (label took : Bool) (x : Transaction) (s : State) :
    WarmResetTaken cause label s (warmResetState cause label took x s)
      ∧ (warmResetState cause label took x s).port.transaction = x
      ∧ (warmResetState cause label took x s).card = (strayWrite took s).card := by
  unfold warmResetState
  refine ⟨?_, by simp, by simp⟩
  rw [strayWrite_eq]
  generalize (strayWrite took s).card = m
  have taken := takeWarmReset_taken cause label { s with card := m, port.transaction := x }
  exact { taken with
    records := fun run => by
      obtain ⟨added, queue, first, all⟩ := taken.records run
      exact ⟨added, queue, first, fun small => ⟨(all small).shape⟩⟩ }

/-- The write that was under way, where card memory took it. -/
theorem strayWrite_spelled (took : Bool) (s : State) :
    let m := (strayWrite took s).card
    let writing := s.engine.state = .running ∨ s.engine.state = .stopping
    (took = false ∨ ¬ writing ∨ s.engine.copy = none → m = s.card)
    ∧ ∀ d, took = true → writing → s.engine.copy = some d →
      (∀ r rest, s.engine.transfer = none → s.evid.queue = r :: rest → m = cardWrite s.card d.current r.bytes)
      ∧ ∀ i, s.engine.index = some i →
        (s.engine.transfer = some .done → m = cardWrite s.card (s.cfg.tableBase + 32 * i) (d.bytes .spent .done))
        ∧ (s.engine.transfer = some .stop → m = cardWrite s.card (s.cfg.tableBase + 32 * i) (d.bytes .armed .stopped))
        ∧ (s.engine.transfer = some .read → m = s.card)
        ∧ (∀ bs st, s.engine.transfer = some (.faulted bs st) → m = cardWrite s.card (s.cfg.tableBase + 32 * i) bs) := by
  intro m writing
  have writingIff : s.engine.state.writing = true ↔ writing := by
    constructor
    · intro working
      cases state : s.engine.state <;> rw [state] at working
      case running => exact .inl state
      case stopping => exact .inr state
      all_goals exact nomatch working
    · exact writing_of
  refine ⟨fun away => ?_, fun d taken working copy => ?_⟩
  · have still : strayWrite took s = s := by
      unfold strayWrite
      split
      · next d copy =>
        refine if_neg fun both => ?_
        obtain ⟨took', working⟩ := Bool.and_eq_true_iff.mp both
        obtain untaken | idle | none := away
        · exact nomatch untaken.symm.trans took'
        · exact idle (writingIff.mp working)
        · exact nomatch none.symm.trans copy
      · rfl
    exact congrArg State.card still
  · have both : (took && s.engine.state.writing) = true := Bool.and_eq_true_iff.mpr ⟨taken, writingIff.mpr working⟩
    refine ⟨fun r rest record queue => ?_, fun i index => ⟨fun transfer => ?_, fun transfer => ?_, fun transfer => ?_,
      fun bs st transfer => ?_⟩⟩
    · simp only [m, strayWrite, copy, both, record, queue, writeCard_answered, if_true]
    · simp only [m, strayWrite, copy, both, transfer, index, descriptorAddress, Option.getD_some, writeCard_answered, if_true]
    · simp only [m, strayWrite, copy, both, transfer, index, descriptorAddress, Option.getD_some, writeCard_answered, if_true]
    · simp only [m, strayWrite, copy, both, transfer, if_true]
    · simp only [m, strayWrite, copy, both, transfer, index, descriptorAddress, Option.getD_some, writeCard_answered, if_true]

/-! ### The four resets as commands -/

theorem exec_release_of_ordered {took label : Bool} {s : State} (ordered : s.port.transaction.resetOrdered = true) :
    exec (.chipSelectRelease ⟨took, label⟩) s = .next (warmResetState .command label took .absent s) := if_pos ordered

theorem exec_release_of_plain {took label : Bool} {s : State} (plain : s.port.transaction.resetOrdered = false) :
    exec (.chipSelectRelease ⟨took, label⟩) s = .next { s with port := { s.port with transaction := .absent } } :=
  if_neg (by rw [plain]; exact nofun)

theorem exec_resetLine (selected took label : Bool) (s : State) : exec (.resetLineEdge selected ⟨took, label⟩) s
    = .next (warmResetState .line label took (abandonTransaction selected s.port.transaction) s) := rfl

theorem exec_powerOn (e r took : Bool) (s : State) : exec (.powerOnReset e r took) s = .next (powerOnState e r took s) := rfl

/-- Settles O18. -/
theorem resetsAreTaken : Obligations.ResetsAreTaken := by
  refine ⟨fun s absent => ?_, fun took label r s => ⟨fun plain => exec_release_of_plain ?_, fun ordered => ?_⟩,
    fun selected took label ordered r s => ?_, fun e r took s => ?_, strayWrite_spelled⟩
  · exact congrArg Host.Outcome.next (onCommand_of_fits absent rfl)
  · obtain executed | abandoned | absent := plain
    · rw [executed]; rfl
    · rw [abandoned]; rfl
    · rw [absent]; rfl
  · have carried : s.port.transaction.resetOrdered = true := by
      obtain executed | abandoned := ordered
      · rw [executed]; rfl
      · rw [abandoned]; rfl
    obtain ⟨taken, transaction, card⟩ := warmResetState_taken .command label took .absent s
    exact ⟨_, exec_release_of_ordered carried, taken, transaction, card⟩
  · obtain ⟨taken, transaction, card⟩ :=
      warmResetState_taken .line label took (abandonTransaction selected s.port.transaction) s
    refine ⟨_, exec_resetLine selected took label s, taken, fun open_ => transaction.trans ?_, fun absent => transaction.trans ?_, card⟩
    · obtain executed | abandoned := open_
      · rw [executed]; rfl
      · rw [abandoned]; rfl
    · rw [absent]; rfl
  · rw [exec_powerOn, powerOnState]
    generalize (strayWrite took s).card = m
    rfl

end Sys2Proof.Machine
end
